-- ==== Sys2Proof/Word.lean ====
section
/-! DEFINITION. The machine's plain bit types (R3 to R5). Bit 0 is the least significant bit of
every value (R3); multi-byte values in memory are little-endian (R4). -/

namespace Sys2Proof

/-- One byte of memory. -/
abbrev Byte := BitVec 8

/-- A 32-bit register value. -/
abbrev Word := BitVec 32

/-- A 64-bit value: a register pair (R5), a generic address, a mask. -/
abbrev DWord := BitVec 64

/-- One bit per lane of a group, lane L at bit L. -/
abbrev LaneMask := BitVec 64

/-- A sparse table: keys strictly rising, no entry equal to the table's default value. Its
operations are in `Sys2Proof/Machine/Sparse.lean`. -/
abbrev Sparse (α : Type) := List (Nat × α)

end Sys2Proof
end

