-- ==== Sys2Proof/Syntax.lean ====
section
/-! DEFINITION. The instructions: one constructor of `Instr` per row of spec/opcode_table.json.
Rows of groups 0x0 to 0xE (R178) are words of a program; the remaining rows are the part's other
indivisible steps (spec/95_what_each_step_holds.md) and carry what arrives from outside or which
unit moves. -/

namespace Sys2Proof

/-- Special registers by name; numbers in R166. -/
inductive SReg where
  | lane | quad | plane
  | group | wg | wgdim | launch | splits | helper | part | ctx | gang
  | clock | tick | pouch | stacklim
  | fpx
deriving DecidableEq, Repr, Inhabited

/-- A 12-bit operand field (R164). -/
inductive Operand where
  /-- class 000 -/
  | v (n : BitVec 8)
  /-- class 001 -/
  | s (n : BitVec 7)
  /-- class 010; 15 is PT -/
  | p (n : BitVec 4)
  /-- class 011 -/
  | t (n : BitVec 5) (half : Bool)
  /-- class 100 -/
  | sr (r : SReg)
  /-- class 101, already widened to the 20-bit value of R171 and R184 -/
  | imm (x : BitVec 20)
  /-- class 111 -/
  | none
deriving DecidableEq, Repr, Inhabited

/-- The guard field (R168): predicate `p` (15 is PT), negated when `neg`. -/
structure Guard where
  neg : Bool
  p : BitVec 4
deriving DecidableEq, Repr, Inhabited

/-- The hint field H (R173). Bit i-1 of `wait` names Fi. -/
structure Hints where
  wait : BitVec 12
  set1 : BitVec 4
  set2 : BitVec 4
  y : Bool
  pc : Bool
  land : Bool
  re : Bool
deriving DecidableEq, Repr, Inhabited

/-- What every word but NOP and MOVI's A and B has: guard, operand fields, hints (R162). -/
structure Op where
  guard : Guard
  d : Operand
  a : Operand
  b : Operand
  hints : Hints
deriving DecidableEq, Repr, Inhabited

/-- TYPE codes 0 to 12 (R170). -/
inductive Ty where
  | i32 | n32 | i64 | n64 | i8 | i16 | n8 | n16 | f32 | h | bf | t8 | t6
deriving DecidableEq, Repr, Inhabited

/-- Rounding modes (R170). -/
inductive Rnd where
  | rn | rz | rd | ru
deriving DecidableEq, Repr, Inhabited

/-- Comparison codes (R170, R209). -/
inductive Cmp where
  | eq | ne | lt | le | gt | ge | num | nan
deriving DecidableEq, Repr, Inhabited

/-- Access widths (R170). -/
inductive Width where
  | b8 | b16 | b32 | b64 | b128
deriving DecidableEq, Repr, Inhabited

/-- The width of a load: an access width, or `.i8` and `.i16` for sign extension (R236). -/
inductive LoadW where
  | plain (w : Width) | i8 | i16
deriving DecidableEq, Repr, Inhabited

/-- Ordering codes (R170). -/
inductive Ord where
  | rlx | acq | rel | ar
deriving DecidableEq, Repr, Inhabited

/-- Scopes, narrowest first (R16, R172). -/
inductive Scope where
  | lane | grp | wg | cl | die | dev | sys
deriving DecidableEq, Repr, Inhabited

/-- QSWAP directions (R219). -/
inductive QDir where
  | x | y | xy
deriving DecidableEq, Repr, Inhabited

/-- SHFL modes (R219). -/
inductive ShflMode where
  | idx | up | down | xor
deriving DecidableEq, Repr, Inhabited

/-- VOTE kinds (R219). -/
inductive VoteKind where
  | all | any | eq
deriving DecidableEq, Repr, Inhabited

/-- REDGRP operations (R219). -/
inductive RedOp where
  | add | min | max | minix | maxix | and | or | xor
deriving DecidableEq, Repr, Inhabited

/-- SCANGRP, ATOMF and COLL operations: `.add` (`.sum`), `.min`, `.max` (R219, R247, R253). -/
inductive AddMinMax where
  | add | min | max
deriving DecidableEq, Repr, Inhabited

/-- ATOM operations (R247). -/
inductive AtomOp where
  | add | min | max | and | or | xor | exch
deriving DecidableEq, Repr, Inhabited

/-- A structure of R423 whose error an event reports; R427 gives each its counter. -/
inductive Structure where
  | hbm | secondTier | l2 | scratchpad | l1Shared | regFile | accum | stackCache | links | iodSram
deriving DecidableEq, Repr, Inhabited

/-- Where an uncorrectable error strikes (R423). -/
inductive ErrorSite where
  /-- HBM or second tier: the device physical address of the sector -/
  | memory (addr : Nat)
  /-- L2 or die scratchpad: the device physical address of the sector -/
  | cached (addr : Nat)
  /-- shared memory: workgroup and offset of the sector -/
  | shared (wg offset : Nat)
  /-- an L1 copy: core and place of the sector as the phase cache numbers places -/
  | l1 (core place : Nat)
  /-- a V register of a group, read in one lane -/
  | vreg (group reg lane : Nat)
  /-- an S register of a group -/
  | sreg (group reg : Nat)
  /-- an accumulator row: partition, context, tile, row -/
  | row (part ctx tile row : Nat)
  /-- A row i as the array captured it (errA of R156) -/
  | arrayA (part row : Nat)
  /-- B, the gang crossbar or the array (errB of R156) -/
  | arrayB (part : Nat)
  /-- the array's computation of row i (errArr of R156) -/
  | arrayRow (part row : Nat)
  /-- the page-table entry of a context that a walk of a virtual address meets at a level 0 to 3, and the device
  physical address of its sector -/
  | pte (ctx va level addr : Nat)
  /-- a stack-cache or instruction-buffer sector: group, lane and stack byte -/
  | stack (group lane offset : Nat)
  /-- IOD SRAM, the service and debug cores among it -/
  | iodSram
deriving DecidableEq, Repr, Inhabited

/-- The flash areas of R393. -/
inductive FlashArea where
  | cfg0 | cfg1 | fw0 | fw1 | helper | cert
deriving DecidableEq, Repr, Inhabited

/-- Completion statuses of PCI Express requests. -/
inductive CplStatus where
  | successful | unsupported | retry | abort
deriving DecidableEq, Repr, Inhabited

/-- A completion the outside world returns for a device request (R358), with the data it carries for a
read of a peer register. -/
structure Completion where
  status : CplStatus
  data : List Byte
deriving DecidableEq, Repr, Inhabited

/-- What an incoming Hevis Link request asks for (R127, R252). -/
inductive HevisOp where
  | write (data : List Byte)
  | rmw (op : AtomOp) (t : Ty) (value : DWord)
  | rmwf (op : AddMinMax) (t : Ty) (value : Word)
  | cas (wide : Bool) (cmp value : DWord)
  | read (n : Nat)
deriving DecidableEq, Repr, Inhabited

/-- A feature the port does not offer (R345). -/
inductive AbsentFeature where
  | virtualFunction | intx | msi | ats | pri | pasid | tdisp | atomicCompleter
deriving DecidableEq, Repr, Inhabited

/-- What a request of the host carries, and whether it came on an IDE stream (R360). -/
structure Streamed (α : Type) where
  val : α
  ide : Bool
deriving DecidableEq, Repr

/-- One instruction, or one other step of the part. -/
inductive Instr where
  -- group 0x0
  | nop (h : Hints)
  | bra (o : Op)
  | brx (o : Op)
  | call (o : Op)
  | callx (o : Op)
  | ret (o : Op)
  | exit (o : Op)
  | yield (o : Op)
  | pset (o : Op)
  | pseti (o : Op)
  | pget (o : Op)
  -- group 0x1
  | iadd (o : Op) (t : Ty) (sat : Bool)
  | isub (o : Op) (t : Ty) (sat : Bool)
  | imul (o : Op) (t : Ty)
  | imulh (o : Op) (t : Ty)
  | imad (o : Op) (t : Ty)
  | imin (o : Op) (t : Ty)
  | imax (o : Op) (t : Ty)
  | iabs (o : Op) (t : Ty)
  | ineg (o : Op) (t : Ty)
  | lea (o : Op) (k : BitVec 5)
  | iset (o : Op) (t : Ty) (c : Cmp)
  -- group 0x2
  | and (o : Op)
  | or (o : Op)
  | xor (o : Op)
  | not (o : Op)
  | tribit (o : Op) (tbl : BitVec 8)
  | shl (o : Op)
  | shr (o : Op)
  | sar (o : Op)
  | rotl (o : Op)
  | popc (o : Op)
  | clz (o : Op)
  | brev (o : Op)
  | bfe (o : Op) (t : Ty)
  | bfi (o : Op)
  | bysel (o : Op)
  -- group 0x3
  | mov (o : Op) (wide : Bool)
  | movi (o : Op) (value : Word)
  | sel (o : Op) (k : BitVec 4)
  | plop (o : Op) (tbl : BitVec 4)
  | p2v (o : Op)
  | v2p (o : Op)
  | srd (o : Op)
  | swr (o : Op)
  | bcast (o : Op)
  | laneget (o : Op)
  -- group 0x4
  | fadd (o : Op) (r : Rnd) (ftz sat : Bool)
  | fsub (o : Op) (r : Rnd) (ftz sat : Bool)
  | fmul (o : Op) (r : Rnd) (ftz sat : Bool)
  | ffma (o : Op) (r : Rnd) (ftz sat : Bool)
  | fmin (o : Op) (ftz : Bool)
  | fmax (o : Op) (ftz : Bool)
  | fset (o : Op) (c : Cmp) (ftz : Bool)
  | fclass (o : Op) (ftz : Bool)
  | frnd (o : Op) (r : Rnd) (ftz : Bool)
  -- group 0x5
  | hadd2 (o : Op) (t : Ty) (r : Rnd) (ftz sat : Bool)
  | hmul2 (o : Op) (t : Ty) (r : Rnd) (ftz sat : Bool)
  | hfma2 (o : Op) (t : Ty) (r : Rnd) (ftz sat : Bool)
  | hmin2 (o : Op) (t : Ty) (ftz : Bool)
  | hmax2 (o : Op) (t : Ty) (ftz : Bool)
  | hset2 (o : Op) (t : Ty) (c : Cmp) (ftz : Bool)
  -- group 0x6
  | cvt (o : Op) (dst src : Ty) (r : Rnd) (ftz sat : Bool)
  | tpack (o : Op) (t : Ty)
  | tunpk (o : Op) (t : Ty)
  -- group 0x7
  | rcp (o : Op) (ftz : Bool)
  | rsq (o : Op) (ftz : Bool)
  | sqrt (o : Op) (ftz : Bool)
  | log2 (o : Op) (ftz : Bool)
  | exp2 (o : Op) (ftz : Bool)
  | sinpi (o : Op) (ftz : Bool)
  | cospi (o : Op) (ftz : Bool)
  | tanh (o : Op) (ftz : Bool)
  -- group 0x8
  | qswap (o : Op) (dir : QDir)
  | qbcast (o : Op)
  | shfl (o : Op) (m : ShflMode)
  | vote (o : Op) (k : VoteKind)
  | ballot (o : Op)
  | redgrp (o : Op) (op : RedOp) (t : Ty)
  | scangrp (o : Op) (op : AddMinMax) (exc : Bool) (t : Ty)
  | matchLanes (o : Op)
  -- group 0x9
  | ld (o : Op) (w : LoadW)
  | st (o : Op) (w : Width)
  | ldnr (o : Op) (w : LoadW) (k : BitVec 4)
  | lds (o : Op) (w : Width) (ord : Ord) (sc : Scope)
  | sts (o : Op) (w : Width) (ord : Ord) (sc : Scope)
  | pref (o : Op)
  | tld (o : Op) (w : Width)
  | tst (o : Op) (w : Width)
  -- group 0xA
  | atom (o : Op) (op : AtomOp) (t : Ty) (ord : Ord) (sc : Scope) (e : BitVec 8)
  | atomcas (o : Op) (wide : Bool) (ord : Ord) (sc : Scope) (e : BitVec 8)
  | atomf (o : Op) (op : AddMinMax) (t : Ty) (ord : Ord) (sc : Scope) (e : BitVec 8)
  -- group 0xB
  | fence (o : Op) (ord : Ord) (sc : Scope)
  | phase (o : Op)
  | barinit (o : Op) (sc : Scope)
  | bararr (o : Op) (sc : Scope)
  | bardrop (o : Op) (sc : Scope)
  | barexp (o : Op) (sc : Scope)
  | wait (o : Op) (all : Bool)
  | batch (o : Op)
  | htest (o : Op)
  | cancel (o : Op)
  -- group 0xC
  | enq (o : Op)
  | deq (o : Op)
  | copy (o : Op) (bar : Option (BitVec 7))
  | copyt (o : Op) (bar : Option (BitVec 7))
  | gather (o : Op) (bar : Option (BitVec 7))
  | scatter (o : Op) (bar : Option (BitVec 7))
  | coll (o : Op) (op : AddMinMax) (t : Ty)
  -- group 0xD
  | gang (o : Op)
  | mma (o : Op) (w16 : Bool) (fmt : BitVec 7)
  | mzero (o : Op) (w16 : Bool)
  | mldt (o : Op) (w16 : Bool)
  | msto (o : Op) (w16 : Bool)
  | msta (o : Op) (w16 : Bool) (fmt : BitVec 7)
  | mmov (o : Op) (w16 : Bool)
  | mpois (o : Op)
  -- group 0xE
  | syscall (o : Op)
  | trap (o : Op)
  | tret (o : Op)
  | setperf (o : Op)
  | edit (o : Op) (f : Bool)
  | notify (o : Op)
  | brk (o : Op)
  | dbgmark (o : Op)
  | tokrd (o : Op)
  /-- a word whose OP is not assigned (R180) -/
  | unassignedOpcode (op : BitVec 10)
  -- steps of the execution units
  | workgroupResume (wg : Nat)
  | longLatencyResult (group idx : Nat)
  | gangArrayStart (part : Nat)
  | mmaComplete (part : Nat)
  | tileSlotExchange (part ctx tile : Nat)
  | reservationRequest (cluster : Nat)
  | reelHop
  | marketClearing
  | operatingPointChange (cluster : Nat)
  | waitWake (group slot : Nat)
  | waitTimeout (group slot : Nat)
  | monitorHostPoll (group slot cond : Nat) (lost : Bool)
  | barrierBankUpdate (bank addr count : Nat)
  | engineRequest (cmd req : Nat)
  | enginePageResume (cmd : Nat)
  | batchComplete (batch : Nat)
  | mstaApply (cmd : Nat)
  | collArrival (cmd : Nat)
  | collCombine (coll : Nat)
  | l1Evict (core addr : Nat)
  | stackCacheSpill (core : Nat)
  | tileDrain (part : Nat)
  -- steps of the links and the port
  | hevisRequestArrival (src tag addr : Nat) (op : HevisOp)
  | hevisAck (tag : Nat)
  | hevisRetry (tag : Nat)
  | cplTimeout (tag : Nat)
  | pcieCompletion (tag : Nat) (c : Completion)
  | editWindowDmwr (page offset : Nat) (data : List Byte) (poisoned ide : Bool)
  | editDecision
  | hostWriteDiscard (bar : Nat) (offset : Streamed Nat)
  | registerWrite (offset : Nat) (value : Streamed DWord)
  | bar4Access (addr len : Nat) (write : Option (List Byte)) (ide : Bool)
  | msixUnmask (vector : Streamed Nat) (function : Bool)
  | configRequest
  | unsupportedRequest (f : AbsentFeature) (posted : Streamed Bool)
  -- SPDM and IDE
  | getVersion
  | getCapabilities
  | negotiateAlgorithms (sigOk hashOk : Bool)
  | getDigests
  | getCertificate (slot : Nat)
  | challenge (nonce : List Byte)
  | getMeasurements (signed : Bool) (index : Nat) (nonce : List Byte)
  | keyExchange (nonce : List Byte)
  | finish
  | ideKm (stream : Nat) (key : List Byte)
  -- notices, the Blocker and the service core
  | recordEvent (idx : Nat)
  | blockerStep
  | workClusterPlace
  | preempt (wg : Nat)
  | storageClaim (core : Nat)
  | groupRetire (group : Nat)
  | queueGraceExpiry (id : Nat)
  | syscallService (ctx : Nat)
  -- operator and debugger
  | telemetryRecord
  | moduleBudgetWrite (value : DWord)
  | dieCtlWrite (die : Nat) (value : Streamed DWord)
  | clCtlWrite (cluster : Nat) (value : Streamed DWord)
  | stop (part : Nat)
  | resume (part : Nat)
  | step (part slot : Nat)
  | dump (part ctx : Nat)
  | dumpWrite
  | badop (op : BitVec 8)
  | watchpointPredicate
  | sampleRecord (idx : Nat)
  -- errors and start
  | uncorrectableError (st : Structure) (unit : Nat) (site : ErrorSite)
  | correctedError (st : Structure) (unit : Nat)
  | flashWrite (area : FlashArea) (data : List Byte)
  | conventionalReset
  | bootRomStart
  | stageA
  | stageB (ok : Bool)
deriving DecidableEq, Repr

end Sys2Proof
end

