-- ==== Sys2Proof/Config.lean ====
section
/-! DEFINITION. What the one configuration of R1 fixes, and the free values: values the spec leaves
open. A free value is an opaque constant without a body, so that nothing can be proved of it; a
claim about it holds whatever it is. Each is named in notes/assumptions. -/

namespace Sys2Proof.Config

/-- Compute dies C0 to C3 (R1). -/
def dies : Nat := 4
/-- Clusters per compute die (R1). -/
def clustersPerDie : Nat := 32
/-- Clusters in all; cluster c of die d is number 32 d + c (R10). -/
def clusters : Nat := 128
/-- Cores per cluster, and partitions per core (R1). -/
def perCluster : Nat := 4
/-- Group slots of a partition (R1). -/
def slotsPerPartition : Nat := 16
/-- Register file bytes of a partition (R1, R43). -/
def registerFileBytes : Nat := 262144
/-- Shared memory bytes of a core (R1, R43). -/
def sharedBytes : Nat := 262144
/-- Die scratchpad bytes (R1). -/
def scratchBytes : Nat := 100663296
/-- The pouch's capacity in tokens (R62, R64). -/
def pouchCapacity : Nat := 65536
/-- Ticks of a market round (R56). -/
def roundTicks : Nat := 1000
/-- Hops of the Reel per tick (R56). -/
def hopsPerTick : Nat := 14
/-- Hops of a market round (R56). -/
def roundHops : Nat := 14000
/-- Ticks of a telemetry period (R8). -/
def telemetryTicks : Nat := 100000
/-- Words a watchpoint predicate may execute (R413). -/
def predicateWords : Nat := 64

/-! ## Free values -/

/-- Whether the phase cache keeps a byte it has just published (R121). -/
opaque l1Keeps : Nat → Nat → Bool
/-- Whether a register of a result in flight has landed before the plane issue about to be made
(R86). -/
opaque landed : Nat → Nat → Bool
/-- Whether a write or read-modify-write that leaves the device reaches its destination (R356, R358). -/
opaque reached : Nat → Bool
/-- Whether a cancelled command had written an aligned 8-byte unit of its destination when its engine stopped
(R129, R269). -/
opaque cancelled : Nat → Nat → Bool
/-- Whether a CAS of the notification unit that got no Successful completion got none at all in 5,000 ticks (R358). -/
opaque timedOut : Nat → Bool
/-- A byte of the page tables as a request finds it, by its physical address (R363). -/
opaque tableByte : Nat → Nat → BitVec 8
/-- The hottest sensor of a cluster in a tick, in whole °C (R403). -/
opaque sensor : Nat → Nat → Nat
/-- What a die measures over a telemetry period, by field of R405: 0 HOT above the hottest sensor that a clearing
read, 1 ENERGY, 2 IAVG, 3 IPEAK above IAVG, 4 ISTEP as far as IPEAK admits. -/
opaque measured : Nat → Nat → Nat → Nat
/-- Times and coalescing of a sampled issue that the spec does not fix: REPLAYS, LAST, QL1, QL2, QLINK, QCHAN
(R419). -/
opaque sampled : Nat → Nat → Nat
/-- A special register but SR.TICK as the debug core reads it in a predicate, by its number (R413). -/
opaque debugSr : Nat → Nat → BitVec 64
/-- Whether a 64-bit CAS of the notification unit on host memory was answered Successful (R353). -/
opaque casServed : Nat → Bool
/-- The data base of an image without a DATA section, by the image's address (R81, R92, R385). -/
opaque noData : Nat → BitVec 64
/-- The boot ROM's contents (R399). -/
opaque bootRom : List Byte
/-- SHAKE256 of some bytes, taken to n bytes (R398, R399). -/
opaque shake256 : Nat → List Byte → List Byte
/-- SHA3-512 of some bytes (R361). -/
opaque sha3 : List Byte → List Byte
/-- SLH-DSA-SHAKE-256s: whether a signature over a message verifies under the root key (R394). -/
opaque verifies : List Byte → List Byte → Bool
/-- The 64 KiB of IOD SRAM that the boot ROM reads at a start (R398). -/
opaque fingerprint : Nat → List Byte
/-- The 32 bytes of key material K to which helper data correct a fingerprint, if they do (R398). -/
opaque corrected : List Byte → List Byte → Option (List Byte)
/-- FIPS 205, SLH-DSA-SHAKE-256s: the 64-byte public key of the seeds SK.seed, SK.prf and PK.seed (R398). -/
opaque publicKey : List Byte → List Byte
/-- The public key that the leaf certificate of a chain names (R398). -/
opaque leafKey : List Byte → List Byte
/-- FIPS 205, SLH-DSA-SHAKE-256s: the signature of a transcript under the key of some seeds (R398). -/
opaque sign : List Byte → List Byte → List Byte

end Sys2Proof.Config
end

