-- ==== Sys2Proof/WellFormed.lean ====
section
/-! DEFINITION. Which instruction words are well formed (R164 to R183, and the encoding tables R189,
R195, R200, R206, R212 to R219, R227, R236, R247, R253, R281, R283). `Shape` is one row of those
tables; the checks stand under the reason codes of R181, so that the decoder reports the first that
fails. -/

namespace Sys2Proof

/-- What one operand field admits (R164, R165). `v` and `s` are the number of consecutive registers
named (1, an even pair, a tuple of 4 or 8), 0 where the class is not admitted. -/
structure Slot where
  v : Nat := 0
  s : Nat := 0
  p : Bool := false
  /-- PT may stand here (never in D) -/
  pt : Bool := false
  t : Bool := false
  /-- the half bit may be set (R153, R282) -/
  half : Bool := false
  sr : Bool := false
  imm : Bool := false
  none : Bool := false
deriving DecidableEq, Repr

/-- A field the form does not use: class 111 with bits 8:0 zero (R165). -/
def Slot.unused : Slot := { none := true }

/-- The layouts of X (R171). -/
inductive Layout where
  | xn | xs
  /-- XS with a byte offset in X[10:3] (R247) -/
  | xe
  /-- XS with the high bits of the immediate in X[10:3] (R237) -/
  | xw
  /-- XT naming a tuple of so many S registers -/
  | xt (k : Nat)
  | xk | xi | xl
deriving DecidableEq, Repr

/-- Pass kinds (R177). -/
inductive PassKind where
  | n | u | l | o
deriving DecidableEq, Repr

/-- Weights (R60, R61, R178). -/
inductive Weight where
  | lanes (w : Nat)
  | bytes
  | mma
deriving DecidableEq, Repr

/-- Rules across fields (R177, R239, R248, R281). -/
inductive Cross where
  | free
  /-- a V source with an S destination is not admitted (U forms) -/
  | uform
  /-- a V base with an S destination is not admitted (loads) -/
  | load
  /-- an S destination needs one performance (atomics) -/
  | atom
  /-- one of D and A is a tile and the other a V register -/
  | mmov
deriving DecidableEq, Repr

/-- One row of the encoding tables. -/
structure Shape where
  d : Slot := Slot.unused
  a : Slot := Slot.unused
  b : Slot := Slot.unused
  x : Layout := .xn
  /-- the form takes a guard -/
  grd : Bool := true
  /-- the form produces a long-latency result (R175) -/
  ll : Bool := false
  kind : PassKind := .n
  weight : Weight := .lanes 0
  cross : Cross := .free
deriving DecidableEq, Repr

namespace Shape

def src (w : Nat) : Slot := { v := w, s := w, sr := true, imm := true }
def dst (w : Nat) : Slot := { v := w, s := w, none := true }
def both (w : Nat) : Slot := { v := w, s := w }
def pd : Slot := { p := true }
def ps : Slot := { p := true, pt := true }
def sOrImm : Slot := { s := 1, imm := true }

/-- Groups 0x1 to 0x6 (R183). -/
def alu (d a b : Slot) (x : Layout := .xi) : Shape :=
  { d, a, b, x, kind := .u, weight := .lanes 1, cross := .uform }

/-- Group 0x8 (R219). -/
def exch (d a b : Slot) : Shape :=
  { d, a, b, kind := .l, weight := .lanes 1, ll := true }

/-- Group 0x9 (R236). -/
def mem (d b : Slot) (x : Layout) (ll : Bool) (cross : Cross) : Shape :=
  { d, a := both 2, b, x, kind := .l, weight := .lanes 2, ll, cross }

def memOff : Slot := { s := 1, imm := true, none := true }

/-- Copy forms (R253). -/
def copyForm (d a : Slot) (bar : Option (BitVec 7)) : Shape :=
  { d, a, b := sOrImm, x := if bar.isSome then .xt 2 else .xn, kind := .o, weight := .bytes }

end Shape

/-- Registers of a 32-bit operand of the type (R185). -/
def Ty.regs : Ty → Nat
  | .i64 | .n64 => 2
  | _ => 1

/-- Bytes of an access (R238). -/
def Width.bytes : Width → Nat
  | .b8 => 1 | .b16 => 2 | .b32 => 4 | .b64 => 8 | .b128 => 16

/-- Registers of an access (R238). -/
def Width.regs : Width → Nat
  | .b8 | .b16 | .b32 => 1 | .b64 => 2 | .b128 => 4

def LoadW.width : LoadW → Width
  | .plain w => w | .i8 => .b8 | .i16 => .b16

/-- Registers that read 64 bits (R166). -/
def SReg.wide : SReg → Bool
  | .helper | .clock | .tick => true
  | _ => false

/-- Per-lane special registers (R166). -/
def SReg.perLane : SReg → Bool
  | .lane | .quad | .plane => true
  | _ => false

open Shape in
/-- The row of the encoding tables for an instruction word. -/
def Instr.shape : Instr → Shape
  | .nop _ => {}
  | .bra _ | .call _ => { a := { imm := true }, x := .xi }
  | .brx _ | .callx _ => { a := both 2 }
  | .ret _ | .exit _ | .yield _ => {}
  | .pset _ => { a := both 1 }
  | .pseti _ => { a := { imm := true } }
  | .pget _ => { d := { v := 1 } }
  | .iadd _ t _ | .isub _ t _ | .imul _ t | .imulh _ t | .imin _ t | .imax _ t =>
    alu (dst t.regs) (src t.regs) (src t.regs)
  | .imad _ t => alu (both t.regs) (src t.regs) (src t.regs)
  | .iabs _ t | .ineg _ t => alu (dst t.regs) (src t.regs) .unused
  | .lea _ _ => alu (both 2) (both 2) (src 1) .xk
  | .iset _ t _ => alu { p := true, none := true } (src t.regs) (src t.regs)
  | .and _ | .or _ | .xor _ | .shl _ | .shr _ | .sar _ | .rotl _ | .bfe _ _ =>
    alu (dst 1) (src 1) (src 1)
  | .not _ | .popc _ | .clz _ | .brev _ => alu (dst 1) (src 1) .unused
  | .tribit _ _ => alu (both 1) (src 1) (src 1) .xk
  | .bfi _ | .bysel _ => alu (both 1) (src 1) (src 1)
  | .mov _ wide => alu (dst (if wide then 2 else 1)) (src (if wide then 2 else 1)) .unused
  | .movi _ _ => alu (both 1) .unused .unused .xl
  | .sel _ _ => alu (dst 1) (src 1) (src 1) .xk
  | .plop _ _ => { d := pd, a := ps, b := ps, x := .xk, kind := .l }
  | .p2v _ => { d := { v := 1 }, a := ps, kind := .l, weight := .lanes 1 }
  | .v2p _ => { d := pd, a := { v := 1 }, kind := .l, weight := .lanes 1 }
  | .srd o =>
    let w := match o.a with | .sr r => if r.wide then 2 else 1 | _ => 1
    alu (both w) { sr := true } .unused .xn
  | .swr _ => alu { sr := true } sOrImm .unused
  | .bcast _ =>
    { d := { v := 1 }, a := { s := 1, imm := true, sr := true }, x := .xi, kind := .l,
      weight := .lanes 1 }
  | .laneget _ =>
    { d := { s := 1 }, a := { v := 1 }, b := sOrImm, x := .xi, kind := .l, weight := .lanes 1 }
  | .fadd .. | .fsub .. | .fmul .. | .fmin .. | .fmax .. => alu (dst 1) (src 1) (src 1)
  | .ffma .. => alu (both 1) (src 1) (src 1)
  | .fset .. => alu { p := true, none := true } (src 1) (src 1)
  | .fclass .. | .frnd .. => alu (dst 1) (src 1) .unused
  | .hadd2 .. | .hmul2 .. | .hmin2 .. | .hmax2 .. | .hset2 .. => alu (dst 1) (src 1) (src 1)
  | .hfma2 .. => alu (both 1) (src 1) (src 1)
  | .cvt _ dt ft .. => alu (dst dt.regs) (src ft.regs) .unused .xk
  | .tpack .. => alu (both 1) (src 1) (src 1)
  | .tunpk .. => alu (dst 1) (both 1) { v := 1, s := 1, imm := true }
  | .rcp .. | .rsq .. | .sqrt .. | .log2 .. | .exp2 .. | .sinpi .. | .cospi .. | .tanh .. =>
    { alu (dst 1) (src 1) .unused with weight := .lanes 4, ll := true }
  | .qswap .. => exch { v := 1 } { v := 1 } .unused
  | .qbcast _ => exch { v := 1 } { v := 1 } sOrImm
  | .shfl .. => exch { v := 1 } { v := 1 } { v := 1, s := 1, imm := true }
  | .vote .. => exch pd ps .unused
  | .ballot _ => exch { s := 2 } ps .unused
  | .redgrp _ k _ =>
    exch { s := match k with | .minix | .maxix => 2 | _ => 1 } { v := 1 } .unused
  | .scangrp .. => exch { v := 1 } { v := 1 } .unused
  | .matchLanes _ => exch { v := 2 } { v := 1 } .unused
  | .ld _ w => mem (dst w.width.regs) memOff .xi true .load
  | .st _ w => mem (both w.regs) memOff .xi false .free
  | .ldnr _ w _ => mem { v := w.width.regs, none := true } memOff .xk true .free
  | .lds _ w _ _ => mem (dst w.regs) memOff .xw true .load
  | .sts _ w _ _ => mem (both w.regs) memOff .xw false .free
  | .pref _ => mem .unused memOff .xi false .free
  | .tld .. =>
    { d := { v := 1, none := true }, a := { s := 4 }, b := { v := 2 }, kind := .l,
      weight := .lanes 2, ll := true }
  | .tst .. =>
    { d := both 1, a := { s := 4 }, b := { v := 2 }, kind := .l, weight := .lanes 2 }
  | .atom _ _ t .. =>
    mem (dst t.regs) { v := t.regs, s := t.regs, imm := true } .xe true .atom
  | .atomcas _ wide .. =>
    mem (dst (if wide then 2 else 1)) (both (if wide then 4 else 2)) .xe true .atom
  | .atomf .. => mem (dst 1) { v := 1, s := 1, imm := true } .xe true .atom
  | .fence .. => { x := .xs }
  | .phase _ => {}
  | .barinit .. | .barexp .. => { a := { s := 2 }, b := sOrImm, x := .xs }
  | .bararr .. | .bardrop .. => { a := { s := 2 }, x := .xs }
  | .wait .. => { d := { p := true, none := true }, a := { s := 4 }, b := memOff, x := .xi }
  | .batch _ => { d := { s := 1 } }
  | .htest _ => { d := pd, a := { s := 1 } }
  | .cancel _ => { a := { s := 1 } }
  | .enq _ =>
    { d := { s := 1, none := true }, a := { s := 2 }, b := both 1, ll := true, kind := .o,
      weight := .bytes }
  | .deq _ =>
    { d := { s := 1, none := true }, a := both 1, b := { s := 2 }, ll := true, kind := .o,
      weight := .bytes }
  | .copy _ bar => copyForm { s := 2 } { s := 2 } bar
  | .copyt _ bar => copyForm { s := 4 } { s := 4 } bar
  | .gather _ bar => copyForm { s := 2 } { v := 2 } bar
  | .scatter _ bar => copyForm { v := 2 } { s := 2 } bar
  | .coll .. =>
    { d := { s := 2 }, a := { s := 2 }, b := { s := 4 }, kind := .o, weight := .bytes }
  | .gang _ => { a := { s := 1 } }
  | .mma .. =>
    { d := { t := true, half := true }, a := { v := 1 }, b := { v := 1 }, x := .xt 4, grd := false,
      ll := true, weight := .mma }
  | .mzero _ w => { d := { t := true, half := w } }
  | .mldt _ w =>
    { d := { t := true, half := w }, a := { s := 2 }, b := { s := 1, none := true }, ll := true,
      weight := .lanes 2 }
  | .msto _ w =>
    { d := { t := true, half := w }, a := { s := 2 }, b := { s := 1, none := true }, weight := .bytes }
  | .msta _ w _ =>
    { d := { t := true, half := w }, a := { s := 2 }, b := { s := 1, none := true }, x := .xt 4,
      weight := .bytes }
  | .mmov _ w =>
    { d := { v := 1, t := true, half := w }, a := { v := 1, t := true, half := w }, ll := true,
      weight := .lanes 1, cross := .mmov }
  | .mpois _ => { d := { t := true }, a := sOrImm, x := .xi }
  | .syscall _ =>
    { d := { v := 2, none := true }, a := both 2, b := sOrImm, x := .xi, grd := false, kind := .o }
  | .trap _ | .setperf _ | .brk _ | .dbgmark _ => { a := sOrImm, x := .xi }
  | .tret _ => { grd := false }
  | .edit .. =>
    { d := { s := 2, none := true }, a := { s := 2 }, ll := true, kind := .o, weight := .bytes }
  | .notify _ => { a := { s := 8 }, b := sOrImm, x := .xi, kind := .o, weight := .bytes }
  | .tokrd _ => { d := { s := 4 } }
  | _ => {}

/-- The guard, operands and hints of an instruction word; `none` for NOP, for a word of an
unassigned OP and for the steps that are no words. -/
def Instr.op : Instr → Option Op
  | .bra o | .brx o | .call o | .callx o | .ret o | .exit o | .yield o | .pset o | .pseti o
  | .pget o | .iadd o _ _ | .isub o _ _ | .imul o _ | .imulh o _ | .imad o _ | .imin o _
  | .imax o _ | .iabs o _ | .ineg o _ | .lea o _ | .iset o _ _ | .and o | .or o | .xor o | .not o
  | .tribit o _ | .shl o | .shr o | .sar o | .rotl o | .popc o | .clz o | .brev o | .bfe o _
  | .bfi o | .bysel o | .mov o _ | .movi o _ | .sel o _ | .plop o _ | .p2v o | .v2p o | .srd o
  | .swr o | .bcast o | .laneget o | .fadd o _ _ _ | .fsub o _ _ _ | .fmul o _ _ _ | .ffma o _ _ _
  | .fmin o _ | .fmax o _ | .fset o _ _ | .fclass o _ | .frnd o _ _ | .hadd2 o _ _ _ _
  | .hmul2 o _ _ _ _ | .hfma2 o _ _ _ _ | .hmin2 o _ _ | .hmax2 o _ _ | .hset2 o _ _ _
  | .cvt o _ _ _ _ _ | .tpack o _ | .tunpk o _ | .rcp o _ | .rsq o _ | .sqrt o _ | .log2 o _
  | .exp2 o _ | .sinpi o _ | .cospi o _ | .tanh o _ | .qswap o _ | .qbcast o | .shfl o _
  | .vote o _ | .ballot o | .redgrp o _ _ | .scangrp o _ _ _ | .matchLanes o | .ld o _ | .st o _
  | .ldnr o _ _ | .lds o _ _ _ | .sts o _ _ _ | .pref o | .tld o _ | .tst o _ | .atom o _ _ _ _ _
  | .atomcas o _ _ _ _ | .atomf o _ _ _ _ _ | .fence o _ _ | .phase o | .barinit o _ | .bararr o _
  | .bardrop o _ | .barexp o _ | .wait o _ | .batch o | .htest o | .cancel o | .enq o | .deq o
  | .copy o _ | .copyt o _ | .gather o _ | .scatter o _ | .coll o _ _ | .gang o | .mma o _ _
  | .mzero o _ | .mldt o _ | .msto o _ | .msta o _ _ | .mmov o _ | .mpois o | .syscall o | .trap o
  | .tret o | .setperf o | .edit o _ | .notify o | .brk o | .dbgmark o | .tokrd o => some o
  | _ => none

/-! ## Check 2: modifiers -/

def Ty.isInt4 : Ty → Bool
  | .i32 | .n32 | .i64 | .n64 => true
  | _ => false

def Ty.isTapered : Ty → Bool
  | .t8 | .t6 => true
  | _ => false

def Ty.isFloat : Ty → Bool
  | .f32 | .h | .bf => true
  | _ => false

def Ty.isInt (t : Ty) : Bool := !t.isTapered && !t.isFloat

/-- The type pairs, rounding and `.ftz` of CVT (R213). -/
def cvtOk (dt st : Ty) (r : Rnd) (ftz : Bool) : Bool :=
  !(dt.isInt && st.isTapered) && !(dt.isTapered && st.isInt) && !(dt.isTapered && st.isTapered)
  && (!((dt.isInt && st.isInt) || st.isTapered || dt.isTapered) || r == .rn)
  && (!ftz || dt.isFloat || st.isFloat)

/-- The modifier codes each form admits (R169, R170 and the encoding tables). -/
def Instr.modsOk : Instr → Bool
  | .iadd _ t _ | .isub _ t _ | .imul _ t | .imad _ t | .imin _ t | .imax _ t => t.isInt4
  | .imulh _ t | .bfe _ t => t == .i32 || t == .n32
  | .iabs _ t | .ineg _ t => t == .i32 || t == .i64
  | .iset _ t c => t.isInt4 && c != .num && c != .nan
  | .hadd2 _ t .. | .hmul2 _ t .. | .hfma2 _ t .. | .hmin2 _ t .. | .hmax2 _ t .. | .hset2 _ t .. =>
    t == .h || t == .bf
  | .cvt _ dt ft r ftz _ => cvtOk dt ft r ftz
  | .tpack _ t | .tunpk _ t => t.isTapered
  | .redgrp _ k t =>
    (t == .i32 || t == .n32) || (t == .f32 && k != .and && k != .or && k != .xor)
  | .scangrp _ _ _ t => t == .i32 || t == .n32 || t == .f32
  | .lds _ w ord _ => w != .b128 && (ord == .rlx || ord == .acq)
  | .sts _ w ord _ => w != .b128 && (ord == .rlx || ord == .rel)
  | .tld _ w | .tst _ w => w == .b8 || w == .b16 || w == .b32
  | .atom _ _ t .. => t.isInt4
  | .atomf _ _ t .. => t.isFloat
  | .fence _ ord _ => ord != .rlx
  | .coll _ _ t => t == .i32 || t == .f32 || t == .bf
  | _ => true

/-! ## Check 3: the guard -/

/-- R168: the all-ones guard is illegal; a form that takes no guard must carry "always". -/
def Guard.ok (g : Guard) (sh : Shape) : Bool :=
  !(g.p == 15 && g.neg) && (sh.grd || g.p == 15)

/-! ## Check 4: operand classes -/

/-- Bits 11:9 of an operand field (R164). -/
def Operand.cls : Operand → BitVec 3
  | .v _ => 0 | .s _ => 1 | .p _ => 2 | .t _ _ => 3 | .sr _ => 4 | .imm _ => 5 | .none => 7

def Slot.admits (sl : Slot) : Operand → Bool
  | .v _ => sl.v != 0
  | .s _ => sl.s != 0
  | .p n => sl.p && (sl.pt || n != 15)
  | .t _ _ => sl.t
  | .sr _ => sl.sr
  | .imm _ => sl.imm
  | .none => sl.none

def Operand.isV : Operand → Bool
  | .v _ => true | _ => false
def Operand.isS : Operand → Bool
  | .s _ => true | _ => false
def Operand.isT : Operand → Bool
  | .t _ _ => true | _ => false
def Operand.isImm : Operand → Bool
  | .imm _ => true | _ => false

def Cross.ok (c : Cross) (o : Op) : Bool :=
  match c with
  | .free => true
  | .uform => !(o.d.isS && (o.a.isV || o.b.isV))
  | .load => !(o.d.isS && o.a.isV)
  | .atom => !(o.d.isS && (o.a.isV || o.b.isV))
  | .mmov => (o.d.isV && o.a.isT) || (o.d.isT && o.a.isV)

def Op.classesOk (o : Op) (sh : Shape) : Bool :=
  sh.d.admits o.d && sh.a.admits o.a && sh.b.admits o.b && sh.cross.ok o

/-! ## Check 5: bits of operands, counts, tuples, special registers -/

/-- Register count, pairs and tuples of one operand (R165), and a half bit (R282). -/
def Slot.fits (sl : Slot) (regs : Nat) : Operand → Bool
  | .v n => n.toNat % sl.v == 0 && n.toNat + sl.v ≤ regs
  | .s n => n.toNat % sl.s == 0 && n.toNat + sl.s ≤ 128
  | .t _ half => sl.half || !half
  | _ => true

def Operand.perLaneSr : Operand → Bool
  | .sr r => r.perLane
  | _ => false

/-- Special-register access (R167). -/
def Instr.srOk (i : Instr) (o : Op) : Bool :=
  match i with
  | .swr _ => o.d == .sr .fpx
  | .bcast _ => !o.a.perLaneSr
  | _ => !(o.d.isS && (o.a.perLaneSr || o.b.perLaneSr))

/-- The S index or tuple base in X (R171, R253). -/
def Instr.xIndex : Instr → Option (BitVec 7)
  | .mma _ _ f | .msta _ _ f => some f
  | .copy _ b | .copyt _ b | .gather _ b | .scatter _ b => b
  | _ => none

def Instr.bitsOk (regs : Nat) (i : Instr) (o : Op) : Bool :=
  let sh := i.shape
  sh.d.fits regs o.d && sh.a.fits regs o.a && sh.b.fits regs o.b && i.srOk o
  && (match i with | .pseti _ => (match o.a with | .imm v => v.toNat < 4 | _ => true) | _ => true)
  && (match sh.x, i.xIndex with | .xt k, some n => n.toNat % k == 0 | _, _ => true)

/-! ## Check 6: X -/

/-- An immediate the layout can carry (R171, R184, R237): 20 bits under XI, 17 in LDS and STS, else
9. -/
def Layout.carries (x : Layout) : Operand → Bool
  | .imm v =>
    match x with
    | .xi => true
    | .xw => ((v.setWidth 17).signExtend 20) == v
    | _ => ((v.setWidth 9).signExtend 20) == v
  | _ => true

/-- At most one immediate under XI (R171). -/
def Op.xOk (o : Op) (sh : Shape) : Bool :=
  sh.x.carries o.a && sh.x.carries o.b && !(sh.x == .xi && o.a.isImm && o.b.isImm)

/-! ## Check 7: hints -/

def Hints.ok (h : Hints) (ll : Bool) : Bool :=
  h.set1.toNat ≤ 12 && h.set2.toNat ≤ 12 && (h.set2 == 0 || h.set1 != 0)
  && (h.set1 == 0 || h.set1 != h.set2) && (ll || h.set1 == 0)

/-! ## The whole -/

/-- Minor opcodes assigned in each group (R178). -/
def minorCount (group : Nat) : Nat :=
  ([11, 11, 15, 10, 9, 6, 3, 8, 8, 8, 3, 10, 7, 8, 9].getD group 0)

/-- An assigned OP (R180). -/
def assigned (op : BitVec 10) : Bool := op.toNat % 64 < minorCount (op.toNat / 64)

/-- An instruction word that decodes to itself under a declared register count; every step that is
no word counts as well formed. -/
def Instr.wf (regs : Nat) (i : Instr) : Bool :=
  match i with
  | .nop h => h.set1 == 0 && h.set2 == 0
  | .unassignedOpcode op => !assigned op
  | _ =>
    match i.op with
    | none => true
    | some o =>
      i.modsOk && o.guard.ok i.shape && o.classesOk i.shape && i.bitsOk regs o && o.xOk i.shape
      && o.hints.ok i.shape.ll

end Sys2Proof
end

