-- ==== Sys2Proof/Decode.lean ====
section
/-! DEFINITION. From bits to instructions and back (R162 to R181). `decodeWord` is total: a word gives
an instruction or the check of R181 it fails, by name; a word of an unassigned OP gives
`unassignedOpcode`, whose meaning is the trap of R180. The encoder comes after the decoder. -/

namespace Sys2Proof

/-- The checks of R181 a word can fail; the reason code of each is `Reject.reason`. Reason 1 is
`Instr.unassignedOpcode`. -/
inductive Reject where
  | modField | guard | operandClass | operandBits | xLayout | hint
  /-- fewer than 12 bytes are left -/
  | truncated
deriving DecidableEq, Repr

/-- Reason codes (R181). -/
def Reject.reason : Reject → Nat
  | .modField => 2 | .guard => 3 | .operandClass => 4 | .operandBits => 5 | .xLayout => 6
  | .hint => 7 | .truncated => 0

/-- The fields of a word (R162). -/
structure Raw where
  op : BitVec 10
  mod : BitVec 10
  grd : BitVec 5
  d : BitVec 12
  a : BitVec 12
  b : BitVec 12
  x : BitVec 11
  h : BitVec 24
deriving DecidableEq, Repr

def Raw.ofWord (w : BitVec 96) : Raw :=
  { op := w.extractLsb' 86 10, mod := w.extractLsb' 76 10, grd := w.extractLsb' 71 5,
    d := w.extractLsb' 59 12, a := w.extractLsb' 47 12, b := w.extractLsb' 35 12,
    x := w.extractLsb' 24 11, h := w.extractLsb' 0 24 }

def Raw.toWord (r : Raw) : BitVec 96 :=
  r.op ++ r.mod ++ r.grd ++ r.d ++ r.a ++ r.b ++ r.x ++ r.h

/-- TYPE, SUB, MODE, FTZ of MOD (R169). -/
def Raw.ty (r : Raw) : BitVec 4 := r.mod.extractLsb' 6 4
def Raw.sub (r : Raw) : BitVec 3 := r.mod.extractLsb' 3 3
def Raw.mode (r : Raw) : BitVec 2 := r.mod.extractLsb' 1 2
def Raw.ftz (r : Raw) : Bool := r.mod.getLsbD 0

def modBits (ty : BitVec 4) (sub : BitVec 3) (mode : BitVec 2) (ftz : Bool) : BitVec 10 :=
  ty ++ sub ++ mode ++ BitVec.ofBool ftz

def bit3 (b : Bool) : BitVec 3 := if b then 1 else 0

/-! ## Codes (R170, R172 and the encoding tables). `ofCode` maps a code the table does not list to
an arbitrary name; `decodeWord` refuses it. -/

def Ty.code : Ty → BitVec 4
  | .i32 => 0 | .n32 => 1 | .i64 => 2 | .n64 => 3 | .i8 => 4 | .i16 => 5 | .n8 => 6 | .n16 => 7
  | .f32 => 8 | .h => 9 | .bf => 10 | .t8 => 11 | .t6 => 12

def Ty.ofCode (c : BitVec 4) : Ty :=
  match c.toNat with
  | 0 => .i32 | 1 => .n32 | 2 => .i64 | 3 => .n64 | 4 => .i8 | 5 => .i16 | 6 => .n8 | 7 => .n16
  | 8 => .f32 | 9 => .h | 10 => .bf | 11 => .t8 | 12 => .t6 | _ => .i32

def Rnd.code : Rnd → BitVec 2
  | .rn => 0 | .rz => 1 | .rd => 2 | .ru => 3

def Rnd.ofCode (c : BitVec 2) : Rnd :=
  match c.toNat with | 0 => .rn | 1 => .rz | 2 => .rd | _ => .ru

def Cmp.code : Cmp → BitVec 3
  | .eq => 0 | .ne => 1 | .lt => 2 | .le => 3 | .gt => 4 | .ge => 5 | .num => 6 | .nan => 7

def Cmp.ofCode (c : BitVec 3) : Cmp :=
  match c.toNat with
  | 0 => .eq | 1 => .ne | 2 => .lt | 3 => .le | 4 => .gt | 5 => .ge | 6 => .num | _ => .nan

def Width.code : Width → BitVec 3
  | .b8 => 0 | .b16 => 1 | .b32 => 2 | .b64 => 3 | .b128 => 4

def Width.ofCode (c : BitVec 3) : Width :=
  match c.toNat with | 0 => .b8 | 1 => .b16 | 2 => .b32 | 3 => .b64 | _ => .b128

def LoadW.tyCode : LoadW → BitVec 4
  | .plain _ => 0 | .i8 => 4 | .i16 => 5

def LoadW.subCode : LoadW → BitVec 3
  | .plain w => w.code | .i8 => 0 | .i16 => 1

def LoadW.ofCode (ty : BitVec 4) (sub : BitVec 3) : LoadW :=
  match ty.toNat with | 4 => .i8 | 5 => .i16 | _ => .plain (Width.ofCode sub)

def Ord.code : Ord → BitVec 2
  | .rlx => 0 | .acq => 1 | .rel => 2 | .ar => 3

def Ord.ofCode (c : BitVec 2) : Ord :=
  match c.toNat with | 0 => .rlx | 1 => .acq | 2 => .rel | _ => .ar

def Scope.code : Scope → BitVec 3
  | .lane => 0 | .grp => 1 | .wg => 2 | .cl => 3 | .die => 4 | .dev => 5 | .sys => 6

def Scope.ofCode (c : BitVec 3) : Scope :=
  match c.toNat with
  | 0 => .lane | 1 => .grp | 2 => .wg | 3 => .cl | 4 => .die | 5 => .dev | _ => .sys

def QDir.code : QDir → BitVec 3
  | .x => 0 | .y => 1 | .xy => 2

def QDir.ofCode (c : BitVec 3) : QDir :=
  match c.toNat with | 0 => .x | 1 => .y | _ => .xy

def ShflMode.code : ShflMode → BitVec 3
  | .idx => 0 | .up => 1 | .down => 2 | .xor => 3

def ShflMode.ofCode (c : BitVec 3) : ShflMode :=
  match c.toNat with | 0 => .idx | 1 => .up | 2 => .down | _ => .xor

def VoteKind.code : VoteKind → BitVec 3
  | .all => 0 | .any => 1 | .eq => 2

def VoteKind.ofCode (c : BitVec 3) : VoteKind :=
  match c.toNat with | 0 => .all | 1 => .any | _ => .eq

def RedOp.code : RedOp → BitVec 3
  | .add => 0 | .min => 1 | .max => 2 | .minix => 3 | .maxix => 4 | .and => 5 | .or => 6 | .xor => 7

def RedOp.ofCode (c : BitVec 3) : RedOp :=
  match c.toNat with
  | 0 => .add | 1 => .min | 2 => .max | 3 => .minix | 4 => .maxix | 5 => .and | 6 => .or | _ => .xor

def AddMinMax.code : AddMinMax → BitVec 2
  | .add => 0 | .min => 1 | .max => 2

def AddMinMax.ofCode (c : BitVec 2) : AddMinMax :=
  match c.toNat with | 0 => .add | 1 => .min | _ => .max

def AtomOp.code : AtomOp → BitVec 3
  | .add => 0 | .min => 1 | .max => 2 | .and => 3 | .or => 4 | .xor => 5 | .exch => 6

def AtomOp.ofCode (c : BitVec 3) : AtomOp :=
  match c.toNat with
  | 0 => .add | 1 => .min | 2 => .max | 3 => .and | 4 => .or | 5 => .xor | _ => .exch

/-- Numbers of the special registers (R166). -/
def SReg.code : SReg → BitVec 9
  | .lane => 0x000 | .quad => 0x001 | .plane => 0x002 | .group => 0x010 | .wg => 0x011
  | .wgdim => 0x012 | .launch => 0x013 | .splits => 0x014 | .helper => 0x015 | .part => 0x016
  | .ctx => 0x017 | .gang => 0x018 | .clock => 0x020 | .tick => 0x021 | .pouch => 0x022
  | .stacklim => 0x023 | .fpx => 0x030

def SReg.ofCode (c : BitVec 9) : SReg :=
  match c.toNat with
  | 0x001 => .quad | 0x002 => .plane | 0x010 => .group | 0x011 => .wg | 0x012 => .wgdim
  | 0x013 => .launch | 0x014 => .splits | 0x015 => .helper | 0x016 => .part | 0x017 => .ctx
  | 0x018 => .gang | 0x020 => .clock | 0x021 => .tick | 0x022 => .pouch | 0x023 => .stacklim
  | 0x030 => .fpx | _ => .lane

/-! ## Operand fields, guard and hints -/

/-- The operand in a 12-bit field (R164, R171, R184, R237); a reserved class or bits that must be 0
are found by encoding it again. -/
def Operand.ofField (lay : Layout) (x : BitVec 11) (f : BitVec 12) : Operand :=
  match (f.extractLsb' 9 3).toNat with
  | 0 => .v (f.setWidth 8)
  | 1 => .s (f.setWidth 7)
  | 2 => .p (f.setWidth 4)
  | 3 => .t (f.setWidth 5) (f.getLsbD 5)
  | 4 => .sr (SReg.ofCode (f.setWidth 9))
  | 5 =>
    .imm (match lay with
      | .xi => x ++ f.setWidth 9
      | .xw => (x.extractLsb' 3 8 ++ f.setWidth 9).signExtend 20
      | _ => (f.setWidth 9).signExtend 20)
  | _ => .none

/-- The 12-bit field of an operand (R164). -/
def Operand.field : Operand → BitVec 12
  | .v n => 0#3 ++ 0#1 ++ n
  | .s n => 1#3 ++ 0#2 ++ n
  | .p n => 2#3 ++ 0#5 ++ n
  | .t n half => 3#3 ++ 0#3 ++ BitVec.ofBool half ++ n
  | .sr x => 4#3 ++ x.code
  | .imm x => 5#3 ++ x.setWidth 9
  | .none => 7#3 ++ 0#9

/-- The bits of X an immediate puts its high part into. -/
def Operand.high : Operand → BitVec 11
  | .imm x => x.extractLsb' 9 11
  | _ => 0

/-- X, from its constant part and the immediates (R171, R237). An XI form whose B is no immediate, one of class N too,
has X zero, and another X makes the word illegal with reason 6 (DESIGN CHOICE, log entry 61). -/
def Layout.bits (lay : Layout) (const : BitVec 11) (o : Op) : BitVec 11 :=
  match lay with
  | .xi => if o.a.isImm then o.a.high else o.b.high
  | .xw => o.b.high.setWidth 8 ++ const.setWidth 3
  | _ => const

def Guard.ofField (f : BitVec 5) : Guard := { neg := f.getLsbD 4, p := f.setWidth 4 }
def Guard.field (g : Guard) : BitVec 5 := BitVec.ofBool g.neg ++ g.p

def Hints.ofField (h : BitVec 24) : Hints :=
  { wait := h.extractLsb' 12 12, set1 := h.extractLsb' 8 4, set2 := h.extractLsb' 4 4,
    y := h.getLsbD 3, pc := h.getLsbD 2, land := h.getLsbD 1, re := h.getLsbD 0 }

def Hints.field (h : Hints) : BitVec 24 :=
  h.wait ++ h.set1 ++ h.set2 ++ BitVec.ofBool h.y ++ BitVec.ofBool h.pc ++ BitVec.ofBool h.land
    ++ BitVec.ofBool h.re

/-- Guard always, no operands. -/
def Op.always (h : Hints) : Op :=
  { guard := ⟨false, 15⟩, d := .none, a := .none, b := .none, hints := h }

def Raw.scope (r : Raw) : Scope := Scope.ofCode (r.x.setWidth 3)

/-! ## Decoding -/

/-- The instruction of an assigned OP, its modifiers read with any code the table does not list
replaced by an arbitrary one: `decodeWord` compares the modifiers encoded again. -/
def Raw.build (r : Raw) (o : Op) : Instr :=
  match r.op.toNat / 64 with
  | 0 =>
    match r.op.toNat % 64 with
    | 0 => .nop o.hints
    | 1 => .bra o
    | 2 => .brx o
    | 3 => .call o
    | 4 => .callx o
    | 5 => .ret o
    | 6 => .exit o
    | 7 => .yield o
    | 8 => .pset o
    | 9 => .pseti o
    | 10 => .pget o
    | _ => .unassignedOpcode r.op
  | 1 =>
    match r.op.toNat % 64 with
    | 0 => .iadd o (Ty.ofCode r.ty) (r.sub == 1)
    | 1 => .isub o (Ty.ofCode r.ty) (r.sub == 1)
    | 2 => .imul o (Ty.ofCode r.ty)
    | 3 => .imulh o (Ty.ofCode r.ty)
    | 4 => .imad o (Ty.ofCode r.ty)
    | 5 => .imin o (Ty.ofCode r.ty)
    | 6 => .imax o (Ty.ofCode r.ty)
    | 7 => .iabs o (Ty.ofCode r.ty)
    | 8 => .ineg o (Ty.ofCode r.ty)
    | 9 => .lea o (r.x.setWidth 5)
    | 10 => .iset o (Ty.ofCode r.ty) (Cmp.ofCode r.sub)
    | _ => .unassignedOpcode r.op
  | 2 =>
    match r.op.toNat % 64 with
    | 0 => .and o
    | 1 => .or o
    | 2 => .xor o
    | 3 => .not o
    | 4 => .tribit o (r.sub ++ r.x.setWidth 5)
    | 5 => .shl o
    | 6 => .shr o
    | 7 => .sar o
    | 8 => .rotl o
    | 9 => .popc o
    | 10 => .clz o
    | 11 => .brev o
    | 12 => .bfe o (Ty.ofCode r.ty)
    | 13 => .bfi o
    | 14 => .bysel o
    | _ => .unassignedOpcode r.op
  | 3 =>
    match r.op.toNat % 64 with
    | 0 => .mov o (r.sub == 3)
    | 1 => .movi { o with a := .none, b := .none } (r.a ++ r.b ++ r.x.setWidth 8)
    | 2 => .sel o (r.x.setWidth 4)
    | 3 => .plop o (r.x.setWidth 4)
    | 4 => .p2v o
    | 5 => .v2p o
    | 6 => .srd o
    | 7 => .swr o
    | 8 => .bcast o
    | 9 => .laneget o
    | _ => .unassignedOpcode r.op
  | 4 =>
    match r.op.toNat % 64 with
    | 0 => .fadd o (Rnd.ofCode r.mode) r.ftz (r.sub == 1)
    | 1 => .fsub o (Rnd.ofCode r.mode) r.ftz (r.sub == 1)
    | 2 => .fmul o (Rnd.ofCode r.mode) r.ftz (r.sub == 1)
    | 3 => .ffma o (Rnd.ofCode r.mode) r.ftz (r.sub == 1)
    | 4 => .fmin o r.ftz
    | 5 => .fmax o r.ftz
    | 6 => .fset o (Cmp.ofCode r.sub) r.ftz
    | 7 => .fclass o r.ftz
    | 8 => .frnd o (Rnd.ofCode r.mode) r.ftz
    | _ => .unassignedOpcode r.op
  | 5 =>
    match r.op.toNat % 64 with
    | 0 => .hadd2 o (Ty.ofCode r.ty) (Rnd.ofCode r.mode) r.ftz (r.sub == 1)
    | 1 => .hmul2 o (Ty.ofCode r.ty) (Rnd.ofCode r.mode) r.ftz (r.sub == 1)
    | 2 => .hfma2 o (Ty.ofCode r.ty) (Rnd.ofCode r.mode) r.ftz (r.sub == 1)
    | 3 => .hmin2 o (Ty.ofCode r.ty) r.ftz
    | 4 => .hmax2 o (Ty.ofCode r.ty) r.ftz
    | 5 => .hset2 o (Ty.ofCode r.ty) (Cmp.ofCode r.sub) r.ftz
    | _ => .unassignedOpcode r.op
  | 6 =>
    match r.op.toNat % 64 with
    | 0 => .cvt o (Ty.ofCode r.ty) (Ty.ofCode (r.x.setWidth 4)) (Rnd.ofCode r.mode) r.ftz (r.sub == 1)
    | 1 => .tpack o (Ty.ofCode r.ty)
    | 2 => .tunpk o (Ty.ofCode r.ty)
    | _ => .unassignedOpcode r.op
  | 7 =>
    match r.op.toNat % 64 with
    | 0 => .rcp o r.ftz
    | 1 => .rsq o r.ftz
    | 2 => .sqrt o r.ftz
    | 3 => .log2 o r.ftz
    | 4 => .exp2 o r.ftz
    | 5 => .sinpi o r.ftz
    | 6 => .cospi o r.ftz
    | 7 => .tanh o r.ftz
    | _ => .unassignedOpcode r.op
  | 8 =>
    match r.op.toNat % 64 with
    | 0 => .qswap o (QDir.ofCode r.sub)
    | 1 => .qbcast o
    | 2 => .shfl o (ShflMode.ofCode r.sub)
    | 3 => .vote o (VoteKind.ofCode r.sub)
    | 4 => .ballot o
    | 5 => .redgrp o (RedOp.ofCode r.sub) (Ty.ofCode r.ty)
    | 6 => .scangrp o (AddMinMax.ofCode (r.sub.setWidth 2)) (r.sub.getLsbD 2) (Ty.ofCode r.ty)
    | 7 => .matchLanes o
    | _ => .unassignedOpcode r.op
  | 9 =>
    match r.op.toNat % 64 with
    | 0 => .ld o (LoadW.ofCode r.ty r.sub)
    | 1 => .st o (Width.ofCode r.sub)
    | 2 => .ldnr o (LoadW.ofCode r.ty r.sub) (r.x.setWidth 4)
    | 3 => .lds o (Width.ofCode r.sub) (Ord.ofCode r.mode) r.scope
    | 4 => .sts o (Width.ofCode r.sub) (Ord.ofCode r.mode) r.scope
    | 5 => .pref o
    | 6 => .tld o (Width.ofCode r.sub)
    | 7 => .tst o (Width.ofCode r.sub)
    | _ => .unassignedOpcode r.op
  | 10 =>
    match r.op.toNat % 64 with
    | 0 => .atom o (AtomOp.ofCode r.sub) (Ty.ofCode r.ty) (Ord.ofCode r.mode) r.scope (r.x.extractLsb' 3 8)
    | 1 => .atomcas o (r.sub == 3) (Ord.ofCode r.mode) r.scope (r.x.extractLsb' 3 8)
    | 2 => .atomf o (AddMinMax.ofCode (r.sub.setWidth 2)) (Ty.ofCode r.ty) (Ord.ofCode r.mode) r.scope (r.x.extractLsb' 3 8)
    | _ => .unassignedOpcode r.op
  | 11 =>
    match r.op.toNat % 64 with
    | 0 => .fence o (Ord.ofCode r.mode) r.scope
    | 1 => .phase o
    | 2 => .barinit o r.scope
    | 3 => .bararr o r.scope
    | 4 => .bardrop o r.scope
    | 5 => .barexp o r.scope
    | 6 => .wait o (r.sub == 1)
    | 7 => .batch o
    | 8 => .htest o
    | 9 => .cancel o
    | _ => .unassignedOpcode r.op
  | 12 =>
    match r.op.toNat % 64 with
    | 0 => .enq o
    | 1 => .deq o
    | 2 => .copy o (if r.sub == 1 then some (r.x.setWidth 7) else none)
    | 3 => .copyt o (if r.sub == 1 then some (r.x.setWidth 7) else none)
    | 4 => .gather o (if r.sub == 1 then some (r.x.setWidth 7) else none)
    | 5 => .scatter o (if r.sub == 1 then some (r.x.setWidth 7) else none)
    | 6 => .coll o (AddMinMax.ofCode (r.sub.setWidth 2)) (Ty.ofCode r.ty)
    | _ => .unassignedOpcode r.op
  | 13 =>
    match r.op.toNat % 64 with
    | 0 => .gang o
    | 1 => .mma o (r.sub == 1) (r.x.setWidth 7)
    | 2 => .mzero o (r.sub == 1)
    | 3 => .mldt o (r.sub == 1)
    | 4 => .msto o (r.sub == 1)
    | 5 => .msta o (r.sub == 1) (r.x.setWidth 7)
    | 6 => .mmov o (r.sub == 1)
    | 7 => .mpois o
    | _ => .unassignedOpcode r.op
  | 14 =>
    match r.op.toNat % 64 with
    | 0 => .syscall o
    | 1 => .trap o
    | 2 => .tret o
    | 3 => .setperf o
    | 4 => .edit o r.ftz
    | 5 => .notify o
    | 6 => .brk o
    | 7 => .dbgmark o
    | 8 => .tokrd o
    | _ => .unassignedOpcode r.op
  | _ => .unassignedOpcode r.op

/-- OP, MOD, constant bits of X and operands of a word. -/
structure Parts where
  op : BitVec 10
  mod : BitVec 10
  x : BitVec 11
  o : Op
deriving DecidableEq, Repr

/-- OP, MOD, the part of X that is no operand, and the operands of an instruction word (R162, R178
and the encoding tables). -/
def Instr.parts : Instr → Option Parts
  | .nop h => some ⟨0, modBits 0 0 0 false, 0, Op.always h⟩
  | .bra o => some ⟨0x001, modBits 0 0 0 false, 0, o⟩
  | .brx o => some ⟨0x002, modBits 0 0 0 false, 0, o⟩
  | .call o => some ⟨0x003, modBits 0 0 0 false, 0, o⟩
  | .callx o => some ⟨0x004, modBits 0 0 0 false, 0, o⟩
  | .ret o => some ⟨0x005, modBits 0 0 0 false, 0, o⟩
  | .exit o => some ⟨0x006, modBits 0 0 0 false, 0, o⟩
  | .yield o => some ⟨0x007, modBits 0 0 0 false, 0, o⟩
  | .pset o => some ⟨0x008, modBits 0 0 0 false, 0, o⟩
  | .pseti o => some ⟨0x009, modBits 0 0 0 false, 0, o⟩
  | .pget o => some ⟨0x00a, modBits 0 0 0 false, 0, o⟩
  | .iadd o t sat => some ⟨0x040, modBits t.code (bit3 sat) 0 false, 0, o⟩
  | .isub o t sat => some ⟨0x041, modBits t.code (bit3 sat) 0 false, 0, o⟩
  | .imul o t => some ⟨0x042, modBits t.code 0 0 false, 0, o⟩
  | .imulh o t => some ⟨0x043, modBits t.code 0 0 false, 0, o⟩
  | .imad o t => some ⟨0x044, modBits t.code 0 0 false, 0, o⟩
  | .imin o t => some ⟨0x045, modBits t.code 0 0 false, 0, o⟩
  | .imax o t => some ⟨0x046, modBits t.code 0 0 false, 0, o⟩
  | .iabs o t => some ⟨0x047, modBits t.code 0 0 false, 0, o⟩
  | .ineg o t => some ⟨0x048, modBits t.code 0 0 false, 0, o⟩
  | .lea o k => some ⟨0x049, modBits 0 0 0 false, k.setWidth 11, o⟩
  | .iset o t c => some ⟨0x04a, modBits t.code c.code 0 false, 0, o⟩
  | .and o => some ⟨0x080, modBits 0 0 0 false, 0, o⟩
  | .or o => some ⟨0x081, modBits 0 0 0 false, 0, o⟩
  | .xor o => some ⟨0x082, modBits 0 0 0 false, 0, o⟩
  | .not o => some ⟨0x083, modBits 0 0 0 false, 0, o⟩
  | .tribit o tbl => some ⟨0x084, modBits 0 (tbl.extractLsb' 5 3) 0 false, (tbl.setWidth 5).setWidth 11, o⟩
  | .shl o => some ⟨0x085, modBits 0 0 0 false, 0, o⟩
  | .shr o => some ⟨0x086, modBits 0 0 0 false, 0, o⟩
  | .sar o => some ⟨0x087, modBits 0 0 0 false, 0, o⟩
  | .rotl o => some ⟨0x088, modBits 0 0 0 false, 0, o⟩
  | .popc o => some ⟨0x089, modBits 0 0 0 false, 0, o⟩
  | .clz o => some ⟨0x08a, modBits 0 0 0 false, 0, o⟩
  | .brev o => some ⟨0x08b, modBits 0 0 0 false, 0, o⟩
  | .bfe o t => some ⟨0x08c, modBits t.code 0 0 false, 0, o⟩
  | .bfi o => some ⟨0x08d, modBits 0 0 0 false, 0, o⟩
  | .bysel o => some ⟨0x08e, modBits 0 0 0 false, 0, o⟩
  | .mov o wide => some ⟨0x0c0, modBits 0 (if wide then 3 else 2) 0 false, 0, o⟩
  | .movi o value => some ⟨0x0c1, modBits 0 0 0 false, (value.setWidth 8).setWidth 11, o⟩
  | .sel o k => some ⟨0x0c2, modBits 0 0 0 false, k.setWidth 11, o⟩
  | .plop o tbl => some ⟨0x0c3, modBits 0 0 0 false, tbl.setWidth 11, o⟩
  | .p2v o => some ⟨0x0c4, modBits 0 0 0 false, 0, o⟩
  | .v2p o => some ⟨0x0c5, modBits 0 0 0 false, 0, o⟩
  | .srd o => some ⟨0x0c6, modBits 0 0 0 false, 0, o⟩
  | .swr o => some ⟨0x0c7, modBits 0 0 0 false, 0, o⟩
  | .bcast o => some ⟨0x0c8, modBits 0 0 0 false, 0, o⟩
  | .laneget o => some ⟨0x0c9, modBits 0 0 0 false, 0, o⟩
  | .fadd o rnd ftz sat => some ⟨0x100, modBits 8 (bit3 sat) rnd.code ftz, 0, o⟩
  | .fsub o rnd ftz sat => some ⟨0x101, modBits 8 (bit3 sat) rnd.code ftz, 0, o⟩
  | .fmul o rnd ftz sat => some ⟨0x102, modBits 8 (bit3 sat) rnd.code ftz, 0, o⟩
  | .ffma o rnd ftz sat => some ⟨0x103, modBits 8 (bit3 sat) rnd.code ftz, 0, o⟩
  | .fmin o ftz => some ⟨0x104, modBits 8 0 0 ftz, 0, o⟩
  | .fmax o ftz => some ⟨0x105, modBits 8 0 0 ftz, 0, o⟩
  | .fset o c ftz => some ⟨0x106, modBits 8 c.code 0 ftz, 0, o⟩
  | .fclass o ftz => some ⟨0x107, modBits 8 0 0 ftz, 0, o⟩
  | .frnd o rnd ftz => some ⟨0x108, modBits 8 0 rnd.code ftz, 0, o⟩
  | .hadd2 o t rnd ftz sat => some ⟨0x140, modBits t.code (bit3 sat) rnd.code ftz, 0, o⟩
  | .hmul2 o t rnd ftz sat => some ⟨0x141, modBits t.code (bit3 sat) rnd.code ftz, 0, o⟩
  | .hfma2 o t rnd ftz sat => some ⟨0x142, modBits t.code (bit3 sat) rnd.code ftz, 0, o⟩
  | .hmin2 o t ftz => some ⟨0x143, modBits t.code 0 0 ftz, 0, o⟩
  | .hmax2 o t ftz => some ⟨0x144, modBits t.code 0 0 ftz, 0, o⟩
  | .hset2 o t c ftz => some ⟨0x145, modBits t.code c.code 0 ftz, 0, o⟩
  | .cvt o dt ft rnd ftz sat => some ⟨0x180, modBits dt.code (bit3 sat) rnd.code ftz, ft.code.setWidth 11, o⟩
  | .tpack o t => some ⟨0x181, modBits t.code 0 0 false, 0, o⟩
  | .tunpk o t => some ⟨0x182, modBits t.code 0 0 false, 0, o⟩
  | .rcp o ftz => some ⟨0x1c0, modBits 8 0 0 ftz, 0, o⟩
  | .rsq o ftz => some ⟨0x1c1, modBits 8 0 0 ftz, 0, o⟩
  | .sqrt o ftz => some ⟨0x1c2, modBits 8 0 0 ftz, 0, o⟩
  | .log2 o ftz => some ⟨0x1c3, modBits 8 0 0 ftz, 0, o⟩
  | .exp2 o ftz => some ⟨0x1c4, modBits 8 0 0 ftz, 0, o⟩
  | .sinpi o ftz => some ⟨0x1c5, modBits 8 0 0 ftz, 0, o⟩
  | .cospi o ftz => some ⟨0x1c6, modBits 8 0 0 ftz, 0, o⟩
  | .tanh o ftz => some ⟨0x1c7, modBits 8 0 0 ftz, 0, o⟩
  | .qswap o k => some ⟨0x200, modBits 0 k.code 0 false, 0, o⟩
  | .qbcast o => some ⟨0x201, modBits 0 0 0 false, 0, o⟩
  | .shfl o k => some ⟨0x202, modBits 0 k.code 0 false, 0, o⟩
  | .vote o k => some ⟨0x203, modBits 0 k.code 0 false, 0, o⟩
  | .ballot o => some ⟨0x204, modBits 0 0 0 false, 0, o⟩
  | .redgrp o k t => some ⟨0x205, modBits t.code k.code 0 false, 0, o⟩
  | .scangrp o k exc t => some ⟨0x206, modBits t.code (BitVec.ofBool exc ++ k.code) 0 false, 0, o⟩
  | .matchLanes o => some ⟨0x207, modBits 0 0 0 false, 0, o⟩
  | .ld o w => some ⟨0x240, modBits w.tyCode w.subCode 0 false, 0, o⟩
  | .st o w => some ⟨0x241, modBits 0 w.code 0 false, 0, o⟩
  | .ldnr o w k => some ⟨0x242, modBits w.tyCode w.subCode 0 false, k.setWidth 11, o⟩
  | .lds o w ord sc => some ⟨0x243, modBits 0 w.code ord.code false, sc.code.setWidth 11, o⟩
  | .sts o w ord sc => some ⟨0x244, modBits 0 w.code ord.code false, sc.code.setWidth 11, o⟩
  | .pref o => some ⟨0x245, modBits 0 0 0 false, 0, o⟩
  | .tld o w => some ⟨0x246, modBits 0 w.code 0 false, 0, o⟩
  | .tst o w => some ⟨0x247, modBits 0 w.code 0 false, 0, o⟩
  | .atom o k t ord sc e => some ⟨0x280, modBits t.code k.code ord.code false, (e ++ sc.code), o⟩
  | .atomcas o wide ord sc e => some ⟨0x281, modBits 0 (if wide then 3 else 2) ord.code false, (e ++ sc.code), o⟩
  | .atomf o k t ord sc e => some ⟨0x282, modBits t.code (k.code.setWidth 3) ord.code false, (e ++ sc.code), o⟩
  | .fence o ord sc => some ⟨0x2c0, modBits 0 0 ord.code false, sc.code.setWidth 11, o⟩
  | .phase o => some ⟨0x2c1, modBits 0 0 0 false, 0, o⟩
  | .barinit o sc => some ⟨0x2c2, modBits 0 0 0 false, sc.code.setWidth 11, o⟩
  | .bararr o sc => some ⟨0x2c3, modBits 0 0 0 false, sc.code.setWidth 11, o⟩
  | .bardrop o sc => some ⟨0x2c4, modBits 0 0 0 false, sc.code.setWidth 11, o⟩
  | .barexp o sc => some ⟨0x2c5, modBits 0 0 0 false, sc.code.setWidth 11, o⟩
  | .wait o all => some ⟨0x2c6, modBits 0 (bit3 all) 0 false, 0, o⟩
  | .batch o => some ⟨0x2c7, modBits 0 0 0 false, 0, o⟩
  | .htest o => some ⟨0x2c8, modBits 0 0 0 false, 0, o⟩
  | .cancel o => some ⟨0x2c9, modBits 0 0 0 false, 0, o⟩
  | .enq o => some ⟨0x300, modBits 0 0 0 false, 0, o⟩
  | .deq o => some ⟨0x301, modBits 0 0 0 false, 0, o⟩
  | .copy o bar => some ⟨0x302, modBits 0 (bit3 bar.isSome) 0 false, (bar.getD 0).setWidth 11, o⟩
  | .copyt o bar => some ⟨0x303, modBits 0 (bit3 bar.isSome) 0 false, (bar.getD 0).setWidth 11, o⟩
  | .gather o bar => some ⟨0x304, modBits 0 (bit3 bar.isSome) 0 false, (bar.getD 0).setWidth 11, o⟩
  | .scatter o bar => some ⟨0x305, modBits 0 (bit3 bar.isSome) 0 false, (bar.getD 0).setWidth 11, o⟩
  | .coll o k t => some ⟨0x306, modBits t.code (k.code.setWidth 3) 0 false, 0, o⟩
  | .gang o => some ⟨0x340, modBits 0 0 0 false, 0, o⟩
  | .mma o w fmt => some ⟨0x341, modBits 0 (bit3 w) 0 false, fmt.setWidth 11, o⟩
  | .mzero o w => some ⟨0x342, modBits 0 (bit3 w) 0 false, 0, o⟩
  | .mldt o w => some ⟨0x343, modBits 0 (bit3 w) 0 false, 0, o⟩
  | .msto o w => some ⟨0x344, modBits 0 (bit3 w) 0 false, 0, o⟩
  | .msta o w fmt => some ⟨0x345, modBits 0 (bit3 w) 0 false, fmt.setWidth 11, o⟩
  | .mmov o w => some ⟨0x346, modBits 0 (bit3 w) 0 false, 0, o⟩
  | .mpois o => some ⟨0x347, modBits 0 0 0 false, 0, o⟩
  | .syscall o => some ⟨0x380, modBits 0 0 0 false, 0, o⟩
  | .trap o => some ⟨0x381, modBits 0 0 0 false, 0, o⟩
  | .tret o => some ⟨0x382, modBits 0 0 0 false, 0, o⟩
  | .setperf o => some ⟨0x383, modBits 0 0 0 false, 0, o⟩
  | .edit o f => some ⟨0x384, modBits 0 0 0 f, 0, o⟩
  | .notify o => some ⟨0x385, modBits 0 0 0 false, 0, o⟩
  | .brk o => some ⟨0x386, modBits 0 0 0 false, 0, o⟩
  | .dbgmark o => some ⟨0x387, modBits 0 0 0 false, 0, o⟩
  | .tokrd o => some ⟨0x388, modBits 0 0 0 false, 0, o⟩
  | _ => none

/-- The instruction whose fields are `r`, its checks not yet made. -/
def Raw.instr (r : Raw) : Instr :=
  let h := Hints.ofField r.h
  let lay := (r.build (Op.always h)).shape.x
  r.build
    { guard := Guard.ofField r.grd, d := Operand.ofField lay r.x r.d,
      a := Operand.ofField lay r.x r.a, b := Operand.ofField lay r.x r.b, hints := h }

/-- A field of an operand as encoded from the instruction agrees with the word's: all of it where
the form does not use the field, else its class (R165, R181 check 4). -/
def Slot.sameClass (sl : Slot) (o : Operand) (f : BitVec 12) : Bool :=
  if sl == Slot.unused then f == 0xE00 else o.cls == f.extractLsb' 9 3

/-- The checks of R181 on the fields of a word and the instruction read from them, in order. -/
def Raw.check (regs : Nat) (r : Raw) (i : Instr) (p : Parts) : Option Reject :=
  let sh := i.shape
  let o := p.o
  let movi := sh.x == .xl
  if !(p.mod == r.mod && i.modsOk &&
      (match i with | .cvt .. => p.x.setWidth 4 == r.x.setWidth 4 | _ => true)) then some .modField
  else if !(o.guard.ok sh) then some .guard
  else if !(sh.d.sameClass o.d r.d && (movi || (sh.a.sameClass o.a r.a && sh.b.sameClass o.b r.b))
      && o.classesOk sh) then some .operandClass
  else if !(o.d.field == r.d && (movi || (o.a.field == r.a && o.b.field == r.b))
      && i.bitsOk regs o) then some .operandBits
  else if !(sh.x.bits p.x o == r.x && o.xOk sh) then some .xLayout
  else if !(o.hints.ok sh.ll) then some .hint
  else none

/-- Decode one word for a launch with `regs` declared registers (R181). -/
def decodeWord (regs : Nat) (w : BitVec 96) : Except Reject Instr :=
  let r := Raw.ofWord w
  if !assigned r.op then .ok (.unassignedOpcode r.op)
  else
    match r.instr with
    | .nop h => if h.set1 == 0 && h.set2 == 0 then .ok (.nop h) else .error .hint
    | i =>
      match i.parts with
      | none => .error .modField
      | some p =>
        match r.check regs i p with
        | some e => .error e
        | none => .ok i

/-- The word of 12 bytes, lowest address first (R4, R162). -/
def wordOfBytes : List Byte → Nat
  | [] => 0
  | b :: bs => b.toNat + 256 * wordOfBytes bs

/-- Decode the first 12 bytes of a list (R4, R162). -/
def decodeBytes (regs : Nat) (bs : List Byte) : Except Reject (Instr × List Byte) :=
  if bs.length < 12 then .error .truncated
  else
    match decodeWord regs (BitVec.ofNat 96 (wordOfBytes (bs.take 12))) with
    | .ok i => .ok (i, bs.drop 12)
    | .error e => .error e

/-! ## Encoding -/

/-- The word of an instruction; 0 for a step that is no word. -/
def encode (i : Instr) : BitVec 96 :=
  match i.parts with
  | some p =>
    let r : Raw :=
      { op := p.op, mod := p.mod, grd := p.o.guard.field, d := p.o.d.field, a := p.o.a.field,
        b := p.o.b.field, x := i.shape.x.bits p.x p.o, h := p.o.hints.field }
    match i with
    | .movi _ value =>
      Raw.toWord { r with a := value.extractLsb' 20 12, b := value.extractLsb' 8 12 }
    | _ => r.toWord
  | none =>
    match i with
    | .unassignedOpcode op =>
      Raw.toWord { op, mod := 0, grd := 0, d := 0, a := 0, b := 0, x := 0, h := 0 }
    | _ => 0

/-- `n` bytes of a number, lowest first (R4). -/
def bytesOf : Nat → Nat → List Byte
  | 0, _ => []
  | n + 1, x => BitVec.ofNat 8 x :: bytesOf n (x / 256)

/-- The 12 bytes of an instruction, lowest address first. -/
def encodeBytes (i : Instr) : List Byte := bytesOf 12 (encode i).toNat

/-- The instruction a word of the opcode table gives: the word's bytes in the order the hardware
stores them, all bits above `nbits` zero, read by the decoder with every register declared. -/
def decodeTableWord (nbits w : Nat) : Option Instr :=
  match decodeBytes 256 (bytesOf 12 (w % 2 ^ nbits)) with
  | .ok (i, _) => some i
  | .error _ => none

end Sys2Proof
end

