-- ==== Sys2Proof/Machine/Float.lean ====
section
/-! DEFINITION. Number formats and exact arithmetic (R134 to R141). A value is taken apart into a
`FpVal`, operated on exactly, and rounded once by `Fmt.round`. The special functions of R217 are
computed in fixed point to far more bits than FP32 holds, with a sticky bit below. -/

namespace Sys2Proof.Machine

/-- The flags of SR.FPX (R137). -/
abbrev Fpx := BitVec 6

def fpxIV : Fpx := 1
def fpxDZ : Fpx := 2
def fpxOF : Fpx := 4
def fpxUF : Fpx := 8
def fpxIX : Fpx := 16
def fpxFZ : Fpx := 32

/-- A floating-point format: exponent and fraction bits (R134). -/
structure Fmt where
  eb : Nat
  fb : Nat
deriving DecidableEq, Repr

def Fmt.f32 : Fmt := ⟨8, 23⟩
def Fmt.f16 : Fmt := ⟨5, 10⟩
def Fmt.bf16 : Fmt := ⟨8, 7⟩

/-- The format of a float type code. -/
def fmtOf : Ty → Fmt
  | .h => .f16
  | .bf => .bf16
  | _ => .f32

def Fmt.bias (f : Fmt) : Int := 2 ^ (f.eb - 1) - 1
/-- Least exponent of a normal number. -/
def Fmt.emin (f : Fmt) : Int := 1 - f.bias
def Fmt.expMax (f : Fmt) : Nat := 2 ^ f.eb - 1
/-- Sign, exponent field and fraction put together. -/
def Fmt.pack (f : Fmt) (neg : Bool) (e m : Nat) : Word :=
  BitVec.ofNat 32 ((if neg then 2 ^ (f.eb + f.fb) else 0) + e * 2 ^ f.fb + m)
/-- Canonical NaNs (R134). -/
def Fmt.nan (f : Fmt) : Word := f.pack false f.expMax (2 ^ (f.fb - 1))
def Fmt.inf (f : Fmt) (neg : Bool) : Word := f.pack neg f.expMax 0
def Fmt.one (f : Fmt) : Word := f.pack false f.bias.toNat 0

/-- A floating-point value: NaN (signalling or not), infinity, or ± man × 2^exp. -/
inductive FpVal where
  | nan (signalling : Bool)
  | inf (neg : Bool)
  | fin (neg : Bool) (man : Nat) (exp : Int)
deriving DecidableEq, Repr

/-- The value of the low bits of a register (R134). -/
def Fmt.val (f : Fmt) (w : Word) : FpVal :=
  let x := w.toNat
  let neg := x / 2 ^ (f.eb + f.fb) % 2 == 1
  let e := x / 2 ^ f.fb % 2 ^ f.eb
  let m := x % 2 ^ f.fb
  if e = f.expMax then
    if m = 0 then .inf neg else .nan (m < 2 ^ (f.fb - 1))
  else if e = 0 then .fin neg m (f.emin - f.fb)
  else .fin neg (m + 2 ^ f.fb) ((e : Int) - f.bias - f.fb)

def FpVal.isNan : FpVal → Bool
  | .nan _ => true
  | _ => false
def FpVal.isSnan : FpVal → Bool
  | .nan s => s
  | _ => false
def FpVal.neg : FpVal → Bool
  | .nan _ => false
  | .inf n => n
  | .fin n _ _ => n
def FpVal.isZero : FpVal → Bool
  | .fin _ 0 _ => true
  | _ => false
def FpVal.negate : FpVal → FpVal
  | .nan s => .nan s
  | .inf n => .inf (!n)
  | .fin n m e => .fin (!n) m e

/-- IV for a signalling NaN among the inputs (R135, R137). -/
def snanFlag (xs : List FpVal) : Fpx := if xs.any FpVal.isSnan then fpxIV else 0

def bitLen (n : Nat) : Nat := if n = 0 then 0 else Nat.log2 n + 1

/-- Whether a magnitude is rounded up: its kept part odd, its discarded part against one half, its
sign (R170). -/
def roundsUp (r : Rnd) (neg odd : Bool) (lo half : Nat) : Bool :=
  match r with
  | .rn => half < lo || (lo == half && odd)
  | .rz => false
  | .rd => neg && lo != 0
  | .ru => !neg && lo != 0

/-- man × 2^exp as a multiple of 2^q rounded under `r`, and whether it was inexact. -/
def quantise (r : Rnd) (neg : Bool) (man : Nat) (exp q : Int) : Nat × Bool :=
  if q ≤ exp then (man * 2 ^ (exp - q).toNat, false)
  else
    let sh := (q - exp).toNat
    let kept := man / 2 ^ sh
    let lo := man % 2 ^ sh
    (if roundsUp r neg (kept % 2 == 1) lo (2 ^ (sh - 1)) then kept + 1 else kept, lo != 0)

/-- round_F of an exact finite value, with the flags of R137; `ftz` as in R136, R207. -/
def Fmt.roundFin (f : Fmt) (r : Rnd) (ftz neg : Bool) (man : Nat) (exp : Int) : Word × Fpx :=
  if man = 0 then (f.pack neg 0 0, 0)
  else
    let top := exp + bitLen man - 1
    let q := max top f.emin - f.fb
    let (m, inexact) := quantise r neg man exp q
    let carry := 2 ^ (f.fb + 1) ≤ m
    let m := if carry then m / 2 else m
    let q := if carry then q + 1 else q
    let e : Int := if 2 ^ f.fb ≤ m then q + f.fb + f.bias else 0
    if f.expMax ≤ e then
      (match r, neg with
        | .rn, _ | .rd, true | .ru, false => f.inf neg
        | _, _ => f.pack neg (f.expMax - 1) (2 ^ f.fb - 1), fpxOF ||| fpxIX)
    else if e = 0 && ftz then (f.pack neg 0 0, fpxUF ||| fpxIX)
    else
      (f.pack neg e.toNat (m % 2 ^ f.fb),
        (if inexact then fpxIX else 0) ||| (if inexact && e == 0 then fpxUF else 0))

/-- round_F with NaN and infinity (R135). -/
def Fmt.round (f : Fmt) (r : Rnd) (ftz : Bool) : FpVal → Word × Fpx
  | .nan _ => (f.nan, 0)
  | .inf n => (f.inf n, 0)
  | .fin n m e => f.roundFin r ftz n m e

/-- `.ftz` on an input: a subnormal becomes the zero of its sign and raises FZ (R136). -/
def Fmt.flush (f : Fmt) (ftz : Bool) (x : FpVal) : FpVal × Fpx :=
  match x with
  | .fin n m e =>
    if ftz && m != 0 && e + bitLen m - 1 < f.emin then (.fin n 0 e, fpxFZ) else (x, 0)
  | _ => (x, 0)

/-- x + y, exact; the sign of an exact zero sum by rounding mode (R207). IV for ∞ − ∞. -/
def FpVal.add (r : Rnd) (x y : FpVal) : FpVal × Fpx :=
  match x, y with
  | .nan _, _ | _, .nan _ => (.nan false, 0)
  | .inf a, .inf b => if a == b then (.inf a, 0) else (.nan false, fpxIV)
  | .inf a, _ | _, .inf a => (.inf a, 0)
  | .fin nx mx ex, .fin ny my ey =>
    let e := min ex ey
    let vx : Int := (mx * 2 ^ (ex - e).toNat : Nat)
    let vy : Int := (my * 2 ^ (ey - e).toNat : Nat)
    let v := (if nx then -vx else vx) + (if ny then -vy else vy)
    if v = 0 then
      (.fin (if mx = 0 && my = 0 && nx == ny then nx else r == .rd) 0 e, 0)
    else (.fin (v < 0) v.natAbs e, 0)

/-- x × y, exact; IV for 0 × ∞. -/
def FpVal.mul (x y : FpVal) : FpVal × Fpx :=
  match x, y with
  | .nan _, _ | _, .nan _ => (.nan false, 0)
  | .inf a, .inf b => (.inf (a != b), 0)
  | .inf a, .fin b m _ | .fin b m _, .inf a => if m = 0 then (.nan false, fpxIV) else (.inf (a != b), 0)
  | .fin a m e, .fin b n k => (.fin (a != b) (m * n) (e + k), 0)

/-- A total order on values with −0 below +0; NaN is not compared. -/
def FpVal.lt (x y : FpVal) : Bool :=
  match x, y with
  | .inf a, .inf b => a && !b
  | .inf a, .fin .. => a
  | .fin .., .inf b => !b
  | .fin nx mx ex, .fin ny my ey =>
    let e := min ex ey
    let vx := mx * 2 ^ (ex - e).toNat
    let vy := my * 2 ^ (ey - e).toNat
    match nx, ny with
    | true, false => true
    | false, true => false
    | false, false => vx < vy
    | true, true => vy < vx
  | _, _ => false

/-- Equality of values: zeros of either sign are equal. -/
def FpVal.same (x y : FpVal) : Bool :=
  match x, y with
  | .nan _, _ | _, .nan _ => false
  | _, _ => (x.isZero && y.isZero) || (!x.lt y && !y.lt x)

/-- The comparisons of R209. -/
def cmpHoldsF (c : Cmp) (x y : FpVal) : Bool :=
  let nan := x.isNan || y.isNan
  let less (u v : FpVal) := u.lt v && !(u.isZero && v.isZero)
  match c with
  | .eq => x.same y
  | .ne => !x.same y
  | .lt => !nan && less x y
  | .le => !nan && (less x y || x.same y)
  | .gt => !nan && less y x
  | .ge => !nan && (less y x || x.same y)
  | .num => !nan
  | .nan => nan

/-- The value rounded to an integer under `r`, clamped to lo … hi, and its flags (R214). -/
def FpVal.toInt (r : Rnd) (lo hi : Int) : FpVal → Int × Fpx
  | .nan _ => (0, fpxIV)
  | .inf n => (if n then lo else hi, fpxIV)
  | .fin n m e =>
    let (k, inexact) := quantise r n m e 0
    let v : Int := if n then -(k : Int) else k
    if v < lo then (lo, fpxIV) else if hi < v then (hi, fpxIV)
    else (v, if inexact then fpxIX else 0)

/-- An integer as a value. -/
def FpVal.ofInt (v : Int) : FpVal := .fin (v < 0) v.natAbs 0

/-- Clamp to [+0, 1.0], NaN to +0 (R207, R214). -/
def FpVal.clamp01 (x : FpVal) : FpVal :=
  match x with
  | .nan _ => .fin false 0 0
  | .inf n => if n then .fin false 0 0 else .fin false 1 0
  | .fin true _ _ => .fin false 0 0
  | .fin false m e => if FpVal.lt (.fin false 1 0) (.fin false m e) then .fin false 1 0 else x

/-! ## Tapered formats (R139 to R141) -/

/-- Magnitude bits of a tapered type. -/
def taperBits : Ty → Nat
  | .t6 => 5
  | _ => 7

/-- Length of the run of bits equal to `lead` from bit `n − 1` of m downwards. -/
def runLength (m : Nat) (lead : Bool) : Nat → Nat
  | 0 => 0
  | n + 1 => if m.testBit n == lead then runLength m lead n + 1 else 0

/-- The magnitude of a nonzero m as significand and exponent (R139). -/
def taperMag (n m : Nat) : Nat × Int :=
  let lead := m.testBit (n - 1)
  let k := runLength m lead n
  let rem := if k = n then 0 else n - k - 1
  let r : Int := if lead then (k : Int) - 1 else -(k : Int)
  let e : Int := if rem = 0 then 0 else if m.testBit (rem - 1) then 1 else 0
  let w := rem - 1
  (2 ^ w + m % 2 ^ w, 2 * r + e - w)

/-- Tapered decode (R139). -/
def taperNum (t : Ty) (code : Nat) : FpVal :=
  let n := taperBits t
  let neg := code.testBit n
  let m := code % 2 ^ n
  if m = 0 then (if neg then .nan false else .fin false 0 0)
  else let (s, e) := taperMag n m; .fin neg s e

/-- The m of 1 … top whose magnitude is nearest, ties to even m (R141). -/
def nearestMag (n : Nat) (man : Nat) (exp : Int) : Nat → Nat
  | 0 => 1
  | 1 => 1
  | m + 2 =>
    let p := nearestMag n man exp (m + 1)
    let e := min exp (-16)
    let x := man * 2 ^ (exp - e).toNat
    let at' (k : Nat) := let (s, se) := taperMag n k; s * 2 ^ (se - e).toNat
    let dist (k : Nat) := (at' k - x) + (x - at' k)
    if dist (m + 2) < dist p || (dist (m + 2) == dist p && m % 2 == 0) then m + 2 else p

/-- round_T8 and round_T6 (R141). -/
def taperRound (t : Ty) (x : FpVal) : Word × Fpx :=
  let n := taperBits t
  let top := 2 ^ n - 1
  let sign (neg : Bool) := if neg then 2 ^ n else 0
  match x with
  | .nan s => (BitVec.ofNat 32 (2 ^ n), if s then fpxIV else 0)
  | .inf neg => (BitVec.ofNat 32 (sign neg + top), fpxIX)
  | .fin neg man exp =>
    if man = 0 then (0, 0)
    else
      let m := nearestMag n man exp top
      let (s, e) := taperMag n m
      (BitVec.ofNat 32 (sign neg + m), if FpVal.same (.fin false s e) (.fin false man exp) then 0 else fpxIX)

/-! ## Special functions (R217, R218) -/

/-- Bits after the point in the fixed-point computations. -/
def fixBits : Nat := 640
def fixOne : Nat := 2 ^ fixBits

/-- A positive fixed-point result that lies strictly between two grid points. -/
def stickyNum (neg : Bool) (x : Nat) (bits : Nat) : FpVal := .fin neg (2 * x + 1) (-(bits : Int) - 1)

/-- Greatest r with r² ≤ n, from its bits. -/
def isqrtBits (n : Nat) : Nat → Nat → Nat
  | 0, r => r
  | k + 1, r =>
    let r' := r + 2 ^ k
    isqrtBits n k (if r' * r' ≤ n then r' else r)

/-- Σ of y^k ÷ k! from the term of index k on, in fixed point. -/
def expSeries (y : Nat) : Nat → Nat → Nat → Nat
  | 0, _, _ => 0
  | fuel + 1, k, term => term + expSeries y fuel (k + 1) (term * y / fixOne / (k + 1))

/-- e^y for 0 ≤ y < 1. -/
def fixExp (y : Nat) : Nat := expSeries y 130 0 fixOne

/-- Σ of ± x^(2k+1) ÷ (2k+1) for x = 1 ÷ d. -/
def atanSeries (d : Nat) (alternate : Bool) : Nat → Nat → Nat → Int
  | 0, _, _ => 0
  | fuel + 1, k, p =>
    let t : Int := (p / (2 * k + 1) : Nat)
    (if alternate && k % 2 == 1 then -t else t) + atanSeries d alternate fuel (k + 1) (p / (d * d))

/-- ln 2 = 2 atanh(1/3). -/
def fixLn2 : Nat := (2 * atanSeries 3 false 210 0 (fixOne / 3)).toNat

/-- π = 16 atan(1/5) − 4 atan(1/239). -/
def fixPi : Nat :=
  (16 * atanSeries 5 true 145 0 (fixOne / 5) - 4 * atanSeries 239 true 45 0 (fixOne / 239)).toNat

/-- Σ of (−1)^k y^(2k+j) ÷ (2k+j)! with the first term given. -/
def trigSeries (y : Nat) : Nat → Nat → Nat → Int
  | 0, _, _ => 0
  | fuel + 1, j, term =>
    (term : Int) - trigSeries y fuel (j + 2) (term * y / fixOne * y / fixOne / ((j + 1) * (j + 2)))

/-- sin(π q ÷ 2^bits) and cos(π q ÷ 2^bits) for 0 ≤ q ÷ 2^bits ≤ 1/2, in fixed point. -/
def fixSinPi (q : Nat) : Nat := let y := fixPi * q / fixOne; (trigSeries y 75 1 y).toNat
def fixCosPi (q : Nat) : Nat := let y := fixPi * q / fixOne; (trigSeries y 75 0 fixOne).toNat

/-- man × 2^exp in fixed point, for exp ≥ −fixBits. -/
def toFix (man : Nat) (exp : Int) : Nat :=
  man * 2 ^ (exp + fixBits).toNat

/-- sin(π x) of a magnitude: the fraction of x modulo 2 in quarter turns. -/
def sinPiFix (x : Nat) : FpVal :=
  let x := x % (2 * fixOne)
  let neg := fixOne ≤ x
  let y := x % fixOne
  let y := if fixOne < 2 * y then fixOne - y else y
  if y = 0 then .fin neg 0 0
  else if 2 * y = fixOne then .fin neg 1 0
  else stickyNum neg (if 4 * y ≤ fixOne then fixSinPi y else fixCosPi (fixOne / 2 - y)) fixBits

/-- Bits of log₂ m for 1 ≤ m < 2 by repeated squaring, m in fixed point. -/
def log2Bits : Nat → Nat → Nat → Nat
  | 0, _, acc => acc
  | k + 1, m, acc =>
    let sq := m * m / fixOne
    if 2 * fixOne ≤ sq then log2Bits k (sq / 2) (2 * acc + 1) else log2Bits k sq (2 * acc)

def rcpNum (neg : Bool) (m : Nat) (e : Int) : FpVal :=
  let k : Nat := 80 + bitLen m
  let q := 2 ^ k / m
  if 2 ^ k % m = 0 then .fin neg q (-e - k) else .fin neg (2 * q + 1) (-e - k - 1)

def sqrtNum (m : Nat) (e : Int) : FpVal :=
  let odd := e % 2 ≠ 0
  let m := (if odd then 2 * m else m) * 2 ^ 80
  let e := ((if odd then e - 1 else e) - 80) / 2
  let r := isqrtBits m 64 0
  if r * r = m then .fin false r e else .fin false (2 * r + 1) (e - 1)

def rsqNum (m : Nat) (e : Int) : FpVal :=
  let odd := e % 2 ≠ 0
  let m := if odd then 2 * m else m
  let e := (if odd then e - 1 else e) / 2
  let t : Nat := 80
  let r := isqrtBits (2 ^ (2 * t) / m) 90 0
  if r * r * m = 2 ^ (2 * t) then .fin false r (-e - t) else .fin false (2 * r + 1) (-e - t - 1)

def log2Num (m : Nat) (e : Int) : FpVal :=
  let k : Nat := bitLen m - 1
  let n : Int := e + k
  if m = 2 ^ k then .ofInt n
  else
    let bits := 240
    let v : Int := n * 2 ^ bits + (log2Bits bits (m * 2 ^ (fixBits - k)) 0 : Nat)
    if v < 0 then stickyNum true (v.natAbs - 1) bits else stickyNum false v.toNat bits

def exp2Num (neg : Bool) (m : Nat) (e : Int) : FpVal :=
  if 9 ≤ e + bitLen m then .fin false 1 (if neg then -400 else 400)
  else
    let x : Int := if neg then -(toFix m e : Int) else toFix m e
    let n := x / fixOne
    let f := (x % fixOne).toNat
    if f = 0 then .fin false 1 n
    else .fin false (2 * fixExp (f * fixLn2 / fixOne) + 1) (n - fixBits - 1)

def tanhNum (neg : Bool) (m : Nat) (e : Int) : FpVal :=
  let x := if 6 ≤ e + bitLen m then 32 * fixOne else toFix m e
  -- e^(−2x) as the 128th power of e^(−x ÷ 64)
  let p := fixOne * fixOne / fixExp (x / 64)
  let sq (y : Nat) := y * y / fixOne
  let y := sq (sq (sq (sq (sq (sq (sq p))))))
  stickyNum neg ((fixOne - y) * fixOne / (fixOne + y)) fixBits

def sinPiNum (neg : Bool) (m : Nat) (e : Int) : FpVal :=
  -- an integer gives a zero with the sign of a
  match sinPiFix (toFix m e) with
  | .fin _ 0 _ => .fin neg 0 0
  | r => if neg then r.negate else r

def cosPiNum (m : Nat) (e : Int) : FpVal :=
  match sinPiFix (toFix m e + fixOne / 2) with
  | .fin _ 0 _ => .fin false 0 0
  | r => r

end Sys2Proof.Machine
end

