-- ==== Sys2Proof/Machine/Sparse.lean ====
section
/-! DEFINITION. Sparse tables and memories in one canonical form: keys strictly rising and no entry
equal to the default `d` that an unlisted key reads as. -/

namespace Sys2Proof.Machine

variable {α : Type} [DecidableEq α]

/-- The entry of a key. -/
def look (d : α) : Sparse α → Nat → α
  | [], _ => d
  | (j, x) :: m, k => if k = j then x else look d m k

/-- Add an entry at its place. -/
def insertAt : Sparse α → Nat → α → Sparse α
  | [], k, x => [(k, x)]
  | (j, y) :: m, k, x => if k < j then (k, x) :: (j, y) :: m else (j, y) :: insertAt m k x

/-- Drop the entry of a key. -/
def drop (m : Sparse α) (k : Nat) : Sparse α := m.filter fun e => e.1 != k

/-- Write an entry; the default removes it. -/
def put (d : α) (m : Sparse α) (k : Nat) (x : α) : Sparse α :=
  if x = d then drop m k else insertAt (drop m k) k x

/-- Keys strictly rising. -/
def rising : Sparse α → Bool
  | [] => true
  | [_] => true
  | (j, _) :: (k, x) :: m => j < k && rising ((k, x) :: m)

/-- The canonical form. -/
def canonical (d : α) (m : Sparse α) : Bool := rising m && m.all fun e => e.2 != d

/-- An entry of a table of optional records, with the record's default where there is none. -/
def get [Inhabited α] (m : Sparse (Option α)) (k : Nat) : α := (look none m k).getD default

/-- Write a record. -/
def set (m : Sparse (Option α)) (k : Nat) (x : α) : Sparse (Option α) := put none m k (some x)

/-- Keys with an entry. -/
def keys (m : Sparse α) : List Nat := m.map (·.1)

/-- Entries of `n` keys from `k` on. -/
def lookRange (d : α) (m : Sparse α) (k n : Nat) : List α := (List.range n).map fun i => look d m (k + i)

/-- Write consecutive entries from `k` on. -/
def putList (d : α) : Sparse α → Nat → List α → Sparse α
  | m, _, [] => m
  | m, k, x :: xs => putList d (put d m k x) (k + 1) xs

/-! Masks as sets of lanes. -/

/-- Lanes of a mask, ascending. -/
def lanesOf (m : LaneMask) : List Nat := (List.range 64).filter fun l => m.getLsbD l

/-- The mask of some lanes. -/
def maskOf (ls : List Nat) : LaneMask := ls.foldl (fun m l => m ||| (1#64 <<< l)) 0

def popcount (m : LaneMask) : Nat := (lanesOf m).length

/-- Quads with a lane in the mask (R20). -/
def quads (m : LaneMask) : Nat :=
  ((List.range 16).filter fun q => (m >>> (4 * q)) &&& 0xF#64 != 0).length

end Sys2Proof.Machine
end

