-- ==== Sys2Proof/Machine/State.lean ====
section
/-! DEFINITION. The state of the part: every piece of state the spec gives it, as plain data, and
the state right after reset. A field's docstring names the rule of spec/ that gives it and its value
at reset ("reset: …"). Registers of groups, clusters and records that do not exist at reset have the
value they take when they come into being ("at residency: …", "at start: …"). -/

namespace Sys2Proof.Machine

/-- Addressed bytes in canonical form: addresses strictly rising, no byte equal to what an unlisted
address reads as (`Memory.unlisted`). -/
abbrev Memory := List Host.Cell

/-- Why the machine stops. No program's data stops it; see NOTES.md, Stops. -/
inductive Fault where
  /-- Raised by `step` alone, for a plane issue on the agenda whose split is not resident. Only states that no
  run reaches hold one. Safe: the machine stops. -/
  | noIssuer
deriving DecidableEq, Repr

/-- Why a step has no meaning. -/
inductive Refusal where
  /-- Raised by `exec` for an instruction without a meaning yet. Safe: the machine stops. -/
  | notModelled (mnemonic : String)
deriving DecidableEq, Repr

/-- Where a byte is: device memory by canonical physical address, memory outside the device, a peer
register, a workgroup's shared memory, a lane's stack. -/
inductive Loc where
  | dev (k : Nat)
  | ext (k : Nat)
  | mmio (k : Nat)
  | shared (wg off : Nat)
  | stack (group off : Nat)
deriving DecidableEq, Repr, Inhabited

/-! ## Groups -/

/-- One stacked part of a group, or a split's place (R32). -/
structure StackEntry where
  /-- lanes of the part -/
  mask : LaneMask
  /-- offset at which they continue -/
  offset : Nat
  /-- region of that offset -/
  region : Nat
  /-- divided from the split that entered the handler (R30) -/
  handler : Bool
deriving DecidableEq, Repr, Inhabited

/-- A link-stack entry (R230). -/
structure Link where
  /-- region number -/
  region : Nat
  /-- offset of the return point -/
  offset : Nat
deriving DecidableEq, Repr, Inhabited

/-- Where a lane goes from an offset (R29, R229). -/
inductive Dest where
  | to (region offset : Nat)
  | gone
deriving DecidableEq, Repr, Inhabited

/-- A split between the plane issues of one offset (R34, R39, R235): the planes still to issue with
their masks, the next places recorded so far, and the plane numbers set so far. -/
structure Mid where
  /-- planes still to issue, ascending, with their masks -/
  todo : List (Nat × LaneMask)
  /-- where each lane goes next, by lane -/
  dests : Sparse Dest
  /-- plane numbers set by PLANE, in force from the next offset (R235), by lane -/
  planes : Sparse Nat
  /-- a plane issue of the offset has been made (R35, R371, R417) -/
  begun : Bool
deriving DecidableEq, Repr, Inhabited

/-- The registers of a group as a plane issue reads them (R103). -/
structure Snap where
  /-- V registers -/
  v : Sparse Word
  /-- S registers -/
  s : Sparse Word
  /-- predicates -/
  p : Sparse LaneMask
deriving DecidableEq, Repr, Inhabited

/-- Condition kinds (R259). -/
inductive CondKind where
  | phase | handle | monitor | time
deriving DecidableEq, Repr, Inhabited

/-- One condition of a WAIT (R259), with the tick at which it was met (R260). -/
structure Cond where
  /-- what the condition tests -/
  kind : CondKind
  /-- its address, handle or time -/
  addr : DWord
  /-- the value or phase compared with -/
  value : Word
  /-- the not-equal comparison -/
  ne : Bool
  /-- scope of its acquire -/
  scope : Scope
  /-- whether it acquires -/
  acq : Bool
  /-- the tick at which it was met, if it has been -/
  met : Option Nat
  /-- the tick of its last test by a read: the WAIT's issue, or a read of host memory (R260) -/
  tested : Nat
deriving DecidableEq, Repr, Inhabited

/-- Why a split is in WAIT (R49, R50). -/
inductive WaitKind where
  /-- an explicit WAIT with its result predicate -/
  | explicit (d : Operand)
  /-- SYSCALL waiting for a free slot of the call ring (R298): replies, arguments, call number -/
  | ringSlot (d a : Operand) (call : Nat)
  /-- SYSCALL waiting for STATUS of the call-ring slot (R298) -/
  | reply (d : Operand) (slot : Nat)
  /-- an MMA in the quadrille latch (R159) -/
  | latch
  /-- EDIT.f waiting for the edit port (R306) -/
  | port
  /-- a barrier form waiting for its bank (R258) -/
  | bank
  /-- MSTO, MSTA or MMOV out of a tile waiting for its rows (R288) -/
  | drain
  /-- stopped at a plane issue that performed nothing: a page is not resident (R370), or the MMA was withdrawn from the
  latch (R51) -/
  | page
  /-- at a plane issue that reads a register tagged with a pending handle (R50, R267): a condition for each such
  handle, its VALUE the register -/
  | handle
  /-- at a release at `.sys` whose boundary has been crossed, until the named requests are answered (R126); what it
  stores was read when it issued (R103, R105) -/
  | ack (tags : List Nat) (snap : Snap)
deriving DecidableEq, Repr, Inhabited

/-- A split in WAIT. `lanes` is the issuing mask after the guard, `offset`, `region` and `plane` the WAIT
word's place (R380, R421), `expiry` the tick of the time-out (R261). -/
structure Waiting where
  /-- why the split waits -/
  kind : WaitKind
  /-- conditions, in order -/
  conds : List Cond
  /-- all of them, or else any -/
  all : Bool
  /-- tick of the time-out (R261) -/
  expiry : Option Nat
  /-- issuing mask after the guard -/
  lanes : LaneMask
  /-- region of the WAIT word -/
  region : Nat
  /-- its offset -/
  offset : Nat
  /-- its plane -/
  plane : Nat
  /-- Y of the word whose issue has yet to complete (R176) -/
  yield : Bool
deriving DecidableEq, Repr, Inhabited

/-- A split (R28). -/
structure Split where
  /-- region of the program counter -/
  region : Nat
  /-- offset of the program counter -/
  offset : Nat
  /-- lanes of the split -/
  mask : LaneMask
  /-- `none` at an issue boundary -/
  mid : Option Mid
  /-- in WAIT, or else ready -/
  wait : Option Waiting
  /-- in the handler, or divided from the split that entered it (R30, R299) -/
  handler : Bool
deriving DecidableEq, Repr, Inhabited

/-- What the device holds of a trap being handled (R299 to R301): the mask at entry, the code and
detail for a dump (R410), whether the trapping issue counts as performed, the place of the trap and
the planes above the trapping one. -/
structure Handling where
  /-- lanes that entered the handler -/
  entry : LaneMask
  /-- fault code (R426) -/
  code : Nat
  /-- DETAIL of the fault record (R425) -/
  detail : Word
  /-- the trapping issue counts as performed (R299) -/
  done : Bool
  /-- region of the trapping word -/
  region : Nat
  /-- its offset -/
  offset : Nat
  /-- address of the trap frame (R300) -/
  frame : Nat
  /-- the planes above the trapping one, to go on with at TRET (R301) -/
  mid : Mid
deriving DecidableEq, Repr, Inhabited

/-- One register write of a result. -/
inductive Write where
  | v (reg lane : Nat) (x : Word)
  | s (reg : Nat) (x : Word)
  | p (reg lane : Nat) (x : Bool)
  /-- word or 16-bit element k of the tile that the result's tile form writes (R292, R295) -/
  | m (k : Nat) (x : Word)
deriving DecidableEq, Repr, Inhabited

/-- A replay record that waits for outside requests (R421): its kind, lane mask and payload in parts,
each with the outside request that supplies it, if any. -/
structure Pending where
  /-- record kind (R421) -/
  kind : Nat
  /-- lane mask -/
  mask : LaneMask
  /-- payload parts -/
  parts : List (Option Nat × List Byte)
deriving DecidableEq, Repr, Inhabited

/-- A long-latency result in flight (R174, R175): the writes not yet landed, the flags it named, the
floating-point flags it raises when written (R188), the requests outside the device it still waits
for, and its scoreboard entry (R417). -/
structure Result where
  /-- its number among the group's results (the model's own) -/
  id : Nat
  /-- writes not yet landed -/
  writes : List Write
  /-- first flag named, 0 none -/
  set1 : Nat
  /-- second flag named, 0 none -/
  set2 : Nat
  /-- floating-point flags to raise (R188) -/
  fpx : BitVec 6
  /-- tags of outside requests it waits for -/
  await : List Nat
  /-- held until the named unit finishes: an MMA, an EDIT, a tile form -/
  held : Bool
  /-- scoreboard code of the destination (R417) -/
  dest : Nat
  /-- region of the issuing word -/
  region : Nat
  /-- its offset -/
  offset : Nat
  /-- its plane -/
  plane : Nat
  /-- its replay record, while it waits -/
  log : Option Pending
  /-- the FCLK cycle of its cluster in which it falls, where a rule fixes one (R273, R305) -/
  due : Option Nat
deriving DecidableEq, Repr, Inhabited

/-- A batch of a group (R264 to R266): its sequence number, how many commands joined it and how many of them are
performed or stopped; `closed` once a BATCH closed it. -/
structure Batch where
  /-- SEQ -/
  seq : Nat
  /-- a BATCH has closed it -/
  closed : Bool
  /-- in the FCLK cycle that runs (R268) -/
  fresh : Bool
  /-- commands in it -/
  count : Nat
  /-- commands performed or stopped -/
  done : Nat
  /-- requests by which members wrote `.sys` memory, to be acknowledged (R129) -/
  tags : List Nat
  /-- a member that is no COLL (R131) -/
  whole : Bool
  /-- the buffers its COLLs name: address and bytes (R131) -/
  named : List (Nat × Nat)
deriving DecidableEq, Repr, Inhabited

/-- A resident or switched-out group. -/
structure Group where
  /-- CTX record id (SR.CTX, R166) -/
  ctx : Nat
  /-- PROG record id (SR.LAUNCH, R41) -/
  launch : Nat
  /-- workgroup key: index in `State.wgs` -/
  wg : Nat
  /-- SR.GROUP (R41) -/
  index : Nat
  /-- W (R17) -/
  width : Nat
  /-- declared register count (R165) -/
  regs : Nat
  /-- real lanes (R24) -/
  real : LaneMask
  /-- helper lanes (R24), SR.HELPER -/
  helper : LaneMask
  /-- lanes that have exited (R54); at residency: none -/
  exited : LaneMask
  /-- split slots 0 to 3 (R28) -/
  splits : Sparse (Option Split)
  /-- divergence stack, top first (R31); at residency: empty (R81) -/
  stack : List StackEntry
  /-- split budget, 2 or 4 (R28) -/
  budget : Nat
  /-- plane numbers by lane (R33); at residency: 0 (R81) -/
  planes : Sparse Nat
  /-- V registers at 64 r + lane; at residency: 0 (R81) -/
  v : Sparse Word
  /-- S0 to S127; at residency: R81 -/
  s : Sparse Word
  /-- P0 to P14; at residency: false in every lane (R81) -/
  p : Sparse LaneMask
  /-- completion-flag counts F1 to F12 (R174); at residency: clear (R81) -/
  flags : Sparse Nat
  /-- link stacks by lane, top first (R230); at residency: empty -/
  links : Sparse (List Link)
  /-- SR.FPX (R137); at residency: 0 (R81) -/
  fpx : BitVec 6
  /-- SR.GANG (R284); at residency: the group alone -/
  gang : Word
  /-- SETPERF hint (R73); at residency: the context's default -/
  hint : Nat
  /-- pending-handle tags by S register (R267); at residency: none -/
  tags : Sparse (Option Word)
  /-- SEQ of the next BATCH (R265); at residency: 1 -/
  nextSeq : Nat
  /-- the lane stacks: byte b of lane L at L × 2^32 + b (R100); at residency: zero -/
  stackMem : Memory
  /-- poisoned 32-byte sectors of the lane stacks (R423); at residency: none -/
  stackPoison : List Nat
  /-- STACK ÷ 256 (SR.STACKLIM, R100) -/
  stackLim : Nat
  /-- stack backing: device address and bytes (R43) -/
  backing : Nat × Nat
  /-- the trap being handled, if any (R299) -/
  handling : Option Handling
  /-- results in flight, oldest first (R174) -/
  inflight : List Result
  /-- number of the next result (the model's own); at residency: 0 -/
  nextResult : Nat
  /-- the FCLK cycle at which the age was last 0 (R46) -/
  ageBase : Nat
  /-- tokens drawn in this round (R68) -/
  drawn : Nat
  /-- charges refused in the round's last FCLK cycle (R68) -/
  refused : Nat
  /-- not picked before this cycle because of the yield hint (R176) -/
  yieldUntil : Nat
  /-- withheld by a watchpoint (R412): its number, and the split slot of the issue -/
  held : Option (Nat × Nat)
  /-- the split slots whose withheld issues go on untested (R412) -/
  released : List Nat
  /-- requests that a FENCE releasing at `.sys` orders later accesses behind (R126, R255); at residency: none -/
  fence : List Nat
  /-- register fields and lanes whose value an error destroyed and nothing has read since (R423); at residency: none -/
  lost : List (Nat × Nat)
  /-- device addresses of barrier objects of scope `.cl` or wider at which the group has arrived, each with
  the phase it arrived in (R53, R115); at residency: none -/
  joined : List (Nat × Nat)
deriving DecidableEq, Repr, Inhabited

/-- Where a workgroup stands (R51, R370). -/
inductive WgState where
  | running
  /-- stopping for the named reason: pre-emption, switch-out, drain -/
  | stopping
  /-- saved away; `missing` counts what it waits for -/
  | away
deriving DecidableEq, Repr, Inhabited

/-- A workgroup (R17, R18). -/
structure Workgroup where
  /-- PROG record id -/
  launch : Nat
  /-- CTX record id -/
  ctx : Nat
  /-- SR.WG -/
  index : Nat
  /-- core number 4 × cluster + core, while placed (R42) -/
  core : Nat
  /-- running, stopping or away -/
  state : WgState
  /-- its groups' hardware slots h (R375), by group index -/
  groups : List Nat
  /-- retired groups, by index (R54) -/
  retired : List Nat
  /-- shared-memory window (R99); when allotted: zero -/
  shared : Memory
  /-- poisoned sectors of the window (R423) -/
  sharedPoison : List Nat
  /-- bytes of its window (R99) -/
  sharedBytes : Nat
  /-- records the workgroup waits for (R370): its missing count is their number -/
  missing : List Nat
  /-- batches of its groups: group index and batch (R264) -/
  batches : List (Nat × Batch)
  /-- completed batches of COLLs alone, by handle, with the buffers they name (R131) -/
  collected : List (Nat × List (Nat × Nat))
  /-- groups saved in frames while away (R378), by index -/
  saved : Sparse (Option Group)
  /-- drained for good (R55, R341): discarded once it has stopped -/
  draining : Bool
  /-- pre-empted by the Blocker (R45) -/
  preempted : Bool
  /-- core it is to be migrated to (R52) -/
  moving : Option Nat
  /-- first of its units of the save area (R376), and whether its window was written there (R378) -/
  unit : Nat
  /-- its unit holds the window (R378) -/
  claimed : Bool
  /-- the tick at which it stopped (R378) -/
  stopTick : Nat
deriving DecidableEq, Repr, Inhabited

/-! ## Cores, partitions, clusters, dies -/

/-- The plane issue being performed: partition's group, split slot, effective plane, issuing mask. -/
structure Cur where
  /-- group key -/
  group : Nat
  /-- split slot -/
  slot : Nat
  /-- effective plane -/
  plane : Nat
  /-- issuing mask before the guard -/
  mask : LaneMask
  /-- the second issue of a pair: its pass is its partner's (R27) -/
  paired : Bool
  /-- the issue has been charged and its `.sys` release acknowledged: it is to be performed (R126) -/
  acked : Bool
  /-- a watchpoint withheld the issue and let it go: it goes on untested (R412) -/
  untested : Bool := false
  /-- the registers as it read them when it was first issued, where it is issued again (R103, R126) -/
  snap : Option Snap := none
deriving DecidableEq, Repr, Inhabited

/-- One byte of the phase cache (R120 to R123), with the context and generation under which a store
to it was translated (R368). -/
structure L1Byte where
  /-- the byte -/
  val : Byte
  /-- stored to and not yet published -/
  dirty : Bool
  /-- context of the store -/
  ctx : Nat
  /-- its generation bit at the store -/
  gen : Bool
  /-- its sector was poisoned where the byte was fetched (R424) -/
  bad : Bool
deriving DecidableEq, Repr, Inhabited

/-- The operands of an MMA as captured (R160): 32 rows of A and 32 columns of B of 32 words each,
the scales by row or column and block, and the format block (R145). `errs` are A rows found bad,
`errB` whether B or the array was (R156). -/
structure MmaOperands where
  /-- rows of A -/
  a : List (List Word)
  /-- columns of B -/
  b : List (List Word)
  /-- scales of A by row -/
  sa : List (List Word)
  /-- scales of B by column -/
  sb : List (List Word)
  /-- format block -/
  fmt : BitVec 128
  /-- bad rows of A -/
  errRows : BitVec 32
  /-- B or the array was bad -/
  errB : Bool
deriving DecidableEq, Repr, Inhabited

/-- A member held in the quadrille latch (R159): group, split slot, tile and half, bases, block and
place. -/
structure LatchMember where
  /-- group key -/
  group : Nat
  /-- its result in flight -/
  id : Nat
  /-- split slot -/
  slot : Nat
  /-- tile number -/
  tile : Nat
  /-- half of a half-tile form -/
  half : Bool
  /-- V base of A -/
  aBase : Nat
  /-- V base of B -/
  bBase : Nat
  /-- format block -/
  fmt : BitVec 128
  /-- region of the MMA -/
  region : Nat
  /-- its offset -/
  offset : Nat
  /-- its plane -/
  plane : Nat
  /-- tile forms of its partition issued before it, applied ones counted (R288) -/
  before : Nat
deriving DecidableEq, Repr, Inhabited

/-- A core: its phase cache and quadrille latch. -/
structure Core where
  /-- by canonical device or outside address (R117); at start: empty -/
  l1 : Sparse (Option L1Byte)
  /-- sectors whose L1 copy an error struck, by 32 bytes of the places the phase cache numbers (R423); at start: none -/
  l1Poison : List Nat
  /-- gang word, workgroup key and members (R159); at start: free -/
  latch : Option (Word × Nat × List LatchMember)
deriving DecidableEq, Repr, Inhabited

/-- A tile (R152, R153): 32 × 32 words at 32 i + j, and the rows' poison bits (R155). -/
structure Tile where
  /-- words by 32 i + j -/
  words : Sparse Word
  /-- poison bit of each row -/
  poison : BitVec 32
deriving DecidableEq, Repr, Inhabited

/-- A tile form waiting its turn on the accumulator store (R288); `half` is none for a whole tile. -/
inductive TileForm where
  | zero (half : Option Bool)
  | pois (rows : BitVec 32)
  /-- rows written by MLDT or MMOV, whose words are in the form's result; the data's poison by row -/
  | fill (half : Option Bool) (rows poison : BitVec 32)
  /-- MSTO: base, pitch, and the places of its 16-byte units as translated at issue -/
  | store (half : Option Bool) (base pitch : Nat) (units : List Loc)
  /-- MSTA: its engine command -/
  | add (half : Option Bool) (cmd : Nat)
  /-- MMOV out of the tile: rows and V base -/
  | out (half : Option Bool) (rows : LaneMask) (vBase : Nat)
deriving DecidableEq, Repr, Inhabited

/-- A tile form with the group, split and place that issued it. -/
structure TileJob where
  /-- group key -/
  group : Nat
  /-- its result in flight, where it has one -/
  id : Nat
  /-- split slot -/
  slot : Nat
  /-- context -/
  ctx : Nat
  /-- tile number -/
  tile : Nat
  /-- region of the form -/
  region : Nat
  /-- its offset -/
  offset : Nat
  /-- its plane -/
  plane : Nat
  /-- generation bit of the context at issue (R368) -/
  gen : Bool
  /-- what it does -/
  form : TileForm
deriving DecidableEq, Repr, Inhabited

/-- An MMA on a partition's array: waiting for its start slot, or started (R75, R160). -/
structure ArrayJob where
  /-- group key -/
  group : Nat
  /-- its result in flight -/
  id : Nat
  /-- context -/
  ctx : Nat
  /-- tile number -/
  tile : Nat
  /-- half of a half-tile form -/
  half : Bool
  /-- captured operands -/
  ops : MmaOperands
  /-- the request of its gang for leave: its cycle and the gang's first group (R75); none for a solo MMA -/
  asked : Option (Nat × Nat)
  /-- the start cycle the stagger gate granted (R75) -/
  start : Option Nat
  /-- tile forms of its partition issued before it, applied ones counted (R288) -/
  before : Nat
  /-- the tile as read at the start (R160); none until it starts -/
  tileAtStart : Option Tile
  /-- lane time at which it completes, 32 LCLK cycles after its start (R160) -/
  doneAt : Nat
  /-- words, and 1024 + row for poison bits, already written early (R86, R288) -/
  landed : List Nat
  /-- region of the MMA -/
  region : Nat
  /-- its offset -/
  offset : Nat
  /-- its plane -/
  plane : Nat
deriving DecidableEq, Repr, Inhabited

/-- A debug stop (R408, R409). -/
structure Stopped where
  /-- CAUSE of R408, the lowest -/
  cause : Nat
  /-- hardware group slot -/
  slot : Nat
  /-- context -/
  ctx : Nat
  /-- region of the place -/
  region : Nat
  /-- its offset -/
  offset : Nat
  /-- its plane -/
  plane : Nat
  /-- tick of the stop -/
  tick : Nat
  /-- FCLK cycle of the stop -/
  clock : Nat
  /-- fault code, for a trap stop -/
  code : Nat
  /-- watchpoint and its hit address, for cause 3 -/
  watch : Option (Nat × DWord)
  /-- results in flight at the stop: group slot and its scoreboard entry (R417) -/
  board : List (Nat × Result)
  /-- FCLK cycle since which the ages of its groups stand still (R409) -/
  since : Nat
  /-- its notice and trace record have been sent: once no lower cause of its cycle can come (R408) -/
  told : Bool
deriving DecidableEq, Repr, Inhabited

/-- A partition. -/
structure Partition where
  /-- tiles with a physical slot, by context × 32 + tile, most recently used first (R379) -/
  tiles : List (Nat × Tile)
  /-- tiles saved to a unit of their context's save area, which holds their words: the tile, the unit, its poison
  bits (R376, R379) -/
  savedTiles : List (Nat × Nat × BitVec 32)
  /-- contexts that have written a tile here (R432) -/
  wrote : List Nat
  /-- tile forms in issue order (R288) -/
  jobs : List TileJob
  /-- tile forms applied so far (R288) -/
  applied : Nat
  /-- MMAs on the array, in start order (R161) -/
  array : List ArrayJob
  /-- lane time at which each lane unit is free (R22): FP32 bank, special-function lanes -/
  bankFree : Nat
  /-- special-function lanes, as above -/
  sfuFree : Nat
  /-- the instruction last issued had weight ≥ 4 (R47) -/
  heavy : Bool
  /-- the split first in R47's ranking with a charge it cannot afford, and for how many cycles (R65) -/
  rank : Option (Nat × Nat)
  /-- cycles in which that split came first (R65) -/
  rankCount : Nat
  /-- debug stop (R409) -/
  stopped : Option Stopped
  /-- a STEP in progress: the slot that may issue (R411) -/
  stepping : Option Nat
deriving DecidableEq, Repr, Inhabited

/-- A request for leave at a stagger gate (R75): the cycle in which it was first made, the group and
split of a solo MMA, and the partitions that are to start, ascending. -/
structure LeaveRequest where
  /-- FCLK cycle of the request -/
  cycle : Nat
  /-- group key -/
  group : Nat
  /-- split slot -/
  slot : Nat
  /-- partitions that start -/
  parts : List Nat
deriving DecidableEq, Repr, Inhabited

/-- A cluster: its clock, pouch and gate. -/
structure Cluster where
  /-- FCLK cycles run (SR.CLOCK, R166); at start: 0 -/
  clock : Nat
  /-- half LCLK cycles run (R71); at start: 0 -/
  lanes : Nat
  /-- FCLK edges of the current hop not yet run; at start: 0 -/
  due : Nat
  /-- fourteenths of an edge carried over (R69) -/
  frac : Nat
  /-- partitions served in the current FCLK cycle (R64) -/
  cursor : Nat
  /-- first partition of the granting order (R64); at start: 0 (DESIGN CHOICE) -/
  rot : Nat
  /-- pouch level (R64); at start: 0 (R435) -/
  pouch : Nat
  /-- level at the start of the FCLK cycle (R64, R66) -/
  levelStart : Nat
  /-- tokens taken but not yet added (R59) -/
  taken : Nat
  /-- reservation holder, a group slot (R65); at start: none (R435) -/
  reservation : Option Nat
  /-- the split slot of the plane issue it was granted for (R65) -/
  reservedSlot : Nat
  /-- requests for the reservation: group slot and count (R65) -/
  wanting : List (Nat × Nat)
  /-- floored this round (R67) -/
  floored : Bool
  /-- floor tokens of the round still to come (R67) -/
  floorRem : Nat
  /-- share tokens of the round still to come (R67) -/
  shareRem : Nat
  /-- share of the round (R67) -/
  shareAllot : Nat
  /-- allotment of the round, floor plus share (R70) -/
  allot : Nat
  /-- operating point and lane ratio in force, ratio 0 ½, 1 1×, 2 2× (R70, R71); at start: OP_LO (R435) -/
  op : Nat
  /-- lane ratio in force (R71) -/
  ratio : Nat
  /-- cleared for the next round (R72) -/
  nextOp : Nat
  /-- lane ratio cleared for the next round (R72) -/
  nextRatio : Nat
  /-- clocks stopped for a change (R72) -/
  halted : Bool
  /-- FCLK cycles run in this round (R70) -/
  ran : Nat
  /-- an MMA issued or requested leave in this round (R71) -/
  mmaSeen : Bool
  /-- consecutive rounds over the allotment (R52) -/
  overRounds : Nat
  /-- the last actual array start, if any (R75) -/
  lastStart : Option Nat
  /-- requests for leave, in the order they were made (R75) -/
  leave : List LeaveRequest
deriving DecidableEq, Repr, Inhabited

/-- A compute die's Reel, arbiter and telemetry. -/
structure Die where
  /-- started (R395, R396); reset: no -/
  started : Bool
  /-- budget B in tokens per hop (R67) -/
  budget : Nat
  /-- floor rate F (R67) -/
  floorRate : Nat
  /-- floored clusters n (R67) -/
  floors : Nat
  /-- S of R67 -/
  shareSum : Nat
  /-- the hop words, nearest the injector first: FLOOR and SHARED (R57) -/
  ring : List (Nat × Nat)
  /-- tokens loaded into the last hop word (R74) -/
  lastLoad : Nat
  /-- started in mid-round and not yet cleared (R435) -/
  emergency : Bool
  /-- DIDT_LIMIT in force (R74, R402) -/
  didt : Nat
  /-- MSTART_GAP in force (R75, R402) -/
  gap : Nat
  /-- telemetry of the period (R405): tokens loaded -/
  injected : Nat
  /-- tokens returned in it -/
  expired : Nat
  /-- reservations granted in it (RSV) -/
  granted : Nat
  /-- allotments the die arbiter clamped in it (CLAMPED) -/
  clamped : Nat
  /-- clearings in which the die was clamped (DIECLAMP) -/
  dieClamped : Nat
  /-- R74 held the injected total below the schedule (DIDTHELD) -/
  didtHeld : Bool
  /-- some cluster was thermally bounded at a clearing (THERMAL) -/
  thermal : Bool
  /-- the hottest sensor read at a clearing in it, in whole °C -/
  hottest : Nat
  /-- SEQ of the next telemetry record -/
  seq : Nat
  /-- request counters LOCALREQ, REMOTEREQ, SECONDREQ, TLBMISS, PAGEREQ (R367); reset: 0 -/
  counters : Sparse Nat
  /-- memory plane issues counted for sampling (R418) -/
  sampleCount : Nat
  /-- the tick of the last telemetry record, or of the die's start (R406) -/
  recordTick : Nat
deriving DecidableEq, Repr, Inhabited

/-! ## Engines, banks, links -/

/-- An engine command's kind and operands (R275 to R279, R294). -/
inductive CmdKind where
  /-- destination, source, bytes -/
  | copy (dst src n : Nat)
  /-- destination and source window descriptors, element size -/
  | copyt (dst src : BitVec 128) (z : Nat)
  /-- moves of z bytes: destination, source, in lane order (GATHER, SCATTER) -/
  | moves (list : List (Nat × Nat)) (z : Nat)
  /-- operation, type, destination, source, block -/
  | coll (op : AddMinMax) (t : Ty) (dst src : Nat) (block : BitVec 128)
  /-- MSTA: base, pitch, ACC code, half, the tile's words and zeroed rows -/
  | msta (base pitch acc : Nat) (half : Bool) (words : Sparse Word) (skip : BitVec 32)
deriving DecidableEq, Repr, Inhabited

/-- An engine command (R128, R264). -/
structure Cmd where
  /-- what it does -/
  kind : CmdKind
  /-- key of the issuing group -/
  key : Nat
  /-- its workgroup key -/
  wg : Nat
  /-- its group index -/
  group : Nat
  /-- SEQ of its batch -/
  seq : Nat
  /-- index in its batch -/
  index : Nat
  /-- context -/
  ctx : Nat
  /-- PROG record id -/
  launch : Nat
  /-- split slot of the issuing word, whose place a fault record names (R425) -/
  slot : Nat
  /-- its plane -/
  plane : Nat
  /-- its region -/
  region : Nat
  /-- its offset -/
  offset : Nat
  /-- bank and address of the barrier object credited, if any (R275) -/
  bar : Option (Nat × Nat)
  /-- 256-byte destination blocks not yet performed (R275) -/
  reqs : List Nat
  /-- waiting for a page: the MAP record (R270) -/
  waiting : Option Nat
  /-- the mark of that record has been written since (R373) -/
  here : Bool
  /-- 256-byte blocks whose sources outside the device have been asked for, each with its requests (R356, R358) -/
  fetch : List (Nat × List Nat)
  /-- arrived at its collective (R280) -/
  arrived : Bool
deriving DecidableEq, Repr, Inhabited

/-- A collective in progress at an object (R280): its commands by rank, and what the first arrival named.
The key of `State.colls` is the object's place as the phase cache numbers places. -/
structure Collective where
  /-- rank and command id -/
  members : List (Nat × Nat)
  /-- participants named -/
  parts : Nat
  /-- elements named -/
  count : Nat
  /-- operation named -/
  op : AddMinMax
  /-- type named -/
  t : Ty
  /-- ranks still to arrive in a generation that a mismatch ended -/
  late : List Nat
  /-- the requests by which sources outside the device are read, once made (R356, R358) -/
  fetch : Option (List Nat)
  /-- once combined: the requests by which destinations outside the device were written (R131) -/
  await : Option (List Nat)
deriving DecidableEq, Repr, Inhabited

/-- One update on its way to a barrier object (R114, R258). -/
inductive BarUpdate where
  | init (expect : Nat)
  | arrive (scope : Scope)
  | drop (scope : Scope)
  | expect (bytes : Nat)
  | credit (bytes : Nat)
deriving DecidableEq, Repr, Inhabited

/-- A queued update: the object's bank (0 device memory, 1 + workgroup key shared memory) and address in
it, the issuing partition, and the group and split slot that wait for it (not used by a credit). -/
structure BankEntry where
  /-- 0 device memory, 1 + workgroup key -/
  bank : Nat
  /-- address of the object in it -/
  addr : Nat
  /-- the address by which the group named it (R425) -/
  va : Nat
  /-- issuing partition -/
  part : Nat
  /-- waiting group -/
  group : Nat
  /-- waiting split slot -/
  slot : Nat
  /-- the update -/
  up : BarUpdate
deriving DecidableEq, Repr, Inhabited

/-- An ENQ or DEQ on its way to its control block's port (R273, R274): it is served at the end of the FCLK cycle in which
it arrived, or once the requests that its release waits for have been answered (R126). -/
structure QueueOp where
  /-- issuing partition -/
  part : Nat
  /-- group key -/
  group : Nat
  /-- its result in flight -/
  id : Nat
  /-- address of the control block -/
  cb : Nat
  /-- DEQ, or else ENQ -/
  deq : Bool
  /-- operand of the status -/
  d : Operand
  /-- operand of the entry -/
  x : Operand
  /-- the entry of an ENQ as its registers held it, as far as an entry can go (R272) -/
  data : List Byte
  /-- split slot -/
  slot : Nat
  /-- issuing mask after the guard -/
  lanes : LaneMask
  /-- region of the word -/
  region : Nat
  /-- its offset -/
  offset : Nat
  /-- its plane -/
  plane : Nat
  /-- its release has crossed its boundary: the requests it waits for (R126) -/
  after : Option (List Nat)
deriving DecidableEq, Repr, Inhabited

/-- What an outstanding request outside the device is. -/
inductive OutKind where
  /-- a read of memory; its value was fixed when it was issued (R105) -/
  | read
  /-- a monitor's read of its word, of the condition's number and the word read (R260) -/
  | monitor (cond : Nat) (word : Word)
  /-- an EDIT's read of its bytes (R305) -/
  | edit
  /-- an ENQ or DEQ (R273) -/
  | queue
  /-- a read of an engine command's source (R128) -/
  | fetch (cmd : Nat)
  /-- a read by the notification unit or the Blocker (R358) -/
  | unit
  /-- a read of a peer register, of so many bytes: the completion brings its value (R359) -/
  | register (n : Nat)
  /-- a write of a plane issue through Hevis Link -/
  | store
  /-- stores of a core's L1 published through Hevis Link (R121) -/
  | publish
  /-- a write of an engine command through Hevis Link (R128) -/
  | command
  /-- a read-modify-write; one of host memory counts an error at the MAP record it was translated by (R252) -/
  | rmw (record : Nat)
  /-- a write through the PCI Express port: acknowledged by a zero-length read behind it (R126) -/
  | posted
  /-- that zero-length read (R126), made by a group or by another unit of the device -/
  | flush (group : Bool)
deriving DecidableEq, Repr, Inhabited

/-- Who made a request outside the device: the plane issue, as a fault record names it (R425). A core's published
stores stand under its first group slot. -/
structure Origin where
  /-- issuing group -/
  group : Nat
  /-- split slot -/
  slot : Nat
  /-- plane -/
  plane : Nat
  /-- region -/
  region : Nat
  /-- offset -/
  offset : Nat
  /-- lanes -/
  mask : LaneMask
  /-- address accessed by the lowest of them -/
  va : Nat
  /-- the group's context, launch, workgroup and index, should it leave first -/
  ctx : Nat
  /-- PROG record id -/
  launch : Nat
  /-- workgroup index -/
  wgIndex : Nat
  /-- group index -/
  index : Nat
  /-- the generation bit of its translation (R368) -/
  gen : Bool
deriving DecidableEq, Repr, Inhabited

/-- An outstanding request through PCI Express or Hevis Link (R127, R356, R358): its address key in
`State.ext` and its bytes, the registers its reply goes to, and who made it. Whether it is lost on its way (log
entry 6) is settled when it is made. -/
structure OutReq where
  /-- tag: the model's name of the request -/
  tag : Nat
  /-- Hevis Link, or else the PCI Express port -/
  hevis : Bool
  /-- address key in `State.ext` -/
  addr : Nat
  /-- bytes it names -/
  size : Nat
  /-- what it is -/
  kind : OutKind
  /-- registers of the reply -/
  regs : List Write
  /-- tick of the last sending -/
  sentTick : Nat
  /-- sendings so far -/
  attempts : Nat
  /-- it never reaches its destination, or its reply never comes -/
  lost : Bool
  /-- its data is poisoned (R424) -/
  poisoned : Bool
  /-- who made it -/
  origin : Origin
deriving DecidableEq, Repr, Inhabited

/-! ## Desired state -/

/-- A record of the desired state region (R317). -/
structure Record where
  /-- VERSION -/
  version : Nat
  /-- KIND -/
  kind : Nat
  /-- PRESENT or ABSENT -/
  present : Bool
  /-- body bytes -/
  body : List Byte
  /-- the last SET found the record ABSENT (R330) -/
  fresh : Bool
deriving DecidableEq, Repr, Inhabited

/-- Phases of the actual state table (R329). -/
inductive Phase where
  | absent | pending | building | live | changing | draining | retired | blocked | faulted
deriving DecidableEq, Repr, Inhabited

/-- An entry of the actual state table (R329, R330). -/
structure Ast where
  /-- MARK -/
  mark : Nat
  /-- WORKING -/
  working : Nat
  /-- PHASE -/
  phase : Phase
  /-- FAULT -/
  fault : Nat
  /-- TEARDOWN flag -/
  teardown : Bool
  /-- SKIPPED flag -/
  skipped : Bool
  /-- DONE flag -/
  done : Bool
  /-- WAITON -/
  waitOn : Nat
  /-- STEPS -/
  steps : Nat
  /-- counter 0 of the kind -/
  c0 : Nat
  /-- counter 1 -/
  c1 : Nat
  /-- counter 2 -/
  c2 : Nat
  /-- counter 3 -/
  c3 : Nat
  /-- the body the record was realised from (R332, R337), and what a step has done so far -/
  body : List Byte
  /-- how far the entry's step has come -/
  progress : Nat
deriving DecidableEq, Repr, Inhabited

/-- A realised MAP record: the leaves of R365, all of one form. -/
structure Mapping where
  /-- context -/
  ctx : Nat
  /-- first virtual address -/
  va : Nat
  /-- bytes -/
  length : Nat
  /-- first target address -/
  target : Nat
  /-- MKIND -/
  mkind : Nat
  /-- PLACE -/
  place : Nat
  /-- HOME -/
  home : Nat
  /-- leaf size code -/
  leaf : Nat
  /-- permissions -/
  perm : Nat
  /-- device ordering -/
  device : Bool
  /-- RESIDENT -/
  resident : Bool
  /-- index in the peer table -/
  peer : Nat
  /-- first and past addresses whose walk meets an entry that reads as VALID 0 after an error in its table sector
  (R423) -/
  lost : List (Nat × Nat)
  /-- the Blocker allocated the target (R365) -/
  owned : Bool
deriving DecidableEq, Repr, Inhabited

/-- A realised context (R324, R368). -/
structure Context where
  /-- generation bit (R368) -/
  gen : Bool
  /-- FATAL (R374) -/
  fatal : Bool
  /-- the buddy heap: free blocks and allocated blocks, order and offset (R383) -/
  free : List (Nat × Nat)
  /-- allocated blocks of the heap, order and offset (R383) -/
  taken : List (Nat × Nat)
  /-- the heap has been set up (R383) -/
  heapReady : Bool
  /-- call-ring slots in use, oldest first, and served but unread (R381) -/
  calls : List (Nat × Bool)
  /-- the PAGEIN call started and not finished: its slot, and the MAP records it waits for (R382) -/
  paging : Option (Nat × List Nat)
  /-- units of the save area in use (R376): first unit and count -/
  units : List (Nat × Nat)
deriving DecidableEq, Repr, Inhabited

/-- A launch (R18, R341). -/
structure Launch where
  /-- CTX record id -/
  ctx : Nat
  /-- W -/
  width : Nat
  /-- registers per lane -/
  regs : Nat
  /-- lanes of a workgroup -/
  lanes : Nat
  /-- workgroups of a work cluster -/
  wcluster : Nat
  /-- priority -/
  prio : Nat
  /-- cooperative -/
  coop : Bool
  /-- die mask -/
  dies : Nat
  /-- workgroups -/
  wgcount : Nat
  /-- bytes of a shared window -/
  shared : Nat
  /-- bytes of a scratchpad area -/
  scratch : Nat
  /-- bytes of a lane stack -/
  stack : Nat
  /-- argument address -/
  arg : Nat
  /-- base0 and the plane length and count of each region (R385) -/
  regions : List (Nat × Nat × Nat)
  /-- entry point -/
  entry : Link
  /-- data base -/
  data : Nat
  /-- the image's address and length (R334) -/
  image : Nat
  /-- the image's length (R334) -/
  imageLen : Nat
  /-- units of the save area for its scratchpad areas, by die (R376) -/
  areaUnits : Sparse Nat
  /-- cores that held a workgroup of it (R124) -/
  cores : List Nat
  /-- scratchpad base within each die's scratchpad (R341) -/
  areas : Sparse Nat
  /-- next work cluster to place, and the tick it first found no room (R42) -/
  next : Nat
  /-- the tick it first found no room (R42) -/
  since : Option Nat
  /-- workgroups started -/
  started : Nat
  /-- workgroups retired -/
  retired : Nat
  /-- being drained (R341) -/
  draining : Bool
  /-- its cores have published its stores (R124): the requests outside the device then outstanding -/
  acks : Option (List Nat)
deriving DecidableEq, Repr, Inhabited

/-- A realised queue (R342, R343): the tick of CLOSED, and the LOG2CAP and RING to which a change has copied
the entries. -/
structure Queue where
  /-- context -/
  ctx : Nat
  /-- address of the control block -/
  cb : Nat
  /-- tick of CLOSED -/
  closedAt : Option Nat
  /-- LOG2CAP and RING copied to -/
  copied : Option (Nat × Nat)
deriving DecidableEq, Repr, Inhabited

/-! ## Host attachment, notices, debug, start -/

/-- An edit waiting for the edit port (R319). -/
structure Edit where
  /-- submission page of a host writer -/
  page : Option Nat
  /-- context, partition, group and split slot of a device writer -/
  ctx : Nat
  /-- partition -/
  part : Nat
  /-- group -/
  group : Nat
  /-- split slot -/
  slot : Nat
  /-- place of a device writer's EDIT, and the scoreboard code of its D -/
  region : Nat
  /-- offset of the EDIT -/
  offset : Nat
  /-- its plane -/
  plane : Nat
  /-- scoreboard code of its D -/
  dest : Nat
  /-- issuing mask after the guard (R421) -/
  mask : LaneMask
  /-- its result in flight -/
  id : Nat
  /-- requests for bytes outside the device that have not been answered -/
  await : List Nat
  /-- EDIT.f (R306) -/
  f : Bool
  /-- the edit's bytes -/
  data : List Byte
  /-- tick of arrival -/
  tick : Nat
deriving DecidableEq, Repr, Inhabited

/-- A ring the notification unit writes (R352, R354, R406, R418). -/
inductive Ring where
  /-- ring k of a context (R351) -/
  | ctx (id k : Nat)
  /-- the driver's notice ring (R354) -/
  | driver
  | telemetry
  | sample
  | trace
deriving DecidableEq, Repr, Inhabited

/-- A record on its way to a ring. -/
structure Notice where
  /-- the ring -/
  ring : Ring
  /-- the record's bytes -/
  data : List Byte
  /-- requests whose acknowledgement the record waits for (R126, R307) -/
  after : List Nat
  /-- the unit's read of CONS outside the device: not made, made, or made without a good answer (R352, R358) -/
  cons : Option Bool
deriving DecidableEq, Repr, Inhabited

/-- An answer the function sends to the host or a peer. -/
structure Answer where
  /-- completion status -/
  status : CplStatus
  /-- data -/
  data : List Byte
deriving DecidableEq, Repr, Inhabited

/-- An answer of the SPDM responder (R361, R398, R399). -/
inductive SpdmAnswer where
  | version
  | capabilities
  | algorithms
  | digests (d : List Byte)
  | certificate (c : List Byte)
  | challengeAuth (sig : List Byte)
  | measurements (blocks : List (Nat × List Byte)) (sig : List Byte)
  | keyExchange (sig : List Byte)
  | finished
  | ideDone
  | error
deriving DecidableEq, Repr, Inhabited

/-- Port registers, submission pages and counters (R344 to R354, R400, R407, R412, R418, R427). -/
structure Port where
  /-- port registers of BAR2 by offset from 0x0D0_0000, 64 bits at a multiple of 8; reset: 0 but for
  the power registers of R400 (PRESUMED 0 for those whose reset value the spec does not give) -/
  regs : Sparse DWord
  /-- RESULT words by page: SEQ, STATUS, VERSION (R348); reset: 0 -/
  results : Sparse (Nat × Nat × Nat)
  /-- edits waiting for the edit port, in edit order (R319); reset: none -/
  edits : List Edit
  /-- edits decided in the current tick (R319) -/
  decided : Nat
  /-- the last answer sent on the host's initiative -/
  answer : Option Answer
  /-- MSI-X messages sent, newest first -/
  messages : List Nat
  /-- MSI-X vectors whose mask bit is 0 (R353); reset: none, as PCI Express resets the mask bit to 1 (PRESUMED) -/
  unmasked : List Nat
  /-- function mask of MSI-X (R353); reset: no (PRESUMED) -/
  functionMasked : Bool
  /-- pending-bit array (R353); reset: none -/
  pending : List Nat
  /-- the function is presented (R395); reset: no -/
  presented : Bool
  /-- outstanding requests outside the device (R127, R356, R358); reset: none -/
  out : List OutReq
  /-- tag of the next outside request; reset: 0 -/
  nextTag : Nat
  /-- Hevis Link tags applied by source, with the reply sent (R127) -/
  applied : List (Nat × Nat × List Byte)
  /-- replies sent to Hevis Link sources, newest first -/
  replies : List (Nat × Nat × List Byte)
  /-- peer table of Hevis Link device ids (R365) -/
  peers : List Nat
  /-- SPDM: algorithms negotiated (R361); reset: no -/
  algorithms : Bool
  /-- SPDM: session stage 0 none, 1 key exchange done, 2 finished (R361); reset: 0 -/
  session : Nat
  /-- the last answer of the SPDM responder (R361); reset: none -/
  spdm : Option SpdmAnswer
  /-- IDE streams with keys: 0 the link stream, 1 to 4 selective (R360) -/
  streams : List (Nat × List Byte)
deriving DecidableEq, Repr, Inhabited

/-- A debug command in progress (R407, R414). -/
structure Dumping where
  /-- partition -/
  part : Nat
  /-- context -/
  ctx : Nat
deriving DecidableEq, Repr, Inhabited

/-- A watchpoint hit waiting for its predicate (R412). -/
structure Hit where
  /-- watchpoint -/
  watch : Nat
  /-- the withheld plane issue -/
  cur : Cur
  /-- hit address -/
  addr : DWord
  /-- lanes -/
  mask : LaneMask
  /-- data handed to the predicate (R413) -/
  data : DWord
  /-- kind of access (R413) -/
  kind : Nat
  /-- when it was found: hop, and the cluster's FCLK cycle -/
  hop : Nat
  /-- FCLK cycle in which it was found -/
  clock : Nat
deriving DecidableEq, Repr, Inhabited

/-- A sampled memory plane issue (R419). -/
structure Sample where
  /-- tick -/
  tick : Nat
  /-- partition -/
  part : Nat
  /-- group slot, which the record does not show: the record waits for its issue (R419) -/
  slot : Nat
  /-- context -/
  ctx : Nat
  /-- region -/
  region : Nat
  /-- offset -/
  offset : Nat
  /-- plane -/
  plane : Nat
  /-- the issuing mask after the guard -/
  mask : LaneMask
  /-- lanes whose data or acknowledgement return -/
  hit : LaneMask
  /-- a request crosses a die link -/
  link : Bool
  /-- OP of the word (R419) -/
  op : Nat
  /-- sectors touched -/
  sectors : Nat
deriving DecidableEq, Repr, Inhabited

/-- Flash and what the boot ROM chose (R393 to R399). -/
structure Boot where
  /-- configuration block, slot 0 (R394) -/
  cfg0 : List Byte
  /-- configuration block, slot 1 -/
  cfg1 : List Byte
  /-- firmware, slot 0 -/
  fw0 : List Byte
  /-- firmware, slot 1 -/
  fw1 : List Byte
  /-- helper data of the fingerprint (R398) -/
  helper : List Byte
  /-- certificate chain (R398) -/
  cert : List Byte
  /-- BOOTSTATUS (R397); reset: 0 -/
  status : Nat
  /-- the boot ROM has handed control to the firmware (R395) -/
  booted : Bool
  /-- the seeds of the identity key, where it was reconstructed (R398) -/
  identity : Option (List Byte)
  /-- the certificate chain as it stood at start (R393, R398) -/
  chain : List Byte
  /-- the chosen configuration block -/
  cfg : List Byte
  /-- the chosen firmware image -/
  fw : List Byte
  /-- measurements 1 to 4 and 6 (R399) -/
  measurements : List (Nat × List Byte)
deriving DecidableEq, Repr, Inhabited

/-- A resident group as a clearing judges it (R67, R68): its key, workgroup and index, the hint clamped to
its context's ceiling, and what it had used when it left, if it has left since. -/
structure JudgedGroup where
  /-- group key -/
  key : Nat
  /-- workgroup key -/
  wg : Nat
  /-- group index -/
  index : Nat
  /-- hint, clamped -/
  hint : Nat
  /-- tokens it had drawn when it left -/
  left : Option Nat
deriving DecidableEq, Repr, Inhabited

/-- The inputs of a clearing as they stand at the start of its tick (R67, R73, R402). -/
structure Judged where
  /-- the groups, ascending -/
  groups : List JudgedGroup
  /-- the power registers -/
  regs : Sparse DWord
deriving DecidableEq, Repr, Inhabited

/-! ## The whole -/

/-- Which agent moves next. -/
inductive Turn where
  /-- the next partition of the cluster's FCLK cycle picks (R47, R64) -/
  | cycle (cluster : Nat)
  /-- another step of the part -/
  | event (i : Instr)
  /-- a plane issue already picked: the second of a pair (R27), or one a watchpoint withheld (R412) -/
  | issue (c : Cur)
  /-- the platform, a peer or another device writes its own memory -/
  | platform (addr : Nat) (data : List Byte)
  /-- the module loses power and starts again (R397) -/
  | powerLoss
  /-- the host reads bytes of BAR0, or of BAR2, with an IDE stream or not (R316, R346 to R349, R360) -/
  | hostRead (bar offset len : Nat) (ide : Bool)
  /-- the host sets the function mask of MSI-X (R353) -/
  | maskFunction
  /-- a die starts a page walk for a translation its caches do not hold, in tables of the named home (R363, R367) -/
  | walk (die home : Nat)
deriving DecidableEq, Repr, Inhabited

end Sys2Proof.Machine

/-- Which agent moves next where nothing else says: a free value of the configuration (log entry 1). -/
opaque Sys2Proof.Config.freeTurn : Nat → Sys2Proof.Machine.Turn

namespace Sys2Proof.Machine

/-- The whole part. -/
structure State where
  /-- what moves next, in order (the model's own); reset: the boot ROM (R395) -/
  agenda : List Turn
  /-- counter of free values (the model's own); reset: 0 (DESIGN CHOICE) -/
  free : Nat
  /-- the plane issue being performed (the model's own); reset: none -/
  cur : Cur
  /-- hops of the Reels since Stage A began, 14 to the tick (R8, R56, R166); reset: 0 -/
  hop : Nat
  /-- the clearing of the current round has been made (R67); reset: no -/
  cleared : Bool
  /-- the inputs of the current round's clearing, once its tick has begun (R67); reset: none -/
  judged : Option Judged
  /-- the power registers at the start of the current tick (R402, R435); reset: as R400 -/
  tickRegs : Sparse DWord
  /-- the power registers at the first hop of the current round (R402); reset: as R400 -/
  roundRegs : Sparse DWord
  /-- device memory by canonical physical address (R362, R366); reset: nothing listed, an unlisted
  byte reads 0 (DESIGN CHOICE) -/
  mem : Memory
  /-- poisoned 32-byte sectors of device memory (R423, R424); reset: none -/
  poison : List Nat
  /-- memory outside the device: a bus address, or 2^64 × (1 + Hevis device) + address (R117, R365);
  reset: nothing listed, an unlisted byte reads 0 (DESIGN CHOICE) -/
  ext : Memory
  /-- resident groups by 16 × partition + slot (R28, R43); reset: none -/
  groups : Sparse (Option Group)
  /-- workgroups not yet discarded (R17, R18, R370); reset: none -/
  wgs : Sparse (Option Workgroup)
  /-- the launch being offered room: it places work clusters for as long as the next one fits (R42); reset: none -/
  offered : Option Nat
  /-- key of the next workgroup placed (the model's own); reset: 0 -/
  nextWg : Nat
  /-- cores by 4 × cluster + core (R1, R120, R159); reset: empty caches and free latches -/
  cores : Sparse (Option Core)
  /-- partitions by 4 × core + partition (R1, R22, R152); reset: nothing in them -/
  parts : Sparse (Option Partition)
  /-- clusters by 32 × die + cluster (R64 to R75, R435); reset: none runs -/
  clusters : Sparse (Option Cluster)
  /-- compute dies (R57, R67, R74, R405); reset: none started -/
  diesT : Sparse (Option Die)
  /-- engine commands by id (R128, R264); reset: none -/
  cmds : Sparse (Option Cmd)
  /-- id of the next engine command (the model's own); reset: 0 -/
  nextCmd : Nat
  /-- collectives in progress by object (R280); reset: none -/
  colls : Sparse (Option Collective)
  /-- updates on their way to barrier banks (R114); reset: none -/
  bank : List BankEntry
  /-- ENQs and DEQs on their way to their ports (R274); reset: none -/
  queueOps : List QueueOp
  /-- desired state region (R316); reset: version 0, kind 0, ABSENT, zero body -/
  dsr : Sparse (Option Record)
  /-- actual state table (R328); reset: all zero -/
  ast : Sparse (Option Ast)
  /-- STAGE of the AST header (R328, R395, R396); reset: 0 -/
  stage : Nat
  /-- ACCEPTED of the AST header (R328); reset: 0 -/
  accepted : Nat
  /-- LASTTICK of the AST header (R328); reset: 0 -/
  lastTick : Nat
  /-- realised contexts by CTX record (R324, R368, R374); reset: none -/
  ctxs : Sparse (Option Context)
  /-- leaves of realised MAP records by record (R363 to R365); reset: none -/
  maps : Sparse (Option Mapping)
  /-- launches by PROG record (R18, R341); reset: none -/
  launches : Sparse (Option Launch)
  /-- realised QUEUE records (R342, R343); reset: none -/
  queues : Sparse (Option Queue)
  /-- device memory the Blocker has allocated: address and bytes (R332, R365); reset: none -/
  allocated : List (Nat × Nat)
  /-- 4 KiB granules retired (R429); reset: none -/
  retiredMem : List Nat
  /-- the port (R344 to R361, R400, R407, R412, R418, R427) -/
  port : Port
  /-- record events not yet performed (R352); reset: none -/
  notices : List Notice
  /-- the dump in progress (R414); reset: none -/
  dumping : Option Dumping
  /-- watchpoint hits whose predicates have not run (R412, R413); reset: none -/
  hits : List Hit
  /-- samples not yet written (R418, R419); reset: none -/
  samples : List Sample
  /-- module flash and what the boot ROM chose (R393 to R399) -/
  boot : Boot
deriving DecidableEq, Repr, Inhabited

/-- Flash as the management controller left it is outside the module's reset; here it is blank
(DESIGN CHOICE): FLASH_WRITE fills it. -/
def Boot.reset : Boot :=
  { cfg0 := [], cfg1 := [], fw0 := [], fw1 := [], helper := [], cert := [], status := 0,
    booted := false, identity := none, chain := [], cfg := [], fw := [], measurements := [] }

/-- Offsets of the port's registers count from 0x0D0_0000 of BAR2: the power registers (R400). -/
def powerBase : Nat := 0x20_1000

/-- TLIM 95, all else 0 (R400). -/
def dieCtlReset : DWord := 95

/-- CAP 0, LHI 7, OP_HI 7, OP_LO 0, LRATIO_SET 0b111 (R400). -/
def clCtlReset : DWord := BitVec.ofNat 64 (7 * 2 ^ 9 + 7 * 2 ^ 6 + 7)

/-- The power registers at reset (R400); MODULE_BUDGET takes MODULE_MAX when the boot ROM has chosen
the configuration block. -/
def powerReset : Sparse DWord :=
  ((List.range 4).map fun d => (powerBase + 0x100 + 8 * d, dieCtlReset))
  ++ (List.range 128).map fun c => (powerBase + 0x200 + 8 * c, clCtlReset)

def Port.reset : Port :=
  { regs := powerReset, results := [], edits := [], decided := 0, answer := none, messages := [],
    unmasked := [], functionMasked := false, pending := [], presented := false, out := [],
    nextTag := 0, applied := [], replies := [], peers := [], algorithms := false, session := 0, spdm := none,
    streams := [] }

/-- The module right after reset, before the boot ROM's first step. -/
def State.reset : State :=
  { agenda := [.event .bootRomStart], free := 0,
    cur := { group := 0, slot := 0, plane := 0, mask := 0, paired := false, acked := false },
    hop := 0, cleared := false, judged := none, tickRegs := powerReset,
    roundRegs := powerReset, mem := [], poison := [], ext := [], groups := [], wgs := [],
    offered := none, nextWg := 0, cores := [], parts := [], clusters := [], diesT := [], cmds := [], nextCmd := 0,
    colls := [], bank := [], queueOps := [], dsr := [], ast := [], stage := 0, accepted := 0, lastTick := 0,
    ctxs := [], maps := [], launches := [], queues := [], allocated := [], retiredMem := [],
    port := Port.reset, notices := [], dumping := none, hits := [], samples := [],
    boot := Boot.reset }

end Sys2Proof.Machine
end

