-- ==== Sys2Proof/Machine/Base.lean ====
section
/-! DEFINITION. Reading and writing the parts of the state: records by key, registers, byte fields.
A group's key is 16 × partition + slot; partitions, cores, clusters and dies are numbered through the
device (R10, R375). -/

namespace Sys2Proof.Machine

abbrev Out := Host.Outcome State Fault Refusal

/-! ## Records -/

def State.group (s : State) (k : Nat) : Group := get s.groups k
def State.setGroup (s : State) (k : Nat) (x : Group) : State := { s with groups := set s.groups k x }
def State.wgOf (s : State) (k : Nat) : Workgroup := get s.wgs k
def State.setWg (s : State) (k : Nat) (x : Workgroup) : State := { s with wgs := set s.wgs k x }
def State.core (s : State) (k : Nat) : Core := get s.cores k
def State.setCore (s : State) (k : Nat) (x : Core) : State := { s with cores := set s.cores k x }
def State.part (s : State) (k : Nat) : Partition := get s.parts k
def State.setPart (s : State) (k : Nat) (x : Partition) : State := { s with parts := set s.parts k x }
def State.cluster (s : State) (k : Nat) : Cluster := get s.clusters k
def State.setCluster (s : State) (k : Nat) (x : Cluster) : State :=
  { s with clusters := set s.clusters k x }
def State.die (s : State) (k : Nat) : Die := get s.diesT k
def State.setDie (s : State) (k : Nat) (x : Die) : State := { s with diesT := set s.diesT k x }
def State.ctxOf (s : State) (k : Nat) : Context := get s.ctxs k
def State.setCtx (s : State) (k : Nat) (x : Context) : State := { s with ctxs := set s.ctxs k x }
def State.launch (s : State) (k : Nat) : Launch := get s.launches k
def State.setLaunch (s : State) (k : Nat) (x : Launch) : State := { s with launches := set s.launches k x }
def State.cmd (s : State) (k : Nat) : Cmd := get s.cmds k
def State.record (s : State) (k : Nat) : Record := get s.dsr k
def State.astOf (s : State) (k : Nat) : Ast := get s.ast k
def State.setAst (s : State) (k : Nat) (x : Ast) : State := { s with ast := set s.ast k x }

/-- The partition, core, cluster and die of a group's key. -/
def partOf (g : Nat) : Nat := g / 16
def coreOf (g : Nat) : Nat := g / 64
def clusterOf (g : Nat) : Nat := g / 256
def dieOf (g : Nat) : Nat := g / 8192
/-- Partition number of a group within its cluster (R64). -/
def portOf (g : Nat) : Nat := g / 16 % 16

/-- A hardware slot that no group has, for the place of a retired group. -/
def noSlot : Nat := 2 ^ 20

/-- SR.TICK (R166): 14 hops to the tick. -/
def State.tick (s : State) : Nat := s.hop / Config.hopsPerTick

/-- One write of an AST entry (R328). -/
def State.writeAst (s : State) (id : Nat) (a : Ast) : State := { s.setAst id a with lastTick := s.tick }

/-! ## Little-endian bytes (R4) -/

/-- The number held by bytes, lowest first. -/
def leNat : List Byte → Nat
  | [] => 0
  | b :: bs => b.toNat + 256 * leNat bs

/-- `n` bytes of a number, lowest first. -/
def leBytes : Nat → Nat → List Byte
  | 0, _ => []
  | n + 1, x => BitVec.ofNat 8 x :: leBytes n (x / 256)

/-- A field of `n` bytes at a byte offset of a record. -/
def field (b : List Byte) (off n : Nat) : Nat := leNat ((b.drop off).take n)

/-- Replace bytes of a record from an offset on. -/
def patch (b : List Byte) (off : Nat) (x : List Byte) : List Byte :=
  b.take off ++ x ++ b.drop (off + x.length)

/-- Bits h down to l of a number. -/
def bitsAt (x l n : Nat) : Nat := x / 2 ^ l % 2 ^ n

/-! ## Registers -/

def Group.readV (g : Group) (r l : Nat) : Word := look 0 g.v (64 * r + l)
def Group.readS (g : Group) (r : Nat) : Word := look 0 g.s r
def Group.readS64 (g : Group) (r : Nat) : DWord := g.readS (r + 1) ++ g.readS r
def Group.readV64 (g : Group) (r l : Nat) : DWord := g.readV (r + 1) l ++ g.readV r l

/-- A predicate in a lane; 15 is PT (R164). -/
def Group.readP (g : Group) (p l : Nat) : Bool :=
  if p = 15 then true else (look 0 g.p p).getLsbD l

/-- One register write; it ends a loss of the register by error (R423), and writing an S register clears its
pending-handle tag (R267); PT discards; a tile word is no register. -/
def Group.write (g : Group) (w : Write) : Group :=
  match w with
  | .v r l x => { g with v := put 0 g.v (64 * r + l) x, lost := g.lost.filter (· != (r, l)) }
  | .s r x => { g with s := put 0 g.s r x, tags := put none g.tags r none, lost := g.lost.filter (· != (512 + r, 0)) }
  | .m _ _ => g
  | .p r l x =>
    if r = 15 then g
    else
      let m := look 0 g.p r
      { g with p := put 0 g.p r (if x then m ||| (1#64 <<< l) else m &&& ~~~(1#64 <<< l)) }

def Group.writes (g : Group) (ws : List Write) : Group := ws.foldl Group.write g

/-- Both halves of a pair (R5). -/
def writeS64 (r : Nat) (x : DWord) : List Write := [.s r (x.setWidth 32), .s (r + 1) (x.extractLsb' 32 32)]
def writeV64 (r l : Nat) (x : DWord) : List Write :=
  [.v r l (x.setWidth 32), .v (r + 1) l (x.extractLsb' 32 32)]

/-- Lanes of a group that are not absent (R24). -/
def Group.present (g : Group) : LaneMask := g.real ||| g.helper

/-- A split by slot. -/
def Group.split (g : Group) (slot : Nat) : Split := (look none g.splits slot).getD default
def Group.setSplit (g : Group) (slot : Nat) (x : Option Split) : Group :=
  { g with splits := put none g.splits slot x }

/-- Slots that hold a split, ascending. -/
def Group.live (g : Group) : List Nat := keys g.splits

/-- A completion flag's count changed by a result (R174); 0 names none. -/
def Group.raise (g : Group) (f : Nat) : Group :=
  if f = 0 then g else { g with flags := put 0 g.flags f (look 0 g.flags f + 1) }
def Group.lower (g : Group) (f : Nat) : Group :=
  if f = 0 then g else { g with flags := put 0 g.flags f (look 0 g.flags f - 1) }

/-! ## Records of desired state in force -/

/-- The body a record was realised from (R332). -/
def State.body (s : State) (id : Nat) : List Byte := (s.astOf id).body

/-- Fields of a CTX record (R324). -/
def State.ctxField (s : State) (ctx off n : Nat) : Nat := field (s.body ctx) off n
def State.ctxFlag (s : State) (ctx bit : Nat) : Bool := (s.ctxField ctx 19 1).testBit bit
/-- DROP (R157). -/
def State.dropOption (s : State) (ctx : Nat) : Bool := s.ctxFlag ctx 1

/-- A context's priority for a launch: the lesser of the two PRIO fields, the CTX record's as it
stands (R323). -/
def State.priority (s : State) (launch : Nat) : Nat :=
  let l := s.launch launch
  min l.prio (field (s.record l.ctx).body 16 1)

/-- SR.PART bits 10:0 (R41). -/
def partField (g : Nat) : Nat := g / 16

end Sys2Proof.Machine
end

