-- ==== Sys2Proof/Machine/Memory.lean ====
section
/-! DEFINITION. Addresses, translation, the checks of a lane's access, the phase cache and the points
of coherence (R97 to R126, R240, R362 to R366, R424). A group's accesses are performed when they
issue, in program order. -/

namespace Sys2Proof.Machine

/-! ## Places -/

def Loc.plus (l : Loc) (i : Nat) : Loc :=
  match l with
  | .dev k => .dev (k + i)
  | .ext k => .ext (k + i)
  | .mmio k => .mmio (k + i)
  | .shared w o => .shared w (o + i)
  | .stack g o => .stack g (o + i)

def hbmBytes : Nat := 0x24_0000_0000
def hbmView : Nat := 0x0A0_0000_0000
def scratchBase : Nat := 0x140_0000_0000
def secondBase : Nat := 0x200_0000_0000
def secondBytes : Nat := 0x180_0000_0000

/-- The hash of R366. -/
def homeHash (a : Nat) : Nat := bitsAt a 12 2 ^^^ bitsAt a 18 2 ^^^ bitsAt a 24 2 ^^^ bitsAt a 30 2

/-- The local view of a cell of the interleaved HBM view (R366); other addresses are their own. -/
def canonicalDev (p : Nat) : Nat :=
  if hbmView ≤ p ∧ p < hbmView + 4 * hbmBytes then
    let o := p - hbmView
    homeHash o * hbmBytes + o / 4096 / 4 * 4096 + o % 4096
  else p

/-- Addresses of R362 that name a cell. -/
def devExists (p : Nat) : Bool :=
  p < 4 * hbmBytes || (hbmView ≤ p && p < hbmView + 4 * hbmBytes)
  || (scratchBase ≤ p && p < scratchBase + 4 * 2 ^ 32 && (p - scratchBase) % 2 ^ 32 < Config.scratchBytes)
  || (secondBase ≤ p && p < secondBase + secondBytes)

/-- Home die of a canonical address (R366). -/
def homeDie (k : Nat) : Nat :=
  if k < 4 * hbmBytes then k / hbmBytes
  else if k < secondBase then (k - scratchBase) / 2 ^ 32
  else homeHash k

/-- Bytes of HBM reserved for page tables on each die, by the signed configuration block (R394). -/
def State.tableBytes (s : State) : Nat := field s.boot.cfg 36 4 * 2 ^ 20

/-- A physical address where page tables stand: the top of each die's HBM (DESIGN CHOICE, log entry 19). -/
def State.inTables (s : State) (a : Nat) : Bool :=
  canonicalDev a < 4 * hbmBytes && hbmBytes - s.tableBytes ≤ canonicalDev a % hbmBytes

/-- A key for the phase cache. -/
def Loc.key : Loc → Option Nat
  | .dev k => some (2 * k)
  | .ext k => some (2 * k + 1)
  | _ => none

def Loc.ofKey (k : Nat) : Loc := if k % 2 = 0 then .dev (k / 2) else .ext (k / 2)

/-- The memory scope of a place (R117). -/
def Loc.scope : Loc → Scope
  | .dev k => if scratchBase ≤ k && k < secondBase then .die else .dev
  | .ext _ | .mmio _ => .sys
  | .shared .. => .wg
  | .stack .. => .lane

/-! ## Memories -/

/-- What an unlisted byte of any memory reads as: 0, by R99 for shared memory and by R100 for a stack, and
by the model's choice for device memory and memory outside the device. -/
def Memory.unlisted : Byte := 0

/-- The canonical form of a memory: addresses strictly rising, and no entry that an unlisted address reads as. -/
def Memory.wf (m : Memory) : Bool := canonical Memory.unlisted m

/-! ## Bytes at their point of coherence -/

def State.peek (s : State) : Loc → Byte
  | .dev k => look 0 s.mem k
  | .ext k | .mmio k => look 0 s.ext k
  | .shared w o => look 0 (s.wgOf w).shared o
  | .stack g o => look 0 (s.group g).stackMem o

def State.poke (s : State) (l : Loc) (b : Byte) : State :=
  match l with
  | .dev k => { s with mem := put 0 s.mem k b }
  | .ext k | .mmio k => { s with ext := put 0 s.ext k b }
  | .shared w o => let x := s.wgOf w; s.setWg w { x with shared := put 0 x.shared o b }
  | .stack g o => let x := s.group g; s.setGroup g { x with stackMem := put 0 x.stackMem o b }

def State.peeks (s : State) (l : Loc) (n : Nat) : List Byte :=
  (List.range n).map fun i => s.peek (l.plus i)

def State.pokes (s : State) (l : Loc) : List Byte → State
  | [] => s
  | b :: bs => (s.poke l b).pokes (l.plus 1) bs

/-- The byte's 32-byte sector is poisoned at its point of coherence (R424). -/
def State.poisoned (s : State) : Loc → Bool
  | .dev k => s.poison.contains (k / 32)
  | .shared w o => (s.wgOf w).sharedPoison.contains (o / 32)
  | .stack g o => (s.group g).stackPoison.contains (o / 32)
  | _ => false

/-- Mark or clear a sector's poison. -/
def State.setPoison (s : State) (l : Loc) (on : Bool) : State :=
  let upd (ps : List Nat) (k : Nat) := if on then k :: ps.filter (· != k) else ps.filter (· != k)
  match l with
  | .dev k => { s with poison := upd s.poison (k / 32) }
  | .shared w o =>
    let x := s.wgOf w; s.setWg w { x with sharedPoison := upd x.sharedPoison (o / 32) }
  | .stack g o =>
    let x := s.group g; s.setGroup g { x with stackPoison := upd x.stackPoison (o / 32) }
  | _ => s

/-! ## Translation (R363 to R366) -/

/-- Bytes of a leaf by its SIZE code. -/
def leafBytes (leaf : Nat) : Nat :=
  match leaf with | 0 => 2 ^ 12 | 1 => 2 ^ 16 | 2 => 2 ^ 21 | _ => 2 ^ 30

/-- The leaf of a global address: the realised MAP record behind it. -/
def State.mapping (s : State) (ctx a : Nat) : Option (Nat × Mapping) :=
  s.maps.findSome? fun (id, m) =>
    match m with
    | some m =>
      if m.ctx = ctx && m.va ≤ a && a < m.va + m.length
          && !(m.lost.any fun x => x.1 ≤ a && a < x.2) then some (id, m) else none
    | none => none

def Mapping.target' (m : Mapping) (a : Nat) : Nat := m.target + (a - m.va)

def Mapping.loc (m : Mapping) (a : Nat) : Loc :=
  match m.mkind with
  | 0 => .dev (canonicalDev (m.target' a))
  | 1 => .ext (m.target' a)
  | 3 => .mmio (m.target' a)
  | _ => .ext (2 ^ 64 * (1 + m.peer) + m.target' a)

/-- The page-table entry of an address, bit by bit as R364 lays it out; 0 where there is no leaf. -/
def State.pte (s : State) (ctx a : Nat) : BitVec 64 :=
  match s.mapping ctx a with
  | none => 0
  | some (_, m) =>
    let frame := m.target' (a - a % leafBytes m.leaf) / 2 ^ 12 % 2 ^ 40
    BitVec.ofNat 64 (2 ^ 63 + 2 ^ 62 + m.leaf * 2 ^ 60 + m.place * 2 ^ 58 + m.home * 2 ^ 56
      + m.mkind * 2 ^ 54 + (if m.device then 2 ^ 53 else 0) + (if m.resident then 2 ^ 52 else 0)
      + frame * 2 ^ 12 + m.perm * 2 ^ 8 + (if m.mkind = 2 then s.port.peers.idxOf m.peer else 0))

/-- Apertures (R97). -/
inductive Aperture where
  | global (a : Nat)
  | scratch (die off : Nat)
  | shared (off : Nat)
  | stack (off : Nat)
  | bad
deriving DecidableEq, Repr

def aperture (a : Nat) : Aperture :=
  if a ≤ 0x000F_FFFF_FFFF_FFFF then .global a
  else if 0xFFFF_FC00_0000_0000 ≤ a ∧ a < 0xFFFF_FC04_0000_0000 then
    .scratch ((a - 0xFFFF_FC00_0000_0000) / 2 ^ 32) (a % 2 ^ 32)
  else if 0xFFFF_FD00_0000_0000 ≤ a ∧ a < 0xFFFF_FE00_0000_0000 then
    .shared (a - 0xFFFF_FD00_0000_0000)
  else if 0xFFFF_FE00_0000_0000 ≤ a ∧ a ≤ 0xFFFF_FE00_FFFF_FFFF then
    .stack (a - 0xFFFF_FE00_0000_0000)
  else .bad

/-- A scratchpad or shared-memory place of a launch or workgroup, within its limits (R97). -/
def State.areaLoc (s : State) (launch die off n : Nat) : Option Loc :=
  let l := s.launch launch
  if l.dies.testBit die && off + n ≤ l.scratch then
    some (.dev (scratchBase + die * 2 ^ 32 + look 0 l.areas die + off))
  else none

def State.sharedLoc (s : State) (wg off n : Nat) : Option Loc :=
  if off + n ≤ (s.wgOf wg).sharedBytes then some (.shared wg off) else none

/-- Size and place of a lane's stack: the launch's stack, or the handler's while the group is in its
handler (R100, R299, R375). -/
def State.stackBytes (s : State) (g : Group) : Nat :=
  if g.handling.isSome then s.ctxField g.ctx 28 2 * 256 else g.stackLim * 256

def State.trapElement (s : State) (ctx key : Nat) : Nat :=
  s.ctxField ctx 56 8 + key * (64 + 16384 * s.ctxField ctx 28 2)

def State.stackLoc (s : State) (g : Group) (key lane off : Nat) : Loc :=
  if g.handling.isSome then
    let a := s.trapElement g.ctx key + 64 + lane * (s.ctxField g.ctx 28 2 * 256) + off
    match s.mapping g.ctx a with
    | some (_, m) => m.loc a
    | none => .stack key (2 ^ 48 + lane * 2 ^ 32 + off)
  else .stack key (lane * 2 ^ 32 + off)

/-! ## The checks of one lane (R240, R25) -/

/-- What an access does to memory. -/
inductive Acc where
  /-- `peer`: a form that may reach a peer register (R359) -/
  | load (peer : Bool)
  | store (peer : Bool)
  /-- a read-modify-write; whether the host performs the form (R252) -/
  | rmw (host : Bool)
deriving DecidableEq, Repr

/-- What the checks of a lane find. -/
inductive Chk where
  /-- a fault code (R426) -/
  | fault (code : Nat)
  /-- a page of this MAP record that is not resident -/
  | missing (id : Nat)
  /-- a helper lane's load that reads zero -/
  | zero
  /-- no access is made -/
  | skip
  | at (l : Loc)
deriving DecidableEq, Repr, Inhabited

def faultADDRESS : Nat := 5
def faultALIGN : Nat := 6
def faultSTACK : Nat := 7
def faultPERMISSION : Nat := 8
def faultNOATOMIC : Nat := 9

def Acc.permits (k : Acc) (m : Mapping) : Bool :=
  m.device && (match k with
    | .load peer => m.perm.testBit 0 && (peer || m.mkind != 3)
    | .store peer => m.perm.testBit 1 && (peer || m.mkind != 3)
    | .rmw _ => m.perm.testBit 0 && m.perm.testBit 1)

/-- NO_ATOMIC (R252): peer registers take none, host memory only the PCI Express AtomicOps. -/
def Acc.noAtomic (k : Acc) (m : Mapping) : Bool :=
  match k with
  | .rmw host => m.mkind == 3 || (m.mkind == 1 && !host)
  | _ => false

def Acc.isLoad : Acc → Bool
  | .load _ => true
  | _ => false

/-- The first fault of R240's order for one lane, or where its access goes. -/
def State.check (s : State) (key : Nat) (g : Group) (lane : Nat) (k : Acc) (a n : Nat) : Chk :=
  let helper := g.helper.getLsbD lane
  let aligned := a % n == 0
  let place (l : Option Loc) : Chk :=
    match l with
    | none => .fault faultADDRESS
    | some l => if !aligned then .fault faultALIGN else if helper && !k.isLoad then .skip else .at l
  match aperture a with
  | .bad => .fault faultADDRESS
  | .scratch d off => place (s.areaLoc g.launch d off n)
  | .shared off => place (s.sharedLoc g.wg off n)
  | .stack off =>
    match k with
    | .rmw _ => .fault faultADDRESS
    | _ =>
      if !aligned then .fault faultALIGN
      else if s.stackBytes g < off + n then .fault faultSTACK
      else if helper && !k.isLoad then .skip else .at (s.stackLoc g key lane off)
  | .global a =>
    if helper && !k.isLoad then (if aligned then .skip else .fault faultALIGN)
    else
      match s.mapping g.ctx a with
      | none => if !helper then .fault faultADDRESS else if aligned then .zero else .fault faultALIGN
      | some (id, m) =>
        if !aligned then .fault faultALIGN
        else if helper && !m.resident then .zero
        else if !k.permits m then .fault faultPERMISSION
        else if k.noAtomic m then .fault faultNOATOMIC
        else if !m.resident then .missing id
        else .at (m.loc a)

/-! ## Requests outside the device (R127, R356 to R358) -/

/-- The link a key of `State.ext` is reached through: Hevis Link, or else PCI Express. -/
def viaHevis (k : Nat) : Bool := 2 ^ 64 ≤ k

/-- A place outside the device. -/
def Loc.outside : Loc → Bool
  | .ext _ | .mmio _ => true
  | _ => false

/-- A place reached through Hevis Link. -/
def Loc.hevis : Loc → Bool
  | .ext k => viaHevis k
  | _ => false

/-- Put a request on the port; its tag comes back. -/
def State.ask (s : State) (k size : Nat) (kind : OutKind) (regs : List Write) (lost : Bool) (o : Origin)
    (poisoned : Bool := false) : State × Nat :=
  let tag := s.port.nextTag
  let r : OutReq :=
    { tag, hevis := viaHevis k, addr := k, size, kind, regs, sentTick := s.tick, attempts := 1, lost, poisoned,
      origin := o }
  ({ s with free := s.free + 1, port := { s.port with out := s.port.out ++ [r], nextTag := tag + 1 } }, tag)

/-- A request through Hevis Link is lost on every path: a free value (log entry 6). -/
def State.lostNow (s : State) (k : Nat) : Bool := viaHevis k && !Config.reached s.free

/-- Places outside the device by runs of consecutive keys: first key and number. -/
def outRuns : List Loc → List (Nat × Nat)
  | [] => []
  | l :: ls =>
    match l, outRuns ls with
    | .ext k, (j, n) :: more => if j = k + 1 then (k, n + 1) :: more else (k, 1) :: (j, n) :: more
    | .ext k, [] => [(k, 1)]
    | _, rs => rs

/-- Ask for runs of bytes outside the device, one request each; the tags come back. Whether a unit's own read gets a
good answer is settled at once (log entry 6). -/
def State.askRuns (s : State) (kind : OutKind) (o : Origin) (runs : List (Nat × Nat)) : State × List Nat :=
  runs.foldl (fun (s, ts) (k, n) =>
    let (s, t) := s.ask k n kind [] (kind == .unit && !Config.reached s.free) o
    (s, ts ++ [t])) (s, [])

def OutKind.isFlush : OutKind → Bool
  | .flush _ => true
  | _ => false

/-- Posted writes have no zero-length read behind them yet. -/
def Port.unread (p : Port) : Bool :=
  p.out.any fun q => q.kind == .posted && !p.out.any fun r => r.kind.isFlush && q.tag < r.tag

/-- A zero-length read is put behind the port's posted writes (R126), by a group or by another unit. -/
def State.flushPosted (s : State) (group : Bool) (o : Origin) : State :=
  if s.port.unread then (s.ask 0 0 (.flush group) [] false o).1 else s

/-- Write bytes outside the device, as `kind` where it is Hevis Link that carries them. A posted write of a generation
that is being drained gets its zero-length read at once (R368). -/
def State.sendOut (s : State) (k : Nat) (kind : OutKind) (bs : List Byte) (o : Origin) (poisoned : Bool := false) :
    State × Nat :=
  let lost := s.lostNow k
  let (s, tag) := s.ask k bs.length (if viaHevis k then kind else .posted) [] lost o poisoned
  let s := if o.gen == (s.ctxOf o.ctx).gen then s else s.flushPosted false o
  (if lost then s else { s with ext := putList 0 s.ext k bs }, tag)

/-- A core's L1 as the maker of a request translated under generation `gen`. -/
def State.coreOrigin (s : State) (core ctx : Nat) (gen : Bool) : Origin :=
  let g := s.group (64 * core)
  { group := 64 * core, slot := 0, plane := 0, region := 0, offset := 0, mask := 0, va := 0, ctx, launch := g.launch,
    wgIndex := (s.wgOf g.wg).index, index := g.index, gen }

/-! ## Request counters (R367) -/

/-- Add 1 to a request counter of a die, saturating at 2^64 − 1. -/
def State.count (s : State) (die which : Nat) : State :=
  let d := s.die die
  s.setDie die { d with counters := put 0 d.counters which (min (look 0 d.counters which + 1) (2 ^ 64 - 1)) }

/-- A request of die `die` to device global memory: LOCALREQ, REMOTEREQ or SECONDREQ. -/
def State.countReq (s : State) (die : Nat) (l : Loc) : State :=
  match l with
  | .dev k =>
    if secondBase ≤ k then s.count die 2
    else if scratchBase ≤ k then s
    else s.count die (if homeDie k = die then 0 else 1)
  | _ => s

/-! ## Phase cache (R120 to R125) -/

/-- Where an access is performed: in the core's L1, or at the point of coherence. -/
inductive How where
  | l1 | poc
deriving DecidableEq, Repr

/-- A strong access at `.lane` to `.wg` is performed at the core, at `.cl` and wider at the point of
coherence (R108, R125). -/
def howOf (sc : Scope) : How :=
  match sc with
  | .lane | .grp | .wg => .l1
  | _ => .poc

def State.l1 (s : State) (core key : Nat) : Option L1Byte := look none (s.core core).l1 key
def State.setL1 (s : State) (core key : Nat) (x : Option L1Byte) : State :=
  let c := s.core core; s.setCore core { c with l1 := put none c.l1 key x }

/-- The die of a core. -/
def coreDie (core : Nat) : Nat := core / 128

/-- The 32-byte sector of a place as the phase cache numbers it (R423). -/
def l1Sector (key : Nat) : Nat := 2 * (key / 64) + key % 2

/-- An error has struck the core's copy of the place's sector (R423). -/
def State.struck (s : State) (core key : Nat) : Bool := (s.core core).l1Poison.contains (l1Sector key)

/-- Perform a store of the core's L1 at its point of coherence; a struck copy is poisoned there too (R423). -/
def State.publishByte (s : State) (core : Nat) (l : Loc) (x : L1Byte) : State :=
  match l with
  | .ext k => (s.sendOut k .publish [x.val] (s.coreOrigin core x.ctx x.gen) (s.struck core (2 * k + 1))).1
  | .dev k =>
    let s' := (s.countReq (coreDie core) l).poke l x.val
    if s.struck core (2 * k) then s'.setPoison l true else s'
  | _ => s.poke l x.val

/-- A struck sector of which the L1 holds nothing any more is forgotten. -/
def State.unstrike (s : State) (core key : Nat) : State :=
  let c := s.core core
  if s.struck core key && !c.l1.any (fun e => e.2.isSome && l1Sector e.1 == l1Sector key) then
    s.setCore core { c with l1Poison := c.l1Poison.filter (· != l1Sector key) }
  else s

/-- Write a byte of the L1 back if a store made it, and drop it (R123). -/
def State.evictByte (s : State) (core : Nat) (l : Loc) : State :=
  match l.key with
  | none => s
  | some key =>
    match s.l1 core key with
    | none => s
    | some x => ((if x.dirty then s.publishByte core l x else s).setL1 core key none).unstrike core key

/-- The same for some bytes. -/
def State.evictBytes (s : State) (core : Nat) (l : Loc) (n : Nat) : State :=
  (List.range n).foldl (fun s i => s.evictByte core (l.plus i)) s

/-- The first byte of a place's 32-byte sector. -/
def Loc.sectorStart (l : Loc) : Loc :=
  match l with
  | .dev k => .dev (k - k % 32)
  | .ext k => .ext (k - k % 32)
  | l => l

/-- The L1 writes back and drops the bytes of an access that is performed at its point of coherence, and the whole
sector where its copy was struck, which is then poisoned there (R423). -/
def State.evictAccess (s : State) (core : Nat) (l : Loc) (n : Nat) : State :=
  match l.key with
  | some key => if s.struck core key then s.evictBytes core l.sectorStart 32 else s.evictBytes core l n
  | none => s

/-- Read one byte (R122): an L1 read keeps what it fetched until the next boundary. -/
def State.readByte (s : State) (how : How) (core : Nat) (l : Loc) : State × Byte :=
  match l.key with
  | none => (s, s.peek l)
  | some key =>
    match how with
    | .poc => let s := s.evictByte core l; (s, s.peek l)
    | .l1 =>
      match s.l1 core key with
      | some x => (s, x.val)
      | none =>
        let b := s.peek l
        (s.setL1 core key (some { val := b, dirty := false, ctx := 0, gen := false, bad := s.poisoned l }), b)

def State.readBytes (s : State) (how : How) (core : Nat) (l : Loc) : Nat → State × List Byte
  | 0 => (s, [])
  | n + 1 =>
    let (s, b) := s.readByte how core l
    let (s, bs) := s.readBytes how core (l.plus 1) n
    (s, b :: bs)

/-- A byte a load of this core reads is poisoned (R424): as it was fetched, or its copy struck, or where it stands. -/
def State.readPoison (s : State) (core : Nat) (l : Loc) : Bool :=
  match l.key with
  | none => s.poisoned l
  | some key =>
    match s.l1 core key with
    | some x => x.bad || s.struck core key
    | none => s.poisoned l

/-- Write one byte: in the L1, published later, with the context and generation of its translation, or at its point of
coherence within the device, leaving no copy. A store clears no poison (R424). -/
def State.writeByte (s : State) (how : How) (core ctx : Nat) (gen : Bool) (l : Loc) (b : Byte) : State :=
  match l.key with
  | none => s.poke l b
  | some key =>
    match how with
    | .l1 => s.setL1 core key (some { val := b, dirty := true, ctx, gen, bad := s.readPoison core l })
    | .poc => (s.evictByte core l).poke l b

def State.writeBytes (s : State) (how : How) (core ctx : Nat) (gen : Bool) (l : Loc) : List Byte → State
  | [] => s
  | b :: bs => (s.writeByte how core ctx gen l b).writeBytes how core ctx gen (l.plus 1) bs

/-- A read of `n` bytes leaves the core: it is strong at `.cl` or wider, or the L1 does not hold them all. -/
def State.missed (s : State) (how : How) (core : Nat) (l : Loc) (n : Nat) : Bool :=
  match l.key, how with
  | none, _ => true
  | some _, .poc => true
  | some _, .l1 => (List.range n).any fun i =>
    match (l.plus i).key with | some k => (s.l1 core k).isNone | none => true

/-- A request of die `die` to a place crosses a die link (R1, R119). -/
def Loc.crosses (l : Loc) (die : Nat) : Bool :=
  match l with
  | .dev k => homeDie k != die
  | .ext _ | .mmio _ => true
  | _ => false

/-- An access leaves its core for a place behind a die link: every access at the point of coherence, and a load that the L1
does not hold whole; a weak store stays in the L1. -/
def State.crosses (s : State) (how : How) (kind core : Nat) (l : Loc) (n : Nat) : Bool :=
  l.crosses (coreDie core) && (how == .poc || (kind != 2 && s.missed how core l n))

/-- Stores to consecutive bytes of a 128-byte line that a boundary publishes in one request: its first byte, the bytes,
and the context, generation and poison that they share. -/
structure StoreRun where
  first : Nat
  ctx : Nat
  gen : Bool
  poisoned : Bool
  bytes : List Byte
deriving DecidableEq, Repr

/-- The requests that publish some stores, each given with whether its sector was struck. -/
def storeRuns : List (Nat × L1Byte × Bool) → List StoreRun
  | [] => []
  | (k, x, bad) :: rest =>
    let mine : StoreRun := { first := k, ctx := x.ctx, gen := x.gen, poisoned := bad, bytes := [x.val] }
    match storeRuns rest with
    | r :: more =>
      if r.first = k + 1 ∧ r.first % 128 ≠ 0 ∧ r.ctx = x.ctx ∧ r.gen = x.gen ∧ r.poisoned = bad then
        { mine with bytes := x.val :: r.bytes } :: more
      else mine :: r :: more
    | [] => [mine]

/-- The L1's stores to memory outside the device, or to device memory, with whether their sectors were struck. -/
def Core.stores (c : Core) (out : Bool) : List (Nat × L1Byte × Bool) :=
  c.l1.filterMap fun (key, x) =>
    match x with
    | some x => if x.dirty && key % 2 == out.toNat then some (key / 2, x, c.l1Poison.contains (l1Sector key)) else none
    | none => none

/-- Perform the L1's stores to device memory at their points of coherence. -/
def publish (s : State) : List (Nat × Option L1Byte) → State
  | [] => s
  | (key, some x) :: es =>
    publish (match Loc.ofKey key with | .dev k => if x.dirty then s.poke (.dev k) x.val else s | _ => s) es
  | (_, none) :: es => publish s es

/-- Send the L1's stores to memory outside the device. -/
def State.publishOut (s : State) (core : Nat) (runs : List StoreRun) : State :=
  runs.foldl (fun s r => (s.sendOut r.first .publish r.bytes (s.coreOrigin core r.ctx r.gen) r.poisoned).1) s

/-- The sectors of a range of device memory. -/
def sectors (a n : Nat) : List Nat :=
  if n = 0 then [] else (List.range ((a + n - 1) / 32 - a / 32 + 1)).map fun i => a / 32 + i

/-- The L1's stores to device memory as requests of the core's die (R367); sectors poisoned in a written L1 copy stay
poisoned when written back (R423). -/
def State.publishDev (s : State) (core : Nat) (runs : List StoreRun) : State :=
  runs.foldl (fun s r =>
    let s := s.countReq (coreDie core) (.dev r.first)
    if r.poisoned then (sectors r.first r.bytes.length).foldl (fun s k => s.setPoison (.dev (32 * k)) true) s
    else s) s

/-- A phase boundary of a core: publish, then refresh; a published byte may be kept (R121), but none that went through
Hevis Link (log entry 6). -/
def State.boundary (s : State) (core : Nat) : State :=
  let c := s.core core
  let kept := (c.l1.filter fun e =>
    match e.2 with
    | some x => x.dirty && !(Loc.ofKey e.1).hevis && Config.l1Keeps s.free e.1
    | none => false).map fun e =>
      (e.1, e.2.map fun x => { x with dirty := false, bad := x.bad || c.l1Poison.contains (l1Sector e.1) })
  let s := ((publish s c.l1).publishDev core (storeRuns (c.stores false))).publishOut core (storeRuns (c.stores true))
  let s := s.setCore core { s.core core with l1 := kept, l1Poison := [] }
  { s with free := s.free + 1 }

/-- Registers that receive a load: sign or zero extended, all ones where a byte is poisoned (R238,
R424). -/
def loadWords (w : LoadW) (bs : List Byte) (bad : List Bool) : List Word :=
  let word (i : Nat) : Word :=
    if ((bad.drop (4 * i)).take 4).any id then 0xFFFF_FFFF
    else
      let x := leNat ((bs.drop (4 * i)).take 4)
      match w with
      | .i8 => (BitVec.ofNat 8 x).signExtend 32
      | .i16 => (BitVec.ofNat 16 x).signExtend 32
      | .plain _ => BitVec.ofNat 32 x
  (List.range w.width.regs).map word

/-! ## Writes of the device itself into a context's memory -/

/-- Where the bytes of a context's virtual address and the bytes after it lie, with the bytes to be stored there; bytes
without a leaf are dropped. -/
def State.ctxPlaces (s : State) (ctx a : Nat) : List Byte → List (Loc × Byte)
  | [] => []
  | b :: bs =>
    match s.mapping ctx a with
    | some (_, m) => (m.loc a, b) :: s.ctxPlaces ctx (a + 1) bs
    | none => s.ctxPlaces ctx (a + 1) bs

/-- A unit of the device that acts for a context, as the maker of a request. -/
def State.unitOrigin (s : State) (ctx : Nat) : Origin :=
  { group := 0, slot := 0, plane := 0, region := 0, offset := 0, mask := 0, va := 0, ctx, launch := 0, wgIndex := 0,
    index := 0, gen := (s.ctxOf ctx).gen }

/-- Store bytes at places, at the points of coherence; each run of them outside the device is one request (R127). -/
def State.putPlaces (s : State) (kind : OutKind) (o : Origin) (ps : List (Loc × Byte)) : State :=
  let s := (ps.filter fun p => !p.1.outside).foldl (fun s p => s.poke p.1 p.2) s
  (outRuns (ps.map (·.1))).foldl (fun s (k, n) =>
    let bs := (List.range n).map fun i => ((ps.find? fun p => p.1 == .ext (k + i)).map (·.2)).getD 0
    (s.sendOut k kind bs o).1) s

/-- Store bytes at a context's virtual address for the device itself. -/
def State.ctxWrite (s : State) (ctx a : Nat) (bs : List Byte) : State :=
  s.putPlaces .command (s.unitOrigin ctx) (s.ctxPlaces ctx a bs)

/-- Read bytes at a context's virtual address from the points of coherence. -/
def State.ctxRead (s : State) (ctx a n : Nat) : List Byte :=
  (List.range n).map fun i =>
    match s.mapping ctx (a + i) with
    | some (_, m) => s.peek (m.loc (a + i))
    | none => 0

/-- Read a context's memory at the points of coherence, past a core's L1. -/
def State.pocRead (s : State) (ctx core a n : Nat) : State × List Byte :=
  let s := (List.range n).foldl (fun s i =>
    match s.mapping ctx (a + i) with
    | some (_, m) => s.evictByte core (m.loc (a + i))
    | none => s) s
  (s, s.ctxRead ctx a n)

/-- What the notification unit or the Blocker reads of a context's memory: the part outside the device is a request for
each run, of which every byte is all ones where no good answer comes (R356, R358). -/
def State.unitRead (s : State) (ctx a n : Nat) : State × List Byte :=
  let at' (i : Nat) : Option Loc := (s.mapping ctx (a + i)).map fun e => e.2.loc (a + i)
  let runs := outRuns ((List.range n).filterMap at')
  let (t, tags) := s.askRuns .unit (s.unitOrigin ctx) runs
  let gone (k : Nat) : Bool :=
    t.port.out.any fun r => tags.contains r.tag && r.lost && r.addr ≤ k && k < r.addr + r.size
  (t, (List.range n).map fun i =>
    match at' i with
    | some (.ext k) => if gone k then 0xFF else s.peek (.ext k)
    | some l => s.peek l
    | none => 0)

end Sys2Proof.Machine
end

