-- ==== Sys2Proof/Machine/Notice.lean ====
section
/-! DEFINITION. The group that issues, the rings' queue of records, and what the debugger sees of an
issue: debug stops (R408, R409), trace records (R420), replay records (R421, R422) and samples
(R418, R419). -/

namespace Sys2Proof.Machine

/-! ## The plane issue being made -/

def State.me (s : State) : Group := s.group s.cur.group
def State.setMe (s : State) (g : Group) : State := s.setGroup s.cur.group g
def State.mySplit (s : State) : Split := s.me.split s.cur.slot

/-! ## Counters and rings (R330, R340, R352) -/

/-- A counter of an AST entry of a CTX record, saturating at 2^32 − 1 (R330). -/
def Ast.bump (a : Ast) (which n : Nat) : Ast :=
  let sat (x : Nat) := min (x + n) (2 ^ 32 - 1)
  match which with
  | 0 => { a with c0 := sat a.c0 }
  | 1 => { a with c1 := sat a.c1 }
  | 2 => { a with c2 := sat a.c2 }
  | _ => { a with c3 := sat a.c3 }

def State.bumpAst (s : State) (id which n : Nat) : State := s.writeAst id ((s.astOf id).bump which n)

/-- The context a record names, or is (R340). -/
def Record.context (r : Record) (id : Nat) : Nat :=
  match r.kind with
  | 1 => id
  | 2 => field r.body 40 4
  | _ => field r.body 16 4

/-- Something of the record is realised. -/
def State.realised (s : State) (id : Nat) : Bool :=
  (look none s.ctxs id).isSome || (look none s.maps id).isSome || (look none s.launches id).isSome
  || (look none s.queues id).isSome

/-- Available: in LIVE or CHANGING (R334), or in BLOCKED with something realised, which a teardown or a change that is
held keeps usable (R334, R337). -/
def State.available (s : State) (id : Nat) : Bool :=
  match (s.astOf id).phase with
  | .live | .changing => true
  | .blocked => s.realised id
  | _ => false

/-- Ring 0 of a context with rings that is available, else the driver's notice ring (R340). -/
def State.noticeRing (s : State) (ctx : Nat) : Ring :=
  match (look none s.ctxs ctx) with
  | some _ => if s.ctxField ctx 22 2 = 0 || !s.available ctx then .driver else .ctx ctx 0
  | none => .driver

/-- Hand a record to the notification unit (R352). -/
def State.send (s : State) (r : Ring) (data : List Byte) (after : List Nat := []) : State :=
  { s with notices := s.notices ++ [{ ring := r, data, after, cons := none }] }

/-! ## Conditions of a WAIT (R260) -/

/-- The groups of a workgroup, from its launch (R17). -/
def State.groupCount (s : State) (g : Group) : Nat :=
  let l := s.launch g.launch
  (l.lanes + g.width - 1) / g.width

/-- A batch that is closed and not yet complete (R266). -/
def Workgroup.incomplete (w : Workgroup) (grp seq : Nat) : Bool :=
  w.batches.any fun e => e.1 == grp && e.2.seq == seq && e.2.closed

/-- A handle's batch is complete (R265, R266). -/
def State.handleDone (s : State) (g : Group) (h : Word) : Bool :=
  !(s.wgOf g.wg).incomplete (h.toNat % 16) (h.toNat / 256)

/-- Where an address of a workgroup lies, outside the stack. -/
def State.place (s : State) (ctx launch wg a n : Nat) : Option Loc :=
  match aperture a with
  | .scratch d off => s.areaLoc launch d off n
  | .shared off => s.sharedLoc wg off n
  | .global a => (s.mapping ctx a).map fun e => e.2.loc a
  | _ => none

def State.placeOf (s : State) (g : Group) (a n : Nat) : Option Loc := s.place g.ctx g.launch g.wg a n

/-- A byte that the core's groups have stored in its L1 and not yet published. -/
def State.stored (s : State) (core : Nat) (l : Loc) : Option Byte :=
  match l.key with
  | some k => (match s.l1 core k with | some x => if x.dirty then some x.val else none | none => none)
  | none => none

/-- The condition holds of a word's value. -/
def Cond.wordOk (c : Cond) (x : Word) : Bool := if c.ne then x != c.value else x == c.value

/-- A write to a monitored word that has been performed since `before` meets its condition (R260): one at its point
of coherence, which for host memory the device does not see, or one in the core's L1 by a group of the core. -/
def State.writeMeets (before s : State) (core : Nat) (l : Loc) (c : Cond) : Bool :=
  let poc := s.peeks l 4
  let mine := (List.range 4).map fun i => (s.stored core (l.plus i)).getD (poc.getD i 0)
  let fresh := (List.range 4).any fun i =>
    (s.stored core (l.plus i)).isSome && s.stored core (l.plus i) != before.stored core (l.plus i)
  ((!l.outside || l.hevis) && poc != before.peeks l 4 && c.wordOk (BitVec.ofNat 32 (leNat poc)))
  || (fresh && c.wordOk (BitVec.ofNat 32 (leNat mine)))

/-- A phase number has reached the target (R260). -/
def phaseReached (phase target : Word) : Bool := (phase - target).toNat < 2 ^ 31

/-- A condition other than a phase is met, where the part stood at `before` when it was last tested. -/
def State.condNow (before s : State) (key : Nat) (g : Group) (c : Cond) : Bool :=
  match c.kind with
  | .phase => false
  | .handle => s.handleDone g (c.addr.setWidth 32)
  | .time => c.addr.toNat ≤ s.tick
  | .monitor =>
    match s.placeOf g c.addr.toNat 4 with
    | some l => before.writeMeets s (coreOf key) l c
    | none => false

/-- Latch the conditions of a waiting split that `ok` finds met. -/
def Split.latch (sp : Split) (tick : Nat) (ok : Cond → Bool) : Split :=
  match sp.wait with
  | none => sp
  | some w =>
    let conds := w.conds.map fun c => if c.met.isNone && ok c then { c with met := some tick } else c
    { sp with wait := some { w with conds } }

/-- Latch conditions in every waiting split of every group. -/
def State.latchAll (s : State) (ok : Nat → Group → Cond → Bool) : State :=
  let one (key : Nat) (g : Group) : Group :=
    { g with splits := g.splits.map fun e => (e.1, e.2.map fun sp => sp.latch s.tick (ok key g)) }
  { s with groups := s.groups.map fun e => (e.1, e.2.map (one e.1)) }

/-- Test handles, deadlines and monitors (R260): each write since `before` is tested. -/
def State.testWaits (before s : State) : State := s.latchAll fun key g c => before.condNow s key g c

/-! ## Port registers -/

def State.reg (s : State) (off : Nat) : DWord := look 0 s.port.regs off
def State.setReg (s : State) (off : Nat) (x : DWord) : State :=
  { s with port := { s.port with regs := put 0 s.port.regs off x } }

/-- Add to a counter register, saturating at 2^64 − 1. -/
def State.bumpReg (s : State) (off n : Nat) : State :=
  s.setReg off (BitVec.ofNat 64 (min ((s.reg off).toNat + n) (2 ^ 64 - 1)))

/-- Offsets from 0x0D0_0000 of BAR2 of the debug, watchpoint, sampling and trace registers (R407,
R412, R418). -/
def dbgBase : Nat := 0x20_2000
def holdReg (k : Nat) : Nat := dbgBase + 0x40 + 8 * k
def wpReg (w : Nat) : Nat := dbgBase + 0x100 + 32 * w
def smpBase : Nat := dbgBase + 0x400
def trcCtl : Nat := dbgBase + 0x448
def traceEn (i : Nat) : Nat := dbgBase + 0x500 + 8 * i

/-- The enabled HOLD slot that names a context, if any (R407). -/
def State.holdOf (s : State) (ctx : Nat) : Option DWord :=
  ((List.range 16).map fun k => s.reg (holdReg k)).find? fun r =>
    r.getLsbD 63 && (r.setWidth 32).toNat == ctx

def State.isHeld (s : State) (ctx : Nat) : Bool := (s.holdOf ctx).isSome
def State.trapStop (s : State) (ctx : Nat) : Bool :=
  match s.holdOf ctx with | some r => r.getLsbD 62 | none => false

/-- EN with a LOG2RING that a ring admits (R418). -/
def ringOn (r : DWord) : Bool := r.getLsbD 8 && 4 ≤ r.toNat % 32 && r.toNat % 32 ≤ 16

/-! ## Trace records (R420) -/

/-- A trace record at an FCLK cycle, where tracing is enabled for the partition. -/
def State.traceAt (s : State) (clock kind slot value part offset region plane : Nat) : State :=
  if ringOn (s.reg trcCtl) && (s.reg (traceEn (part / 64))).getLsbD (part % 64) then
    s.send .trace (leBytes 1 kind ++ leBytes 1 slot ++ leBytes 2 value ++ leBytes 4 part
      ++ leBytes 4 offset ++ leBytes 2 region ++ leBytes 1 plane ++ leBytes 1 0
      ++ leBytes 8 clock ++ leBytes 8 0)
  else s

def State.trace (s : State) (kind slot value part offset region plane : Nat) : State :=
  s.traceAt (s.cluster (part / 16)).clock kind slot value part offset region plane

/-- A trace record of the issuing split. -/
def State.traceMe (s : State) (kind value : Nat) : State :=
  let sp := s.mySplit
  s.trace kind (s.cur.group % 16) value (partOf s.cur.group) sp.offset sp.region s.cur.plane

/-! ## The debug core's status (R407) -/

def regStatus : Nat := dbgBase + 0x10

/-- The debug core runs a command. -/
def State.dbgBusy (s : State) : Bool := bitsAt (s.reg regStatus).toNat 48 8 == 1

def State.setStatus (s : State) (op result seq : Nat) : State :=
  s.setReg regStatus (BitVec.ofNat 64 (op * 2 ^ 56 + result * 2 ^ 48 + seq % 2 ^ 32))

/-- A command that is not done at once shows RESULT 1 meanwhile. -/
def State.dbgBegin (s : State) : State :=
  let x := (s.reg regStatus).toNat
  s.setStatus (x / 2 ^ 56) 1 (x % 2 ^ 32)

/-- A command completes: SEQ advances. -/
def State.dbgDone (s : State) (op result : Nat) : State :=
  s.setStatus op result ((s.reg regStatus).toNat % 2 ^ 32 + 1)

/-! ## Debug stops (R408, R409) -/

/-- A result of an MMA that its gang still holds in the latch, and so not yet in flight (R159, R414). -/
def State.inLatch (s : State) (key : Nat) (r : Result) : Bool :=
  match (s.core (coreOf key)).latch with
  | some (_, _, ms) =>
    ms.any fun m => m.group == key && m.id == r.id
  | none => false

/-- Scoreboard of a partition: the results in flight of its groups, ascending (R417). -/
def State.board (s : State) (part : Nat) : List (Nat × Result) :=
  (List.range 16).flatMap fun k =>
    match look none s.groups (16 * part + k) with
    | some g => (g.inflight.filter fun r => !s.inLatch (16 * part + k) r).map fun r => (k, r)
    | none => []

/-- The notice and the trace record of a partition's stop (R409, R420). -/
def State.tell (s : State) (part : Nat) : State :=
  let p := s.part part
  match p.stopped with
  | none => s
  | some x =>
    if x.told then s
    else
      let s := s.setPart part { p with stopped := some { x with told := true } }
      let s := s.send .driver (leBytes 2 5 ++ leBytes 1 x.cause ++ leBytes 1 x.slot ++ leBytes 4 part
        ++ leBytes 4 x.ctx ++ leBytes 4 x.offset ++ leBytes 2 x.region ++ leBytes 1 x.plane ++ leBytes 1 0
        ++ leBytes 8 x.tick ++ leBytes 4 0)
      s.traceAt x.clock 2 x.slot x.cause part x.offset x.region x.plane

/-- They go out in the first FCLK cycle after the stop's, when its cause is settled (R408). -/
def State.announce (s : State) (part : Nat) : State :=
  match (s.part part).stopped with
  | some x => if x.clock < (s.cluster (part / 16)).clock then s.tell part else s
  | none => s

/-- A cause is dropped by a partition that is stopped, one that waits for a STEP's issue included, unless it is lower and
of the same FCLK cycle (R408, R411). -/
def State.stopHolds (s : State) (part cause : Nat) : Bool :=
  match (s.part part).stopped with
  | some x => x.told || !(x.clock == (s.cluster (part / 16)).clock && cause < x.cause)
  | none => false

/-- A stop of a partition; `slot` 255 names no group. -/
def State.stopPart (s : State) (part cause slot split plane code : Nat) (watch : Option (Nat × DWord)) :
    State :=
  let p := s.part part
  if s.stopHolds part cause then s
  else
    let g := s.group (16 * part + slot)
    let sp := g.split split
    let ctx := if slot = 255 then 0 else g.ctx
    let region := if slot = 255 then 0 else sp.region
    let offset := if slot = 255 then 0 else sp.offset
    let now := (s.cluster (part / 16)).clock
    let x : Stopped :=
      { cause, slot, ctx, region, offset, plane, tick := s.tick, clock := now, code, watch,
        board := s.board part, since := now, told := false }
    s.setPart part { p with stopped := some x }

/-! ## Replay records (R421, R422) -/

/-- RECORD and STALL of a context (R324). -/
def State.recording (s : State) (ctx : Nat) : Bool := s.ctxFlag ctx 3
def State.stalling (s : State) (ctx : Nat) : Bool := s.ctxFlag ctx 4

def State.logAddr (s : State) (ctx : Nat) : Nat := s.ctxField ctx 88 8
/-- U: 32-byte units of the log. -/
def State.logUnits (s : State) (ctx : Nat) : Nat := (s.ctxField ctx 96 4 - 64) / 32

def padTo (n : Nat) (bs : List Byte) : List Byte := bs ++ List.replicate (n - bs.length) 0

/-- Units are written one by one, around the log's end. -/
def State.writeUnits (s : State) (ctx i : Nat) : Nat → List Byte → State
  | 0, _ => s
  | n + 1, bs =>
    let a := s.logAddr ctx + 64 + 32 * (i % s.logUnits ctx)
    (s.ctxWrite ctx a (bs.take 32)).writeUnits ctx (i + 1) n (bs.drop 32)

/-- Free units of a context's log. -/
def State.logFree (s : State) (ctx : Nat) : Nat :=
  let log := s.logAddr ctx
  s.logUnits ctx - (leNat (s.ctxRead ctx log 8) - leNat (s.ctxRead ctx (log + 8) 8))

/-- Log a value a plane issue receives from outside its group. -/
def State.logValue (s : State) (key kind plane region offset : Nat) (mask : LaneMask)
    (payload : List Byte) : State :=
  let g := s.group key
  let ctx := g.ctx
  if !s.recording ctx then s
  else
    let log := s.logAddr ctx
    -- PROD, CONS, FIRSTLOST, SEQ
    let (s, h) := s.unitRead ctx log 32
    let seq := max 1 (field h 24 8)
    let units := 1 + (payload.length + 31) / 32
    let s' := s.ctxWrite ctx (log + 24) (leBytes 8 (seq + 1))
    let prod := field h 0 8
    if s.logUnits ctx - (prod - field h 8 8) < units then
      if field h 16 8 = 0 then s'.ctxWrite ctx (log + 16) (leBytes 8 seq) else s'
    else
      let head := leBytes 4 seq ++ leBytes 1 kind ++ leBytes 1 plane ++ leBytes 1 g.index ++ leBytes 1 0
        ++ leBytes 4 g.launch ++ leBytes 4 (s.wgOf g.wg).index ++ leBytes 4 offset ++ leBytes 2 region
        ++ leBytes 2 payload.length ++ leBytes 8 mask.toNat
      (s'.writeUnits ctx prod units (padTo (32 * units) (head ++ payload))).ctxWrite ctx log
        (leBytes 8 (prod + units))

/-- Log a value of the plane issue being made. -/
def State.logMe (s : State) (kind : Nat) (mask : LaneMask) (payload : List Byte) : State :=
  let sp := s.mySplit
  s.logValue s.cur.group kind s.cur.plane sp.region sp.offset mask payload

/-! ## Samples (R418, R419) -/

/-- Count a memory plane issue of groups 0x9 and 0xA, and sample it if its turn has come: the mask after its guard, the
lanes that access memory, their sectors, and whether a request crosses a die link. -/
def State.sampleIssue (s : State) (op : Nat) (mask hit : LaneMask) (sectors : Nat) (link : Bool) : State :=
  let key := s.cur.group
  let g := s.me
  let ctl := s.reg (smpBase + 8)
  let sel := s.reg (smpBase + 16)
  let period := ctl.toNat / 2 ^ 40
  if !s.cur.acked && ringOn ctl && period != 0 && (sel.getLsbD 63 || (sel.setWidth 32).toNat == g.ctx) then
    let d := s.die (dieOf key)
    let n := d.sampleCount + 1
    let s := s.setDie (dieOf key) { d with sampleCount := n }
    if n % period = 0 then
      let sp := s.mySplit
      { s with samples := s.samples ++
        [{ tick := s.tick, part := partOf key, slot := key % 16, ctx := g.ctx, region := sp.region, offset := sp.offset,
           plane := s.cur.plane, mask, hit, link, op, sectors }] }
    else s
  else s

end Sys2Proof.Machine
end

