-- ==== Sys2Proof/Machine/Ops.lean ====
section
/-! DEFINITION. What every plane issue shares: its group and lanes, its charge and passes, its
results, the end of the issue with division, merging and popping (R27 to R40, R46, R60 to R63, R174),
taking a trap and returning from one (R299 to R301, R374, R425). -/

namespace Sys2Proof.Machine

/-! ## The plane issue being made -/

/-- Lanes whose guard reads true (R88, R168). -/
def guardMask (g : Group) (gd : Guard) (m : LaneMask) : LaneMask :=
  if gd.p = 15 then m
  else m &&& (if gd.neg then ~~~(look 0 g.p gd.p.toNat) else look 0 g.p gd.p.toNat)

/-- The issuing mask after the guard. -/
def State.act (s : State) (o : Op) : LaneMask := guardMask s.me o.guard s.cur.mask

/-- Real lanes of the issuing mask after the guard. -/
def State.realAct (s : State) (o : Op) : LaneMask := s.act o &&& s.me.real

/-- Draw tokens from the cluster's pouch and count them for the group (R63, R68). -/
def State.draw (s : State) (n : Nat) : State :=
  let c := s.cluster (clusterOf s.cur.group)
  let s := s.setCluster (clusterOf s.cur.group) { c with pouch := c.pouch - n }
  s.setMe { s.me with drawn := s.me.drawn + n }

/-- Passes taken on a lane unit (R20, R22): `sfu` for group 0x7. A pair shares one pass of the FP32 lanes, which its
first group takes unless its guard leaves it no lane (R27). An O form of more than four quads, of which R177 says one
pass and R20 ceil(q / 4), takes ceil(q / 4) (DESIGN CHOICE, log entry 61). -/
def State.passes (s : State) (sfu : Bool) (m : LaneMask) : State :=
  let p := s.part (partOf s.cur.group)
  let now := (s.cluster (clusterOf s.cur.group)).lanes
  if sfu then s.setPart (partOf s.cur.group) { p with sfuFree := max p.sfuFree now + 2 * quads m }
  else if s.cur.paired && now < p.bankFree then s
  else s.setPart (partOf s.cur.group) { p with bankFree := max p.bankFree now + 2 * ((quads m + 3) / 4) }

/-- OR floating-point flags into SR.FPX (R137). -/
def Group.orFpx (g : Group) (f : Fpx) : Group := { g with fpx := g.fpx ||| f }

/-- A scoreboard entry's DEST: the 12-bit field of the operand (R164, R417); 0xE00 is none. -/
def destCode : Operand → Nat
  | .v n => n.toNat
  | .s n => 512 + n.toNat
  | .p n => 1024 + n.toNat
  | .t n h => 0x600 + 32 * (if h then 1 else 0) + n.toNat
  | _ => 0xE00

/-- Start a long-latency result (R174): its writes land later, and the flags it names rise now. -/
def State.post (s : State) (h : Hints) (ws : List Write) (f : Fpx) (await : List Nat) (held : Bool)
    (dest : Operand) (log : Option Pending := none) (due : Option Nat := none) : State :=
  let g := s.me
  let r : Result :=
    { id := g.nextResult, writes := ws, set1 := h.set1.toNat, set2 := h.set2.toNat, fpx := f, await, held,
      dest := destCode dest,
      region := s.mySplit.region, offset := s.mySplit.offset, plane := s.cur.plane, log, due }
  s.setMe { ((g.raise h.set1.toNat).raise h.set2.toNat) with
    inflight := g.inflight ++ [r], nextResult := g.nextResult + 1 }

/-- A result of an issue without a real lane: it writes nothing, and its flags fall in the next FCLK cycle (R273,
R305). -/
def State.postNone (s : State) (h : Hints) (d : Operand) : State :=
  s.post h [] 0 [] false d none (some ((s.cluster (clusterOf s.cur.group)).clock + 1))

/-! ## Division, merging and popping (R29 to R31) -/

/-- Distinct destinations of lanes in the order of their lowest lane, with their masks. -/
def partsOf (dest : Nat → Dest) : List Nat → List (Dest × LaneMask)
  | [] => []
  | l :: ls =>
    let rest := partsOf dest ls
    let d := dest l
    let m := (rest.find? fun e => e.1 == d).map Prod.snd
    (d, m.getD 0 ||| (1#64 <<< l)) :: rest.filter fun e => e.1 != d

/-- Lowest free split slot within the budget. -/
def Group.freeSlot (g : Group) : Option Nat :=
  (List.range g.budget).find? fun k => (look none g.splits k).isNone

/-- Two splits merge (R30): same place, at an issue boundary, not in WAIT, of the same handler or
both outside one. -/
def mergeable (a b : Split) : Bool :=
  a.region == b.region && a.offset == b.offset && a.mid.isNone && b.mid.isNone
  && a.wait.isNone && b.wait.isNone && a.handler == b.handler

/-- A pair of slots that merge, lower first. -/
def Group.mergePair (g : Group) : Option (Nat × Nat) :=
  g.live.findSome? fun i => (g.live.find? fun j => i < j && mergeable (g.split i) (g.split j)).map (i, ·)

/-- Pop into free slots and merge until neither applies (R30, R31). -/
def Group.settle : Nat → Group → Group
  | 0, g => g
  | n + 1, g =>
    match g.stack, g.freeSlot with
    | e :: es, some k =>
      let sp : Split :=
        { region := e.region, offset := e.offset, mask := e.mask, mid := none, wait := none,
          handler := e.handler }
      (Group.setSplit { g with stack := es } k (some sp)).settle n
    | _, _ =>
      match g.mergePair with
      | some (i, j) =>
        ((g.setSplit i (some { g.split i with mask := (g.split i).mask ||| (g.split j).mask })).setSplit
          j none).settle n
      | none => g

/-- Put the further parts of a division into free slots, and push what is left so that the earliest
is on top (R29). -/
def Group.spread (g : Group) (handler : Bool) : List (Dest × LaneMask) → Group
  | [] => g
  | (.to r o, m) :: rest =>
    match g.freeSlot with
    | some k =>
      (g.setSplit k (some { region := r, offset := o, mask := m, mid := none, wait := none, handler })).spread
        handler rest
    | none =>
      let g := g.spread handler rest
      { g with stack := { mask := m, offset := o, region := r, handler } :: g.stack }
  | (.gone, _) :: rest => g.spread handler rest

/-- The handler ends without TRET when every lane in it has exited (R301). -/
def Group.endHandler (g : Group) : Group :=
  if g.live.any (fun k => (g.split k).handler) || g.stack.any (·.handler) then g
  else { g with handling := none }

/-- Lanes exit (R54): they are never active again. -/
def Group.exitLanes (g : Group) (gone : List Nat) : Group :=
  { g with exited := g.exited ||| maskOf gone, links := gone.foldl (fun t l => put [] t l []) g.links }

/-- The plane numbers that the plane issues of an offset have set take force (R235). -/
def Group.setPlanes (g : Group) (lanes : List Nat) (mid : Mid) : Group :=
  { g with planes := lanes.foldl (fun t l => put 0 t l (look (look 0 g.planes l) mid.planes l)) g.planes }

/-- A split leaves its offset: lanes exit, change planes and divide; then merges and pops. -/
def Group.leave (g : Group) (slot : Nat) (mid : Mid) (wait : Option Waiting) (clock : Nat) : Group :=
  let sp := g.split slot
  let dest (l : Nat) := look (Dest.to sp.region (sp.offset + 12)) mid.dests l
  let lanes := lanesOf sp.mask
  let gone := lanes.filter fun l => dest l == .gone
  let parts := (partsOf dest lanes).filter fun e => e.1 != .gone
  let g := { (g.exitLanes gone).setPlanes lanes mid with ageBase := clock }
  match parts with
  | (.to r o, m) :: rest =>
    ((g.setSplit slot (some { sp with region := r, offset := o, mask := m, mid := none, wait })).spread
      sp.handler rest).settle 128
  | _ => ((g.setSplit slot none).endHandler).settle 128

/-- Effective plane of a lane in a region of P planes (R33). -/
def effPlane (planeNo count : Nat) : Nat := planeNo % count

/-- Planes of a region (R385). -/
def Launch.region (l : Launch) (r : Nat) : Nat × Nat × Nat := l.regions.getD r (0, 0, 1)

/-- Put a split between the plane issues of its offset; lanes that have exited leave it at once (R54, R234). -/
def Group.pause (g : Group) (slot : Nat) (mid : Mid) (wait : Option Waiting) : Group :=
  let sp := g.split slot
  let gone := (lanesOf sp.mask).filter fun l => look (Dest.to sp.region (sp.offset + 12)) mid.dests l == .gone
  (g.exitLanes gone).setSplit slot (some { sp with mask := sp.mask &&& ~~~(maskOf gone), mid := some mid, wait })

/-- The FCLK cycle up to which a group that yields now is passed over: the next one to come (R176). -/
def Cluster.yieldTo (c : Cluster) : Nat := c.clock + (if c.cursor = 0 then 1 else 2)

/-- End the plane issue (R34, R235): record next offsets and planes, and leave the offset after its
last plane issue. `wait` holds the split as WAIT does (R49, R263); a split that is to divide divides when it
wakes. -/
def State.retire (s : State) (y : Bool) (dests : List (Nat × Dest)) (planes : List (Nat × Nat))
    (wait : Option Waiting) : State :=
  let g := s.me
  let sp := g.split s.cur.slot
  let c := s.cluster (clusterOf s.cur.group)
  let mid : Mid := sp.mid.getD { todo := [(s.cur.plane, s.cur.mask)], dests := [], planes := [], begun := false }
  let dflt := Dest.to sp.region (sp.offset + 12)
  let mid : Mid :=
    { todo := mid.todo.tail,
      dests := dests.foldl (fun t e => put dflt t e.1 e.2) mid.dests,
      planes := planes.foldl (fun t e => put 4 t e.1 e.2) mid.planes,
      begun := true }
  let g := if y then { g with yieldUntil := c.yieldTo } else g
  if mid.todo.isEmpty && (wait.isNone || mid.dests.isEmpty) then
    s.setMe (g.leave s.cur.slot mid wait c.clock)
  else s.setMe (g.pause s.cur.slot mid wait)

/-- The yield hint of a word whose plane issue ends otherwise (R176). -/
def State.noteYield (s : State) (y : Bool) : State :=
  if y then s.setMe { s.me with yieldUntil := (s.cluster (clusterOf s.cur.group)).yieldTo } else s

/-- End a plane issue whose lanes all go on. -/
def State.finish (s : State) (o : Op) : State := s.retire o.hints.y [] [] none

/-! ## Code places (R231) -/

/-- (region, offset) of a code address in plane 0 of a region of the launch's image. An offset that is no multiple of
4 (R163), as a HANDLER or an ENTRYOFFSET may have it, is located and runs, though TRET refuses one (R301): R231 tests
none (DESIGN CHOICE, log entry 61). -/
def Launch.locate (l : Launch) (a : Nat) : Option (Nat × Nat) :=
  (List.range l.regions.length).findSome? fun r =>
    let (base, lp, _) := l.region r
    if base ≤ a && a - base + 12 ≤ lp then some (r, a - base) else none

/-- The address of the word of plane `k` at an offset (R33). -/
def Launch.wordAddr (l : Launch) (r k o : Nat) : Nat :=
  let (base, lp, _) := l.region r
  base + k * lp + o

/-! ## Notices of the Blocker (R340) -/

/-- A Blocker notice (R340): EVENT 1 FAULTED, 2 DROPPED, 3 RETIRED. -/
def State.blockerNotice (s : State) (id event count : Nat) : State :=
  let a := s.astOf id
  s.send (s.noticeRing ((s.record id).context id))
    (leBytes 2 2 ++ leBytes 1 event ++ leBytes 1 a.fault ++ leBytes 4 id ++ leBytes 8 a.working
      ++ leBytes 8 a.mark ++ leBytes 4 count ++ leBytes 4 s.tick)

/-- Put a record's entry into FAULTED (R336) and send the notice; one that is FAULTED already does not enter it again
(R340). -/
def State.faultRecord (s : State) (id fault : Nat) : State :=
  let a := s.astOf id
  if a.phase = .faulted then s
  else (s.writeAst id { a with phase := .faulted, fault, waitOn := 0xFFFF_FFFF, teardown := false }).blockerNotice id 1 0

/-! ## Fault records (R425) -/

/-- What a fault record names beside its place. -/
structure FaultInfo where
  code : Nat
  detail : Nat
  mask : LaneMask
  addr : Nat
  index : Nat
deriving DecidableEq, Repr

/-- The 64 bytes of a fault record (R425): the group's place and index, its launch and workgroup. -/
def faultRecordBytes (key slot plane region offset index launch wg tick : Nat) (f : FaultInfo)
    (fatal : Bool) : List Byte :=
  leBytes 2 (f.code + if fatal then 2 ^ 15 else 0) ++ leBytes 1 plane ++ leBytes 1 slot
  ++ leBytes 4 (partField key) ++ leBytes 1 (key % 16) ++ leBytes 1 index ++ leBytes 2 f.index
  ++ leBytes 4 offset ++ leBytes 2 region ++ leBytes 2 0 ++ leBytes 4 f.detail
  ++ leBytes 8 f.mask.toNat ++ leBytes 8 f.addr ++ leBytes 4 launch
  ++ leBytes 4 wg ++ leBytes 8 tick ++ leBytes 8 0

/-- The fault record of a resident group at a place. -/
def State.faultBytes (s : State) (key slot plane region offset : Nat) (f : FaultInfo) (fatal : Bool) :
    List Byte :=
  let g := s.group key
  faultRecordBytes key slot plane region offset g.index g.launch (s.wgOf g.wg).index s.tick f fatal

/-- Write a record into the context's fault area; its address comes back. -/
def State.writeFault (s : State) (ctx : Nat) (bytes : List Byte) : State × Nat :=
  let area := s.ctxField ctx 40 8
  let (s, b) := s.unitRead ctx area 8
  let prod := leNat b
  let a := area + 64 + 64 * (prod % 63)
  (((s.ctxWrite ctx a bytes).ctxWrite ctx area (leBytes 8 (prod + 1))), a)

/-- A record of a code that does not trap, for the plane issue being made. -/
def State.logFault (s : State) (f : FaultInfo) : State :=
  let sp := s.mySplit
  (s.writeFault s.me.ctx
    (s.faultBytes s.cur.group s.cur.slot s.cur.plane sp.region sp.offset f false)).1

/-- A workgroup is drained: it stops, or is discarded where it is away (R341). -/
def Workgroup.halt (w : Workgroup) : Workgroup :=
  { w with draining := true, state := if w.state = .away then .away else .stopping }

/-- The context becomes FATAL, once (R374): its launches are drained, their records fault with DEPFAULT, and
its own record faults with FAULT 0. -/
def State.makeFatal (s : State) (ctx : Nat) : State :=
  if (s.ctxOf ctx).fatal then s
  else
  let s := s.setCtx ctx { s.ctxOf ctx with fatal := true }
  let mine : List Nat := s.dsr.filterMap fun (id, r) =>
    match r with
    | some r =>
      let p := (s.astOf id).phase
      if r.kind = 3 && field r.body 16 4 = ctx && p != .absent && p != .retired then some id else none
    | none => none
  let drain (l : Launch) : Launch := if l.ctx = ctx then { l with draining := true } else l
  let halt (w : Workgroup) : Workgroup := if w.ctx = ctx then w.halt else w
  let s := { s with
    launches := s.launches.map fun (e : Nat × Option Launch) => (e.1, e.2.map drain),
    wgs := s.wgs.map fun (e : Nat × Option Workgroup) => (e.1, e.2.map halt) }
  let s := mine.foldl (fun s id => s.faultRecord id 3) s
  s.faultRecord ctx 0

/-! ## An issue that is made again (R103, R126) -/

/-- Exchange the group's registers with those kept for the issue being made. -/
def State.swapRegs (s : State) : State :=
  match s.cur.snap with
  | none => s
  | some x =>
    let g := s.me
    let s := s.setMe { g with v := x.v, s := x.s, p := x.p }
    { s with cur := { s.cur with snap := some { v := g.v, s := g.s, p := g.p } } }

/-- It has read its operands: the group's own registers stand again. -/
def State.endSnap (s : State) : State :=
  let s := s.swapRegs
  { s with cur := { s.cur with snap := none } }

/-! ## Taking a trap (R299) -/

/-- A trap to be taken by the plane issue being made. -/
structure Trap where
  code : Nat
  detail : Nat := 0
  mask : LaneMask
  addr : Nat := 0
  /-- the trapping plane issue counts as performed -/
  done : Bool := false
deriving DecidableEq, Repr

/-- The 64 bytes of a trap frame (R300). -/
def frameBytes (saved : List Word) (mask : LaneMask) (offset region slot plane : Nat) (done : Bool) :
    List Byte :=
  leBytes 2 (plane + (if done then 8 else 0) + 16 * slot) ++ leBytes 2 region ++ leBytes 4 offset
  ++ List.replicate 32 0 ++ leBytes 8 mask.toNat ++ saved.flatMap fun w => leBytes 4 w.toNat

/-- The split enters the handler at a place: frame written, S0 to S3 set, the rest unchanged. -/
def State.enterHandler (s : State) (t : Trap) (region offset rec : Nat) : State :=
  let key := s.cur.group
  let g := s.me
  let sp := s.mySplit
  let frame := s.trapElement g.ctx key
  -- the core's L1 keeps nothing of an earlier frame
  let s := (s.pocRead g.ctx (coreOf key) frame 64).1
  let saved := [0, 1, 2, 3].map g.readS
  let s := s.ctxWrite g.ctx frame
    (frameBytes saved sp.mask sp.offset sp.region s.cur.slot s.cur.plane t.done)
  let h : Handling :=
    { entry := sp.mask, code := t.code, detail := BitVec.ofNat 32 t.detail, done := t.done,
      region := sp.region, offset := sp.offset, frame, mid := sp.mid.getD default }
  let g := s.me.writes (writeS64 0 (BitVec.ofNat 64 rec) ++ writeS64 2 (BitVec.ofNat 64 frame))
  s.setMe (Group.setSplit { g with handling := some h } s.cur.slot
    (some { sp with region, offset, mid := none, wait := none, handler := true }))

/-- The split being issued makes no further plane issue of its offset: its context has become FATAL (R374). -/
def State.endIssue (s : State) : State :=
  s.setMe (s.me.setSplit s.cur.slot (some { s.mySplit with mid := none }))

/-- R299 but for what a trap does to a gang. -/
def State.trapCore (s : State) (t : Trap) : State :=
  let g := s.me
  let sp := s.mySplit
  let hpc := s.ctxField g.ctx 32 8
  let place := if hpc = 0 || g.handling.isSome then none else (s.launch g.launch).locate hpc
  let bytes := s.faultBytes s.cur.group s.cur.slot s.cur.plane sp.region sp.offset
    { code := t.code, detail := t.detail, mask := t.mask, addr := t.addr, index := 0 } place.isNone
  let (s, rec) := s.writeFault g.ctx bytes
  match place with
  | none => s.endIssue.makeFatal g.ctx
  | some (r, o) => s.enterHandler t r o rec

/-- A trap with what the debugger sees of it (R410, R420): a stop that it does not lower is told first, so that trace
records come in the order of the events. -/
def State.trapOne (s : State) (t : Trap) : State :=
  let s := s.endSnap
  let key := s.cur.group
  let lowers := s.trapStop s.me.ctx && !s.stopHolds (partOf key) 2
  let s := if lowers then s else s.tell (partOf key)
  let s := (s.traceMe 4 t.code).trapCore t
  if s.trapStop s.me.ctx then s.stopPart (partOf key) 2 (key % 16) s.cur.slot s.cur.plane 0 none else s

/-- The groups an SR.GANG value lists (R284). -/
def gangList (w : Word) : List Nat :=
  let n := 2 ^ (bitsAt w.toNat 16 2)
  (List.range n).map fun i => bitsAt w.toNat (4 * i) 4

/-- Keys of the groups a gang word lists in a workgroup. -/
def Workgroup.gangKeys (w : Workgroup) (gang : Word) : List Nat :=
  (gangList gang).map fun i => w.groups.getD i 0

/-- A held result that never comes, as of an issue that faulted (R174): its flags fall. -/
def Group.unpost (g : Group) (id : Nat) : Group :=
  let mine (r : Result) : Bool := r.held && r.id == id
  match g.inflight.find? mine with
  | some r => { ((g.lower r.set1).lower r.set2) with inflight := g.inflight.eraseP mine }
  | none => g

/-- The result of a latch member is given up. -/
def State.unpostMember (s : State) (m : LatchMember) : State :=
  s.setGroup m.group ((s.group m.group).unpost m.id)

/-- The plane issues still to make at an offset, forgotten where none has been made: such a split is at an issue
boundary, and its offset is fetched afresh (R35, R371). -/
def Split.unbegun (sp : Split) : Option Mid := sp.mid.bind fun m => if m.begun then some m else none

/-- A member leaves the latch with its offset left at the MMA (R51), its split ready or in the wait given. -/
def State.withdrawMember (wait : Option Waiting) (s : State) (m : LatchMember) : State :=
  let s := s.unpostMember m
  let g := s.group m.group
  let sp := g.split m.slot
  s.setGroup m.group (g.setSplit m.slot (some { sp with mid := sp.unbegun, wait }))

/-- Each member of a broken or mismatched gang traps at its MMA (R159, R285). -/
def State.trapMembers (s : State) (code : Nat) (detail : Word) (ms : List LatchMember) : State :=
  ms.foldl (fun s m =>
    let sp := (s.group m.group).split m.slot
    let (plane, mask) := (sp.mid.getD default).todo.headD (0, sp.mask)
    let old := s.cur
    let s := { s with cur := { group := m.group, slot := m.slot, plane, mask, paired := false, acked := false } }
    let s := (s.unpostMember m).trapOne { code, detail := detail.toNat, mask }
    { s with cur := old }) s

/-- A listed group exits, traps or changes its gang while the latch holds members: the gang breaks
(R285). The group that caused it is not among those that trap. -/
def State.breakGang (s : State) (key : Nat) : State :=
  let c := s.core (coreOf key)
  match c.latch with
  | none => s
  | some (gang, wg, ms) =>
    if wg = (s.group key).wg && ((s.wgOf wg).gangKeys gang).contains key then
      let s := s.setCore (coreOf key) { c with latch := none }
      let s := (ms.filter fun m => m.group == key).foldl (State.withdrawMember none) s
      s.trapMembers 15 gang (ms.filter fun m => m.group != key)
    else s

/-- Take a trap: the one operation behind every trap of R426. A gang breaks as a handler is entered (R285). -/
def State.trap (s : State) (t : Trap) : State :=
  let s' := s.trapOne t
  if s.me.handling.isNone && s'.me.handling.isSome then s'.breakGang s.cur.group else s'

/-- ILLEGAL with the detail of a check the instruction states (R254, R426). -/
def State.illegal (s : State) : State := s.trap { code := 1, detail := 8, mask := s.cur.mask }

/-! ## Returning from a trap (R301) -/

/-- A fault inside the handler that makes the context FATAL. -/
def State.fatalFault (s : State) (code detail region offset : Nat) : State :=
  let g := s.me
  let bytes := s.faultBytes s.cur.group s.cur.slot s.cur.plane region offset
    { code, detail, mask := s.cur.mask, addr := 0, index := 0 } true
  ((s.writeFault g.ctx bytes).1).endIssue.makeFatal g.ctx

/-- Resume the split at the trap with the planes still to issue, or at a new point, where what its lower planes did
stands (R39, R235); TRET completes its own offset (R46), and the split is where splits merge (R30). -/
def Group.resume (g : Group) (slot : Nat) (h : Handling) (r o : Nat) (done : Bool) (clock : Nat) : Group :=
  let sp := g.split slot
  let g := { g with handling := none, ageBase := clock }
  let back : Split := { sp with region := r, offset := o, mid := none, wait := none, handler := false }
  if r = h.region && o = h.offset % 2 ^ 32 then
    let back := { back with offset := h.offset }
    let todo := (if done then h.mid.todo.tail else h.mid.todo).filterMap fun (k, m) =>
      if m &&& sp.mask = 0 then none else some (k, m &&& sp.mask)
    if todo.isEmpty then (g.setSplit slot (some back)).leave slot { h.mid with todo := [] } none clock
    else
      let back := { back with mid := some { h.mid with todo, begun := h.mid.begun || done } }
      (g.setSplit slot (some { back with mid := back.unbegun })).settle 128
  else ((g.setPlanes (lanesOf sp.mask) h.mid).setSplit slot (some back)).settle 128

/-- TRET: check the mask, read the frame as it stands, restore S0 to S3 and resume. -/
def State.trapReturn (s : State) : State :=
  let g := s.me
  let sp := s.mySplit
  match g.handling with
  | none => s.illegal
  | some h =>
    if !sp.handler then s.illegal
    else if s.cur.mask != h.entry &&& ~~~g.exited then s.fatalFault 1 8 sp.region sp.offset
    else
      let (s, fb) := (s.pocRead g.ctx (coreOf s.cur.group) h.frame 64).1.unitRead g.ctx h.frame 64
      let done := (field fb 0 2).testBit 3
      let r := field fb 2 2
      let o := field fb 4 4
      let l := s.launch g.launch
      let ok := (r == h.region && o == h.offset % 2 ^ 32)
        || (r < l.regions.length && o % 4 == 0 && o + 12 ≤ (l.region r).2.1)
      if !ok then s.fatalFault 11 3 r o
      else
        let ws := [0, 1, 2, 3].map fun i => Write.s i (BitVec.ofNat 32 (field fb (48 + 4 * i) 4))
        let clock := (s.cluster (clusterOf s.cur.group)).clock
        (s.traceMe 5 0).setMe ((g.writes ws).resume s.cur.slot h r o done clock)

end Sys2Proof.Machine
end

