-- ==== Sys2Proof/Machine/Operands.lean ====
section
/-! DEFINITION. The operand forms: special registers (R41, R66, R100, R137, R166, R284), immediates
(R184), sources of 32 and 64 bits (R185), destinations (R186, R177). -/

namespace Sys2Proof.Machine

/-! ## Special registers -/

/-- Code of a group width (R41). -/
def widthCode (w : Nat) : Nat := if w = 8 then 0 else if w = 16 then 1 else if w = 32 then 2 else 3

/-- A special register as a 64-bit value (R41, R166); a 32-bit register is zero-extended (R185). -/
def State.readSr (s : State) (r : SReg) (lane : Nat) : DWord :=
  let key := s.cur.group
  let g := s.me
  let l := s.launch g.launch
  let w := s.wgOf g.wg
  let c := s.cluster (clusterOf key)
  match r with
  | .lane => BitVec.ofNat 64 lane
  | .quad => BitVec.ofNat 64 (lane / 4)
  | .plane => BitVec.ofNat 64 (look 0 g.planes lane)
  | .group => BitVec.ofNat 64 g.index
  | .wg => BitVec.ofNat 64 w.index
  | .wgdim =>
    BitVec.ofNat 64 (((l.lanes + g.width - 1) / g.width - 1) * 2 ^ 16 + widthCode g.width * 2 ^ 14
      + l.lanes)
  | .launch => BitVec.ofNat 64 g.launch
  | .splits =>
    BitVec.ofNat 64 ((if g.budget = 4 then 2 ^ 16 else 0) + g.stack.length * 2 ^ 8
      + s.cur.slot * 2 ^ 4 + g.live.length)
  | .helper => g.helper
  | .part => BitVec.ofNat 64 (partField key)
  | .ctx => BitVec.ofNat 64 g.ctx
  | .gang => g.gang.setWidth 64
  | .clock => BitVec.ofNat 64 c.clock
  | .tick => BitVec.ofNat 64 s.tick
  | .pouch =>
    BitVec.ofNat 64 ((if c.reservation.isSome then 2 ^ 31 else 0)
      + (if c.reservation = some key then 2 ^ 30 else 0) + c.levelStart)
  | .stacklim => BitVec.ofNat 64 (s.stackBytes g)
  | .fpx => g.fpx.setWidth 64

/-! ## Sources -/

/-- How a form reads a 32-bit immediate (R184). -/
inductive ImmAs where
  | int
  | f32
  | half
deriving DecidableEq, Repr

def immWord (k : ImmAs) (v : BitVec 20) : Word :=
  match k with
  | .int => v.signExtend 32
  | .f32 => (v.setWidth 32) <<< 12
  | .half => v.setWidth 16 ++ v.setWidth 16

/-- A 32-bit source in a lane. -/
def State.word (s : State) (k : ImmAs) (x : Operand) (lane : Nat) : Word :=
  match x with
  | .v n => s.me.readV n.toNat lane
  | .s n => s.me.readS n.toNat
  | .sr r => (s.readSr r lane).setWidth 32
  | .imm v => immWord k v
  | _ => 0

/-- A 64-bit source in a lane. An immediate is sign-extended from 32 to 64 bits, that of MOV.b64 too, for which R184
names no extension (DESIGN CHOICE, log entry 61). -/
def State.dword (s : State) (x : Operand) (lane : Nat) : DWord :=
  match x with
  | .v n => s.me.readV64 n.toNat lane
  | .s n => s.me.readS64 n.toNat
  | .sr r => s.readSr r lane
  | .imm v => v.signExtend 64
  | _ => 0

/-- Register `i` of a tuple in a lane. -/
def State.tuple (s : State) (x : Operand) (i lane : Nat) : Word :=
  match x with
  | .v n => s.me.readV (n.toNat + i) lane
  | .s n => s.me.readS (n.toNat + i)
  | _ => s.word .int x lane

/-- A predicate source in a lane (R164). -/
def State.pred (s : State) (x : Operand) (lane : Nat) : Bool :=
  match x with
  | .p n => s.me.readP n.toNat lane
  | _ => false

/-- A uniform 32-bit source: S, immediate or uniform special register. -/
def State.uword (s : State) (x : Operand) : Word := s.word .int x 0

/-- The 128-bit block in four S registers from `n` on. -/
def Group.block (g : Group) (n : Nat) : BitVec 128 :=
  g.readS (n + 3) ++ g.readS (n + 2) ++ g.readS (n + 1) ++ g.readS n

/-! ## Destinations -/

/-- Writes of a 32-bit destination: each lane of a V register, or an S register once (R177). -/
def destWrites (d : Operand) (lanes : List Nat) (f : Nat → Word) : List Write :=
  match d with
  | .v n => lanes.map fun l => .v n.toNat l (f l)
  | .s n => (lanes.take 1).map fun l => .s n.toNat (f l)
  | _ => []

/-- Writes of a 64-bit destination. -/
def destWrites64 (d : Operand) (lanes : List Nat) (f : Nat → DWord) : List Write :=
  match d with
  | .v n => lanes.flatMap fun l => writeV64 n.toNat l (f l)
  | .s n => (lanes.take 1).flatMap fun l => writeS64 n.toNat (f l)
  | _ => []

/-- Writes of a predicate destination: the lanes of the issuing mask after the guard (R186). -/
def destPreds (d : Operand) (lanes : List Nat) (f : Nat → Bool) : List Write :=
  match d with
  | .p n => lanes.map fun l => .p n.toNat l (f l)
  | _ => []

/-- Writes of consecutive 32-bit registers of a load or atomic. -/
def destTuple (d : Operand) (lane : Nat) (xs : List Word) : List Write :=
  match d with
  | .v n => (List.range xs.length).map fun i => .v (n.toNat + i) lane (xs.getD i 0)
  | .s n => (List.range xs.length).map fun i => .s (n.toNat + i) (xs.getD i 0)
  | _ => []

/-! ## Uniform forms (R177) -/

def uniformSrc : Operand → Bool
  | .s _ | .imm _ | .none => true
  | .sr r => !r.perLane
  | _ => false

/-- A uniform performance of a U form. -/
def isUniform (i : Instr) : Bool :=
  match i.op with
  | none => false
  | some o =>
    i.shape.kind == .u && uniformSrc o.a && uniformSrc o.b
    && (match o.d with | .s _ | .p _ | .none | .sr _ => true | _ => false)

end Sys2Proof.Machine
end

