-- ==== Sys2Proof/Machine/Charge.lean ====
section
/-! DEFINITION. What a plane issue is charged (R60 to R62), the passes it takes (R20, R22, R177), and
the shape every lane form shares: pay, write, raise, go on. -/

namespace Sys2Proof.Machine

/-- A window descriptor (R245). -/
structure Window where
  base : Nat
  pitch : Nat
  cols : Nat
  rows : Nat
deriving DecidableEq, Repr

def windowOf (b : BitVec 128) : Window :=
  { base := (b.extractLsb' 0 64).toNat, pitch := (b.extractLsb' 64 32).toNat,
    cols := (b.extractLsb' 96 16).toNat + 1, rows := (b.extractLsb' 112 16).toNat + 1 }

/-- The block or window a tuple of 4 S registers holds. -/
def State.blockOf (s : State) (x : Operand) : BitVec 128 :=
  match x with
  | .s n => s.me.block n.toNat
  | _ => 0

/-- Bytes COPYT counts (R277). -/
def copytBytes (z : Nat) (dst src : Window) : Nat := z * min src.cols dst.cols * min src.rows dst.rows

/-- Bytes per element of a collective's type (R279). -/
def collSize (t : Ty) : Nat := match t with | .bf => 2 | _ => 4

/-- The format block an MMA or MSTA names. -/
def State.fmtOf (s : State) (n : BitVec 7) : BitVec 128 := s.me.block n.toNat

/-- R60: an MMA with T6 in A or B weighs 320, else 256. -/
def mmaWeight (fmt : BitVec 128) : Nat :=
  if fmt.extractLsb' 0 4 = 5 ∨ fmt.extractLsb' 4 4 = 5 then 320 else 256

/-- Bytes counted by R61. -/
def State.bytesMoved (s : State) (i : Instr) : Nat :=
  match i with
  | .copy o _ => (s.uword o.b).toNat
  | .copyt o _ =>
    copytBytes (s.uword o.b).toNat (windowOf (s.blockOf o.d)) (windowOf (s.blockOf o.a))
  | .gather o _ | .scatter o _ => (s.uword o.b).toNat * popcount (s.realAct o)
  | .coll o _ t => ((s.blockOf o.b).extractLsb' 64 32).toNat * collSize t
  | .msto _ w | .msta _ w _ => if w then 2048 else 4096
  | .enq o | .deq o => if s.realAct o = 0 then 0 else 256
  | .edit o _ => if s.realAct o = 0 then 0 else 128
  | .notify o => if s.realAct o = 0 then 0 else 32
  | _ => 0

/-- The charge of the plane issue in tokens (R60, R61). -/
def State.charge (s : State) (i : Instr) : Nat :=
  match i.op with
  | none => 0
  | some o =>
    match i.shape.weight with
    | .lanes w => if isUniform i then 0 else w * popcount (s.act o)
    | .mma => mmaWeight (match i with | .mma _ _ f => s.fmtOf f | _ => 0) * popcount s.cur.mask
    | .bytes => if s.act o = 0 then 0 else 64 * ((s.bytesMoved i + 255) / 256)

/-- Whether the form takes passes, and on the special-function lanes (R177, R20). -/
def takesPass (i : Instr) : Option Bool :=
  match i.op with
  | none => none
  | some o =>
    match i.shape.kind with
    | .n => none
    | .u => if isUniform i then none else some (i.shape.weight == .lanes 4)
    | .l => some false
    | .o => if o.d.isV || o.a.isV || o.b.isV then some false else none

/-- A read of SR.CLOCK, SR.TICK or SR.POUCH as a source is logged, in as many bytes as are read (R421): 8 of a 64-bit
register as a 64-bit source or by SRD. -/
def State.logClock (s : State) (i : Instr) (sl : Slot) (x : Operand) : State :=
  match i.op, x with
  | some o, .sr r =>
    if s.act o = 0 then s
    else
      match r with
      | .clock | .tick | .pouch =>
        let pair := sl.v == 2 || sl.s == 2 || (match i with | .srd _ => true | _ => false)
        let n := if r.wide && pair then 8 else 4
        s.logMe 7 (s.act o) (leBytes n (s.readSr r 0).toNat)
      | _ => s
  | _, _ => s

/-- What an issue still has to pay: one that was held for acknowledgements has paid (R63, R126). -/
def State.due (s : State) (i : Instr) : Nat := if s.cur.acked then 0 else s.charge i

/-- Draw the charge and take the passes, once for an issue (R63). -/
def State.pay (s : State) (i : Instr) : State :=
  let s' := s.draw (s.due i)
  if s.cur.acked then s'
  else
    match i.op with
    | none => s'
    | some o =>
      let s' := (s'.logClock i i.shape.a o.a).logClock i i.shape.b o.b
      match takesPass i with
      | some sfu => if s.act o = 0 then s' else s'.passes sfu (s.act o)
      | none => s'

/-- OR of the flags of some lanes (R137: real lanes only). -/
def orFlags (lanes : List Nat) (f : Nat → Fpx) : Fpx := lanes.foldl (fun x l => x ||| f l) 0

/-- A lane form whose result is written at once: pay, write, raise flags, go on. -/
def State.lanes (s : State) (i : Instr) (o : Op) (ws : List Write) (fx : Nat → Fpx) : State :=
  let f := orFlags (lanesOf (s.realAct o)) fx
  let s := s.pay i
  (s.setMe ((s.me.writes ws).orFpx f)).finish o

/-- A lane form whose result lands later (R175). -/
def State.lanesLong (s : State) (i : Instr) (o : Op) (ws : List Write) (fx : Nat → Fpx) : State :=
  let f := orFlags (lanesOf (s.realAct o)) fx
  ((s.pay i).post o.hints ws f [] false o.d).finish o

/-- One 32-bit result per lane of the issuing mask after the guard. -/
def State.alu32 (s : State) (i : Instr) (o : Op) (f : Nat → Word) : State :=
  s.lanes i o (destWrites o.d (lanesOf (s.act o)) f) fun _ => 0

/-- One 64-bit result per lane. -/
def State.alu64 (s : State) (i : Instr) (o : Op) (f : Nat → DWord) : State :=
  s.lanes i o (destWrites64 o.d (lanesOf (s.act o)) f) fun _ => 0

/-- One predicate per lane (R186). -/
def State.aluP (s : State) (i : Instr) (o : Op) (f : Nat → Bool) : State :=
  s.lanes i o (destPreds o.d (lanesOf (s.act o)) f) fun _ => 0

/-- A 32-bit result with floating-point flags per lane. -/
def State.aluF (s : State) (i : Instr) (o : Op) (f : Nat → Word × Fpx) : State :=
  s.lanes i o (destWrites o.d (lanesOf (s.act o)) fun l => (f l).1) fun l => (f l).2

end Sys2Proof.Machine
end

