-- ==== Sys2Proof/Machine/Flags.lean ====
section
/-! DEFINITION. The flag computations: comparisons of integers (R194), and the floating-point
operations with the flags they raise (R206 to R212, R137). -/

namespace Sys2Proof.Machine

/-- Comparison of two n-bit integers (R194); codes 6 and 7 belong to FSET. -/
def cmpHolds (c : Cmp) (signed : Bool) {n : Nat} (a b : BitVec n) : Bool :=
  let lt := if signed then a.slt b else a.ult b
  match c with
  | .eq => a == b
  | .ne => a != b
  | .lt => lt
  | .le => lt || a == b
  | .gt => !(lt || a == b)
  | .ge => !lt
  | .num | .nan => false

/-- Signed types (R170). -/
def Ty.signed : Ty → Bool
  | .i32 | .i64 | .i8 | .i16 => true
  | _ => false

/-- Sources of a floating-point form after flushing, with the flags that reading them raises. -/
def readFp (f : Fmt) (ftz : Bool) (w : Word) : FpVal × Fpx :=
  let (x, e) := f.flush ftz (f.val w)
  (x, e ||| snanFlag [x])

/-- A rounded result, clamped under `.sat` (R207). -/
def finishFp (f : Fmt) (r : Rnd) (ftz sat : Bool) (x : FpVal × Fpx) (e : Fpx) : Word × Fpx :=
  let (w, e') := f.round r ftz x.1
  let w := if sat then (f.round .rn false (f.val w).clamp01).1 else w
  (w, e ||| x.2 ||| e')

/-- FADD, FSUB (R207). -/
def fpAdd (f : Fmt) (r : Rnd) (ftz sat sub : Bool) (a b : Word) : Word × Fpx :=
  let (x, e1) := readFp f ftz a
  let (y, e2) := readFp f ftz b
  finishFp f r ftz sat (x.add r (if sub then y.negate else y)) (e1 ||| e2)

/-- FMUL (R207). -/
def fpMul (f : Fmt) (r : Rnd) (ftz sat : Bool) (a b : Word) : Word × Fpx :=
  let (x, e1) := readFp f ftz a
  let (y, e2) := readFp f ftz b
  finishFp f r ftz sat (x.mul y) (e1 ||| e2)

/-- FFMA (R207): one rounding; 0 × ∞ raises IV even beside a quiet NaN. -/
def fpFma (f : Fmt) (r : Rnd) (ftz sat : Bool) (a b c : Word) : Word × Fpx :=
  let (x, e1) := readFp f ftz a
  let (y, e2) := readFp f ftz b
  let (z, e3) := readFp f ftz c
  let (p, e4) := x.mul y
  finishFp f r ftz sat (p.add r z) (e1 ||| e2 ||| e3 ||| e4)

/-- FMIN, FMAX (R208). -/
def fpMinMax (f : Fmt) (ftz max : Bool) (a b : Word) : Word × Fpx :=
  let (x, e1) := readFp f ftz a
  let (y, e2) := readFp f ftz b
  let back (v : FpVal) : Word := (f.round .rn false v).1
  let w :=
    if x.isNan then (if y.isNan then f.nan else back y)
    else if y.isNan then back x
    else if x.lt y then (if max then back y else back x)
    else if max then back x else back y
  (w, e1 ||| e2)

/-- FSET's comparison (R209). -/
def fpCompare (f : Fmt) (c : Cmp) (ftz : Bool) (a b : Word) : Bool × Fpx :=
  let (x, e1) := readFp f ftz a
  let (y, e2) := readFp f ftz b
  (cmpHoldsF c x y, e1 ||| e2)

/-- FCLASS's class bit (R210). -/
def fpClass (ftz : Bool) (a : Word) : Word × Fpx :=
  let (x, e) := Fmt.f32.flush ftz (Fmt.f32.val a)
  let bit : Nat :=
    match x with
    | .nan s => if s then 0 else 1
    | .inf n => if n then 2 else 9
    | .fin n 0 _ => if n then 5 else 6
    | .fin n m e =>
      if e + bitLen m - 1 < Fmt.f32.emin then (if n then 4 else 7) else if n then 3 else 8
  (1#32 <<< bit, e)

/-- FRND (R211): IX is never raised. -/
def fpRound (r : Rnd) (ftz : Bool) (a : Word) : Word × Fpx :=
  let (x, e) := readFp .f32 ftz a
  match x with
  | .nan _ => (Fmt.f32.nan, e)
  | .inf n => (Fmt.f32.inf n, e)
  | .fin n m x =>
    let (k, _) := quantise r n m x 0
    ((Fmt.f32.round .rn false (.fin n k 0)).1, e)

/-- A packed form: both halves, flags together (R212). -/
def packed2 (op : Word → Word → Word → Word × Fpx) (a b c : Word) : Word × Fpx :=
  let lo (w : Word) : Word := w &&& 0xFFFF
  let hi (w : Word) : Word := w >>> 16
  let (x, e) := op (lo a) (lo b) (lo c)
  let (y, e') := op (hi a) (hi b) (hi c)
  ((y <<< 16) ||| (x &&& 0xFFFF), e ||| e')

end Sys2Proof.Machine
end

