-- ==== Sys2Proof/Machine/Integer.lean ====
section
/-! DEFINITION. Group 0x1 (R189 to R194). -/

namespace Sys2Proof.Machine

/-- Clamp an exact integer to the type's range under `.sat`, and wrap it (R190). -/
def satWrap (n : Nat) (signed sat : Bool) (x : Int) : BitVec n :=
  let lo : Int := if signed then -(2 ^ (n - 1) : Int) else 0
  let hi : Int := if signed then 2 ^ (n - 1) - 1 else 2 ^ n - 1
  BitVec.ofInt n (if sat then min (max x lo) hi else x)

/-- A register value as the integer its type names. -/
def intOf (signed : Bool) {n : Nat} (x : BitVec n) : Int := if signed then x.toInt else x.toNat

/-- A form of two integer sources at the width of its type. -/
def State.int2 (s : State) (i : Instr) (o : Op) (t : Ty) (f : Int → Int → Int) (sat : Bool) : State :=
  if t.regs = 2 then
    s.alu64 i o fun l =>
      satWrap 64 (Ty.signed t) sat (f (intOf (Ty.signed t) (s.dword o.a l)) (intOf (Ty.signed t) (s.dword o.b l)))
  else
    s.alu32 i o fun l =>
      satWrap 32 (Ty.signed t) sat
        (f (intOf (Ty.signed t) (s.word .int o.a l)) (intOf (Ty.signed t) (s.word .int o.b l)))

/-- A form of one integer source. -/
def State.int1 (s : State) (i : Instr) (o : Op) (t : Ty) (f : Int → Int) : State :=
  if t.regs = 2 then s.alu64 i o fun l => BitVec.ofInt 64 (f (intOf (Ty.signed t) (s.dword o.a l)))
  else s.alu32 i o fun l => BitVec.ofInt 32 (f (intOf (Ty.signed t) (s.word .int o.a l)))

def execIadd (o : Op) (t : Ty) (sat : Bool) (s : State) : Out :=
  .next (s.int2 (.iadd o t sat) o t (· + ·) sat)

def execIsub (o : Op) (t : Ty) (sat : Bool) (s : State) : Out :=
  .next (s.int2 (.isub o t sat) o t (· - ·) sat)

def execImul (o : Op) (t : Ty) (s : State) : Out :=
  .next (s.int2 (.imul o t) o t (· * ·) false)

/-- Bits 63:32 of the exact product (R191). -/
def execImulh (o : Op) (t : Ty) (s : State) : Out :=
  .next (s.int2 (.imulh o t) o t (fun a b => a * b / 2 ^ 32) false)

/-- D ← wrap(a × b + d, n) (R191). -/
def execImad (o : Op) (t : Ty) (s : State) : Out :=
  .next (
    if t.regs = 2 then
      s.alu64 (.imad o t) o fun l => s.dword o.a l * s.dword o.b l + s.dword o.d l
    else
      s.alu32 (.imad o t) o fun l => s.word .int o.a l * s.word .int o.b l + s.word .int o.d l)

def execImin (o : Op) (t : Ty) (s : State) : Out :=
  .next (s.int2 (.imin o t) o t min false)

def execImax (o : Op) (t : Ty) (s : State) : Out :=
  .next (s.int2 (.imax o t) o t max false)

def execIabs (o : Op) (t : Ty) (s : State) : Out :=
  .next (s.int1 (.iabs o t) o t fun a => a.natAbs)

def execIneg (o : Op) (t : Ty) (s : State) : Out :=
  .next (s.int1 (.ineg o t) o t fun a => -a)

/-- D ← wrap(a + zext(b) × 2^k, 64) (R193). -/
def execLea (o : Op) (k : BitVec 5) (s : State) : Out :=
  .next (s.alu64 (.lea o k) o fun l =>
    s.dword o.a l + ((s.word .int o.b l).setWidth 64 <<< k.toNat))

def execIset (o : Op) (t : Ty) (c : Cmp) (s : State) : Out :=
  .next (s.aluP (.iset o t c) o fun l =>
    if t.regs = 2 then cmpHolds c (Ty.signed t) (s.dword o.a l) (s.dword o.b l)
    else cmpHolds c (Ty.signed t) (s.word .int o.a l) (s.word .int o.b l))

end Sys2Proof.Machine
end

