-- ==== Sys2Proof/Machine/Logic.lean ====
section
/-! DEFINITION. Group 0x2 (R195 to R199). -/

namespace Sys2Proof.Machine

/-- A form of two 32-bit sources. -/
def State.bit2 (s : State) (i : Instr) (o : Op) (f : Word → Word → Word) : State :=
  s.alu32 i o fun l => f (s.word .int o.a l) (s.word .int o.b l)

/-- A form of one 32-bit source. -/
def State.bit1 (s : State) (i : Instr) (o : Op) (f : Word → Word) : State :=
  s.alu32 i o fun l => f (s.word .int o.a l)

/-- A destructive form of two 32-bit sources. -/
def State.bit3 (s : State) (i : Instr) (o : Op) (f : Word → Word → Word → Word) : State :=
  s.alu32 i o fun l => f (s.word .int o.a l) (s.word .int o.b l) (s.word .int o.d l)

/-- A word from its bits. -/
def wordOf (f : Nat → Bool) : Word :=
  BitVec.ofNat 32 ((List.range 32).foldl (fun n i => if f i then n + 2 ^ i else n) 0)

def execAnd (o : Op) (s : State) : Out := .next (s.bit2 (.and o) o (· &&& ·))
def execOr (o : Op) (s : State) : Out := .next (s.bit2 (.or o) o (· ||| ·))
def execXor (o : Op) (s : State) : Out := .next (s.bit2 (.xor o) o (· ^^^ ·))
def execNot (o : Op) (s : State) : Out := .next (s.bit1 (.not o) o (~~~ ·))

/-- D[i] ← tbl[a[i] + 2 b[i] + 4 d[i]] (R197). -/
def tribit (tbl : BitVec 8) (a b d : Word) : Word :=
  wordOf fun i => tbl.getLsbD ((a.getLsbD i).toNat + 2 * (b.getLsbD i).toNat + 4 * (d.getLsbD i).toNat)

def execTribit (o : Op) (tbl : BitVec 8) (s : State) : Out :=
  .next (s.bit3 (.tribit o tbl) o (tribit tbl))

/-- Shifts by an unsigned register amount; 32 and above empty the word (R196). -/
def execShl (o : Op) (s : State) : Out := .next (s.bit2 (.shl o) o fun a b => if 32 ≤ b.toNat then 0 else a <<< b.toNat)
def execShr (o : Op) (s : State) : Out := .next (s.bit2 (.shr o) o fun a b => if 32 ≤ b.toNat then 0 else a >>> b.toNat)
def execSar (o : Op) (s : State) : Out :=
  .next (s.bit2 (.sar o) o fun a b => a.sshiftRight (min b.toNat 32))
def execRotl (o : Op) (s : State) : Out :=
  .next (s.bit2 (.rotl o) o fun a b => a.rotateLeft (b.toNat % 32))

def execPopc (o : Op) (s : State) : Out :=
  .next (s.bit1 (.popc o) o fun a => BitVec.ofNat 32 (popcount (a.setWidth 64)))

/-- Leading zero bits, 32 of 0 (R196). -/
def leadingZeros (a : Word) : Nat := 32 - bitLen a.toNat

def execClz (o : Op) (s : State) : Out :=
  .next (s.bit1 (.clz o) o fun a => BitVec.ofNat 32 (leadingZeros a))

def execBrev (o : Op) (s : State) : Out :=
  .next (s.bit1 (.brev o) o fun a => wordOf fun i => a.getLsbD (31 - i))

/-- pos and len of BFE and BFI (R198). -/
def fieldPos (b : Word) : Nat × Nat :=
  let pos := min (b.toNat % 256) 32
  (pos, min (b.toNat / 256 % 256) (32 - pos))

/-- BFE (R198). -/
def bitExtract (signed : Bool) (a b : Word) : Word :=
  let (pos, len) := fieldPos b
  let x := a.toNat / 2 ^ pos % 2 ^ len
  if len = 0 then 0
  else if signed && x.testBit (len - 1) then BitVec.ofInt 32 ((x : Int) - 2 ^ len)
  else BitVec.ofNat 32 x

def execBfe (o : Op) (t : Ty) (s : State) : Out :=
  .next (s.bit2 (.bfe o t) o (bitExtract (Ty.signed t)))

/-- BFI (R198). -/
def bitInsert (a b d : Word) : Word :=
  let (pos, len) := fieldPos b
  wordOf fun i => if pos ≤ i ∧ i < pos + len then a.getLsbD (i - pos) else d.getLsbD i

def execBfi (o : Op) (s : State) : Out := .next (s.bit3 (.bfi o) o bitInsert)

/-- BYSEL (R199). -/
def byteSelect (a b d : Word) : Word :=
  let src : DWord := d ++ a
  let out (k : Nat) : Nat :=
    let c := b.toNat / 2 ^ (8 * k) % 256
    let x := src.toNat / 2 ^ (8 * (c % 8)) % 256
    if c.testBit 7 then 0 else if c.testBit 6 then (if x.testBit 7 then 255 else 0) else x
  BitVec.ofNat 32 (out 0 + 2 ^ 8 * out 1 + 2 ^ 16 * out 2 + 2 ^ 24 * out 3)

def execBysel (o : Op) (s : State) : Out := .next (s.bit3 (.bysel o) o byteSelect)

end Sys2Proof.Machine
end

