-- ==== Sys2Proof/Machine/Move.lean ====
section
/-! DEFINITION. Group 0x3 (R200 to R205). -/

namespace Sys2Proof.Machine

def execMov (o : Op) (wide : Bool) (s : State) : Out :=
  .next (
    if wide then s.alu64 (.mov o wide) o fun l => s.dword o.a l
    else s.alu32 (.mov o wide) o fun l => s.word .int o.a l)

def execMovi (o : Op) (value : Word) (s : State) : Out :=
  .next (s.alu32 (.movi o value) o fun _ => value)

/-- SEL; a uniform SEL takes Pk as true if some lane of the issuing mask has it true: its guard removes no lane from
that mask (R201, R88). -/
def execSel (o : Op) (k : BitVec 4) (s : State) : Out :=
  let any := (lanesOf s.cur.mask).any fun l => s.me.readP k.toNat l
  let uni := isUniform (.sel o k)
  .next (s.alu32 (.sel o k) o fun l =>
    if (if uni then any else s.me.readP k.toNat l) then s.word .int o.a l else s.word .int o.b l)

/-- D[L] ← tbl[2 A[L] + B[L]] (R202). -/
def execPlop (o : Op) (tbl : BitVec 4) (s : State) : Out :=
  .next (s.aluP (.plop o tbl) o fun l => tbl.getLsbD (2 * (s.pred o.a l).toNat + (s.pred o.b l).toNat))

def execP2v (o : Op) (s : State) : Out :=
  .next (s.alu32 (.p2v o) o fun l => if s.pred o.a l then 1 else 0)

def execV2p (o : Op) (s : State) : Out :=
  .next (s.aluP (.v2p o) o fun l => s.word .int o.a l != 0)

/-- SRD (R204). -/
def execSrd (o : Op) (s : State) : Out :=
  let wide := match o.a with | .sr r => r.wide | _ => false
  .next (
    if wide then s.alu64 (.srd o) o fun l => s.dword o.a l
    else s.alu32 (.srd o) o fun l => s.word .int o.a l)

/-- SWR to SR.FPX: bits 5:0 (R204, R137). -/
def execSwr (o : Op) (s : State) : Out :=
  let x := (s.uword o.a).setWidth 6
  let s' := s.pay (.swr o)
  .next ((if s.act o = 0 then s' else s'.setMe { s'.me with fpx := x }).finish o)

def execBcast (o : Op) (s : State) : Out :=
  .next (s.alu32 (.bcast o) o fun _ => s.uword o.a)

/-- LANEGET: the value of A in lane b mod W at issue (R205). -/
def execLaneget (o : Op) (s : State) : Out :=
  let lane := (s.uword o.b).toNat % s.me.width
  .next (s.alu32 (.laneget o) o fun _ => s.word .int o.a lane)

end Sys2Proof.Machine
end

