-- ==== Sys2Proof/Machine/Fp.lean ====
section
/-! DEFINITION. Groups 0x4 and 0x5 (R206 to R212). -/

namespace Sys2Proof.Machine

/-- A form of two FP32 sources. -/
def State.fp2 (s : State) (i : Instr) (o : Op) (f : Word → Word → Word × Fpx) : State :=
  s.aluF i o fun l => f (s.word .f32 o.a l) (s.word .f32 o.b l)

/-- A form of one FP32 source. -/
def State.fp1 (s : State) (i : Instr) (o : Op) (f : Word → Word × Fpx) : State :=
  s.aluF i o fun l => f (s.word .f32 o.a l)

def execFadd (o : Op) (r : Rnd) (ftz sat : Bool) (s : State) : Out :=
  .next (s.fp2 (.fadd o r ftz sat) o (fpAdd .f32 r ftz sat false))

def execFsub (o : Op) (r : Rnd) (ftz sat : Bool) (s : State) : Out :=
  .next (s.fp2 (.fsub o r ftz sat) o (fpAdd .f32 r ftz sat true))

def execFmul (o : Op) (r : Rnd) (ftz sat : Bool) (s : State) : Out :=
  .next (s.fp2 (.fmul o r ftz sat) o (fpMul .f32 r ftz sat))

def execFfma (o : Op) (r : Rnd) (ftz sat : Bool) (s : State) : Out :=
  .next (s.aluF (.ffma o r ftz sat) o fun l =>
    fpFma .f32 r ftz sat (s.word .f32 o.a l) (s.word .f32 o.b l) (s.word .f32 o.d l))

def execFmin (o : Op) (ftz : Bool) (s : State) : Out :=
  .next (s.fp2 (.fmin o ftz) o (fpMinMax .f32 ftz false))

def execFmax (o : Op) (ftz : Bool) (s : State) : Out :=
  .next (s.fp2 (.fmax o ftz) o (fpMinMax .f32 ftz true))

def execFset (o : Op) (c : Cmp) (ftz : Bool) (s : State) : Out :=
  let f (l : Nat) := fpCompare .f32 c ftz (s.word .f32 o.a l) (s.word .f32 o.b l)
  .next (s.lanes (.fset o c ftz) o (destPreds o.d (lanesOf (s.act o)) fun l => (f l).1) fun l => (f l).2)

def execFclass (o : Op) (ftz : Bool) (s : State) : Out :=
  .next (s.fp1 (.fclass o ftz) o (fpClass ftz))

def execFrnd (o : Op) (r : Rnd) (ftz : Bool) (s : State) : Out :=
  .next (s.fp1 (.frnd o r ftz) o (fpRound r ftz))

/-! ## Packed 16-bit (R212) -/

/-- A packed form; `c` is the old D of the destructive one. -/
def State.half2 (s : State) (i : Instr) (o : Op) (f : Word → Word → Word → Word × Fpx) : State :=
  s.aluF i o fun l =>
    packed2 f (s.word .half o.a l) (s.word .half o.b l) (s.word .half o.d l)

def execHadd2 (o : Op) (t : Ty) (r : Rnd) (ftz sat : Bool) (s : State) : Out :=
  .next (s.half2 (.hadd2 o t r ftz sat) o fun a b _ => fpAdd (fmtOf t) r ftz sat false a b)

def execHmul2 (o : Op) (t : Ty) (r : Rnd) (ftz sat : Bool) (s : State) : Out :=
  .next (s.half2 (.hmul2 o t r ftz sat) o fun a b _ => fpMul (fmtOf t) r ftz sat a b)

def execHfma2 (o : Op) (t : Ty) (r : Rnd) (ftz sat : Bool) (s : State) : Out :=
  .next (s.half2 (.hfma2 o t r ftz sat) o fun a b c => fpFma (fmtOf t) r ftz sat a b c)

def execHmin2 (o : Op) (t : Ty) (ftz : Bool) (s : State) : Out :=
  .next (s.half2 (.hmin2 o t ftz) o fun a b _ => fpMinMax (fmtOf t) ftz false a b)

def execHmax2 (o : Op) (t : Ty) (ftz : Bool) (s : State) : Out :=
  .next (s.half2 (.hmax2 o t ftz) o fun a b _ => fpMinMax (fmtOf t) ftz true a b)

def execHset2 (o : Op) (t : Ty) (c : Cmp) (ftz : Bool) (s : State) : Out :=
  .next (s.half2 (.hset2 o t c ftz) o fun a b _ =>
    let (x, e) := fpCompare (fmtOf t) c ftz a b
    (if x then 0xFFFF else 0, e))

end Sys2Proof.Machine
end

