-- ==== Sys2Proof/Machine/Convert.lean ====
section
/-! DEFINITION. Groups 0x6 and 0x7 (R213 to R218). -/

namespace Sys2Proof.Machine

/-- Bits of an integer type. -/
def tyBits : Ty → Nat
  | .i8 | .n8 => 8
  | .i16 | .n16 => 16
  | .i64 | .n64 => 64
  | _ => 32

/-- An integer source: the low bits of A (R214). -/
def intSource (t : Ty) (x : DWord) : Int :=
  let n := tyBits t
  let v := x.toNat % 2 ^ n
  if Ty.signed t && v.testBit (n - 1) then (v : Int) - 2 ^ n else v

/-- Range of an integer type. -/
def tyMin (t : Ty) : Int := if Ty.signed t then -(2 ^ (tyBits t - 1) : Int) else 0
def tyMax (t : Ty) : Int := if Ty.signed t then 2 ^ (tyBits t - 1) - 1 else 2 ^ tyBits t - 1

/-- An integer result: wrapped to the type and extended to its registers (R214). -/
def intResult (t : Ty) (v : Int) : DWord := BitVec.ofInt 64 (intSource t (BitVec.ofInt 64 v))

/-- CVT of one value (R214). -/
def convert (dt st : Ty) (r : Rnd) (ftz sat : Bool) (x : DWord) : DWord × Fpx :=
  let w : Word := x.setWidth 32
  let out (y : Word × Fpx) (e : Fpx) : DWord × Fpx := (y.1.setWidth 64, y.2 ||| e)
  let clamp (v : FpVal) : FpVal := if sat then v.clamp01 else v
  if st.isInt then
    let v := intSource st x
    if dt.isInt then (intResult dt (if sat then min (max v (tyMin dt)) (tyMax dt) else v), 0)
    else out ((fmtOf dt).round r ftz (clamp (.ofInt v))) 0
  else if st.isTapered then
    ((((fmtOf dt).round .rn false (clamp (taperNum st w.toNat))).1).setWidth 64, 0)
  else
    let (v, e) := readFp (fmtOf st) ftz w
    if dt.isInt then
      let (k, e') := v.toInt r (tyMin dt) (tyMax dt)
      (intResult dt k, e ||| e')
    else if dt.isTapered then out (taperRound dt (clamp v)) e
    else out ((fmtOf dt).round r ftz (clamp v)) e

def execCvt (o : Op) (dst src : Ty) (r : Rnd) (ftz sat : Bool) (s : State) : Out :=
  let read (l : Nat) : DWord :=
    if src.regs = 2 then s.dword o.a l
    else (s.word (if src = .f32 then .f32 else .int) o.a l).setWidth 64
  let f (l : Nat) := convert dst src r ftz sat (read l)
  let lanes := lanesOf (s.act o)
  let ws :=
    if dst.regs = 2 then destWrites64 o.d lanes fun l => (f l).1
    else destWrites o.d lanes fun l => (f l).1.setWidth 32
  .next (s.lanes (.cvt o dst src r ftz sat) o ws fun l => (f l).2)

/-- TPACK (R215). -/
def tapPack (t : Ty) (a b d : Word) : Word × Fpx :=
  let (x, e) := taperRound t (Fmt.f32.val a)
  let (y, e') := taperRound t (Fmt.f32.val b)
  let w :=
    match t with
    | .t6 => ((d >>> 12) &&& 0xFFF) ||| (x <<< 12) ||| (y <<< 18)
    | _ => (d >>> 16) ||| (x <<< 16) ||| (y <<< 24)
  (w, e ||| e')

def execTpack (o : Op) (t : Ty) (s : State) : Out :=
  .next (s.aluF (.tpack o t) o fun l =>
    tapPack t (s.word .f32 o.a l) (s.word .f32 o.b l) (s.word .f32 o.d l))

/-- TUNPK (R216). -/
def tapUnpack (t : Ty) (a b : Word) : Word :=
  let n := taperBits t + 1
  let code := a.toNat / 2 ^ (n * (b.toNat % 4)) % 2 ^ n
  (Fmt.f32.round .rn false (taperNum t code)).1

def execTunpk (o : Op) (t : Ty) (s : State) : Out :=
  .next (s.alu32 (.tunpk o t) o fun l => tapUnpack t (s.word .int o.a l) (s.word .int o.b l))

/-! ## Special functions (R217, R218) -/

/-- Special values: a NaN, an invalid operand, a pole. -/
def nanNum : FpVal × Fpx := (.nan false, 0)
def invalidNum : FpVal × Fpx := (.nan false, fpxIV)
def pole (neg : Bool) : FpVal × Fpx := (.inf neg, fpxDZ)
def num (v : FpVal) : FpVal × Fpx := (v, 0)
def oneNum (neg : Bool) : FpVal × Fpx := (.fin neg 1 0, 0)

/-- A special function applied to every lane. -/
def State.special (s : State) (i : Instr) (o : Op) (ftz : Bool) (f : FpVal → FpVal × Fpx) : State :=
  let g (l : Nat) : Word × Fpx :=
    let (x, e) := readFp .f32 ftz (s.word .f32 o.a l)
    finishFp .f32 .rn ftz false (f x) e
  s.lanesLong i o (destWrites o.d (lanesOf (s.act o)) fun l => (g l).1) fun l => (g l).2

def rcpFn : FpVal → FpVal × Fpx
  | .nan _ => nanNum
  | .inf n => num (.fin n 0 0)
  | .fin n m e => if m = 0 then pole n else num (rcpNum n m e)

def rsqFn : FpVal → FpVal × Fpx
  | .nan _ => nanNum
  | .inf n => if n then invalidNum else num (.fin false 0 0)
  | .fin n m e => if m = 0 then pole n else if n then invalidNum else num (rsqNum m e)

def sqrtFn : FpVal → FpVal × Fpx
  | .nan _ => nanNum
  | .inf n => if n then invalidNum else num (.inf false)
  | .fin n m e => if m = 0 then num (.fin n 0 0) else if n then invalidNum else num (sqrtNum m e)

def log2Fn : FpVal → FpVal × Fpx
  | .nan _ => nanNum
  | .inf n => if n then invalidNum else num (.inf false)
  | .fin n m e => if m = 0 then pole true else if n then invalidNum else num (log2Num m e)

def exp2Fn : FpVal → FpVal × Fpx
  | .nan _ => nanNum
  | .inf n => if n then num (.fin false 0 0) else num (.inf false)
  | .fin n m e => if m = 0 then oneNum false else num (exp2Num n m e)

def sinpiFn : FpVal → FpVal × Fpx
  | .nan _ => nanNum
  | .inf _ => invalidNum
  | .fin n m e => if m = 0 then num (.fin n 0 0) else num (sinPiNum n m e)

def cospiFn : FpVal → FpVal × Fpx
  | .nan _ => nanNum
  | .inf _ => invalidNum
  | .fin _ m e => if m = 0 then oneNum false else num (cosPiNum m e)

def tanhFn : FpVal → FpVal × Fpx
  | .nan _ => nanNum
  | .inf n => oneNum n
  | .fin n m e => if m = 0 then num (.fin n 0 0) else num (tanhNum n m e)

def execRcp (o : Op) (ftz : Bool) (s : State) : Out := .next (s.special (.rcp o ftz) o ftz rcpFn)
def execRsq (o : Op) (ftz : Bool) (s : State) : Out := .next (s.special (.rsq o ftz) o ftz rsqFn)
def execSqrt (o : Op) (ftz : Bool) (s : State) : Out := .next (s.special (.sqrt o ftz) o ftz sqrtFn)
def execLog2 (o : Op) (ftz : Bool) (s : State) : Out := .next (s.special (.log2 o ftz) o ftz log2Fn)
def execExp2 (o : Op) (ftz : Bool) (s : State) : Out := .next (s.special (.exp2 o ftz) o ftz exp2Fn)
def execSinpi (o : Op) (ftz : Bool) (s : State) : Out := .next (s.special (.sinpi o ftz) o ftz sinpiFn)
def execCospi (o : Op) (ftz : Bool) (s : State) : Out := .next (s.special (.cospi o ftz) o ftz cospiFn)
def execTanh (o : Op) (ftz : Bool) (s : State) : Out := .next (s.special (.tanh o ftz) o ftz tanhFn)

end Sys2Proof.Machine
end

