-- ==== Sys2Proof/Machine/Exchange.lean ====
section
/-! DEFINITION. Group 0x8, lane exchange (R219 to R226). Participants are the lanes of the issuing
mask after the guard; R is the set of real participants. -/

namespace Sys2Proof.Machine

/-- A V register in a lane, as A of an exchange. -/
def State.exA (s : State) (o : Op) (l : Nat) : Word := s.word .int o.a l

/-- An exchange: each participant reads A in its source lane, or its own A where that lane takes no
part (R220, R221). -/
def State.exchange (s : State) (i : Instr) (o : Op) (src : Nat → Nat) : State :=
  let m := s.act o
  let f (l : Nat) : Word :=
    let k := src l
    s.exA o (if k < s.me.width && m.getLsbD k then k else l)
  s.lanesLong i o (destWrites o.d (lanesOf m) f) fun _ => 0

def execQswap (o : Op) (dir : QDir) (s : State) : Out :=
  .next (s.exchange (.qswap o dir) o fun l =>
    l ^^^ (match dir with | .x => 1 | .y => 2 | .xy => 3))

def execQbcast (o : Op) (s : State) : Out :=
  .next (s.exchange (.qbcast o) o fun l => 4 * (l / 4) + (s.uword o.b).toNat % 4)

/-- Source lane of SHFL; a lane below 0 or above the group is none, written 64 (R221). -/
def shflLane (m : ShflMode) (l b : Nat) : Nat :=
  match m with
  | .idx => b
  | .up => if b ≤ l then l - b else 64
  | .down => l + b
  | .xor => if b < 64 then l ^^^ b else 64

def execShfl (o : Op) (m : ShflMode) (s : State) : Out :=
  .next (s.exchange (.shfl o m) o fun l => shflLane m l (s.word .int o.b l).toNat)

/-- VOTE over the real participants (R222). -/
def execVote (o : Op) (k : VoteKind) (s : State) : Out :=
  let ps := (lanesOf (s.realAct o)).map fun l => s.pred o.a l
  let v := match k with
    | .all => ps.all id
    | .any => ps.any id
    | .eq => ps.all id || ps.all not
  .next (s.lanesLong (.vote o k) o (destPreds o.d (lanesOf (s.act o)) fun _ => v) fun _ => 0)

def execBallot (o : Op) (s : State) : Out :=
  let b := maskOf ((lanesOf (s.realAct o)).filter fun l => s.pred o.a l)
  .next (s.lanesLong (.ballot o) o (destWrites64 o.d (lanesOf (s.act o)) fun _ => b) fun _ => 0)

def execMatchLanes (o : Op) (s : State) : Out :=
  let r := lanesOf (s.realAct o)
  let f (l : Nat) : DWord := maskOf (r.filter fun m => s.exA o m == s.exA o l)
  .next (s.lanesLong (.matchLanes o) o (destWrites64 o.d (lanesOf (s.act o)) f) fun _ => 0)

/-! ## Reductions (R223 to R225) -/

/-- FP32 addition under rn, with canonical NaNs. -/
def addF (a b : Word) : Word × Fpx := fpAdd .f32 .rn false false false a b

/-- The canonical form of an FP32 value (R223: no payload reaches D). -/
def canonF (a : Word) : Word := if (Fmt.f32.val a).isNan then Fmt.f32.nan else a

/-- One level of the tree of R224: neighbours added where both are present. -/
def treeLevel : List (Option Word) → List (Option Word) × Fpx
  | x :: y :: rest =>
    let (zs, e) := treeLevel rest
    match x, y with
    | some a, some b => let (w, e') := addF a b; (some w :: zs, e ||| e')
    | some a, none => (some a :: zs, e)
    | none, y => (y :: zs, e)
  | xs => (xs, 0)

/-- The fixed tree over the 64 lane positions (R224). -/
def treeSum (lane : Nat → Option Word) : Word × Fpx :=
  let step (x : List (Option Word) × Fpx) : List (Option Word) × Fpx :=
    let (ys, e) := treeLevel x.1
    (ys, x.2 ||| e)
  let out := step (step (step (step (step (step ((List.range 64).map lane, 0))))))
  (((out.1.headD none).map canonF).getD 0, out.2)

/-- The result over an empty R (R223). -/
def emptyRed (op : RedOp) (t : Ty) : Word :=
  match op with
  | .add | .or | .xor => 0
  | .and => 0xFFFF_FFFF
  | .min | .minix =>
    match t with | .i32 => 0x7FFF_FFFF | .n32 => 0xFFFF_FFFF | _ => 0x7F80_0000
  | .max | .maxix =>
    match t with | .i32 => 0x8000_0000 | .n32 => 0 | _ => 0xFF80_0000

/-- Whether the first value stays the extreme beside the second, ties to the first. -/
def keepsKey (t : Ty) (greatest : Bool) (a b : Word) : Bool :=
  match t with
  | .i32 => if greatest then !a.slt b else !b.slt a
  | .n32 => if greatest then !a.ult b else !b.ult a
  | _ =>
    let x := Fmt.f32.val a
    let y := Fmt.f32.val b
    if y.isNan then true
    else if x.isNan then false
    else if greatest then !x.lt y else !y.lt x

/-- Least or greatest key and the lowest lane that holds it; NaN keys are excluded (R225). -/
def extreme (t : Ty) (greatest : Bool) : List (Nat × Word) → Option (Nat × Word)
  | [] => none
  | (l, a) :: rest =>
    match extreme t greatest rest with
    | none => some (l, a)
    | some (m, b) => if keepsKey t greatest a b then some (l, a) else some (m, b)

/-- IV of a signalling NaN among the values of an `.f32` form. -/
def snanAny (t : Ty) (xs : List Word) : Fpx :=
  if t = .f32 then snanFlag (xs.map Fmt.f32.val) else 0

/-- A NaN result is canonical (R223). -/
def canonT (t : Ty) (a : Word) : Word := if t = .f32 then canonF a else a

/-- REDGRP: the key and, for the index forms, the lane (R223 to R225). -/
def reduce (op : RedOp) (t : Ty) (xs : List (Nat × Word)) : Word × Word × Fpx :=
  let vs := xs.map (·.2)
  let ext (greatest : Bool) : Word × Word × Fpx :=
    match extreme t greatest xs with
    | none => (emptyRed op t, 0xFFFF_FFFF, 0)
    | some (l, a) => (canonT t a, BitVec.ofNat 32 l, snanAny t vs)
  match op with
  | .add =>
    if t = .f32 then
      let (w, e) := treeSum fun p => (xs.find? fun x => x.1 == p).map (·.2)
      (w, 0, e ||| snanAny t vs)
    else (vs.foldl (· + ·) 0, 0, 0)
  | .min | .minix => ext false
  | .max | .maxix => ext true
  | .and => (vs.foldl (· &&& ·) 0xFFFF_FFFF, 0, 0)
  | .or => (vs.foldl (· ||| ·) 0, 0, 0)
  | .xor => (vs.foldl (· ^^^ ·) 0, 0, 0)

def execRedgrp (o : Op) (op : RedOp) (t : Ty) (s : State) : Out :=
  let xs := (lanesOf (s.realAct o)).map fun l => (l, s.exA o l)
  let (key, lane, e) := reduce op t xs
  let lanes := lanesOf (s.act o)
  let ws :=
    if op = .minix ∨ op = .maxix then destWrites64 o.d lanes fun _ => lane ++ key
    else destWrites o.d lanes fun _ => key
  .next (((s.pay (.redgrp o op t)).post o.hints ws e [] false o.d).finish o)

/-! ## Prefixes (R226) -/

def scanRed : AddMinMax → RedOp
  | .add => .add
  | .min => .min
  | .max => .max

/-- Combine two values of a prefix. -/
def scanComb (op : AddMinMax) (t : Ty) (a b : Word) : Word × Fpx :=
  match op with
  | .add => if t = .f32 then addF a b else (a + b, 0)
  | .min => (if keepsKey t false a b then a else b, 0)
  | .max => (if keepsKey t true a b then a else b, 0)

/-- Running combinations: for each lane of R, the value below it (`none` for the lowest) and the
value up to it; with the flags. -/
def scanRun (op : AddMinMax) (t : Ty) :
    Option Word → List (Nat × Word) → List (Nat × Option Word × Word) × Fpx
  | _, [] => ([], 0)
  | below, (l, a) :: rest =>
    let (upto, e) := match below with
      | none => (a, (0 : Fpx))
      | some b => scanComb op t b a
    let (tail, e') := scanRun op t (some upto) rest
    ((l, below, upto) :: tail, e ||| e')

def execScangrp (o : Op) (op : AddMinMax) (exc : Bool) (t : Ty) (s : State) : Out :=
  let xs := (lanesOf (s.realAct o)).map fun l => (l, s.exA o l)
  let (run, eAll) := scanRun op t none xs
  -- in `.exc` the addition of the last value joins no real lane's result; helper lanes raise no flag (R188)
  let e := if exc then (scanRun op t none xs.dropLast).2 else eAll
  let empty := emptyRed (scanRed op) t
  let f (l : Nat) : Word :=
    match run.find? fun x => x.1 == l with
    | some (_, below, upto) => canonT t (if exc then below.getD empty else upto)
    | none =>
      -- a helper participant: the combination of every lane of R below it
      canonT t ((((run.filter fun x => x.1 < l).getLast?).map fun x => x.2.2).getD empty)
  .next (((s.pay (.scangrp o op exc t)).post o.hints
    (destWrites o.d (lanesOf (s.act o)) f) (e ||| snanAny t (xs.map (·.2))) [] false o.d).finish o)

end Sys2Proof.Machine
end

