-- ==== Sys2Proof/Machine/Control.lean ====
section
/-! DEFINITION. Fetching (R371), and group 0x0: transfers, EXIT, YIELD and the plane forms (R227 to
R235, R33, R37). -/

namespace Sys2Proof.Machine

/-! ## Fetching a word (R33, R371, R424) -/

/-- What a fetch finds. -/
inductive Fetched where
  | word (w : BitVec 96)
  | trap (code : Nat)
  /-- a page of this MAP record that is not resident, met at an address -/
  | missing (id addr : Nat)
deriving DecidableEq, Repr

def faultCODEPOISON : Nat := 20

/-- What is wrong with the page of a code address. -/
def State.codePage (s : State) (ctx a : Nat) : Option Fetched :=
  match s.mapping ctx a with
  | none => some (.trap faultADDRESS)
  | some (id, m) =>
    if !m.perm.testBit 2 || !m.device then some (.trap faultPERMISSION)
    else if !m.resident then some (.missing id a) else none

/-- The 12 bytes of a word at a code address, at their points of coherence. -/
def State.codeBytes (s : State) (ctx a : Nat) : List Byte := s.ctxRead ctx a 12

def State.codePoison (s : State) (ctx a : Nat) : Bool :=
  (List.range 12).any fun i =>
    match s.mapping ctx (a + i) with
    | some (_, m) => s.poisoned (m.loc (a + i))
    | none => false

/-- A word at a code address. -/
def State.fetch (s : State) (ctx a : Nat) : Fetched :=
  match s.codePage ctx a with
  | some f => f
  | none =>
    match s.codePage ctx (a + 11) with
    | some f => f
    | none =>
      if s.codePoison ctx a then .trap faultCODEPOISON
      else .word (BitVec.ofNat 96 (leNat (s.codeBytes ctx a)))

/-! ## Transfers -/

def codeBADTARGET : Nat := 11
def codeCALLDEPTH : Nat := 12

/-- o + 4 v, one bit wider than an offset, so that a target below 0 or past 2^32 lies in no region and traps
REGION_END at fetch (R228, R38). One below 0 is kept as 2^33 less its distance, and so comes after every other offset in
the order of R47, which the manual does not settle (DESIGN CHOICE, log entry 61). -/
def branchOffset (o : Nat) (v : BitVec 20) : Nat := (((o : Int) + 4 * v.toInt) % 2 ^ 33).toNat

/-- Set the next place of some lanes and end the plane issue. -/
def State.transfer (s : State) (o : Op) (next : List (Nat × Dest)) : State :=
  s.retire o.hints.y next [] none

/-- Push o + 12 on the link stacks of lanes (R230). -/
def State.pushLinks (s : State) (lanes : List Nat) : State :=
  let sp := s.mySplit
  let g := s.me
  let back : Link := { region := sp.region, offset := sp.offset + 12 }
  let links := lanes.foldl (fun t l => put [] t l (back :: look [] t l)) g.links
  s.setMe { g with links }

/-- Lanes whose link stack is full (R230). -/
def State.fullLinks (s : State) (lanes : List Nat) : List Nat :=
  lanes.filter fun l => 16 ≤ (look [] s.me.links l).length

def immOf (x : Operand) : BitVec 20 := match x with | .imm v => v | _ => 0

def execNop (h : Hints) (s : State) : Out := .next (s.retire h.y [] [] none)

def execBra (o : Op) (s : State) : Out :=
  let sp := s.mySplit
  .next (s.transfer o ((lanesOf (s.act o)).map fun l =>
    (l, .to sp.region (branchOffset sp.offset (immOf o.a)))))

/-- Where a direct CALL goes (R228, R231). -/
def State.callTarget (s : State) (v : BitVec 20) : Option (Nat × Nat) :=
  let sp := s.mySplit
  let l := s.launch s.me.launch
  let a : Int := (l.region sp.region).1 + sp.offset + 4 * v.toInt
  if a < 0 then none else l.locate a.toNat

def execCall (o : Op) (s : State) : Out :=
  let m := s.act o
  let lanes := lanesOf m
  .next (
    if m = 0 then s.transfer o []
    else
      match s.callTarget (immOf o.a) with
      | none => s.trap { code := codeBADTARGET, detail := 3, mask := m }
      | some (r, off) =>
        let full := s.fullLinks lanes
        if full.isEmpty then (s.pushLinks lanes).transfer o (lanes.map fun l => (l, .to r off))
        else s.trap { code := codeCALLDEPTH, mask := maskOf full })

/-- A lane's target: its V pair, or the S pair. -/
def State.target (s : State) (o : Op) (l : Nat) : Nat := (s.dword o.a l).toNat

/-- Whether the page of a code address passes check 2 of R232. -/
def State.codeOk (s : State) (a : Nat) : Bool := (s.codePage s.me.ctx a).isNone

/-- The first check of R232 that a lane fails, if any. -/
def State.targetFails (s : State) (o : Op) (l : Nat) : Option Nat :=
  let a := s.target o l
  let g := s.me
  let la := s.launch g.launch
  if a > 0x000F_FFFF_FFFF_FFFF || a % 4 != 0 then some 1
  else if !s.codeOk a then some 2
  else
    match la.locate a with
    | none => some 3
    | some (r, off) =>
      let w := la.wordAddr r (effPlane (look 0 g.planes l) (la.region r).2.2) off
      if !(s.codeOk w && s.codeOk (w + 11)) then some 2
      else if s.codePoison g.ctx w then some 4
      else
        let h := Hints.ofField ((BitVec.ofNat 96 (leNat (s.codeBytes g.ctx w))).setWidth 24)
        if h.land then none else some 4

/-- BRX and CALLX: every lane's target is checked before anything is committed (R232). -/
def State.indirect (s : State) (o : Op) (link : Bool) : State :=
  let lanes := lanesOf (s.act o)
  let bad := lanes.filter fun l => (s.targetFails o l).isSome
  match bad with
  | l :: _ =>
    s.trap { code := codeBADTARGET, detail := (s.targetFails o l).getD 0,
             mask := if o.a.isS then s.act o else maskOf bad }
  | [] =>
    let full := if link then s.fullLinks lanes else []
    if full.isEmpty then
      let la := s.launch s.me.launch
      let next := lanes.map fun l =>
        let (r, off) := (la.locate (s.target o l)).getD (0, 0)
        (l, Dest.to r off)
      (if link then s.pushLinks lanes else s).transfer o next
    else s.trap { code := codeCALLDEPTH, mask := maskOf full }

def execBrx (o : Op) (s : State) : Out := .next (s.indirect o false)
def execCallx (o : Op) (s : State) : Out := .next (s.indirect o true)

def execRet (o : Op) (s : State) : Out :=
  let lanes := lanesOf (s.act o)
  let g := s.me
  let empty := lanes.filter fun l => (look [] g.links l).isEmpty
  .next (
    if empty.isEmpty then
      let next := lanes.map fun l =>
        let k := (look [] g.links l).headD default
        (l, Dest.to k.region k.offset)
      (s.setMe { g with links := lanes.foldl (fun t l => put [] t l (look [] t l).tail) g.links }).transfer
        o next
    else s.trap { code := codeCALLDEPTH, mask := maskOf empty })

/-- EXIT (R54, R234); a gang that lists the group breaks (R285). -/
def execExit (o : Op) (s : State) : Out :=
  let lanes := lanesOf (s.act o)
  let s' := s.transfer o (lanes.map fun l => (l, .gone))
  .next (if lanes.isEmpty then s' else s'.breakGang s.cur.group)

/-- YIELD: a NOP whose H carries Y, when performed (R234). -/
def execYield (o : Op) (s : State) : Out :=
  .next (s.retire (o.hints.y || s.act o != 0) [] [] none)

/-! ## Planes (R235) -/

def execPset (o : Op) (s : State) : Out :=
  .next (s.retire o.hints.y [] ((lanesOf (s.act o)).map fun l => (l, (s.word .int o.a l).toNat % 4)) none)

def execPseti (o : Op) (s : State) : Out :=
  .next (s.retire o.hints.y []
    ((lanesOf (s.act o)).map fun l => (l, (immOf o.a).toNat % 4)) none)

def execPget (o : Op) (s : State) : Out :=
  .next (s.alu32 (.pget o) o fun l => BitVec.ofNat 32 (look 0 s.me.planes l))

end Sys2Proof.Machine
end

