-- ==== Sys2Proof/Machine/MemoryOps.lean ====
section
/-! DEFINITION. Group 0x9 (R236 to R246), with what every memory form shares: the checks of its lanes
(R240), a page-fault switch-out (R370, R372), watchpoints (R412), requests outside the device (R127,
R356 to R359), poison (R424). -/

namespace Sys2Proof.Machine

/-! ## Switching out (R370, R372) -/

/-- A page request of 32 bytes. -/
def State.pageRequest (s : State) (source id va wg launch count die : Nat) : State :=
  let s := s.count die 4
  let w := s.wgOf wg
  s.send (s.noticeRing (s.launch launch).ctx)
    (leBytes 2 3 ++ leBytes 1 source ++ leBytes 1 0 ++ leBytes 4 id ++ leBytes 8 (va - va % 4096)
      ++ leBytes 4 launch ++ leBytes 4 w.index ++ leBytes 4 count ++ leBytes 4 s.tick)

/-- Each MAP record once, with the lowest missing address behind it. -/
def lowestByRecord : List (Nat × Nat) → List (Nat × Nat)
  | [] => []
  | (id, a) :: rest =>
    let r := lowestByRecord rest
    let b := (r.find? fun e => e.1 == id).map (·.2)
    (id, min a (b.getD a)) :: r.filter fun e => e.1 != id

/-- A plane issue that has performed nothing stops its split and its workgroup (R370). -/
def State.switchOut (s : State) (pages : List (Nat × Nat)) : State :=
  let g := s.me
  let sp := s.mySplit
  let s := (lowestByRecord pages).foldl (fun s (id, a) =>
    let w := s.wgOf g.wg
    if w.missing.contains id then s
    else
      let w := { w with missing := w.missing ++ [id] }
      (s.setWg g.wg w).pageRequest 0 id a g.wg g.launch w.missing.length (dieOf s.cur.group)) s
  let w := s.wgOf g.wg
  let s := s.setWg g.wg { w with state := .stopping }
  let wait : Waiting :=
    { kind := .page, conds := [], all := false, expiry := none, lanes := s.cur.mask,
      region := sp.region, offset := sp.offset, plane := s.cur.plane, yield := false }
  s.setMe (s.me.setSplit s.cur.slot (some { sp with mid := sp.unbegun, wait := some wait }))

/-! ## Checking the lanes of an issue (R240) -/

/-- What the checks of a plane issue come to. -/
inductive Verdict where
  | trap (t : Trap)
  /-- MAP records whose pages are not resident, with the addresses that need them -/
  | out (pages : List (Nat × Nat))
  | go (lanes : List (Nat × Nat × Chk))

def leastCode : List Nat → Option Nat
  | [] => none
  | c :: cs => some (match leastCode cs with | some d => min c d | none => c)

/-- The trap or switch-out of checked lanes. `every` is the mask a single access names. -/
def State.verdict (s : State) (every : Option LaneMask) (cs : List (Nat × Nat × Chk)) : Verdict :=
  let faults := cs.filterMap fun (l, a, c) => match c with | .fault n => some (l, a, n) | _ => none
  match leastCode (faults.map fun f => f.2.2) with
  | some c =>
    let hit := faults.filter fun f => f.2.2 == c
    .trap { code := c, detail := if c = faultSTACK then s.stackBytes s.me else 0,
            mask := every.getD (maskOf (hit.map (·.1))), addr := (hit.headD (0, 0, 0)).2.1 }
  | none =>
    let pages := cs.filterMap fun (_, a, c) => match c with | .missing id => some (id, a) | _ => none
    if pages.isEmpty then .go cs else .out pages

/-- The accesses of an issue: one for a uniform form, by its lowest real lane, else one per lane
(R239). -/
def accessLanes (single : Bool) (act real : LaneMask) : List Nat :=
  if single then (lanesOf (if act &&& real = 0 then act else act &&& real)).take 1 else lanesOf act

/-! ## Watchpoints (R412) -/

/-- Lanes of an access that overlap a watched range. -/
def watchLanes (lo len n : Nat) (as : List (Nat × Nat)) : List (Nat × Nat) :=
  as.filter fun e => e.2 < lo + len && lo < e.2 + n

/-- Enabled watchpoints that an issue hits: 1 load, 2 store, 3 atomic. -/
def State.watchHits (s : State) (kind n : Nat) (as : List (Nat × Nat)) : List (Nat × List (Nat × Nat)) :=
  (List.range 16).filterMap fun w =>
    let ctl := s.reg (wpReg w + 8)
    let hit := watchLanes (s.reg (wpReg w)).toNat (bitsAt ctl.toNat 32 12 + 1) n as
    if ctl.getLsbD 63 && ctl.getLsbD (63 - kind) && (ctl.setWidth 32).toNat == s.me.ctx && !hit.isEmpty
    then some (w, hit) else none

/-- Count a hit in WP_HITS, below its sticky bit. -/
def State.countHit (s : State) (w : Nat) : State :=
  let r := s.reg (wpReg w + 0x18)
  let n := min (r.toNat % 2 ^ 63 + 1) (2 ^ 63 - 1)
  s.setReg (wpReg w + 0x18) (BitVec.ofNat 64 (r.toNat / 2 ^ 63 * 2 ^ 63 + n))

/-- x is found in the same FCLK cycle as y, or in the same hop on another cluster, and is served first. -/
def Hit.before (x y : Hit) : Bool :=
  x.hop == y.hop && (clusterOf x.cur.group != clusterOf y.cur.group || x.clock == y.clock)
  && x.cur.group < y.cur.group

/-- Hits stand in the order in which they are served (R412). -/
def insertHit (h : Hit) : List Hit → List Hit
  | [] => [h]
  | x :: xs => if h.before x then h :: x :: xs else x :: insertHit h xs

/-- Withhold the plane issue and hold the group; `every` is the mask of a single access. -/
def State.withhold (s : State) (kind : Nat) (every : Option LaneMask)
    (hits : List (Nat × List (Nat × Nat))) (data : Nat → DWord) : State :=
  let s := hits.foldl (fun s (w, as) =>
    let (lane, a) := as.headD (0, 0)
    let h : Hit :=
      { watch := w, cur := s.cur, addr := BitVec.ofNat 64 a, mask := every.getD (maskOf (as.map (·.1))),
        data := if kind = 1 then 0 else data lane, kind, hop := s.hop,
        clock := (s.cluster (clusterOf s.cur.group)).clock }
    let s := s.countHit w
    { s with hits := insertHit h s.hits }) s
  let sp := s.mySplit
  let mid := sp.mid.getD { todo := [(s.cur.plane, s.cur.mask)], dests := [], planes := [], begun := false }
  let g := s.me.setSplit s.cur.slot (some { sp with mid := some mid })
  s.setMe { g with held := hits.head?.map fun e => (e.1, s.cur.slot) }

/-- Perform an issue, unless a watchpoint withholds it; one already released goes on untested (R412). -/
def State.watched (s : State) (kind n : Nat) (every : Option LaneMask) (as : List (Nat × Nat))
    (data : Nat → DWord) (perform : State → State) : State :=
  let hits := if s.cur.untested || s.cur.acked then [] else s.watchHits kind n as
  if hits.isEmpty then perform s else s.withhold kind every hits data

/-! ## The shape of a memory form -/

/-- Distinct 32-byte sectors of the accesses. -/
def sectorsOf (n : Nat) (as : List (Nat × Nat)) : Nat :=
  ((as.flatMap fun e => [e.2 / 32, (e.2 + n - 1) / 32]).eraseDups).length

/-- The OP field of a word (R162). -/
def opField (i : Instr) : Nat := ((encode i).extractLsb' 86 10).toNat

/-- Judge the lanes, then trap, switch out, withhold, or pay and perform. -/
def State.access (s : State) (i : Instr) (o : Op) (kind : Nat) (how : How) (n : Nat) (single : Bool)
    (cs : List (Nat × Nat × Chk)) (data : Nat → DWord)
    (perform : State → List (Nat × Nat × Chk) → State) : State :=
  let every := if single then some (s.act o) else none
  match s.verdict every cs with
  | .trap t => (s.pay i).trap t
  | .out pages => (s.pay i).switchOut pages
  | .go cs =>
    let as := cs.filterMap fun (l, a, c) => match c with | .at _ => some (l, a) | _ => none
    let link := cs.any fun (_, _, c) =>
      match c with | .at l => s.crosses how kind (coreOf s.cur.group) l n | _ => false
    s.watched kind n every as data fun s =>
      let act := s.act o
      let hit := if single && !as.isEmpty then act else maskOf (as.map (·.1))
      perform ((s.pay i).sampleIssue (opField i) act hit (sectorsOf n as) link) cs

/-- The address of a lane: base + off (R237). -/
def State.address (s : State) (base off : Operand) (l : Nat) : Nat :=
  let x : DWord := match off with
    | .s n => (s.me.readS n.toNat).signExtend 64
    | .imm v => v.signExtend 64
    | _ => 0
  (s.dword base l + x).toNat

/-- The checked accesses of a form. -/
def State.checks (s : State) (k : Acc) (n : Nat) (lanes : List Nat) (addr : Nat → Nat) :
    List (Nat × Nat × Chk) :=
  lanes.map fun l => (l, addr l, s.check s.cur.group s.me l k (addr l) n)

/-! ## Requests outside the device -/

/-- A plane issue of a group as the maker of a request for some lanes, translated now. -/
def State.originOf (s : State) (key slot plane region offset : Nat) (mask : LaneMask) (va : Nat) : Origin :=
  let g := s.group key
  { group := key, slot, plane, region, offset, mask, va, ctx := g.ctx, launch := g.launch,
    wgIndex := (s.wgOf g.wg).index, index := g.index, gen := (s.ctxOf g.ctx).gen }

/-- The plane issue being made as the maker of a request. -/
def State.here (s : State) (mask : LaneMask) (va : Nat) : Origin :=
  s.originOf s.cur.group s.cur.slot s.cur.plane s.mySplit.region s.mySplit.offset mask va

/-- The group that made a request is the one that stands in its slot. -/
def State.isMaker (s : State) (o : Origin) : Bool :=
  match look none s.groups o.group with
  | some g => g.ctx == o.ctx && g.launch == o.launch && (s.wgOf g.wg).index == o.wgIndex && g.index == o.index
  | none => false

/-- Requests that a release at `.sys` by a group waits for (R126): the zero-length reads, what the group has
written through Hevis Link, wherever it stood, and what the cores of its launch have published. -/
def State.acksFor (s : State) (key : Nat) : List Nat :=
  let g := s.group key
  let mine (o : Origin) : Bool :=
    o.launch == g.launch && o.wgIndex == (s.wgOf g.wg).index && o.index == g.index && o.ctx == g.ctx
  (s.port.out.filter fun q =>
    match q.kind with
    | .flush _ => true
    | .store | .rmw _ | .queue => mine q.origin
    | .publish => (coreOf key :: (s.launch g.launch).cores).contains (coreOf q.origin.group)
    | _ => false).map (·.tag)

def State.acksOf (s : State) : List Nat := s.acksFor s.cur.group

/-! ## Loads -/

/-- A load of one place: the bytes, which of them are poisoned, and whether a request left the core. -/
def State.loadOne (s : State) (how : How) (l : Loc) (n : Nat) : State × List Byte × List Bool × Bool :=
  let core := coreOf s.cur.group
  let s := if how = .poc then s.evictAccess core l n else s
  let bad := (List.range n).map fun i => s.readPoison core (l.plus i)
  let miss := s.missed how core l n
  let (s, bs) := s.readBytes how core l n
  let s := if miss then s.countReq (dieOf s.cur.group) l else s
  (s, bs, bad, miss)

/-- What a load has gathered so far. -/
structure Gathered where
  writes : List Write
  tags : List Nat
  poisoned : List (Nat × Nat)
deriving Inhabited

/-- The loads of an issue, in lane order; `regs` gives the register writes of a lane's words. -/
def State.loadLanes (s : State) (how : How) (w : LoadW) (regs : Nat → List Word → List Write)
    (maskFor : Nat → LaneMask) : List (Nat × Nat × Chk) → State × Gathered
  | [] => (s, { writes := [], tags := [], poisoned := [] })
  | (l, a, c) :: rest =>
    let n := w.width.bytes
    match c with
    | .at loc =>
      let (s, bs, bad, miss) := s.loadOne how loc n
      let ws := regs l (loadWords w bs bad)
      let (s, tags) := match loc with
        | .mmio k => let (s, t) := s.ask k n (.register n) ws false (s.here (maskFor l) a); (s, [t])
        | .ext k =>
          if miss then (let (s, t) := s.ask k n .read ws false (s.here (maskFor l) a); (s, [t])) else (s, [])
        | _ => (s, [])
      let (s, g) := s.loadLanes how w regs maskFor rest
      (s, { writes := ws ++ g.writes, tags := tags ++ g.tags,
            poisoned := (if bad.any id then [(l, a)] else []) ++ g.poisoned })
    | _ =>
      let (s, g) := s.loadLanes how w regs maskFor rest
      (s, { g with writes := regs l (List.replicate w.width.regs 0) ++ g.writes })

def codeREADPOISON : Nat := 34

/-- One READ_POISON record for the lanes that received all ones (R424). -/
def State.poisonRecord (s : State) (lanes : List (Nat × Nat)) (every : Option LaneMask) : State :=
  match lanes with
  | [] => s
  | (_, a) :: _ =>
    s.logFault { code := codeREADPOISON, detail := 0, mask := every.getD (maskOf (lanes.map (·.1))),
                 addr := a, index := 0 }

/-- LD, LDNR and LDS: the boundary of an acquire follows the access (R121, R126). -/
def State.load (s : State) (i : Instr) (o : Op) (w : LoadW) (how : How) (acq : Bool)
    (cs : List (Nat × Nat × Chk)) (extra : List (Nat × Nat × Chk) → List Write) : State :=
  let single := !o.a.isV
  let act := s.act o
  let lanes := lanesOf act
  let regs (l : Nat) (xs : List Word) : List Write :=
    if single then (match o.d with | .v _ => lanes.flatMap fun m => destTuple o.d m xs | _ => destTuple o.d l xs)
    else destTuple o.d l xs
  let maskFor (l : Nat) : LaneMask := if single then act else 1#64 <<< l
  s.access i o 1 how w.width.bytes single cs (fun _ => 0) fun s cs =>
    let (s, g) := s.loadLanes how w regs maskFor cs
    let s := s.poisonRecord g.poisoned (if single then some act else none)
    let s := s.post o.hints (g.writes ++ extra cs) 0 g.tags false o.d
    let s := if acq then s.boundary (coreOf s.cur.group) else s
    s.finish o

def execLd (o : Op) (w : LoadW) (s : State) : Out :=
  let lanes := accessLanes (!o.a.isV) (s.act o) s.me.real
  .next (s.load (.ld o w) o w .l1 false
    (s.checks (.load false) w.width.bytes lanes (s.address o.a o.b)) fun _ => [])

/-- LDNR's view of a lane: a missing page or leaf reads zero (R242). -/
def noResident (a n : Nat) (leaf : Bool) (c : Chk) : Chk :=
  match c with
  | .missing _ => .skip
  | .fault code =>
    match aperture a with
    | .global _ => if code = faultADDRESS && !leaf then (if a % n = 0 then .skip else .fault faultALIGN) else c
    | _ => c
  | _ => c

/-- LDNR writes predicate k where a value was read (R242). -/
def execLdnr (o : Op) (w : LoadW) (k : BitVec 4) (s : State) : Out :=
  let n := w.width.bytes
  let single := !o.a.isV
  let lanes := accessLanes single (s.act o) s.me.real
  let cs := (s.checks (.load false) n lanes (s.address o.a o.b)).map fun (l, a, c) =>
    (l, a, noResident a n (s.mapping s.me.ctx a).isSome c)
  let preds (cs : List (Nat × Nat × Chk)) : List Write :=
    let hit (l : Nat) : Bool := cs.any fun (m, _, c) =>
      (single || m == l) && (match c with | .at _ => true | _ => false)
    (lanesOf (s.act o)).map fun l => .p k.toNat l (hit l)
  .next (s.load (.ldnr o w k) o w .l1 false cs preds)

/-- A form that may reach a peer register (R359). -/
def peerForm (w : Width) (sc : Scope) : Bool := sc == .sys && (w == .b32 || w == .b64)

def Ord.acquires : Ord → Bool
  | .acq | .ar => true
  | _ => false
def Ord.releases : Ord → Bool
  | .rel | .ar => true
  | _ => false

/-- Scopes at which a release or acquire is a phase boundary (R120, R124). -/
def wideScope : Scope → Bool
  | .lane | .grp | .wg => false
  | _ => true

/-- What a release does before it is performed (R121, R126); what it publishes is tested by the monitors before the
release overwrites it (R260). -/
def State.releaseBy (s : State) (o : Origin) (sc : Scope) : State :=
  if wideScope sc then
    let s := s.testWaits (s.boundary (coreOf o.group))
    if sc = .sys then s.flushPosted true o else s
  else s

/-- The release of the plane issue being made. -/
def State.release (s : State) (sc : Scope) : State := s.releaseBy (s.here 0 0) sc

/-- Hold the issuing split in an implicit wait, its plane issue not yet complete (R50, R258, R288); `y` is the Y of
its word (R176). -/
def State.holdSplit (s : State) (kind : WaitKind) (act : LaneMask) (y : Bool) : State :=
  let sp := s.mySplit
  let mid := sp.mid.getD { todo := [(s.cur.plane, s.cur.mask)], dests := [], planes := [], begun := false }
  let w : Waiting :=
    { kind, conds := [], all := false, expiry := none, lanes := act, region := sp.region,
      offset := sp.offset, plane := s.cur.plane, yield := y }
  s.setMe (s.me.setSplit s.cur.slot (some { sp with mid := some mid, wait := some w }))

/-- A release at a scope, then what it releases (R126): at `.sys` the split waits until every store it covers has
been acknowledged, and is then issued again to be performed. -/
def State.releasing (s : State) (sc : Scope) (act : LaneMask) (perform : State → State) : State :=
  if s.cur.acked then perform s
  else
    let s := s.release sc
    let tags := if sc = .sys then s.acksOf else []
    let g := s.me
    if tags.isEmpty then perform s else s.holdSplit (.ack tags { v := g.v, s := g.s, p := g.p }) act false

/-- What an acquire does after it is performed. -/
def State.acquire (s : State) (sc : Scope) : State :=
  if wideScope sc then s.boundary (coreOf s.cur.group) else s

def execLds (o : Op) (w : Width) (ord : Ord) (sc : Scope) (s : State) : Out :=
  let lanes := accessLanes (!o.a.isV) (s.act o) s.me.real
  let acts := s.act o != 0
  .next (s.load (.lds o w ord sc) o (.plain w) (howOf sc)
    (Ord.acquires ord && wideScope sc && acts)
    (s.checks (.load (peerForm w sc)) w.bytes lanes (s.address o.a o.b)) fun _ => [])

/-! ## Stores -/

/-- The bytes a lane stores: the low 8z bits of its data registers (R241). -/
def State.storeData (s : State) (x : Operand) (l n : Nat) : List Byte :=
  ((List.range ((n + 3) / 4)).flatMap fun i => leBytes 4 (s.tuple x i l).toNat).take n

/-- Store at one place that was translated under generation `gen` (R368); a store that leaves the device waits there
for its acknowledgement (R126, R127). -/
def State.storeGen (s : State) (how : How) (gen : Bool) (l : Loc) (bs : List Byte) : State :=
  let key := s.cur.group
  match l, how with
  | .ext k, .poc =>
    ((s.evictAccess (coreOf key) l bs.length).sendOut k .store bs { s.here 0 0 with gen }).1
  | .mmio k, _ => (s.sendOut k .store bs { s.here 0 0 with gen }).1
  | _, _ =>
    let s := if s.missed how (coreOf key) l bs.length then s.countReq (dieOf key) l else s
    s.writeBytes how (coreOf key) s.me.ctx gen l bs

def State.storeOne (s : State) (how : How) (l : Loc) (bs : List Byte) : State :=
  s.storeGen how (s.ctxOf s.me.ctx).gen l bs

/-- The stores of an issue in lane order; each is tested by the monitors (R260). -/
def State.storeLanes (s : State) (how : How) (data : Nat → List Byte) :
    List (Nat × Nat × Chk) → State
  | [] => s
  | (l, _, c) :: rest =>
    (match c with
      | .at loc => s.testWaits (s.storeOne how loc (data l))
      | _ => s).storeLanes how data rest

/-- ST, STS and TST: the boundary of a release precedes the access. -/
def State.store (s : State) (i : Instr) (o : Op) (n : Nat) (single : Bool) (how : How)
    (rel : Option Scope) (cs : List (Nat × Nat × Chk)) : State :=
  let data (l : Nat) : List Byte := s.storeData o.d l n
  s.access i o 2 how n single cs (fun l => BitVec.ofNat 64 (leNat ((data l).take 8))) fun s cs =>
    let perform (s : State) : State := (s.storeLanes how data cs).finish o
    match rel with
    | some sc => s.releasing sc (s.act o) perform
    | none => perform s

/-- A store is one access when its base and its data are uniform (R239). -/
def storeSingle (o : Op) : Bool := !o.a.isV && !o.d.isV

def execSt (o : Op) (w : Width) (s : State) : Out :=
  let lanes := accessLanes (storeSingle o) (s.act o) s.me.real
  .next (s.store (.st o w) o w.bytes (storeSingle o) .l1 none
    (s.checks (.store false) w.bytes lanes (s.address o.a o.b)))

def execSts (o : Op) (w : Width) (ord : Ord) (sc : Scope) (s : State) : Out :=
  let lanes := accessLanes (storeSingle o) (s.act o) s.me.real
  .next (s.store (.sts o w ord sc) o w.bytes (storeSingle o) (howOf sc)
    (if Ord.releases ord && s.realAct o != 0 then some sc else none)
    (s.checks (.store (peerForm w sc)) w.bytes lanes (s.address o.a o.b)))

/-! ## PREF (R244) -/

/-- Fill a byte of the L1 that it does not hold. -/
def State.fillByte (s : State) (core : Nat) (l : Loc) : State :=
  match l.key with
  | none => s
  | some k => if (s.l1 core k).isSome then s else (s.readByte .l1 core l).1

/-- Fill the 128-byte line of an address, where a load of it would be made; a line that the L1 does not hold whole is
one request (R367), as is each run of its bytes outside the device (R358). -/
def State.fillLine (s : State) (lane a : Nat) : State :=
  let core := coreOf s.cur.group
  let places := (List.range 128).filterMap fun i =>
    match s.check s.cur.group s.me lane (.load false) (a - a % 128 + i) 1 with
    | .at l => some l
    | _ => none
  let s := match places.find? fun l => s.missed .l1 core l 1 with
    | some l => s.countReq (dieOf s.cur.group) l
    | none => s
  let out := outRuns (places.filter fun l => s.missed .l1 core l 1)
  let s := (s.askRuns .read (s.here (1#64 <<< lane) a) out).1
  places.foldl (fun s l => s.fillByte core l) s

/-- A request of the fill of a line crosses a die link (R419). -/
def State.lineCrosses (s : State) (lane a : Nat) : Bool :=
  (List.range 128).any fun i =>
    match s.check s.cur.group s.me lane (.load false) (a - a % 128 + i) 1 with
    | .at l => s.crosses .l1 1 (coreOf s.cur.group) l 1
    | _ => false

def execPref (o : Op) (s : State) : Out :=
  let lanes := accessLanes (!o.a.isV) (s.act o) s.me.real
  let addrs := lanes.map fun l => (l, s.address o.a o.b l)
  let act := s.act o
  let hit := if o.a.isV || addrs.isEmpty then maskOf lanes else act
  let s' := (s.pay (.pref o)).sampleIssue (opField (.pref o)) act hit (sectorsOf 1 addrs)
    (addrs.any fun (l, a) => s.lineCrosses l a)
  .next ((addrs.foldl (fun s (l, a) => s.fillLine l a) s').finish o)

/-! ## Tensor forms (R245, R246) -/

/-- A lane's address in a window, or none where it is clipped. -/
def State.windowAddr (s : State) (o : Op) (z l : Nat) : Option Nat :=
  let w := windowOf (s.blockOf o.a)
  let x := (s.tuple o.b 0 l).toInt
  let y := (s.tuple o.b 1 l).toInt
  if 0 ≤ x ∧ x < w.cols ∧ 0 ≤ y ∧ y < w.rows then
    some ((w.base + y.toNat * w.pitch + x.toNat * z) % 2 ^ 64)
  else none

def State.windowChecks (s : State) (o : Op) (k : Acc) (z : Nat) : List (Nat × Nat × Chk) :=
  (lanesOf (s.act o)).filterMap fun l =>
    (s.windowAddr o z l).map fun a => (l, a, s.check s.cur.group s.me l k a z)

def execTld (o : Op) (w : Width) (s : State) : Out :=
  let act := s.act o
  let clipped := (lanesOf act).filter fun l => (s.windowAddr o w.bytes l).isNone
  .next (s.access (.tld o w) o 1 .l1 w.bytes false (s.windowChecks o (.load false) w.bytes) (fun _ => 0)
    fun s cs =>
      let (s, g) := s.loadLanes .l1 (.plain w) (fun l xs => destTuple o.d l xs)
        (fun l => 1#64 <<< l) cs
      let s := s.poisonRecord g.poisoned none
      let zeros := clipped.flatMap fun l => destTuple o.d l [0]
      (s.post o.hints (g.writes ++ zeros) 0 g.tags false o.d).finish o)

def execTst (o : Op) (w : Width) (s : State) : Out :=
  .next (s.store (.tst o w) o w.bytes false .l1 none (s.windowChecks o (.store false) w.bytes))

end Sys2Proof.Machine
end

