-- ==== Sys2Proof/Machine/Atomics.lean ====
section
/-! DEFINITION. Group 0xA, the atomics (R247 to R252, R133, R424). -/

namespace Sys2Proof.Machine

/-- New value of an ATOM (R249); values of 32-bit types are the low halves. -/
def atomInt (op : AtomOp) (t : Ty) (old b : DWord) : DWord :=
  match op with
  | .add => old + b
  | .min => if intSource t old ≤ intSource t b then old else b
  | .max => if intSource t b ≤ intSource t old then old else b
  | .and => old &&& b
  | .or => old ||| b
  | .xor => old ^^^ b
  | .exch => b

/-- New value of an ATOMF, and whether a NaN made it (R250, R251). -/
def atomFloat (op : AddMinMax) (t : Ty) (old b : Word) : Word × Bool :=
  let f := fmtOf t
  match op with
  | .add => ((fpAdd f .rn false false false old b).1, false)
  | .min =>
    if (f.val old).isNan || (f.val b).isNan then (f.nan, true) else ((fpMinMax f false false old b).1, false)
  | .max =>
    if (f.val old).isNan || (f.val b).isNan then (f.nan, true) else ((fpMinMax f false true old b).1, false)

/-- What an atomic does to the bytes it finds: the new value, if it writes, and whether it counts as
invalid. -/
abbrev Rmw := DWord → Option DWord × Bool

/-- One read-modify-write at the home of its bytes; poisoned bytes are not touched (R424), and none where the request
is lost on its way. -/
def State.rmwOne (s : State) (lost : Bool) (l : Loc) (n : Nat) (f : Rmw) : State × DWord × Bool :=
  let key := s.cur.group
  let s := (s.countReq (dieOf key) l).evictAccess (coreOf key) l n
  if (List.range n).any fun i => s.poisoned (l.plus i) then (s, BitVec.allOnes 64, true)
  else
    let old := BitVec.ofNat 64 (leNat (s.peeks l n))
    let (new, invalid) := f old
    let s := match new with | some x => if lost then s else s.pokes l (leBytes n x.toNat) | none => s
    let s := if invalid && !lost then s.bumpAst s.me.ctx 0 1 else s
    (s, old, false)

/-- The old value as the words of its registers. -/
def oldWords (n : Nat) (x : DWord) (bad : Bool) : List Word :=
  if bad then List.replicate (if n = 8 then 2 else 1) 0xFFFF_FFFF
  else if n = 8 then [x.setWidth 32, x.extractLsb' 32 32] else [x.setWidth 32]

/-- What an atomic issue has gathered: register writes, outside requests, poisoned lanes and the parts
of its replay record. -/
structure Atomed where
  writes : List Write
  tags : List Nat
  poisoned : List (Nat × Nat)
  parts : List (Option Nat × List Byte)
deriving Inhabited

/-- The performances of an issue in ascending lane order (R103, R248). -/
def State.rmwLanes (s : State) (n : Nat) (f : Nat → Rmw) (regs : Nat → List Word → List Write)
    (maskFor : Nat → LaneMask) : List (Nat × Nat × Chk) → State × Atomed
  | [] => (s, { writes := [], tags := [], poisoned := [], parts := [] })
  | (l, a, c) :: rest =>
    match c with
    | .at loc =>
      let before := s
      let lost := loc.outside && !Config.reached s.free
      let (s, old, bad) := s.rmwOne lost loc n (f l)
      let s := before.testWaits s
      let ws := regs l (oldWords n old bad)
      let (s, tag) := match loc with
        | .ext k =>
          let record := match s.mapping s.me.ctx a with | some e => e.1 | none => 0
          let (s, t) := s.ask k n (.rmw record) ws lost (s.here (maskFor l) a)
          (s, some t)
        | _ => (s, none)
      let (s, g) := s.rmwLanes n f regs maskFor rest
      (s, { writes := ws ++ g.writes, tags := tag.toList ++ g.tags,
            poisoned := (if bad then [(l, a)] else []) ++ g.poisoned,
            parts := (tag, leBytes n old.toNat) :: g.parts })
    | _ => s.rmwLanes n f regs maskFor rest

/-- An atomic is performed once where base and operand are uniform (R248). -/
def atomSingle (o : Op) : Bool := !o.a.isV && !o.b.isV

/-- The address of an atomic: base + e (R247). -/
def State.atomAddr (s : State) (o : Op) (e : BitVec 8) (l : Nat) : Nat :=
  (s.dword o.a l + e.signExtend 64).toNat

/-- The shape of the atomics; `data` is what a watchpoint's predicate is shown of a lane's operand (R413). -/
def State.atomic (s : State) (i : Instr) (o : Op) (n : Nat) (host : Bool) (ord : Ord) (sc : Scope)
    (e : BitVec 8) (data : Nat → DWord) (f : Nat → Rmw) : State :=
  let single := atomSingle o
  let act := s.act o
  let real := s.realAct o
  let lanes := accessLanes single act s.me.real
  let regs (l : Nat) (xs : List Word) : List Write :=
    if single then
      (match o.d with
        | .v _ => (lanesOf real).flatMap fun m => destTuple o.d m xs
        | _ => destTuple o.d l xs)
    else destTuple o.d l xs
  let maskFor (l : Nat) : LaneMask := if single then real else 1#64 <<< l
  s.access i o 3 .poc n single (s.checks (.rmw host) n lanes (s.atomAddr o e)) data fun s cs =>
    let perform (s : State) : State :=
      let (s, g) := s.rmwLanes n f regs maskFor cs
      let s := s.poisonRecord g.poisoned (if single then some real else none)
      let wait := !g.tags.isEmpty
      let s := if real = 0 || wait then s else s.logMe 1 act (g.parts.flatMap (·.2))
      let log : Option Pending := if wait then some { kind := 1, mask := act, parts := g.parts } else none
      let s := s.post o.hints g.writes 0 g.tags false o.d log
      let s := if Ord.acquires ord && real != 0 then s.acquire sc else s
      s.finish o
    if Ord.releases ord && real != 0 then s.releasing sc act perform else perform s

def execAtom (o : Op) (op : AtomOp) (t : Ty) (ord : Ord) (sc : Scope) (e : BitVec 8) (s : State) : Out :=
  let n := 4 * t.regs
  let b (l : Nat) : DWord := if t.regs = 2 then s.dword o.b l else (s.word .int o.b l).setWidth 64
  .next (s.atomic (.atom o op t ord sc e) o n (op = .add || op = .exch) ord sc e b fun l old =>
    (some (atomInt op t old (b l)), false))

/-- The data shown to a predicate is the new value (DESIGN CHOICE, log entry 61). -/
def execAtomcas (o : Op) (wide : Bool) (ord : Ord) (sc : Scope) (e : BitVec 8) (s : State) : Out :=
  let cmp (l : Nat) : DWord :=
    if wide then s.tuple o.b 1 l ++ s.tuple o.b 0 l else (s.tuple o.b 0 l).setWidth 64
  let val (l : Nat) : DWord :=
    if wide then s.tuple o.b 3 l ++ s.tuple o.b 2 l else (s.tuple o.b 1 l).setWidth 64
  .next (s.atomic (.atomcas o wide ord sc e) o (if wide then 8 else 4) true ord sc e val fun l old =>
    (if old = cmp l then some (val l) else none, false))

def execAtomf (o : Op) (op : AddMinMax) (t : Ty) (ord : Ord) (sc : Scope) (e : BitVec 8) (s : State) :
    Out :=
  let n := if t = .f32 then 4 else 2
  let b (l : Nat) : Word := s.word (if t = .f32 then .f32 else .half) o.b l
  .next (s.atomic (.atomf o op t ord sc e) o n false ord sc e (fun l => (b l).setWidth 64) fun l old =>
    let (x, invalid) := atomFloat op t (old.setWidth 32) (if t = .f32 then b l else b l &&& 0xFFFF)
    (some (x.setWidth 64), invalid))

end Sys2Proof.Machine
end

