-- ==== Sys2Proof/Machine/Sync.lean ====
section
/-! DEFINITION. Group 0xB: fences, PHASE, barrier forms, WAIT, batches and handles (R253 to R269, R113
to R116, R120, R129), and the bank cycles that apply barrier updates (R114). -/

namespace Sys2Proof.Machine

/-! ## Fences -/

def execFence (o : Op) (ord : Ord) (sc : Scope) (s : State) : Out :=
  let s' :=
    if s.act o = 0 then s.finish o
    else if Ord.releases ord then
      -- the split goes on; the group's later accesses wait for the acknowledgements (R126, R255)
      let s := s.release sc
      let tags := if sc = .sys then s.acksOf else []
      (s.setMe { s.me with fence := (s.me.fence ++ tags).eraseDups }).finish o
    else (s.acquire sc).finish o
  .next s'

def execPhase (o : Op) (s : State) : Out :=
  .next ((if s.act o = 0 then s else s.boundary (coreOf s.cur.group)).finish o)

/-! ## Barrier objects -/

/-- The fields of a barrier object (R113). -/
structure BarObj where
  phase : Nat
  expect : Nat
  arrived : Nat
  xbytes : Nat
  lbytes : Nat
deriving DecidableEq, Repr

def BarObj.read (bs : List Byte) : BarObj :=
  { phase := field bs 0 4, expect := field bs 4 2, arrived := field bs 6 2, xbytes := field bs 8 4,
    lbytes := field bs 12 4 }

def BarObj.bytes (b : BarObj) : List Byte :=
  leBytes 4 b.phase ++ leBytes 2 b.expect ++ leBytes 2 b.arrived ++ leBytes 4 b.xbytes
  ++ leBytes 4 b.lbytes

/-- What the address checks of a barrier object find (R113, R257). -/
def State.barPlace (s : State) (g : Group) (a : Nat) : Except Nat Loc :=
  match aperture a with
  | .scratch .. | .shared _ =>
    match s.placeOf g a 16 with
    | some l => if a % 16 = 0 then .ok l else .error faultALIGN
    | none => .error faultADDRESS
  | _ => .error faultADDRESS

/-- Bank and address of an object's place. -/
def barKey (l : Loc) : Nat × Nat :=
  match l with
  | .shared w o => (1 + w, o)
  | .dev k => (0, k)
  | _ => (0, 0)

def barLoc (bank addr : Nat) : Loc := if bank = 0 then .dev addr else .shared (bank - 1) addr

/-- The narrower of two scopes (R115). -/
def scopeRank : Scope → Nat
  | .lane => 0 | .grp => 1 | .wg => 2 | .cl => 3 | .die => 4 | .dev => 5 | .sys => 6
def narrower (a b : Scope) : Scope := if scopeRank a ≤ scopeRank b then a else b

/-- A barrier form: check the object, release, and send the update to its bank (R257, R258). -/
def State.barrier (s : State) (o : Op) (up : Scope → BarUpdate) (sc : Scope) (rel : Bool) : State :=
  let act := s.act o
  if act = 0 then s.finish o
  else
    let a := (s.dword o.a 0).toNat
    match s.barPlace s.me a with
    | .error c => s.trap { code := c, mask := act, addr := a }
    | .ok l =>
      let sc := narrower sc l.scope
      -- the scope of an object's memory is within the device, so that no release here waits (R115, R126)
      let s := if rel then s.release sc else s
      let (bank, addr) := barKey l
      let e : BankEntry :=
        { bank, addr, va := a, part := partOf s.cur.group, group := s.cur.group, slot := s.cur.slot, up := up sc }
      ({ s with bank := s.bank ++ [e] }).holdSplit .bank act o.hints.y

def execBarinit (o : Op) (sc : Scope) (s : State) : Out :=
  let b := (s.uword o.b).toNat
  .next (
    if s.act o != 0 && 65535 < b then s.illegal
    else s.barrier o (fun _ => .init b) sc false)

def execBararr (o : Op) (sc : Scope) (s : State) : Out :=
  .next (s.barrier o .arrive sc true)

def execBardrop (o : Op) (sc : Scope) (s : State) : Out :=
  .next (s.barrier o .drop sc true)

def execBarexp (o : Op) (sc : Scope) (s : State) : Out :=
  .next (s.barrier o (fun _ => .expect (s.uword o.b).toNat) sc false)

/-! ## Bank cycles (R114) -/

/-- Make the plane issue of a waiting split the current one. -/
def State.resumeIssue (s : State) (key slot : Nat) : State :=
  let sp := (s.group key).split slot
  let (plane, mask) := (sp.mid.getD default).todo.headD (0, sp.mask)
  { s with cur := { group := key, slot, plane, mask, paired := false, acked := false } }

/-- End an implicit wait of the current split. -/
def State.endWait (s : State) : State :=
  s.setMe (s.me.setSplit s.cur.slot (some { s.mySplit with wait := none }))

/-- End an implicit wait of the current split and with it its plane issue. -/
def State.completeWait (s : State) : State :=
  s.endWait.retire ((s.mySplit.wait.map (·.yield)).getD false) [] [] none

def codeBAROVER : Nat := 13

/-- Stable ascending order by partition: of one partition's updates the one issued first comes first (R107). -/
def insertByPart (e : BankEntry) : List BankEntry → List BankEntry
  | [] => [e]
  | x :: xs => if e.part ≤ x.part then e :: x :: xs else x :: insertByPart e xs

def byPart (es : List BankEntry) : List BankEntry := es.foldr insertByPart []

def BarUpdate.isDrop : BarUpdate → Bool
  | .drop _ => true
  | _ => false
def BarUpdate.isArrive : BarUpdate → Bool
  | .arrive _ => true
  | _ => false
def BarUpdate.initValue : BarUpdate → Option Nat
  | .init n => some n
  | _ => none
def BarUpdate.expects : BarUpdate → Nat
  | .expect n => n
  | _ => 0
def BarUpdate.credits : BarUpdate → Nat
  | .credit n => n
  | _ => 0
def BarUpdate.isCredit : BarUpdate → Bool
  | .credit _ => true
  | _ => false

/-- Drops and arrivals of a cycle; the entries that overrun come back. -/
def BarObj.arrivals (b : BarObj) : List BankEntry → BarObj × List BankEntry
  | [] => (b, [])
  | e :: es =>
    if e.up.isDrop then
      if b.expect < b.arrived + 1 then
        let (b, late) := b.arrivals es
        (b, e :: late)
      else { b with expect := b.expect - 1 }.arrivals es
    else if b.expect < b.arrived + 1 then
      let (b, late) := b.arrivals es
      (b, e :: late)
    else { b with arrived := b.arrived + 1 }.arrivals es

/-- One cycle's updates but for BARINIT: the object, whether a phase completed, the overruns. -/
def BarObj.cycle (b : BarObj) (es : List BankEntry) : BarObj × Bool × List BankEntry :=
  let xbytes := (b.xbytes + (es.map (·.up.expects)).foldl (· + ·) 0) % 2 ^ 32
  let lbytes := (b.lbytes + (es.map (·.up.credits)).foldl (· + ·) 0) % 2 ^ 32
  let b := { b with xbytes, lbytes }
  let order := byPart (es.filter (·.up.isDrop)) ++ byPart (es.filter (·.up.isArrive))
  let (b, late) := b.arrivals order
  let live := es.any fun e => e.up.initValue.isNone
  if live && b.arrived = b.expect && b.lbytes = b.xbytes then
    ({ b with phase := (b.phase + 1) % 2 ^ 32, arrived := 0, xbytes := 0, lbytes := 0 }, true, late)
  else (b, false, late)

/-- Latch the PHASE conditions on an object. -/
def State.testPhase (s : State) (bank addr phase : Nat) : State :=
  s.latchAll fun _ g c =>
    c.kind == .phase
    && (match s.barPlace g c.addr.toNat with
        | .ok l => barKey l == (bank, addr)
        | .error _ => false)
    && phaseReached (BitVec.ofNat 32 phase) c.value

/-- The first `n` queued updates of an object, and the rest of the queue. -/
def takeBank (bank addr : Nat) : Nat → List BankEntry → List BankEntry × List BankEntry
  | _, [] => ([], [])
  | 0, q => ([], q)
  | n + 1, e :: q =>
    if e.bank = bank ∧ e.addr = addr then
      let (xs, q) := takeBank bank addr n q
      (e :: xs, q)
    else
      let (xs, q) := takeBank bank addr (n + 1) q
      (xs, e :: q)

/-- An arrival or drop at an object of device memory at scope `.cl` or wider (R53, R120). -/
def BankEntry.joins (e : BankEntry) : Bool :=
  match e.up with
  | .arrive sc | .drop sc => e.bank == 0 && 3 ≤ scopeRank sc
  | _ => false

/-- A group's arrival or drop at such an object in a phase. -/
def Group.joinPhase (g : Group) (e : BankEntry) (phase : Nat) : Group :=
  if e.joins then { g with joined := (e.addr, phase) :: g.joined.filter fun j => j.1 != e.addr } else g

/-- A phase of scope `.cl` or wider has completed: the cores of the groups whose arrivals and drops it counted cross
a boundary (R120). Cores whose WAITs it satisfies cross theirs as they wake (R262). A group that has retired since is no
group of its core any more, and its core crosses none for it (DESIGN CHOICE, log entry 61). -/
def State.phaseBoundary (s : State) (addr phase : Nat) (es : List BankEntry) : State :=
  let earlier := s.groups.filterMap fun (key, g) =>
    if (g.map fun g => g.joined.contains (addr, phase)).getD false then some (coreOf key) else none
  (earlier ++ (es.filter BankEntry.joins).map fun e => coreOf e.group).eraseDups.foldl State.boundary s

/-- A bank cycle applies `count` of an object's queued updates as one (R114). -/
def State.bankCycle (s : State) (bank addr count : Nat) : State :=
  let (es, rest) := takeBank bank addr count s.bank
  if es.isEmpty then s
  else
    let l := barLoc bank addr
    let sent := es.filter fun e => !e.up.isCredit
    -- what the issuing cores hold of the object: their groups' stores come first, and no older copy stays (R104, R107)
    let s := sent.foldl (fun s e => s.evictBytes (coreOf e.group) l 16) s
    let before := BarObj.read (s.peeks l 16)
    let (b, done, late) := before.cycle es
    let s := ({ s with bank := rest }).pokes l b.bytes
    let s := s.testPhase bank addr b.phase
    let s := if done && bank = 0 then s.phaseBoundary addr before.phase (es.filter fun e => !late.contains e) else s
    let inits := byPart (es.filter fun e => e.up.initValue.isSome)
    let s := match inits.getLast? with
      | some e =>
        let n := e.up.initValue.getD 0
        (s.pokes l (BarObj.bytes { phase := 0, expect := n, arrived := 0, xbytes := 0, lbytes := 0 })).testPhase
          bank addr 0
      | none => s
    sent.foldl (fun s e =>
      let s := s.resumeIssue e.group e.slot
      if late.contains e then
        s.endWait.trap
          { code := codeBAROVER, mask := (s.mySplit.wait.map (·.lanes)).getD s.cur.mask, addr := e.va }
      else (s.setMe (s.me.joinPhase e before.phase)).completeWait) s

def execBarrierBankUpdate (bank addr count : Nat) (s : State) : Out := .next (s.bankCycle bank addr count)

/-! ## WAIT -/

/-- A handle is well formed (R266). -/
def State.handleOk (s : State) (g : Group) (h : Word) : Bool :=
  h.extractLsb' 4 4 == 0 && h.toNat / 256 != 0 && h.toNat % 16 < s.groupCount g

/-- One condition of a block, if its value checks pass (R259). -/
def State.condOf (s : State) (g : Group) (b : BitVec 128) : Option Cond :=
  let addr := b.extractLsb' 0 64
  let value := b.extractLsb' 64 32
  let kind := (b.extractLsb' 96 3).toNat
  let ne := b.getLsbD 99
  let sc := (b.extractLsb' 100 3).toNat
  let acq := b.getLsbD 103
  let c (k : CondKind) : Cond :=
    { kind := k, addr, value, ne, scope := Scope.ofCode (BitVec.ofNat 3 sc), acq, met := none,
      tested := s.tick }
  let plain := !ne && sc == 0 && !acq
  if b.extractLsb' 104 23 != 0 then none
  else
    match kind with
    | 1 => if plain then some (c .phase) else none
    | 2 =>
      if plain && value == 0 && addr.extractLsb' 32 32 == 0 && s.handleOk g (addr.setWidth 32) then
        some (c .handle) else none
    | 3 => if sc != 7 then some (c .monitor) else none
    | 4 => if plain && value == 0 then some (c .time) else none
    | _ => none

/-- A condition block of at most `n` tuples from S register `r` on (R259). -/
def State.condBlock (s : State) (g : Group) : Nat → Nat → Option (List Cond)
  | 0, _ => none
  | n + 1, r =>
    if 124 < r then none
    else
      let b := g.block r
      match s.condOf g b with
      | none => none
      | some c =>
        if b.getLsbD 127 then (s.condBlock g n (r + 4)).map (c :: ·) else some [c]

/-- The address checks of a condition (R259). -/
def State.condCheck (s : State) (g : Group) (c : Cond) : Chk :=
  let a := c.addr.toNat
  match c.kind with
  | .phase => match s.barPlace g a with | .ok l => .at l | .error e => .fault e
  | .monitor =>
    match aperture a with
    | .stack _ => .fault faultADDRESS
    | _ => s.check s.cur.group g 64 (.load false) a 4
  | _ => .skip

/-- Condition `i` of a WAIT as it stands at its issue (R260). A monitor reads its word at its point of coherence,
whatever its scope, so that a value that stands there is tested once and every later one as it is written (log entry 61);
a word outside the device is tested when its read is answered. -/
def State.condAtIssue (s : State) (key : Nat) (g : Group) (o : Origin) (i : Nat) (c : Cond) : State × Cond :=
  let hit (ok : Bool) : Cond := { c with tested := s.tick, met := if ok then some s.tick else none }
  match c.kind with
  | .phase =>
    match s.barPlace g c.addr.toNat with
    | .ok l => (s, hit (phaseReached (BitVec.ofNat 32 (leNat (s.peeks l 4))) c.value))
    | .error _ => (s, hit false)
  | .monitor =>
    match s.placeOf g c.addr.toNat 4 with
    | some l =>
      let (s, bs) := (s.countReq (dieOf key) l).readBytes .poc (coreOf key) l 4
      let word : Word := BitVec.ofNat 32 (leNat bs)
      (match l with
        | .ext k => ((s.ask k 4 (.monitor i word) [] false { o with va := c.addr.toNat }).1, hit false)
        | _ => (s, hit (c.wordOk word)))
    | none => (s, hit false)
  | _ => (s, hit (s.condNow s key g c))

/-- The conditions of a WAIT from number `i` on; `o` makes their requests. -/
def State.condsAtIssue (s : State) (key : Nat) (g : Group) (o : Origin) (i : Nat) : List Cond → State × List Cond
  | [] => (s, [])
  | c :: cs =>
    let (s, c) := if c.met.isSome then (s, c) else s.condAtIssue key g o i c
    let (s, cs) := s.condsAtIssue key g o (i + 1) cs
    (s, c :: cs)

/-- The S register an operand names. -/
def sIndex (x : Operand) : Nat := match x with | .s n => n.toNat | _ => 0

def execWait (o : Op) (all : Bool) (s : State) : Out :=
  let act := s.act o
  .next (
    if act = 0 then s.finish o
    else
      match s.condBlock s.me 4 (sIndex o.a) with
      | none => s.illegal
      | some cs =>
        match s.verdict (some act) (cs.map fun c => (0, c.addr.toNat, s.condCheck s.me c)) with
        | .trap t => s.trap t
        | .out pages => s.switchOut pages
        | .go _ =>
          let t := match o.b with | .none => 0 | b => (s.uword b).toNat
          let sp := s.mySplit
          let (s, conds) := s.condsAtIssue s.cur.group s.me (s.here act 0) 0 cs
          let w : Waiting :=
            { kind := .explicit o.d, conds, all, expiry := if t = 0 then none else some (s.tick + t),
              lanes := act, region := sp.region, offset := sp.offset, plane := s.cur.plane, yield := false }
          s.retire o.hints.y [] [] (some w))

/-- Conditions that count: met, and no later than the expiry tick (R261). -/
def Waiting.counts (w : Waiting) (c : Cond) : Bool :=
  match c.met, w.expiry with
  | some t, some e => t ≤ e
  | some _, none => true
  | none, _ => false

/-- The join is satisfied (R261). -/
def Waiting.joined (w : Waiting) : Bool := if w.all then w.conds.all w.counts else w.conds.any w.counts

/-- The core's L1 writes back and drops the bytes of a range that a group names. -/
def State.evictRange (s : State) (g : Group) (core a n : Nat) : State :=
  (List.range n).foldl (fun s i =>
    match s.placeOf g (a + i) 1 with
    | some l => s.evictByte core l
    | none => s) s

/-- Observing the completion of a batch is a boundary of the observer's core (R120, R129); of a batch of collectives
alone, one limited to the bytes they name (R131). -/
def State.observe (s : State) (key : Nat) (h : Word) : State :=
  let g := s.group key
  match (s.wgOf g.wg).collected.find? fun e => e.1 == h.toNat with
  | some e => e.2.foldl (fun s (a, n) => s.evictRange g (coreOf key) a n) s
  | none => s.boundary (coreOf key)

/-- What a met condition orders when its split wakes (R262). -/
def State.wakeOrder (s : State) (key : Nat) (c : Cond) : State :=
  let g := s.group key
  match c.kind with
  | .phase =>
    match s.barPlace g c.addr.toNat with
    | .ok l => if wideScope l.scope then s.boundary (coreOf key) else s
    | .error _ => s
  | .handle => s.observe key (c.addr.setWidth 32)
  | .monitor => if c.acq && wideScope c.scope then s.boundary (coreOf key) else s
  | .time => s

/-- A frozen partition wakes nothing (R409). -/
def State.frozen (s : State) (key : Nat) : Bool := (s.part (partOf key)).stopped.isSome

/-- Reads that monitors of a split have made outside the device answer no later WAIT of it. -/
def State.endMonitors (s : State) (key slot : Nat) : State :=
  let done (q : OutReq) : OutReq :=
    match q.kind with
    | .monitor .. => if q.origin.group = key ∧ q.origin.slot = slot then { q with kind := .read } else q
    | _ => q
  { s with port := { s.port with out := s.port.out.map done } }

/-- Wake a split from an explicit WAIT: predicate, orders, replay record (R261, R262, R421). -/
def State.wakeWait (s : State) (key slot : Nat) (d : Operand) (w : Waiting) (joined : Bool) : State :=
  let s := s.endMonitors key slot
  let bits := (List.range w.conds.length).foldl (fun n i =>
    if (w.conds[i]?.map w.counts).getD false then n + 2 ^ i else n) (if joined then 0 else 2 ^ 7)
  let s := s.logValue key 6 w.plane w.region w.offset w.lanes (leBytes 1 bits)
  let s := (w.conds.filter w.counts).foldl (fun s c => s.wakeOrder key c) s
  let g := s.group key
  let g := g.writes (destPreds d (lanesOf w.lanes) fun _ => joined)
  let g := g.setSplit slot (some { g.split slot with wait := none })
  s.setGroup key (
    match (g.split slot).mid with
    | some m =>
      if m.todo.isEmpty then g.leave slot m none (s.cluster (clusterOf key)).clock else g.settle 128
    | none => g.settle 128)

/-! ## Batches and handles (R264 to R269) -/

def codeBATCHLIMIT : Nat := 14

/-- The batches of a group. -/
def Workgroup.batchesOf (w : Workgroup) (grp : Nat) : List Batch :=
  (w.batches.filter fun e => e.1 == grp).map (·.2)

def Workgroup.openBatch (w : Workgroup) (grp : Nat) : Option Batch :=
  (w.batchesOf grp).find? fun b => !b.closed

/-- Change one batch. -/
def Workgroup.withBatch (w : Workgroup) (grp seq : Nat) (f : Batch → Batch) : Workgroup :=
  { w with batches := w.batches.map fun e => if e.1 = grp ∧ e.2.seq = seq then (e.1, f e.2) else e }

/-- The next sequence number (R265). -/
def nextSeq (n : Nat) : Nat := if n = 0xFF_FFFF then 1 else n + 1

def handleWord (seq grp : Nat) : Word := BitVec.ofNat 32 (seq * 256 + grp)

def execBatch (o : Op) (s : State) : Out :=
  let act := s.act o
  let g := s.me
  let w := s.wgOf g.wg
  let seq := g.nextSeq
  let h := handleWord seq g.index
  let n := sIndex o.d
  let advance (s : State) : State :=
    let w := s.wgOf g.wg
    let s := s.setWg g.wg { w with collected := w.collected.filter fun e => e.1 != h.toNat }
    s.setMe { (s.me.write (.s n h)) with nextSeq := nextSeq seq }
  .next (
    if act = 0 then s.finish o
    else
      match w.openBatch g.index with
      | none => (advance s).finish o
      | some _ =>
        if 16 ≤ ((w.batchesOf g.index).filter (·.closed)).length then
          s.trap { code := codeBATCHLIMIT, mask := act }
        else
          let s := advance (s.setWg g.wg (w.withBatch g.index seq fun b => { b with closed := true, fresh := true }))
          (s.setMe { s.me with tags := put none s.me.tags n (some h) }).finish o)

/-- A handle's batch is complete as the FCLK cycle began: one that a BATCH has closed in it was not yet issued (R266,
R268). -/
def State.handleWasDone (s : State) (g : Group) (h : Word) : Bool :=
  !(s.wgOf g.wg).batches.any fun e =>
    e.1 == h.toNat % 16 && e.2.seq == h.toNat / 256 && e.2.closed && !e.2.fresh

def execHtest (o : Op) (s : State) : Out :=
  let act := s.act o
  let h := s.uword o.a
  .next (
    if act = 0 then s.finish o
    else if !s.handleOk s.me h then s.illegal
    else
      let done := s.handleWasDone s.me h
      let s := s.logMe 5 act (leBytes 1 done.toNat)
      let s := if done then s.observe s.cur.group h else s
      (s.setMe (s.me.writes (destPreds o.d (lanesOf act) fun _ => done))).finish o)

/-- A unit of the device that acts for a context stores bytes at a place; outside the device that is a request (R127). -/
def State.unitPut (s : State) (ctx : Nat) (l : Loc) (bs : List Byte) : State :=
  s.putPlaces .command (s.unitOrigin ctx) (bs.zipIdx.map fun (b, i) => (l.plus i, b))

/-- Change ARRIVED of a collective object (R279). -/
def State.collAdjust (s : State) (ctx : Nat) (l : Loc) (f : Nat → Nat) : State :=
  s.unitPut ctx (l.plus 6) (leBytes 2 (f (leNat (s.peeks (l.plus 6) 2))))

/-- Stop an engine command: what it has not performed is never performed (R269, R270). -/
def State.dropCmd (s : State) (id : Nat) : State :=
  let c := s.cmd id
  let s := { s with cmds := put none s.cmds id none }
  s.setWg c.wg ((s.wgOf c.wg).withBatch c.group c.seq fun b => { b with done := b.done + 1 })

/-- A collective's record is kept while a member has arrived or an ended generation has arrivals to come. -/
def State.setColl (s : State) (obj : Nat) (k : Collective) : State :=
  { s with colls := put none s.colls obj (if k.members.isEmpty && k.late.isEmpty then none else some k) }

/-- Withdraw a collective's arrival at its object (R269). -/
def State.withdraw (s : State) (id : Nat) : State :=
  let mine (k : Collective) : Bool := k.members.any fun e => e.2 == id
  match s.colls.find? fun e => (e.2.map mine).getD false with
  | some (obj, some k) =>
    (s.collAdjust (s.cmd id).ctx (Loc.ofKey obj) (· - 1)).setColl obj { k with members := k.members.filter fun e => e.2 != id }
  | _ => s

/-- A command stands in a collective that has combined: it runs to its end (R269). -/
def State.combined (s : State) (id : Nat) : Bool :=
  s.colls.any fun e => (e.2.map fun k => k.await.isSome && k.members.any fun m => m.2 == id).getD false

/-- Commands of a batch. -/
def State.batchCmds (s : State) (wg grp seq : Nat) : List Nat :=
  s.cmds.filterMap fun e => match e.2 with
    | some c => if c.wg = wg ∧ c.group = grp ∧ c.seq = seq then some e.1 else none
    | none => none

/-- Requests that have been answered. -/
def State.answered (s : State) (tags : List Nat) : Bool := tags.all fun t => s.port.out.all fun q => q.tag != t

/-- Every command access of a closed batch is performed and acknowledged: the batch completes, tags that name it
clear (R129, R267), and a batch of collectives alone leaves the buffers they name (R131). -/
def State.completeBatch (s : State) (wg grp : Nat) (b : Batch) : State :=
  let w := s.wgOf wg
  let h := handleWord b.seq grp
  let clear (g : Group) : Group :=
    if g.wg = wg then { g with tags := g.tags.filter fun e => e.2 != some h } else g
  let s := s.setWg wg { w with
    batches := w.batches.filter fun e => !(e.1 = grp && e.2.seq = b.seq),
    collected := if b.whole then w.collected else (h.toNat, b.named) :: w.collected,
    saved := w.saved.map fun e => (e.1, e.2.map clear) }
  { s with groups := s.groups.map fun e => (e.1, e.2.map clear) }

/-- Key of a batch: workgroup, group index and sequence number in one number. -/
def batchKey (wg grp seq : Nat) : Nat := (wg * 16 + grp) * 2 ^ 24 + seq

/-- A batch completes between the FCLK cycles of its workgroup's cluster, so that an HTEST sees its handle as it stood
when the cycle began (R268); posted writes that it waits for get a zero-length read behind them (R126). -/
def execBatchComplete (batch : Nat) (s : State) : Out :=
  let seq := batch % 2 ^ 24
  let grp := batch / 2 ^ 24 % 16
  let wg := batch / 2 ^ 28
  let w := s.wgOf wg
  .next (
    match w.batches.find? fun e => e.1 == grp && e.2.seq == seq && e.2.closed && e.2.count == e.2.done with
    | none => s
    | some (_, b) =>
      if (s.cluster (w.core / 4)).cursor != 0 then s
      else if s.answered b.tags then s.completeBatch wg grp b
      else s.flushPosted false (s.coreOrigin w.core w.ctx (s.ctxOf w.ctx).gen))

end Sys2Proof.Machine
end

