-- ==== Sys2Proof/Machine/Engines.lean ====
section
/-! DEFINITION. Group 0xC: queues (R271 to R274, R132) and engine commands (R275 to R280, R128 to R131,
R270), with the steps of the engines that perform them. -/

namespace Sys2Proof.Machine

/-! ## Address checks of ranges (R270) -/

/-- The 4 KiB granules a range touches; an empty one touches none. -/
def granules (a n : Nat) : List Nat :=
  if n = 0 then []
  else (List.range ((a % 4096 + n + 4095) / 4096)).map fun i => a - a % 4096 + 4096 * i

/-- What is wrong with the global pages of a range: no leaf, or a page that the device does not own or
that withholds the access. Peer registers are judged by the engine (R270, R359). -/
def State.pagesFault (s : State) (ctx a n : Nat) (write : Bool) : Option Nat :=
  leastCode ((granules a n).filterMap fun p =>
    match s.mapping ctx p with
    | none => some faultADDRESS
    | some (_, m) =>
      if m.mkind = 3 then none
      else if !m.device || !m.perm.testBit (if write then 1 else 0) then some faultPERMISSION
      else none)

/-- The first of ADDRESS, ALIGN and PERMISSION for a range of an engine command. -/
def State.rangeFault (s : State) (g : Group) (a n align : Nat) (write : Bool) : Option Nat :=
  let odd := if a % align = 0 then none else some faultALIGN
  let place : Option Nat :=
    match aperture a with
    | .global a => if a + n ≤ 2 ^ 52 then s.pagesFault g.ctx a n write else some faultADDRESS
    | .scratch d off => if (s.areaLoc g.launch d off n).isSome then none else some faultADDRESS
    | .shared off => if (s.sharedLoc g.wg off n).isSome then none else some faultADDRESS
    | _ => some faultADDRESS
  leastCode (odd.toList ++ place.toList)

/-! ## Queues -/

/-- A control block as read (R271). -/
structure QueueBlock where
  ring : Nat
  head : Nat
  tail : Nat
  log2cap : Nat
  esize : Nat
  state : Nat
  spare : Nat
deriving DecidableEq, Repr

def QueueBlock.read (bs : List Byte) : QueueBlock :=
  { ring := field bs 0 8, head := field bs 8 4, tail := field bs 12 4, log2cap := field bs 16 2,
    esize := field bs 18 2, state := field bs 20 1, spare := field bs 21 3 }

def QueueBlock.used (q : QueueBlock) : Nat := (q.tail + 2 ^ 32 - q.head) % 2 ^ 32
def QueueBlock.cap (q : QueueBlock) : Nat := 2 ^ q.log2cap

def QueueBlock.malformed (q : QueueBlock) : Bool :=
  2 < q.state || q.spare != 0 || q.esize % 16 != 0 || q.esize < 16 || 256 < q.esize
  || q.log2cap < 1 || 16 < q.log2cap || q.ring % 16 != 0 || q.cap < q.used

/-- Status codes (R273). -/
def stOK : Nat := 0
def stFULL : Nat := 1
def stEMPTY : Nat := 2
def stBUSY : Nat := 3
def stCLOSED : Nat := 4
def stBAD : Nat := 5

/-- V registers an entry fills (R272). -/
def entryRegs (w esize : Nat) : Nat := (esize + 4 * w - 1) / (4 * w)

/-- The entry's registers lie within the declared count, V255 and S127 (R272). -/
def entryFits (g : Group) (x : Operand) (esize : Nat) : Bool :=
  match x with
  | .v n => n.toNat + entryRegs g.width esize ≤ min g.regs 256
  | .s n => n.toNat + esize / 4 ≤ 128
  | _ => false

/-- The entry bytes an ENQ reads; helper and absent lanes give 0 (R272). -/
def State.entryBytes (s : State) (x : Operand) (esize : Nat) : List Byte :=
  let g := s.me
  match x with
  | .v n =>
    ((List.range (entryRegs g.width esize)).flatMap fun r =>
      (List.range g.width).flatMap fun l =>
        leBytes 4 (if g.real.getLsbD l then (g.readV (n.toNat + r) l).toNat else 0)).take esize
  | .s n => (List.range (esize / 4)).flatMap fun r => leBytes 4 (g.readS (n.toNat + r)).toNat
  | _ => []

/-- The register writes of an entry a DEQ returns (R272). -/
def entryWrites (g : Group) (x : Operand) (act : LaneMask) (entry : List Byte) : List Write :=
  match x with
  | .v n =>
    (List.range (entryRegs g.width entry.length)).flatMap fun r =>
      (lanesOf act).map fun l =>
        .v (n.toNat + r) l (BitVec.ofNat 32 (field entry (4 * g.width * r + 4 * l) 4))
  | .s n => (List.range (entry.length / 4)).map fun r =>
      .s (n.toNat + r) (BitVec.ofNat 32 (field entry (4 * r) 4))
  | _ => []

/-- The address checks of a control block (R273). -/
def State.queueCheck (s : State) (g : Group) (a : Nat) : Chk :=
  match aperture a with
  | .global a =>
    match s.mapping g.ctx a with
    | none => .fault faultADDRESS
    | some (id, m) =>
      if a % 64 != 0 then .fault faultALIGN
      else if !m.device || m.mkind = 3 || !m.perm.testBit 0 || !m.perm.testBit 1 then
        .fault faultPERMISSION
      else if !m.resident then .missing id else .at (m.loc a)
  | _ => .fault faultADDRESS

/-- The place of a ring slot, where it may be used (R273). -/
def State.ringSlot (s : State) (g : Group) (q : QueueBlock) (i : Nat) (write : Bool) : Option Nat :=
  let a := q.ring + i % q.cap * q.esize
  let ok := (granules a q.esize).all fun p =>
    match s.mapping g.ctx p with
    | some (_, m) => m.resident && m.device && m.mkind != 3 && m.perm.testBit (if write then 1 else 0)
    | none => false
  if ok then some a else none

/-- The shape of ENQ and DEQ: check the block, pay, and send the operation to the block's port, its result to come
(R254, R273). An ENQ's entry is read now, as far as an entry can go. -/
def State.queueForm (s : State) (i : Instr) (o : Op) (deq : Bool) (cb x : Operand) : State :=
  let act := s.act o
  if s.realAct o = 0 then ((s.pay i).postNone o.hints o.d).finish o
  else
    let a := (s.dword cb 0).toNat
    let s := s.pay i
    match s.verdict (some act) [(0, a, s.queueCheck s.me a)] with
    | .trap t => s.trap t
    | .out pages => s.switchOut pages
    | .go _ =>
      let sp := s.mySplit
      let q : QueueOp :=
        { part := partOf s.cur.group, group := s.cur.group, id := s.me.nextResult, cb := a, deq, d := o.d, x,
          data := if deq then [] else s.entryBytes x 256, slot := s.cur.slot, lanes := act, region := sp.region,
          offset := sp.offset, plane := s.cur.plane, after := none }
      ((({ s with queueOps := s.queueOps ++ [q] }).post o.hints [] 0 [] true o.d)).finish o

def execEnq (o : Op) (s : State) : Out := .next (s.queueForm (.enq o) o false o.a o.b)

def execDeq (o : Op) (s : State) : Out := .next (s.queueForm (.deq o) o true o.b o.a)

/-! ## The control block's port (R273, R274) -/

/-- The status of an operation on a block whose registers fit or not and whose ring slot may be used or not (R273). -/
def QueueBlock.status (b : QueueBlock) (deq fits slot : Bool) : Nat :=
  if b.malformed || !fits then stBAD
  else if deq then
    (if b.used = 0 then (if b.state = 2 then stCLOSED else stEMPTY) else if slot then stOK else stBAD)
  else if b.state = 2 then stCLOSED
  else if b.state = 1 then stBUSY
  else if b.used = b.cap then stFULL
  else if slot then stOK else stBAD

/-- Write a context's memory at the points of coherence, past a core's L1. -/
def State.pocPut (s : State) (ctx core a : Nat) (bs : List Byte) : State :=
  let s := (s.pocRead ctx core a bs.length).1
  (s.ctxPlaces ctx a bs).foldl (fun s p => s.poke p.1 p.2) s

/-- Places of a context's range. -/
def State.rangePlaces (s : State) (ctx a n : Nat) : List Loc := (s.ctxPlaces ctx a (List.replicate n 0)).map (·.1)

/-- The maker of a queue operation's requests. -/
def State.queueOrigin (s : State) (q : QueueOp) : Origin :=
  s.originOf q.group q.slot q.plane q.region q.offset q.lanes q.cb

/-- The result of a queue operation has come: its writes, the requests they wait for, and its replay record (R175, R421). -/
def State.queueAnswer (s : State) (q : QueueOp) (ws : List Write) (tags : List Nat) (payload : List Byte) : State :=
  let record : Pending := { kind := 2, mask := q.lanes, parts := [(tags.head?, payload)] }
  let s := if tags.isEmpty then s.logValue q.group 2 q.plane q.region q.offset q.lanes payload else s
  let g := s.group q.group
  let fill (r : Result) : Result :=
    if r.id = q.id then
      { r with writes := ws, held := false, await := tags, log := if tags.isEmpty then none else some record }
    else r
  s.setGroup q.group { g with inflight := g.inflight.map fill }

/-- The part of a queue operation that leaves the device: a request for each run, all lost or none. -/
def State.queueAsk (s : State) (o : Origin) (regs : List Write) (lost : Bool) (ls : List Loc) : State × List Nat :=
  (outRuns ls).foldl (fun (s, ts) (k, n) =>
    let (s, t) := s.ask k n .queue regs lost o
    (s, ts ++ [t])) (s, [])

/-- Serve a queue operation at its block's port: one indivisible read and write of the block and the entry (R132, R273).
An ENQ that is to succeed is a release at the queue's scope first, and is served again where that waits (R126). -/
def State.serveQueue (s : State) (q : QueueOp) : State :=
  let g := s.group q.group
  let core := coreOf q.group
  let o := s.queueOrigin q
  let rest := s.queueOps.filter fun e => !(e.group == q.group && e.id == q.id)
  let (s, bs) := s.pocRead g.ctx core q.cb 64
  let b := QueueBlock.read bs
  let slot := s.ringSlot g b (if q.deq then b.head else b.tail) (!q.deq)
  let st := b.status q.deq (entryFits g q.x b.esize) slot.isSome
  let ok := st == stOK
  let place := s.placeOf g q.cb 64
  let scope := (place.map Loc.scope).getD .dev
  let release := ok && !q.deq && q.after.isNone
  let s := if release then s.releaseBy o scope else s
  let tags := if release && scope == .sys then s.acksFor q.group else []
  if !tags.isEmpty then
    { s with queueOps := s.queueOps.map fun e =>
        if e.group = q.group ∧ e.id = q.id then { e with after := some tags } else e }
  else
    let at' := slot.getD 0
    let die := dieOf q.group
    let s := { s with queueOps := rest }
    let s := match place with | some l => s.countReq die l | none => s
    let s := if ok then (match s.placeOf g at' 1 with | some l => s.countReq die l | none => s) else s
    let (s, entry) := if ok && q.deq then s.pocRead g.ctx core at' b.esize else (s, [])
    let ls := (if ok then s.rangePlaces g.ctx at' b.esize else []) ++ s.rangePlaces g.ctx q.cb 64
    let lost := ls.any Loc.outside && !Config.reached s.free
    let ws := destWrites q.d (lanesOf q.lanes) (fun _ => BitVec.ofNat 32 st) ++ entryWrites g q.x q.lanes entry
    let (s, asked) := s.queueAsk o ws lost ls
    let s :=
      if !ok || lost then s
      else if q.deq then s.pocPut g.ctx core (q.cb + 8) (leBytes 4 ((b.head + 1) % 2 ^ 32))
      else (s.pocPut g.ctx core at' (q.data.take b.esize)).pocPut g.ctx core (q.cb + 12)
        (leBytes 4 ((b.tail + 1) % 2 ^ 32))
    let s := s.queueAnswer q ws asked (leBytes 4 st ++ entry)
    if ok && q.deq && wideScope scope then s.boundary core else s

/-- Ascending by partition, in the order of arrival within one (R274). -/
def insertQueue (q : QueueOp) : List QueueOp → List QueueOp
  | [] => [q]
  | x :: xs => if q.part ≤ x.part then q :: x :: xs else x :: insertQueue q xs

/-- The operations of a cluster that its cycle's end serves: those whose release waits for nothing any more. -/
def State.queuesDue (s : State) (cl : Nat) : List QueueOp :=
  (s.queueOps.filter fun q => clusterOf q.group == cl
    && (match q.after with | some ts => s.answered ts | none => true)).foldr insertQueue []

/-- At the end of an FCLK cycle the operations that arrived in it are served, one at a time, after what the Blocker
wrote in it (R274); each is tested by the monitors (R260). An operation of a group that is gone is dropped. -/
def State.serveQueues (s : State) (cl : Nat) : State :=
  let s := { s with queueOps := s.queueOps.filter fun q => (look none s.groups q.group).isSome }
  (s.queuesDue cl).foldl (fun s q => s.testWaits (s.serveQueue q)) s

/-! ## Joining a batch (R264) -/

/-- Commands of the group's open batch. -/
def State.openCount (s : State) : Nat :=
  (((s.wgOf s.me.wg).openBatch s.me.index).map (·.count)).getD 0

/-- Add a command to the group's open batch, opening one where none is. -/
def State.enlist (s : State) (kind : CmdKind) (bar : Option (Nat × Nat)) (reqs : List Nat) : State :=
  let g := s.me
  let w := s.wgOf g.wg
  let sp := s.mySplit
  let c : Cmd :=
    { kind, key := s.cur.group, wg := g.wg, group := g.index, seq := g.nextSeq, index := s.openCount,
      ctx := g.ctx, launch := g.launch, slot := s.cur.slot, plane := s.cur.plane,
      region := sp.region, offset := sp.offset, bar, reqs, waiting := none, here := false, fetch := [],
      arrived := false }
  let w :=
    if (w.openBatch g.index).isSome then
      w.withBatch g.index g.nextSeq fun b => { b with count := b.count + 1 }
    else
      let b : Batch :=
        { seq := g.nextSeq, closed := false, fresh := false, count := 1, done := 0, tags := [], whole := false, named := [] }
      { w with batches := w.batches ++ [(g.index, b)] }
  let w := w.withBatch g.index g.nextSeq fun b =>
    match kind with
    | .coll _ t d a blk =>
      let n := (blk.extractLsb' 64 32).toNat * collSize t
      { b with named := b.named ++ [(d, n), (a, n)] }
    | _ => { b with whole := true }
  let blocks := match kind with | .coll .. | .msta .. => false | _ => true
  if reqs.isEmpty && blocks then
    -- a command without a byte is performed at once
    s.setWg g.wg (w.withBatch g.index g.nextSeq fun b => { b with done := b.done + 1 })
  else
    let s := s.setWg g.wg w
    { s with cmds := set s.cmds s.nextCmd c, nextCmd := s.nextCmd + 1 }

/-- The command joins the batch; the 257th traps BATCH_LIMIT. -/
def State.join (s : State) (o : Op) (act : LaneMask) (kind : CmdKind) (bar : Option (Nat × Nat))
    (reqs : List Nat) : State :=
  if 256 ≤ s.openCount then s.trap { code := codeBATCHLIMIT, mask := act }
  else (s.enlist kind bar reqs).finish o

/-- The address checks of the barrier operand of a copy form (R113, R275). -/
def State.barOperand (s : State) (bar : Option (BitVec 7)) : Option (Except Nat Loc × Nat) :=
  bar.map fun n =>
    let a := (s.me.readS64 n.toNat).toNat
    (s.barPlace s.me a, a)

/-- Faults of the parts of a command, each with its lane: code, lane, address. -/
abbrev Faults := List (Nat × Option Nat × Nat)

/-- After the charge: the least fault, else the batch. -/
def State.launchCmd (s : State) (i : Instr) (o : Op) (bar : Option (BitVec 7)) (faults : Faults)
    (kind : CmdKind) (blocks : List Nat) : State :=
  let act := s.act o
  let s := s.pay i
  let b := s.barOperand bar
  let faults := faults ++ (match b with | some (.error c, a) => [(c, none, a)] | _ => [])
  match leastCode (faults.map (·.1)) with
  | some c =>
    let hit := faults.filter fun f => f.1 == c
    let lanes := hit.filterMap (·.2.1)
    let whole := lanes.isEmpty || lanes.length != hit.length
    s.trap { code := c, mask := if whole then act else maskOf lanes, addr := (hit.headD (0, none, 0)).2.2 }
  | none =>
    let bar := match b with | some (.ok l, _) => some (barKey l) | _ => none
    s.join o act kind bar blocks

/-- The destination blocks a list of moves of z bytes writes (R275). -/
def blocksOf (moves : List (Nat × Nat)) : List Nat := (moves.map fun m => m.1 / 256).eraseDups

/-- The 256-byte blocks of a range. -/
def blocksIn (a n : Nat) : List Nat :=
  if n = 0 then [] else (List.range ((a + n - 1) / 256 - a / 256 + 1)).map fun i => a / 256 + i

/-! ## COPY (R276) -/

def execCopy (o : Op) (bar : Option (BitVec 7)) (s : State) : Out :=
  let n := (s.uword o.b).toNat
  let d := (s.dword o.d 0).toNat
  let a := (s.dword o.a 0).toNat
  let g := s.me
  .next (
    if s.act o = 0 then (s.pay (.copy o bar)).finish o
    else if 262144 < n then s.illegal
    else
      let faults : Faults :=
        ((s.rangeFault g d n 16 true).toList.map fun c => (c, none, d))
        ++ ((s.rangeFault g a n 16 false).toList.map fun c => (c, none, a))
        ++ (if n % 16 = 0 then [] else [(faultALIGN, none, d)])
      s.launchCmd (.copy o bar) o bar faults (.copy d a n) (blocksIn d n))

/-! ## COPYT (R277) -/

/-- The elements a COPYT moves: destination and source addresses. -/
def windowMoves (z : Nat) (dst src : Window) : List (Nat × Nat) :=
  (List.range (min src.rows dst.rows)).flatMap fun y =>
    (List.range (min src.cols dst.cols)).map fun x =>
      ((dst.base + y * dst.pitch + x * z) % 2 ^ 64, (src.base + y * src.pitch + x * z) % 2 ^ 64)

def sizeOk (z : Nat) : Bool := z == 1 || z == 2 || z == 4 || z == 8 || z == 16

def execCopyt (o : Op) (bar : Option (BitVec 7)) (s : State) : Out :=
  let z := (s.uword o.b).toNat
  let dst := windowOf (s.blockOf o.d)
  let src := windowOf (s.blockOf o.a)
  let g := s.me
  .next (
    if s.act o = 0 then (s.pay (.copyt o bar)).finish o
    else if !sizeOk z || 262144 < copytBytes z dst src then s.illegal
    else
      let moves := windowMoves z dst src
      let odd (w : Window) : Faults :=
        if w.base % z = 0 && w.pitch % z = 0 then [] else [(faultALIGN, none, w.base)]
      let faults : Faults :=
        moves.flatMap (fun m =>
          ((s.rangeFault g m.1 z 1 true).toList.map fun c => (c, none, m.1))
          ++ ((s.rangeFault g m.2 z 1 false).toList.map fun c => (c, none, m.2)))
        ++ odd dst ++ odd src
      s.launchCmd (.copyt o bar) o bar faults (.copyt (s.blockOf o.d) (s.blockOf o.a) z) (blocksOf moves))

/-! ## GATHER and SCATTER (R278) -/

/-- The shape of GATHER and SCATTER: one move per real lane. -/
def State.lanesCmd (s : State) (i : Instr) (o : Op) (bar : Option (BitVec 7)) (z : Nat)
    (move : Nat → Nat × Nat) : State :=
  let lanes := lanesOf (s.realAct o)
  let g := s.me
  if lanes.isEmpty then (s.pay i).finish o
  else if !sizeOk z || 262144 < z * lanes.length then s.illegal
  else
    let faults : Faults := lanes.flatMap fun l =>
      ((s.rangeFault g (move l).1 z z true).toList.map fun c => (c, some l, (move l).1))
      ++ ((s.rangeFault g (move l).2 z z false).toList.map fun c => (c, some l, (move l).2))
    let moves := lanes.map move
    s.launchCmd i o bar faults (.moves moves z) (blocksOf moves)

def execGather (o : Op) (bar : Option (BitVec 7)) (s : State) : Out :=
  let z := (s.uword o.b).toNat
  let d := (s.dword o.d 0).toNat
  .next (s.lanesCmd (.gather o bar) o bar z fun l => ((d + l * z) % 2 ^ 64, (s.dword o.a l).toNat))

def execScatter (o : Op) (bar : Option (BitVec 7)) (s : State) : Out :=
  let z := (s.uword o.b).toNat
  let a := (s.dword o.a 0).toNat
  .next (s.lanesCmd (.scatter o bar) o bar z fun l => ((s.dword o.d l).toNat, (a + l * z) % 2 ^ 64))

/-! ## COLL (R279, R131) -/

/-- Fields of a collective block. -/
def collObj (b : BitVec 128) : Nat := (b.extractLsb' 0 64).toNat
def collCount (b : BitVec 128) : Nat := (b.extractLsb' 64 32).toNat
def collRank (b : BitVec 128) : Nat := (b.extractLsb' 96 16).toNat
def collParts (b : BitVec 128) : Nat := (b.extractLsb' 112 16).toNat

/-- The checks of a collective object: device memory or a die scratchpad, aligned to 16. -/
def State.collFault (s : State) (g : Group) (a : Nat) : Option Nat :=
  let here : Option Nat :=
    match aperture a with
    | .global p =>
      match s.mapping g.ctx p with
      | some (_, m) =>
        if m.mkind = 1 || m.mkind = 3 then some faultADDRESS
        else if !m.device || !m.perm.testBit 0 || !m.perm.testBit 1 then some faultPERMISSION else none
      | none => some faultADDRESS
    | .scratch d off => if (s.areaLoc g.launch d off 16).isSome then none else some faultADDRESS
    | _ => some faultADDRESS
  leastCode (here.toList ++ (if a % 16 = 0 then [] else [faultALIGN]))

def execColl (o : Op) (op : AddMinMax) (t : Ty) (s : State) : Out :=
  let b := s.blockOf o.b
  let n := collCount b * collSize t
  let d := (s.dword o.d 0).toNat
  let a := (s.dword o.a 0).toNat
  let g := s.me
  .next (
    if s.act o = 0 then (s.pay (.coll o op t)).finish o
    else if collParts b = 0 || collParts b ≤ collRank b || collCount b = 0 || 262144 < n then s.illegal
    else
      let faults : Faults :=
        ((s.rangeFault g d n 16 true).toList.map fun c => (c, none, d))
        ++ ((s.rangeFault g a n 16 false).toList.map fun c => (c, none, a))
        ++ ((s.collFault g (collObj b)).toList.map fun c => (c, none, collObj b))
      let core := coreOf s.cur.group
      let s := if faults.isEmpty then (s.evictRange g core d n).evictRange g core a n else s
      s.launchCmd (.coll o op t) o none faults (.coll op t d a b) [])

/-! ## The engines' steps -/

/-- Record ENGINE of a command, counted in its context's entry (R270, R425). -/
def State.engineRecord (s : State) (c : Cmd) (detail addr : Nat) : State :=
  let bytes := s.faultBytes c.key c.slot c.plane c.region c.offset
    { code := 32, detail, mask := 0, addr, index := c.index } false
  ((s.writeFault c.ctx bytes).1).bumpAst c.ctx 3 1

/-- An engine error: the command stops, its batch goes on (R270). -/
def State.engineError (s : State) (id addr : Nat) : State :=
  let c := s.cmd id
  (s.engineRecord c (handleWord c.seq c.group).toNat addr).dropCmd id

/-- What an engine finds at an address as it performs a request (R270). -/
inductive EngAt where
  | at (l : Loc)
  | missing (id : Nat)
  | error
deriving DecidableEq, Repr

def State.engAt (s : State) (c : Cmd) (a n : Nat) (write : Bool) : EngAt :=
  match aperture a with
  | .global p =>
    match s.mapping c.ctx p with
    | none => .error
    | some (id, m) =>
      if m.mkind = 3 || !m.device || !m.perm.testBit (if write then 1 else 0) then .error
      else if !m.resident then .missing id else .at (m.loc p)
  | .stack _ | .bad => .error
  | _ => match s.place c.ctx c.launch c.wg a n with | some l => .at l | none => .error

/-- The moves of a command: destination, source, bytes. -/
def Cmd.moves (c : Cmd) : List (Nat × Nat × Nat) :=
  match c.kind with
  | .copy d a n => (List.range (n / 16)).map fun i => (d + 16 * i, a + 16 * i, 16)
  | .copyt d a z => (windowMoves z (windowOf d) (windowOf a)).map fun m => (m.1, m.2, z)
  | .moves ms z => ms.map fun m => (m.1, m.2, z)
  | _ => []

/-- The first page of a list of accesses that is missing or in error. -/
def State.engFind (s : State) (c : Cmd) : List (Nat × Nat × Bool) → Option (EngAt × Nat)
  | [] => none
  | (a, n, w) :: rest =>
    match s.engAt c a n w with
    | .at _ => s.engFind c rest
    | e => some (e, a)

/-- Put a command to wait for a page, and ask for it (R270, R372). -/
def State.engWait (s : State) (id page addr : Nat) : State :=
  let c := s.cmd id
  let s := { s with cmds := set s.cmds id { c with waiting := some page, here := false } }
  s.pageRequest 1 page addr c.wg c.launch 0 (dieOf c.key)

/-- Sectors of a move's destination that are wholly covered by it are cleared of poison; one that
receives poisoned bytes is poisoned (R424). -/
def State.movePoison (s : State) (dst : Loc) (covered : Bool) (bad : Bool) : State :=
  if bad then s.setPoison dst true else if covered then s.setPoison dst false else s

/-- Perform the moves of one request; what Hevis Link carries may be lost on its way. -/
def State.performMoves (s : State) (c : Cmd) (lost : Bool) (ms : List (Nat × Nat × Nat)) : State :=
  let bytesIn (sector : Nat) : List Nat :=
    (ms.flatMap fun m => (List.range m.2.2).map fun i => m.1 + i).filter fun a => a / 32 == sector
  ms.foldl (fun s (d, a, n) =>
    match s.engAt c d n true, s.engAt c a n false with
    | .at dl, .at al =>
      let bad := (List.range n).any fun i => s.poisoned (al.plus i)
      let covered := (bytesIn (d / 32)).eraseDups.length = 32
      let first := (ms.find? fun m => m.1 / 32 == d / 32).map (·.1) == some d
      let s' := if lost && dl.outside then s else s.pokes dl (s.peeks al n)
      if bad then s'.movePoison dl false true
      else if first then s'.movePoison dl covered false else s'
    | _, _ => s) s

/-- An engine command as the maker of a request. -/
def State.cmdOrigin (s : State) (c : Cmd) : Origin :=
  { group := c.key, slot := c.slot, plane := c.plane, region := c.region, offset := c.offset, mask := 0, va := 0,
    ctx := c.ctx, launch := c.launch, wgIndex := (s.wgOf c.wg).index, index := c.group,
    gen := (s.ctxOf c.ctx).gen }

/-- A command has written places outside the device: each run is a request, and its batch waits for the acknowledgement
(R127, R129); `bad` are the places that received poisoned bytes (R424). -/
def State.commandSent (s : State) (c : Cmd) (lost : Bool) (bad ls : List Loc) : State :=
  (outRuns ls).foldl (fun s (k, n) =>
    let poisoned := (List.range n).any fun i => bad.contains (.ext (k + i))
    let (s, t) := s.ask k n (if viaHevis k then .command else .posted) [] lost (s.cmdOrigin c) poisoned
    s.setWg c.wg ((s.wgOf c.wg).withBatch c.group c.seq fun b => { b with tags := b.tags ++ [t] })) s

/-- Count an engine's requests of up to 256 bytes to device global memory: one for each block its places lie in
(R311, R367). -/
def State.countBlocks (s : State) (die : Nat) (ls : List Loc) : State :=
  ((ls.filterMap fun l => match l with | .dev k => some (k / 256) | _ => none).eraseDups).foldl
    (fun s b => s.countReq die (.dev (256 * b))) s

/-- The places of some moves' source or destination bytes, as the engine finds them. -/
def State.movePlaces (s : State) (c : Cmd) (write : Bool) (ms : List (Nat × Nat × Nat)) : List Loc :=
  ms.flatMap fun m =>
    match s.engAt c (if write then m.1 else m.2.1) m.2.2 write with
    | .at l => (List.range m.2.2).map l.plus
    | _ => []

/-- Destination places that receive bytes of a poisoned sector (R424). -/
def State.badPlaces (s : State) (c : Cmd) (ms : List (Nat × Nat × Nat)) : List Loc :=
  s.movePlaces c true (ms.filter fun m => (s.movePlaces c false [m]).any s.poisoned)

/-- A command asks for the sources of a block that lie outside the device, one request for each run; their replies come
before the block is performed, and one that does not come ends the command (R270, R356, R358). -/
def State.fetchSources (s : State) (id block va : Nat) (runs : List (Nat × Nat)) : State :=
  let c := s.cmd id
  let (s, tags) := s.askRuns (.fetch id) { s.cmdOrigin c with va } runs
  { s with cmds := set s.cmds id { c with fetch := c.fetch ++ [(block, tags)] } }

/-- Perform a request of a command whose sources have been read: moves, credit and acknowledgements (R128 to R130). What
never reaches its destination is credited to nobody. -/
def State.performRequest (s : State) (id req : Nat) (ms : List (Nat × Nat × Nat)) : State :=
  let c := s.cmd id
  let die := dieOf c.key
  let sources := s.movePlaces c false (match c.kind with | .copy .. => ms.take 1 | _ => ms)
  let dests := s.movePlaces c true ms
  let s := (s.countBlocks die sources).countBlocks die dests
  let lost := match dests.find? Loc.outside with | some (.ext k) => s.lostNow k | _ => false
  let bad := s.badPlaces c ms
  let s := s.performMoves c lost ms
  let n := (ms.map (·.2.2)).foldl (· + ·) 0
  let s := match c.bar with
    | some (bank, addr) =>
      if lost then s
      else
        let e : BankEntry :=
          { bank, addr, va := 0, part := partOf c.key, group := c.key, slot := c.slot, up := .credit n }
        { s with bank := s.bank ++ [e] }
    | none => s
  let s := s.commandSent c lost bad dests
  let rest := c.reqs.eraseIdx req
  if rest.isEmpty then s.dropCmd id else { s with cmds := set s.cmds id { c with reqs := rest } }

/-- The engine performs one 256-byte request of a command (R275), once what it reads outside the device has come. -/
def State.engineRequest (s : State) (id req : Nat) : State :=
  match look none s.cmds id with
  | none => s
  | some c =>
    match c.reqs[req]? with
    | none => s
    | some block =>
      if c.waiting.isSome then s
      else
        let ms := c.moves.filter fun m => m.1 / 256 == block
        let accs := ms.flatMap fun m => [(m.2.1, m.2.2, false), (m.1, m.2.2, true)]
        match s.engFind c accs with
        | some (.missing page, a) => s.engWait id page a
        | some (_, a) => s.engineError id a
        | none =>
          let runs := outRuns (s.movePlaces c false ms)
          match c.fetch.find? fun e => e.1 == block with
          | none =>
            if runs.isEmpty then s.performRequest id req ms
            else s.fetchSources id block (ms.headD (0, 0, 0)).2.1 runs
          | some e => if s.answered e.2 then s.performRequest id req ms else s

def execEngineRequest (cmd req : Nat) (s : State) : Out := .next (s.engineRequest cmd req)

/-- A MAP record of a context has converged resident, or is absent (R382). -/
def State.pageIsHere (s : State) (ctx id : Nat) : Bool :=
  let phase := (s.astOf id).phase
  match look none s.maps id with
  | some m => m.ctx != ctx || (m.resident && phase == .live)
  | none => phase == .absent || phase == .retired

/-- The mark of a MAP record is written with its page resident, or absent: the commands that wait at such a page may
resume and a PAGEIN waits for it no more, whatever the record does next (R270, R373, R382). -/
def State.pageMarked (s : State) (id : Nat) : State :=
  let mark (c : Cmd) : Cmd := if c.waiting = some id then { c with here := true } else c
  let paging (c : Context) : Context :=
    { c with paging := c.paging.map fun (slot, ids) => (slot, ids.filter (· != id)) }
  { s with
    cmds := s.cmds.map fun (e : Nat × Option Cmd) => (e.1, e.2.map mark)
    ctxs := s.ctxs.map fun (e : Nat × Option Context) => (e.1, e.2.map paging) }

/-- The mark that ends a command's wait for a page has been written (R270, R373). -/
def execEnginePageResume (cmd : Nat) (s : State) : Out :=
  let c := s.cmd cmd
  .next (
    match look none s.cmds cmd, c.waiting with
    | some _, some page =>
      if c.here || s.pageIsHere c.ctx page then
        { s with cmds := set s.cmds cmd { c with waiting := none, here := false } } else s
    | _, _ => s)

/-! ## Collectives (R280) -/

def Cmd.collArgs (c : Cmd) : AddMinMax × Ty × Nat × Nat × BitVec 128 :=
  match c.kind with
  | .coll op t d a b => (op, t, d, a, b)
  | _ => (.add, .i32, 0, 0, 0)

/-- End the generation of a collective object: GEN + 1, ARRIVED 0. -/
def State.endGeneration (s : State) (ctx : Nat) (l : Loc) : State :=
  let gen := leNat (s.peeks l 4)
  (s.unitPut ctx l (leBytes 4 ((gen + 1) % 2 ^ 32))).collAdjust ctx l fun _ => 0

/-- A COLL arrives at the engine of its object's home. -/
def State.collArrival (s : State) (id : Nat) : State :=
  let c := s.cmd id
  let (op, t, _, _, b) := c.collArgs
  match look none s.cmds id, c.kind, c.arrived, c.waiting with
  | some _, .coll .., false, none =>
    match s.engAt c (collObj b) 16 true with
    | .missing page => s.engWait id page (collObj b)
    | .error => s.engineError id (collObj b)
    | .at l =>
      match l.key with
      | none => s.engineError id (collObj b)
      | some obj =>
        let fresh : Collective :=
          { members := [], parts := collParts b, count := collCount b, op, t, late := [], fetch := none, await := none }
        let k := (look none s.colls obj).getD fresh
        let k := if k.members.isEmpty then { fresh with late := k.late } else k
        let same := k.parts = collParts b && k.count = collCount b && k.op = op && k.t = t
        let unique := !k.members.any fun e => e.1 == collRank b
        if k.await.isSome || k.fetch.isSome then s
        else if k.late.contains (collRank b) then
          -- the arrival belongs to the generation that a mismatch ended
          (s.engineError id (collObj b)).setColl obj { k with late := k.late.erase (collRank b) }
        else if same && unique then
          let s := s.collAdjust c.ctx l (· + 1)
          let k := { k with members := k.members ++ [(collRank b, id)] }
          let s := { s with cmds := set s.cmds id { c with arrived := true } }
          { s with colls := put none s.colls obj (some k) }
        else
          let s := (k.members.map (·.2) ++ [id]).foldl (fun s m => s.engineError m (collObj b)) s
          let here := collRank b :: k.members.map (·.1)
          (s.endGeneration c.ctx l).setColl obj { k with
            members := [], late := k.late ++ (List.range k.parts).filter fun r => !here.contains r }
  | _, _, _, _ => s

def execCollArrival (cmd : Nat) (s : State) : Out := .next (s.collArrival cmd)

/-- Combining two elements (R280). -/
def collComb (op : AddMinMax) (t : Ty) (x y : Word) : Word :=
  let f := fmtOf t
  match op, t with
  | .add, .i32 => x + y
  | .min, .i32 => if x.toInt ≤ y.toInt then x else y
  | .max, .i32 => if y.toInt ≤ x.toInt then x else y
  | .add, _ => (fpAdd f .rn false false false x y).1
  | .min, _ => (fpMinMax f false false x y).1
  | .max, _ => (fpMinMax f false true x y).1

/-- Elements in ascending rank order. -/
def collFold (op : AddMinMax) (t : Ty) : List Word → Word
  | [] => 0
  | x :: xs =>
    let r := xs.foldl (collComb op t) x
    -- a NaN that no combination made canonical
    match t with
    | .i32 => r
    | _ => if ((fmtOf t).val r).isNan then (fmtOf t).nan else r

/-- Members by rank. -/
def byRank (k : Collective) : List Nat :=
  (List.range k.parts).filterMap fun r => (k.members.find? fun e => e.1 == r).map (·.2)

/-- Element `i` over the ranks, with whether any source sector of it is poisoned. -/
def State.collElement (s : State) (cs : List Cmd) (op : AddMinMax) (t : Ty) (i : Nat) : Word × Bool :=
  let e := collSize t
  let read (c : Cmd) : Word × Bool :=
    let (_, _, _, a, _) := c.collArgs
    match s.engAt c (a + i * e) e false with
    | .at l => (BitVec.ofNat 32 (leNat (s.peeks l e)), s.poisoned l)
    | _ => (0, false)
  let xs := cs.map read
  (collFold op t (xs.map (·.1)), xs.any (·.2))

/-- The participants' requests, which the engine's die sends (R367). -/
def State.collRequests (s : State) (die n : Nat) (cs : List Cmd) : State :=
  cs.foldl (fun s c =>
    let (_, _, d, a, _) := c.collArgs
    let places (b : Nat) (w : Bool) : List Loc := (List.range n).filterMap fun i =>
      match s.engAt c (b + i) 1 w with | .at l => some l | _ => none
    (s.countBlocks die (places a false)).countBlocks die (places d true)) s

/-- Write one participant's destination; the parts of it outside the device are requests, lost together if any is. -/
def State.collWrite (s : State) (c : Cmd) (e : Nat) (xs : List (Word × Bool)) : State :=
  let (_, _, d, _, _) := c.collArgs
  let at' (i : Nat) : Option Loc := match s.engAt c (d + i * e) e true with | .at l => some l | _ => none
  let places (f : Bool → Bool) : List Loc := xs.zipIdx.flatMap fun ((_, bad), i) =>
    match at' i with | some l => if f bad then (List.range e).map l.plus else [] | none => []
  let all := places fun _ => true
  let lost := match all.find? Loc.outside with | some (.ext k) => s.lostNow k | _ => false
  let s := xs.zipIdx.foldl (fun s ((x, bad), i) =>
    match at' i with
    | some l =>
      let s := if lost && l.outside then s else s.pokes l (leBytes e x.toNat)
      if bad then s.setPoison l true else s
    | none => s) s
  s.commandSent c lost (places id) all

/-- The generation ends and every participant's command completes (R131, R280). -/
def State.collEnd (s : State) (obj : Nat) (k : Collective) (ids : List Nat) : State :=
  let ctx := (s.cmd (ids.headD 0)).ctx
  let s := ids.foldl (fun s id => s.dropCmd id) s
  (s.endGeneration ctx (Loc.ofKey obj)).setColl obj { k with members := [], fetch := none, await := none }

/-- An engine error of every participant ends the generation (R270, R280). -/
def State.collFailed (s : State) (obj : Nat) (k : Collective) (a : Nat) : State :=
  let ids := byRank k
  let ctx := (s.cmd (ids.headD 0)).ctx
  let s := ids.foldl (fun s id => s.engineError id a) s
  (s.endGeneration ctx (Loc.ofKey obj)).setColl obj { k with members := [], fetch := none, await := none }

/-- A read that an engine made outside the device got no good answer: its command, or its collective, ends with an engine
error (R270, R358). -/
def State.fetchFailed (s : State) (id a : Nat) : State :=
  let mine (e : Nat × Option Collective) : Bool :=
    (e.2.map fun k => k.fetch.isSome && k.await.isNone && k.members.any fun m => m.2 == id).getD false
  match s.colls.find? mine, look none s.cmds id with
  | some (obj, some k), _ => s.collFailed obj k a
  | _, some _ => s.engineError id a
  | _, none => s

/-- Read every source, write every destination; the collective completes now or once writes outside the device are
acknowledged (R131). -/
def State.collDo (s : State) (obj : Nat) (k : Collective) (n : Nat) (cs : List Cmd) (ids : List Nat) : State :=
  let l := Loc.ofKey obj
  let die := match l with | .dev x => homeDie x | _ => 0
  let s := s.collRequests die n cs
  let xs := (List.range k.count).map fun i => s.collElement cs k.op k.t i
  let first := s.port.nextTag
  let s := cs.foldl (fun s c => s.collWrite c (collSize k.t) xs) s
  let tags := (List.range (s.port.nextTag - first)).map (first + ·)
  if tags.isEmpty then s.collEnd obj k ids else s.setColl obj { k with await := some tags }

/-- When every participant has arrived, combine and write every destination; the collective completes once writes
outside the device are acknowledged (R131, R280). -/
def State.collCombine (s : State) (obj : Nat) : State :=
  match look none s.colls obj with
  | none => s
  | some k =>
    let ids := byRank k
    let cs := ids.map s.cmd
    let origin := s.cmdOrigin (cs.headD default)
    match k.await with
    | some tags => if s.answered tags then s.collEnd obj k ids else s.flushPosted false origin
    | none =>
      let l := Loc.ofKey obj
      if k.members.isEmpty || leNat (s.peeks (l.plus 6) 2) != k.parts then s
      else
        let e := collSize k.t
        let n := k.count * e
        let accs (c : Cmd) : List (Nat × Nat × Bool) :=
          let (_, _, d, a, _) := c.collArgs
          (granules a n).map (fun p => (max p a, 1, false)) ++ (granules d n).map (fun p => (max p d, 1, true))
        let find : Option (Nat × EngAt × Nat) := (ids.zip cs).findSome? fun (id, c) =>
          (s.engFind c (accs c)).map fun f => (id, f)
        match find with
        | some (id, .missing page, a) => if (s.cmd id).waiting.isSome then s else s.engWait id page a
        | some (_, _, a) => s.collFailed obj k a
        | none =>
          let sources (c : Cmd) : List Loc :=
            let (_, _, _, a, _) := c.collArgs
            (List.range n).filterMap fun i => match s.engAt c (a + i) 1 false with | .at x => some x | _ => none
          let outs := (ids.zip cs).filter fun e => (sources e.2).any Loc.outside
          match k.fetch with
          | none =>
            if outs.isEmpty then s.collDo obj k n cs ids
            else
              let (s, tags) := outs.foldl (fun (s, ts) (id, c) =>
                let (s, t) := s.askRuns (.fetch id) { s.cmdOrigin c with va := c.collArgs.2.2.2.1 } (outRuns (sources c))
                (s, ts ++ t)) (s, [])
              s.setColl obj { k with fetch := some tags }
          | some tags => if s.answered tags then s.collDo obj k n cs ids else s

def execCollCombine (coll : Nat) (s : State) : Out := .next (s.collCombine coll)

/-! ## CANCEL (R129, R269) -/

/-- The moves a command has still to make, in aligned 8-byte units of its destination. -/
def Cmd.unitsLeft (c : Cmd) : List (Nat × Nat × Nat) :=
  (c.moves.filter fun m => c.reqs.contains (m.1 / 256)).flatMap fun (d, a, n) =>
    if n = 16 then [(d, a, 8), (d + 8, a + 8, 8)] else [(d, a, n)]

/-- A started command stops at the next unit: each unit of its destination within the device holds its old or its new
value, as a free value says. -/
def State.stopCmd (s : State) (c : Cmd) : State :=
  let done := c.unitsLeft.filter fun (d, a, n) =>
    Config.cancelled s.free (d / 8)
    && (match s.engAt c d n true, s.engAt c a n false with | .at l, .at k => !l.outside && !k.outside | _, _ => false)
  let s := if c.waiting.isSome then s else s.performMoves c false done
  { s with free := s.free + 1 }

/-- The engines stop a command; a collective that has combined runs to its end. -/
def State.cancelCmd (s : State) (id : Nat) : State :=
  if s.combined id then s else ((s.stopCmd (s.cmd id)).withdraw id).dropCmd id

def execCancel (o : Op) (s : State) : Out :=
  let act := s.act o
  let g := s.me
  let h := s.uword o.a
  .next (
    if act = 0 then s.finish o
    else if !s.handleOk g h then s.illegal
    else if s.handleDone g h then s.finish o
    else ((s.batchCmds g.wg (h.toNat % 16) (h.toNat / 256)).foldl State.cancelCmd s).finish o)

end Sys2Proof.Machine
end

