-- ==== Sys2Proof/Machine/MatrixMath.lean ====
section
/-! DEFINITION. The arithmetic of matrix instructions: the format block (R145, R146), operands as element
sequences (R142 to R144), the two summation modes (R148 to R151), and tiles as words (R152, R153). -/

namespace Sys2Proof.Machine

/-! ## The format block (R145) -/

def blkField (b : BitVec 128) (lo n : Nat) : Nat := (b.extractLsb' lo n).toNat
def blkA (b : BitVec 128) : Nat := blkField b 0 4
def blkB (b : BitVec 128) : Nat := blkField b 4 4
def blkAcc (b : BitVec 128) : Nat := blkField b 8 4
def blkExact (b : BitVec 128) : Bool := b.getLsbD 12
def blkSA (b : BitVec 128) : Bool := b.getLsbD 20
def blkSB (b : BitVec 128) : Bool := b.getLsbD 21
def blkSfmt (b : BitVec 128) : Nat := blkField b 24 2

/-- Elements of a row (R144). -/
def elemCount (f : Nat) : Nat := if f = 5 then 160 else if f = 3 ∨ f = 4 then 128 else 64

/-- Classes of element formats (R146). -/
def elemClass (f : Nat) : Nat := if f = 1 ∨ f = 2 then 1 else f

/-- Block length L (R145). -/
def blkLen (b : BitVec 128) : Nat :=
  match blkField b 16 2 with
  | 0 => elemCount (blkA b)
  | 1 => 16
  | 2 => 32
  | _ => 64

/-- Blocks of a row (R147). -/
def blkCount (b : BitVec 128) : Nat := elemCount (blkA b) / blkLen b

/-- A 16-bit accumulator format (R154). -/
def acc16 (acc : Nat) : Bool := acc == 1 || acc == 2

/-- The six checks of R146. -/
def formatOk (b : BitVec 128) : Bool :=
  let fa := blkA b
  let fb := blkB b
  let scaled := blkSA b || blkSB b
  blkField b 82 14 == 0 && blkField b 50 14 == 0 && blkField b 26 6 == 0 && blkField b 22 2 == 0
  && blkField b 18 2 == 0 && blkField b 13 3 == 0
  && (1 ≤ fa && fa ≤ 5) && (1 ≤ fb && fb ≤ 5) && blkAcc b ≤ 3
  && elemClass fa == elemClass fb
  && (blkAcc b != 3 || (fa == 3 && !scaled))
  && (blkExact b || (fa ≤ 3 && !scaled))
  && (!scaled || blkSfmt b != 0)
  && elemCount fa % blkLen b == 0

/-- Bytes of a scale element (R143). -/
def scaleBytes (sf : Nat) : Nat := match sf with | 1 => 1 | 2 => 2 | _ => 4

/-- Value of a scale element (R143). -/
def scaleVal (sf : Nat) (x : Word) : FpVal :=
  match sf with
  | 1 => if x.toNat % 256 = 255 then .nan false else .fin false 1 ((x.toNat % 256 : Int) - 127)
  | 2 => Fmt.bf16.val x
  | _ => Fmt.f32.val x

/-! ## Rows and columns as elements (R142, R144) -/

/-- Value of an element's bits. -/
def elemVal (f : Nat) (x : Nat) : FpVal :=
  match f with
  | 1 => Fmt.f16.val (BitVec.ofNat 32 x)
  | 2 => Fmt.bf16.val (BitVec.ofNat 32 x)
  | 3 => .ofInt (BitVec.ofNat 8 x).toInt
  | 4 => taperNum .t8 x
  | _ => taperNum .t6 x

/-- The elements of 128 bytes held in 32 words. -/
def rowElems (f : Nat) (ws : List Word) : List FpVal :=
  let bytes := ws.flatMap fun w => leBytes 4 w.toNat
  match f with
  | 1 | 2 => (List.range 64).map fun k => elemVal f (field bytes (2 * k) 2)
  | 5 =>
    let v := leNat (bytes.take 120)
    (List.range 160).map fun j => elemVal 5 (v / 2 ^ (6 * j) % 64)
  | _ => (List.range 128).map fun k => elemVal f (field bytes k 1)

/-! ## Summation -/

/-- Exact sum; NaN where infinities of both signs meet (R150). -/
def exactSum (ps : List FpVal) : FpVal :=
  let t := ps.foldl (fun x p => (x.add .rn p).1) (.fin false 0 0)
  if t.isZero then .fin false 0 0 else t

/-- floor(log2) of a nonzero finite magnitude. -/
def log2Floor : FpVal → Option Int
  | .fin _ m e => if m = 0 then none else some (e + bitLen m - 1)
  | _ => none

/-- A finite product truncated to a multiple of 2^q, in units of 2^q (R149). -/
def truncTo (q : Int) : FpVal → Int
  | .fin n m e =>
    let k : Nat := if q ≤ e then m * 2 ^ (e - q).toNat else m / 2 ^ (q - e).toNat
    if n then -(k : Int) else k
  | _ => 0

/-- window_sum of exact finite products (R149), rounding W1. -/
def windowSum (ps : List FpVal) : FpVal :=
  match ps.filterMap log2Floor with
  | [] => .fin false 0 0
  | x :: xs =>
    let q := xs.foldl max x - 27
    let t := (ps.map (truncTo q)).foldl (· + ·) 0
    if t = 0 then .fin false 0 0
    else Fmt.f32.val (Fmt.f32.roundFin .rn false (t < 0) t.natAbs q).1

/-- E1: the product of two scales in FP32 (R148). -/
def scaleProduct (x y : FpVal) : FpVal := Fmt.f32.val (Fmt.f32.round .rn false (x.mul y).1).1

/-- A block's contribution (R148 to R150). -/
def contribution (exact : Bool) (ps : List FpVal) (s : FpVal) : FpVal :=
  let t := exactSum ps
  if exact then (t.mul s).1
  else
    match t with
    | .fin .. => windowSum ps
    | _ => t

/-- Float format of an accumulator code. -/
def accFmt (acc : Nat) : Fmt := match acc with | 1 => .bf16 | 2 => .f16 | _ => .f32

/-- C + v under rn in the accumulator format, W2 or E2 (R148, R150, R294). -/
def accAdd (acc : Nat) (c : Word) (v : FpVal) : Word :=
  let f := accFmt acc
  (f.round .rn false ((f.val c).add .rn v).1).1

/-- One output element (R148): A row, B column, their scales by block, the element as read. -/
def dotElement (fmt : BitVec 128) (a b : List FpVal) (sa sb : List FpVal) (c : Word) : Word :=
  let products := List.zipWith (fun x y => (x.mul y).1) a b
  if blkAcc fmt = 3 then
    match exactSum products with
    | .fin n m e =>
      let k : Int := m * 2 ^ e.toNat
      c + BitVec.ofInt 32 (if n then -k else k)
    | _ => c
  else
    let one : FpVal := .fin false 1 0
    (List.range (blkCount fmt)).foldl (fun c k =>
      let ps := (products.drop (blkLen fmt * k)).take (blkLen fmt)
      let s := scaleProduct (sa.getD k one) (sb.getD k one)
      accAdd (blkAcc fmt) c (contribution (blkExact fmt) ps s)) c

/-! ## Tiles -/

/-- Element k = 32 i + j of a tile or of one of its halves (R153). -/
def Tile.elem (t : Tile) (half : Option Bool) (k : Nat) : Word :=
  let w := look 0 t.words k
  match half with
  | none => w
  | some h => (if h then w >>> 16 else w) &&& 0xFFFF

/-- A word with one of its elements replaced. -/
def withElem (half : Option Bool) (w x : Word) : Word :=
  match half with
  | none => x
  | some false => (w &&& 0xFFFF_0000) ||| (x &&& 0xFFFF)
  | some true => (w &&& 0xFFFF) ||| (x <<< 16)

def Tile.setElem (t : Tile) (half : Option Bool) (k : Nat) (x : Word) : Tile :=
  { t with words := put 0 t.words k (withElem half (look 0 t.words k) x) }

/-- 16 bytes of a row, from a byte offset on (R291). -/
def Tile.unitBytes (t : Tile) (half : Option Bool) (row off : Nat) : List Byte :=
  let e := if half.isSome then 2 else 4
  (List.range (16 / e)).flatMap fun j => leBytes e (t.elem half (32 * row + off / e + j)).toNat

/-- Rows of a mask. -/
def rowsIn (m : BitVec 32) : List Nat := (List.range 32).filter fun i => m.getLsbD i

/-- The rows of a mask zeroed in both halves, their poison cleared (R157). -/
def Tile.drop (t : Tile) (rows : BitVec 32) : Tile :=
  { words := t.words.filter fun e => !rows.getLsbD (e.1 / 32), poison := t.poison &&& ~~~rows }

/-- The half a tile operand names (R282). -/
def halfOf (w16 half : Bool) : Option Bool := if w16 then some half else none

/-- The result of an MMA on a tile as read, by word (R148), and the rows' poison (R156). -/
def MmaOperands.result (m : MmaOperands) (half : Bool) (t : Tile) : Nat → Word := fun k =>
  let i := k / 32
  let j := k % 32
  let h := halfOf (acc16 (blkAcc m.fmt)) half
  let scales (on : Bool) (xs : List (List Word)) (r : Nat) : List FpVal :=
    if on then (xs.getD r []).map (scaleVal (blkSfmt m.fmt)) else []
  withElem h (look 0 t.words k)
    (dotElement m.fmt (rowElems (blkA m.fmt) (m.a.getD i [])) (rowElems (blkB m.fmt) (m.b.getD j []))
      (scales (blkSA m.fmt) m.sa i) (scales (blkSB m.fmt) m.sb j) (t.elem h k))

def MmaOperands.poison (m : MmaOperands) (t : Tile) : BitVec 32 :=
  t.poison ||| (if m.errB then BitVec.allOnes 32 else m.errRows)

end Sys2Proof.Machine
end

