-- ==== Sys2Proof/Machine/Matrix.lean ====
section
/-! DEFINITION. Group 0xD (R281 to R295): gangs and the quadrille latch (R158, R159, R284, R285), the
stagger gate (R75), the arrays (R160, R161), the accumulator store's forms in order (R288) and tile slots
(R379). -/

namespace Sys2Proof.Machine

def codeILLEGALWIDTH : Nat := 2
def codeMMAPARTIAL : Nat := 3
def codePOISON : Nat := 16

/-! ## Tile slots (R152, R379) -/

def tileKey (ctx n : Nat) : Nat := 32 * ctx + n

/-- A context's tile in its slot; one never written reads as zero (R152). -/
def Partition.tile (p : Partition) (key : Nat) : Tile :=
  ((p.tiles.find? fun e => e.1 == key).map (·.2)).getD default

def Partition.hasSlot (p : Partition) (key : Nat) : Bool := p.tiles.any fun e => e.1 == key

/-- A tile's slot takes a value, and becomes the most recently used. -/
def Partition.setTile (p : Partition) (key : Nat) (t : Tile) : Partition :=
  { p with tiles := (key, t) :: p.tiles.filter fun e => e.1 != key }

/-- A form or an MMA writes a tile: its context has written one here (R432). -/
def Partition.writeTile (p : Partition) (key : Nat) (t : Tile) : Partition :=
  { p.setTile key t with wrote := if p.wrote.contains (key / 32) then p.wrote else key / 32 :: p.wrote }

/-- An MMA or tile form in flight uses the tile, a member held in the quadrille latch included. -/
def State.tileBusy (s : State) (part key : Nat) : Bool :=
  let p := s.part part
  let held := match (s.core (part / 4)).latch with
    | some (_, _, ms) => ms.any fun m => partOf m.group == part && tileKey (s.group m.group).ctx m.tile == key
    | none => false
  p.array.any (fun j => tileKey j.ctx j.tile == key) || p.jobs.any (fun j => tileKey j.ctx j.tile == key) || held

/-- A context with a resident group on a partition. -/
def State.ctxOn (s : State) (part ctx : Nat) : Bool :=
  (List.range 16).any fun k =>
    match look none s.groups (16 * part + k) with | some g => g.ctx == ctx | none => false

/-! ### Tiles in the save area (R376 to R379) -/

/-- Address of a unit of a context's save area (R376). -/
def State.unitAddr (s : State) (ctx u : Nat) : Nat := s.ctxField ctx 72 8 + 4096 + 4096 * u

/-- Units of a context's pool (R376). -/
def State.poolUnits (s : State) (ctx : Nat) : Nat :=
  (leNat (s.ctxRead ctx (s.ctxField ctx 72 8) 8) - 4096) / 4096

/-- The lowest of some numbers. -/
def lowest : List Nat → Option Nat
  | [] => none
  | x :: xs => some (xs.foldl min x)

/-- First fit among the units of a context's pool (DESIGN CHOICE). -/
def State.fitUnits (s : State) (ctx n : Nat) : Option Nat :=
  let used := (s.ctxOf ctx).units
  let free (a : Nat) : Bool := used.all fun u => a + n ≤ u.1 || u.1 + u.2 ≤ a
  if n = 0 then some 0
  else lowest ((0 :: used.map fun u => u.1 + u.2).filter fun a => a + n ≤ s.poolUnits ctx && free a)

def State.takeUnits (s : State) (ctx a n : Nat) : State :=
  if n = 0 then s else let c := s.ctxOf ctx; s.setCtx ctx { c with units := (a, n) :: c.units }

def State.freeUnits (s : State) (ctx a n : Nat) : State :=
  if n = 0 then s else let c := s.ctxOf ctx; s.setCtx ctx { c with units := c.units.filter (· != (a, n)) }

/-- The context may write a range of its memory. -/
def State.writable (s : State) (ctx a n : Nat) : Bool :=
  (granules a n).all fun p =>
    match s.mapping ctx p with
    | some (_, m) => m.resident && m.device && m.perm.testBit 1
    | none => false

/-- The words of a tile as a unit holds them: row by row (PRESUMED, log entry 58). -/
def Tile.bytes (t : Tile) : List Byte := (List.range 1024).flatMap fun k => leBytes 4 (look 0 t.words k).toNat

/-- A tile as read from a unit. -/
def tileFrom (bs : List Byte) (poison : BitVec 32) : Tile :=
  { words := (List.range 1024).filterMap fun k =>
      let x : Word := BitVec.ofNat 32 (field bs (4 * k) 4)
      if x = 0 then none else some (k, x)
    poison }

/-- A tile cannot be saved: its context becomes FATAL (R374, R376); the record names a group of it on the partition, if
there is one. -/
def State.tileLost (s : State) (part ctx : Nat) : State :=
  let key := 16 * part + ((List.range 16).find? fun k => (s.group (16 * part + k)).ctx == ctx).getD 0
  let g := s.group key
  let bytes := faultRecordBytes key 0 0 0 0 g.index g.launch (s.wgOf g.wg).index s.tick
    { code := 36, detail := 0, mask := 0, addr := 0, index := 0 } true
  ((s.writeFault ctx bytes).1).makeFatal ctx

/-- A tile leaves its slot for a unit of its context's save area, where one can be had and written. -/
def State.saveTile (s : State) (part key : Nat) : State :=
  let p := s.part part
  let ctx := key / 32
  let t := p.tile key
  let s := s.setPart part { p with tiles := p.tiles.filter fun e => e.1 != key }
  match s.fitUnits ctx 1 with
  | some u =>
    if s.writable ctx (s.unitAddr ctx u) 4096 then
      let s := (s.ctxWrite ctx (s.unitAddr ctx u) t.bytes).takeUnits ctx u 1
      s.setPart part { s.part part with savedTiles := (key, u, t.poison) :: (s.part part).savedTiles }
    else s.tileLost part ctx
  | none => s.tileLost part ctx

/-- The tile stands in a slot: as its unit holds it, which becomes free, or zero if it was never written. -/
def State.loadTile (s : State) (part key : Nat) : State :=
  let p := s.part part
  let ctx := key / 32
  match p.savedTiles.find? fun e => e.1 == key with
  | some (_, u, poison) =>
    let (s, bs) := s.unitRead ctx (s.unitAddr ctx u) 4096
    let t := tileFrom bs poison
    (s.freeUnits ctx u 1).setPart part
      ({ p with savedTiles := p.savedTiles.filter fun e => e.1 != key }.setTile key t)
  | none => s.setPart part (p.setTile key default)

/-- A context's tile of a partition as it stands: in its slot, in its unit, or never written. -/
def State.tileNow (s : State) (part key : Nat) : Tile :=
  let p := s.part part
  if p.hasSlot key then p.tile key
  else
    match p.savedTiles.find? fun e => e.1 == key with
    | some (_, u, poison) => tileFrom (s.ctxRead (key / 32) (s.unitAddr (key / 32) u) 4096) poison
    | none => default

/-- Give a tile a slot: a free one, else the least recently used of another context that is not in use,
saved first; then load or zero the tile. Without either the tile stays without a slot. -/
def State.giveSlot (s : State) (part key : Nat) : State :=
  let p := s.part part
  if p.hasSlot key then s
  else if p.tiles.length < 32 then s.loadTile part key
  else
    match (p.tiles.filter fun e => e.1 / 32 != key / 32 && !s.tileBusy part e.1).getLast? with
    | some v => (s.saveTile part v.1).loadTile part key
    | none => s

def execTileSlotExchange (part ctx tile : Nat) (s : State) : Out :=
  .next (if s.ctxOn part ctx && tile < 32 then s.giveSlot part (tileKey ctx tile) else s)

/-- A partition without a context's tiles. -/
def Partition.withoutTiles (p : Partition) (ctx : Nat) : Partition :=
  { p with
    tiles := p.tiles.filter fun e => e.1 / 32 != ctx, savedTiles := p.savedTiles.filter fun e => e.1 / 32 != ctx,
    wrote := p.wrote.filter (· != ctx) }

/-- A context's tiles of a partition are given up, with their units. -/
def State.dropTiles (s : State) (part ctx : Nat) : State :=
  let p := s.part part
  let s := s.setPart part (p.withoutTiles ctx)
  if (look none s.ctxs ctx).isNone then s
  else (p.savedTiles.filter fun e => e.1 / 32 == ctx).foldl (fun s e => s.freeUnits ctx e.2.1 1) s

/-! ## Landing -/

/-- Word k of an array's result is written; a 16-bit tile's element takes its half of the word (R153). -/
def ArrayJob.landWord (j : ArrayJob) (t0 : Tile) (k : Nat) (t : Tile) : Tile :=
  let h := halfOf (acc16 (blkAcc j.ops.fmt)) j.half
  t.setElem h k (({ words := [(k, j.ops.result j.half t0 k)], poison := 0 } : Tile).elem h k)

/-- Words of an array's result that land early, where a tile form meets an MMA in flight on its tile (R86,
R288): chosen word by word by the free values of the configuration. -/
def ArrayJob.landEarly (j : ArrayJob) (free : Nat) (t : Tile) : ArrayJob × Tile :=
  match j.tileAtStart with
  | none => (j, t)
  | some t0 =>
    let new := (List.range 1024).filter fun k => Config.landed free k && !j.landed.contains k
    let rows := (List.range 32).filter fun i =>
      Config.landed free (1024 + i) && !j.landed.contains (1024 + i)
    let poison := j.ops.poison t0
    let t := new.foldl (fun t k => j.landWord t0 k t) t
    let bit (p : BitVec 32) (i : Nat) : BitVec 32 := p ||| (poison &&& (1#32 <<< i))
    ({ j with landed := j.landed ++ new ++ rows.map (1024 + ·) },
      { t with poison := rows.foldl bit t.poison })

/-- The tile of a form about to be applied, after what lands early from an MMA in flight on it. -/
def State.landTile (s : State) (part key : Nat) : State :=
  let p := s.part part
  match p.array with
  | j :: js =>
    if tileKey j.ctx j.tile = key && j.tileAtStart.isSome then
      let (j, t) := j.landEarly s.free (p.tile key)
      { (s.setPart part ({ p with array := j :: js }.writeTile key t)) with free := s.free + 1 }
    else s
  | [] => s

/-- The rest of an array's result is written; poison bits are added to those that stand (R156, R160, R290). -/
def ArrayJob.land (j : ArrayJob) (t : Tile) : Tile :=
  match j.tileAtStart with
  | none => t
  | some t0 =>
    let poison := j.ops.poison t0
    let keep : BitVec 32 := (rowsIn (BitVec.allOnes 32)).foldl
      (fun m i => if j.landed.contains (1024 + i) then m ||| (1#32 <<< i) else m) 0
    let t := (List.range 1024).foldl (fun t k => if j.landed.contains k then t else j.landWord t0 k t) t
    { t with poison := t.poison ||| (poison &&& ~~~keep) }

/-- A held result of a group comes: its writes land, its flags fall (R174). -/
def Group.landHeld (g : Group) (id : Nat) : Group :=
  match g.inflight.find? fun r => r.held && r.id == id with
  | some r => (g.unpost id).writes r.writes
  | none => g

/-! ## Operands (R144, R147, R158, R160) -/

/-- A V register in a lane; an absent lane reads zero (R287). -/
def Group.mmaV (g : Group) (r l : Nat) : Word := if g.present.getLsbD l then g.readV r l else 0

/-- Scale elements of some rows or columns as they stand in shared memory. -/
def State.readScales (s : State) (wg off stride count z : Nat) (rows : List Nat) : List (List Word) :=
  rows.map fun r => (List.range count).map fun b =>
    BitVec.ofNat 32 (leNat (s.peeks (.shared wg (off + r * stride + b * z)) z))

/-- Capture the operands of the members of a gang, or of a solo MMA, in partition order. -/
def State.capture (s : State) (ms : List LatchMember) : List MmaOperands :=
  let n := 32 / ms.length
  let cols := ms.flatMap fun m => (List.range n).map fun c =>
    (List.range 32).map fun i => (s.group m.group).mmaV (m.bBase + c) i
  ms.map fun m =>
    let g := s.group m.group
    let f := m.fmt
    let z := scaleBytes (blkSfmt f)
    let scales (on : Bool) (off stride : Nat) : List (List Word) :=
      if on then s.readScales g.wg off stride (blkCount f) z (List.range 32) else []
    { a := (List.range 32).map fun i => (List.range 32).map fun q => g.mmaV (m.aBase + q) i
      b := cols
      sa := scales (blkSA f) (blkField f 32 18) (blkField f 96 16)
      sb := scales (blkSB f) (blkField f 64 18) (blkField f 112 16)
      fmt := f, errRows := 0, errB := false }

/-! ## The stagger gate (R75, R161) -/

/-- Half LCLK cycles to the FCLK cycle. -/
def laneRate (ratio : Nat) : Nat := match ratio with | 0 => 1 | 1 => 2 | _ => 4

/-- The array is free at an FCLK cycle, as things stand. -/
def State.arrayFree (s : State) (cluster part cycle : Nat) : Bool :=
  let c := s.cluster cluster
  let at' (t : Nat) : Nat := c.lanes + laneRate c.ratio * (t - c.clock)
  (s.part part).array.all fun j =>
    if j.tileAtStart.isSome then j.doneAt ≤ at' cycle
    else match j.start with | some t => at' t + 64 ≤ at' cycle | none => true

/-- The MMA that belongs to a gang's request. -/
def LeaveRequest.owns (r : LeaveRequest) (j : ArrayJob) : Bool := j.asked == some (r.cycle, r.group)

/-- A gang's starts at t, t + gap, … (R75). -/
def gangSlots (gap t : Nat) (parts : List Nat) : List (Nat × Nat) :=
  (List.range parts.length).map fun i => (parts.getD i 0, t + i * gap)

/-- Requests granted before this one: older, then of lower partition. -/
def LeaveRequest.before (a b : LeaveRequest) : Bool :=
  a.cycle < b.cycle || (a.cycle == b.cycle && a.parts.headD 0 < b.parts.headD 0)

/-- The spacing and arrays allow the request at the cluster's present cycle. -/
def State.leaveNow (s : State) (cluster : Nat) (r : LeaveRequest) : Bool :=
  let c := s.cluster cluster
  let gap := (s.die (cluster / 32)).gap
  let spaced := match c.lastStart with | some t => t + gap ≤ c.clock | none => true
  c.ratio != 2 && spaced
  && (gangSlots gap c.clock r.parts).all fun (p, t) =>
      s.arrayFree cluster p t
      && (if r.parts.length = 1 then (s.part p).jobs.isEmpty
          else match (s.part p).array.find? r.owns with | some j => j.before ≤ (s.part p).applied | none => false)

/-- Give the MMA of a gang's request its start cycle, ahead of those that have none (R161). -/
def Partition.grant (p : Partition) (r : LeaveRequest) (t : Nat) : Partition :=
  let mine := (p.array.filter r.owns).map fun j => { j with start := some t }
  let rest := p.array.filter fun j => !r.owns j
  { p with array := rest.filter (·.start.isSome) ++ mine ++ rest.filter (·.start.isNone) }

/-- An older request is granted in the cycle that runs, on other arrays: at GAP 0, a solo MMA's that has leave whether or
not it is picked (R75). -/
def State.grantedBefore (s : State) (cluster : Nat) (q r : LeaveRequest) : Bool :=
  (s.die (cluster / 32)).gap == 0 && q.parts.length == 1 && s.leaveNow cluster q
  && q.parts.all fun p => !r.parts.contains p

/-- A gang's request that may start now: every older request is granted (R75). -/
def State.gangDue (s : State) (cluster : Nat) : Option LeaveRequest :=
  let c := s.cluster cluster
  c.leave.find? fun r =>
    1 < r.parts.length && s.leaveNow cluster r
    && c.leave.all fun q => q == r || !q.before r || s.grantedBefore cluster q r

/-- Start the first MMA on the array: it reads its tile. -/
def State.startArray (s : State) (part : Nat) : State :=
  let p := s.part part
  match p.array with
  | j :: js =>
    let j := { j with
      tileAtStart := some (p.tile (tileKey j.ctx j.tile)),
      doneAt := (s.cluster (part / 16)).lanes + 64 }
    s.setPart part { p with array := j :: js }
  | [] => s

/-- The first MMA on the array has its slot, and has not started. -/
def State.startDue (s : State) (part : Nat) : Bool :=
  match (s.part part).array with
  | j :: _ =>
    j.tileAtStart.isNone && j.before ≤ (s.part part).applied
    && (match j.start with | some t => t ≤ (s.cluster (part / 16)).clock | none => false)
  | [] => false

/-- Grant a gang's request; a start whose cycle is the one that runs is made in it. -/
def State.grantGang (s : State) (cluster : Nat) (r : LeaveRequest) : State :=
  let c := s.cluster cluster
  let gap := (s.die (cluster / 32)).gap
  let s := (gangSlots gap c.clock r.parts).foldl (fun s (p, t) => s.setPart p ((s.part p).grant r t)) s
  let s := s.setCluster cluster { c with
    leave := c.leave.filter (· != r), lastStart := some (c.clock + (r.parts.length - 1) * gap) }
  r.parts.foldl (fun s p => if s.startDue p then s.startArray p else s) s

/-- Grant gangs that may start now, the oldest request first; at GAP 0 any number start in one cycle (R75). -/
def State.grantGangs (s : State) (cluster : Nat) : Nat → State
  | 0 => s
  | n + 1 =>
    match s.gangDue cluster with
    | some r => (s.grantGang cluster r).grantGangs cluster n
    | none => s

def State.gateGrant (s : State) (cluster : Nat) : State := s.grantGangs cluster (s.cluster cluster).leave.length

/-! ## The arrays (R160, R161) -/

def execGangArrayStart (part : Nat) (s : State) : Out :=
  .next (if s.startDue part then s.startArray part else s)

/-- The array's last LCLK cycle is over. -/
def State.completeDue (s : State) (part : Nat) : Bool :=
  match (s.part part).array with
  | j :: _ => j.tileAtStart.isSome && j.doneAt ≤ (s.cluster (part / 16)).lanes
  | [] => false

/-- The array writes the tile and its poison bits, and the MMA's flags fall. -/
def State.completeArray (s : State) (part : Nat) : State :=
  let p := s.part part
  match p.array with
  | j :: js =>
    let key := tileKey j.ctx j.tile
    let s := s.setPart part ({ p with array := js }.writeTile key (j.land (p.tile key)))
    match look none s.groups j.group with
    | some g => s.setGroup j.group (g.landHeld j.id)
    | none => s
  | [] => s

def execMmaComplete (part : Nat) (s : State) : Out :=
  .next (if s.completeDue part then s.completeArray part else s)

/-- Put an MMA behind those that have their start (R161). -/
def insertJob (j : ArrayJob) : List ArrayJob → List ArrayJob
  | [] => [j]
  | x :: xs => if j.start.isSome && x.start.isNone then j :: x :: xs else x :: insertJob j xs

/-- Put an MMA on its partition's array. -/
def State.putOnArray (s : State) (m : LatchMember) (ops : MmaOperands) (asked : Option (Nat × Nat)) (start : Option Nat) :
    State :=
  let part := partOf m.group
  let p := s.part part
  let j : ArrayJob :=
    { group := m.group, id := m.id, ctx := (s.group m.group).ctx, tile := m.tile, half := m.half, ops, asked, start,
      before := m.before, tileAtStart := none, doneAt := 0, landed := [], region := m.region,
      offset := m.offset, plane := m.plane }
  s.setPart part { p with array := insertJob j p.array }

/-! ## GANG (R284, R285) -/

/-- The value checks of GANG. -/
def State.gangOk (s : State) (x : Word) : Bool :=
  let g := s.me
  let w := s.wgOf g.wg
  let count := bitsAt x.toNat 16 2
  let list := gangList x
  -- a group that has retired lies on no partition
  let parts := ((list.filter fun i => !w.retired.contains i).map fun i => w.groups.getD i 0).map partOf
  count != 3 && bitsAt x.toNat 18 6 == 0
  && ((List.range 4).drop (2 ^ count)).all (fun i => bitsAt x.toNat (4 * i) 4 == 0)
  && list.eraseDups.length == list.length && list.all (fun i => i < s.groupCount g)
  && list.contains g.index && parts.eraseDups.length == parts.length

def execGang (o : Op) (s : State) : Out :=
  let x := s.uword o.a
  .next (
    if s.act o = 0 then s.finish o
    else if !s.gangOk x then s.illegal
    else
      let changed := s.me.gang != x
      let s := s.setMe { s.me with gang := x }
      (if changed then s.breakGang s.cur.group else s).finish o)

/-! ## MMA (R286, R287) -/

/-- Members of a gang by partition (R158). -/
def Workgroup.gangOrder (w : Workgroup) (gang : Word) : List Nat :=
  let keys := w.gangKeys gang
  let core := keys.headD 0 / 64
  (List.range 64).filterMap fun k => if keys.contains (64 * core + k) then some (64 * core + k) else none

/-- Scale offsets of an MMA that fail R147. -/
def State.scaleFaults (s : State) (g : Group) (f : BitVec 128) (p k : Nat) : List Nat :=
  let z := scaleBytes (blkSfmt f)
  let n := 32 / k
  let bytes := (s.wgOf g.wg).sharedBytes
  let check (off stride r : Nat) : List Nat := (List.range (blkCount f)).filterMap fun b =>
    let a := off + r * stride + b * z
    if bytes < a + z then some faultADDRESS else if a % z != 0 then some faultALIGN else none
  (if blkSA f then (List.range 32).flatMap (check (blkField f 32 18) (blkField f 96 16)) else [])
  ++ (if blkSB f then
      ((List.range n).map (n * p + ·)).flatMap (check (blkField f 64 18) (blkField f 112 16)) else [])

/-- The tile an operand names. -/
def tileOf (x : Operand) : Nat × Bool := match x with | .t n h => (n.toNat, h) | _ => (0, false)

/-- The format block and the tile operand of an MMA agree (R146, R153, R282). -/
def mmaFits (f : BitVec 128) (w16 half : Bool) : Bool :=
  formatOk f && w16 == acc16 (blkAcc f) && (!half || w16)

/-- The first of R286's checks that an MMA fails. -/
def State.mmaFault (s : State) (o : Op) (w16 : Bool) (fmt : BitVec 7) : Option Trap :=
  let g := s.me
  let m := s.cur.mask
  let f := s.fmtOf fmt
  let order := (s.wgOf g.wg).gangOrder g.gang
  let k := 2 ^ bitsAt g.gang.toNat 16 2
  let base (x : Operand) : Nat := match x with | .v n => n.toNat | _ => 0
  if g.width != 32 then some { code := codeILLEGALWIDTH, mask := m }
  else if m &&& g.real != g.real then some { code := codeMMAPARTIAL, mask := m }
  else if g.regs ≤ base o.a + 31 || g.regs ≤ base o.b + 32 / k - 1 then
    some { code := 1, detail := 8, mask := m }
  else if !mmaFits f w16 (tileOf o.d).2 then some { code := 1, detail := 8, mask := m }
  else
    (leastCode (s.scaleFaults g f (order.idxOf s.cur.group) k)).map fun c => { code := c, mask := m }

/-- The MMA being issued, as a member. -/
def State.member (s : State) (o : Op) (fmt : BitVec 7) : LatchMember :=
  let sp := s.mySplit
  let base (x : Operand) : Nat := match x with | .v n => n.toNat | _ => 0
  let (tile, half) := tileOf o.d
  let p := s.part (partOf s.cur.group)
  { group := s.cur.group, id := s.me.nextResult, slot := s.cur.slot, tile, half, aBase := base o.a, bBase := base o.b,
    fmt := s.fmtOf fmt, region := sp.region, offset := sp.offset, plane := s.cur.plane,
    before := p.applied + p.jobs.length }

/-- A solo MMA starts in its issue cycle (R160). -/
def State.soloMma (s : State) (o : Op) (m : LatchMember) : State :=
  let cl := clusterOf s.cur.group
  let c := s.cluster cl
  let part := partOf s.cur.group
  let s := s.setCluster cl { c with
    lastStart := some c.clock
    leave := c.leave.filter fun r => !(r.group == m.group && r.slot == m.slot) }
  let s := s.post o.hints [] 0 [] true o.d
  let s := match s.capture [m] with
    | ops :: _ => s.putOnArray m ops none (some c.clock)
    | [] => s
  ((if s.startDue part then s.startArray part else s).gateGrant cl).finish o

/-- A group that breaks a gang by what it is: retired, exited or holding another gang value (R285). -/
def State.breaksGang (s : State) (wg : Nat) (gang : Word) (i : Nat) : Bool :=
  let w := s.wgOf wg
  let g := s.group (w.groups.getD i 0)
  w.retired.contains i || g.gang != gang || (g.present &&& ~~~g.exited) == 0

/-- Every listed group has entered: the latch compares the blocks and either requests the starts or
traps every member (R159). -/
def State.releaseLatch (s : State) (core : Nat) (ms : List LatchMember) : State :=
  let s := s.setCore core { s.core core with latch := none }
  let ms := (List.range 64).filterMap fun k => ms.find? fun m => m.group == 64 * core + k
  if !ms.all (fun m => m.fmt == (ms.headD default).fmt) then s.trapMembers 1 8 ms
  else
    let cl := core / 4
    let c := s.cluster cl
    let first := ms.headD default
    let s := (ms.zip (s.capture ms)).foldl (fun s (m, ops) => s.putOnArray m ops (some (c.clock, first.group)) none) s
    let r : LeaveRequest :=
      { cycle := c.clock, group := first.group, slot := first.slot, parts := ms.map fun m => partOf m.group }
    let s := s.setCluster cl { c with leave := c.leave ++ [r] }
    let old := s.cur
    let s := ms.foldl (fun s m => (s.resumeIssue m.group m.slot).completeWait) s
    ({ s with cur := old }).gateGrant cl

/-- A gang member enters the latch (R159). -/
def State.enterLatch (s : State) (o : Op) (m : LatchMember) : State :=
  let g := s.me
  let core := coreOf s.cur.group
  let c := s.core core
  let before := match c.latch with | some (_, _, ms) => ms | none => []
  let ms := before ++ [m]
  let s := (s.post o.hints [] 0 [] true o.d).holdSplit .latch s.cur.mask o.hints.y
  let list := gangList g.gang
  if list.any fun i => s.breaksGang g.wg g.gang i then
    (s.setCore core { s.core core with latch := none }).trapMembers 15 g.gang ms
  else if ms.length = list.length then s.releaseLatch core ms
  else s.setCore core { s.core core with latch := some (g.gang, g.wg, ms) }

/-- The latch is free or held by the group's own gang (R159). -/
def State.latchOpen (s : State) (g : Group) (core : Nat) : Bool :=
  match (s.core core).latch with
  | none => true
  | some (gang, wg, _) => gang == g.gang && wg == g.wg

def execMma (o : Op) (w16 : Bool) (fmt : BitVec 7) (s : State) : Out :=
  let g := s.me
  let cl := clusterOf s.cur.group
  let s' := s.setCluster cl { s.cluster cl with mmaSeen := true }
  let i : Instr := .mma o w16 fmt
  .next (
    match s'.mmaFault o w16 fmt with
    | some t => s'.trap t
    | none =>
      if bitsAt g.gang.toNat 16 2 = 0 then (s'.pay i).soloMma o (s'.member o fmt)
      else if s'.latchOpen g (coreOf s.cur.group) then (s'.pay i).enterLatch o (s'.member o fmt)
      -- held by another gang: the MMA stalls
      else s')

/-! ## Tile forms in order (R288 to R290) -/

/-- Put a tile form behind the others of its partition; a result it has is the one posted last. -/
def State.pushTile (s : State) (tile : Nat) (form : TileForm) : State :=
  let sp := s.mySplit
  let part := partOf s.cur.group
  let p := s.part part
  let j : TileJob :=
    { group := s.cur.group, id := s.me.nextResult - 1, slot := s.cur.slot, ctx := s.me.ctx, tile, region := sp.region,
      offset := sp.offset, plane := s.cur.plane, gen := (s.ctxOf s.me.ctx).gen, form }
  s.setPart part { p with jobs := p.jobs ++ [j] }

/-- The first tile form has finished with the store. -/
def Partition.popJob (p : Partition) : Partition := { p with jobs := p.jobs.tail, applied := p.applied + 1 }

/-- Apply a change to a tile, in its turn. -/
def State.onTile (s : State) (part key : Nat) (f : Tile → Tile) : State :=
  let s := s.landTile part key
  let p := s.part part
  s.setPart part (p.writeTile key (f (p.tile key)))

/-- A form reads a tile, in its turn: the slot becomes the most recently used. -/
def State.turnTile (s : State) (part key : Nat) : State :=
  let s := s.landTile part key
  let p := s.part part
  s.setPart part (p.setTile key (p.tile key))

def Tile.zeroed (half : Option Bool) (t : Tile) : Tile :=
  match half with
  | none => default
  | some h =>
    let keep (e : Nat × Word) : Option (Nat × Word) :=
      let w := withElem (some h) e.2 0
      if w = 0 then none else some (e.1, w)
    { t with words := t.words.filterMap keep }

/-- MZERO and MPOIS at the head of the queue are applied at once. -/
def State.settleTiles (s : State) (part : Nat) : Nat → State
  | 0 => s
  | n + 1 =>
    match (s.part part).jobs with
    | j :: _ =>
      let key := tileKey j.ctx j.tile
      match j.form with
      | .zero half =>
        let s := s.onTile part key (Tile.zeroed half)
        (s.setPart part (s.part part).popJob).settleTiles part n
      | .pois rows =>
        let s := s.onTile part key fun t => { t with poison := t.poison ||| rows }
        (s.setPart part (s.part part).popJob).settleTiles part n
      | _ => s
    | [] => s

/-- A tile form joins the order, and is applied if it can be at once. -/
def State.tileForm (s : State) (tile : Nat) (form : TileForm) : State :=
  let part := partOf s.cur.group
  let s := s.pushTile tile form
  s.settleTiles part (s.part part).jobs.length

def execMzero (o : Op) (w16 : Bool) (s : State) : Out :=
  let (n, h) := tileOf o.d
  let s' := s.pay (.mzero o w16)
  .next ((if s.act o = 0 then s' else s'.tileForm n (.zero (halfOf w16 h))).finish o)

def execMpois (o : Op) (s : State) : Out :=
  let s' := s.pay (.mpois o)
  .next ((if s.act o = 0 then s' else s'.tileForm (tileOf o.d).1 (.pois (s.uword o.a))).finish o)

/-! ## Tiles in memory (R291) -/

def rowBytes (w16 : Bool) : Nat := if w16 then 64 else 128

/-- Row pitch: B, or dense rows. -/
def State.pitch (s : State) (o : Op) (w16 : Bool) : Nat :=
  match o.b with
  | .none => rowBytes w16
  | b => (s.uword b).toNat

def pitchOk (w16 : Bool) (pitch : Nat) : Bool := pitch % 16 == 0 && rowBytes w16 ≤ pitch

/-- The whole range lies in one aperture and within its limit. -/
def State.tileRange (s : State) (g : Group) (base pitch : Nat) (w16 : Bool) : Bool :=
  let n := 31 * pitch + rowBytes w16
  match aperture base with
  | .global a => a + n ≤ 2 ^ 52
  | .scratch d off => (s.areaLoc g.launch d off n).isSome
  | .shared off => (s.sharedLoc g.wg off n).isSome
  | _ => false

/-- Row, byte offset and address of each 16-byte unit of a tile in memory. -/
def tileUnits (base pitch : Nat) (w16 : Bool) : List (Nat × Nat × Nat) :=
  (List.range 32).flatMap fun i => (List.range (rowBytes w16 / 16)).map fun u =>
    (i, 16 * u, base + i * pitch + 16 * u)

/-- The checked units of MLDT and MSTO; lane 64 is no helper. Helper lanes alone translate no address (R25). -/
def State.tileChecks (s : State) (k : Acc) (real : Bool) (base pitch : Nat) (w16 : Bool) : List (Nat × Nat × Chk) :=
  (if s.tileRange s.me base pitch w16 then [] else [(0, base, .fault faultADDRESS)])
  ++ (tileUnits base pitch w16).map fun (_, _, a) =>
    (64, a,
      if real then s.check s.cur.group s.me 64 k a 16 else if a % 16 = 0 then .skip else .fault faultALIGN)

/-- What MLDT and MSTO share: judge the units, then trap, switch out, withhold, or pay and perform. -/
def State.tileAccess (s : State) (i : Instr) (act : LaneMask) (kind : Nat) (cs : List (Nat × Nat × Chk))
    (data : Nat → DWord) (perform : State → State) : State :=
  match s.verdict (some act) cs with
  | .trap t => (s.pay i).trap t
  | .out pages => (s.pay i).switchOut pages
  | .go cs =>
    let as := cs.filterMap fun (l, a, c) => match c with | .at _ => some (l, a) | _ => none
    s.watched kind 16 (some act) as data fun s => perform (s.pay i)

/-! ## MLDT (R292) -/

/-- What MLDT has gathered: element writes, tags of outside requests, poisoned rows. -/
structure TileRead where
  writes : List Write
  tags : List Nat
  poison : BitVec 32
deriving Inhabited

/-- The elements of one 16-byte unit: all ones where a byte is poisoned (R424). -/
def unitElems (w16 : Bool) (row off : Nat) (bs : List Byte) (bad : List Bool) : List Write :=
  let e := if w16 then 2 else 4
  (List.range (16 / e)).map fun j =>
    .m (32 * row + off / e + j)
      (if ((bad.drop (e * j)).take e).any id then (if w16 then 0xFFFF else 0xFFFF_FFFF)
       else BitVec.ofNat 32 (field bs (e * j) e))

/-- The weak loads of a tile's rows. -/
def State.readTile (s : State) (w16 : Bool) : List (Nat × Nat × Nat) → State × TileRead
  | [] => (s, default)
  | (row, off, a) :: rest =>
    match s.check s.cur.group s.me 64 (.load false) a 16 with
    | .at loc =>
      let (s, bs, bad, miss) := s.loadOne .l1 loc 16
      let ws := unitElems w16 row off bs bad
      let (s, tags) := match loc with
        | .ext k =>
          if miss then (let (s, t) := s.ask k 16 .read ws false (s.here s.cur.mask a); (s, [t])) else (s, [])
        | _ => (s, [])
      let (s, r) := s.readTile w16 rest
      (s, { writes := ws ++ r.writes, tags := tags ++ r.tags,
            poison := r.poison ||| (if bad.any id then 1#32 <<< row else 0) })
    | _ => s.readTile w16 rest

def execMldt (o : Op) (w16 : Bool) (s : State) : Out :=
  let act := s.act o
  let (n, h) := tileOf o.d
  let base := (s.dword o.a 0).toNat
  let pitch := s.pitch o w16
  .next (
    if act = 0 then ((s.pay (.mldt o w16)).post o.hints [] 0 [] false o.d).finish o
    else if !pitchOk w16 pitch then s.illegal
    else
      s.tileAccess (.mldt o w16) act 1 (s.tileChecks (.load false) true base pitch w16) (fun _ => 0) fun s =>
        let (s, r) := s.readTile w16 (tileUnits base pitch w16)
        let s := s.post o.hints r.writes 0 r.tags true o.d
        (s.tileForm n (.fill (halfOf w16 h) (BitVec.allOnes 32) r.poison)).finish o)

/-! ## MMOV (R295) -/

/-- The V registers of a tile row in a lane, as elements. -/
def rowFromV (g : Group) (w16 : Bool) (base l : Nat) : List Write :=
  if w16 then
    (List.range 16).flatMap fun q =>
      let x := g.readV (base + q) l
      [.m (32 * l + 2 * q) (x &&& 0xFFFF), .m (32 * l + 2 * q + 1) (x >>> 16)]
  else (List.range 32).map fun j => .m (32 * l + j) (g.readV (base + j) l)

/-- The V registers a lane receives of its row. -/
def rowToV (t : Tile) (half : Option Bool) (base l : Nat) : List Write :=
  match half with
  | none => (List.range 32).map fun j => .v (base + j) l (t.elem none (32 * l + j))
  | some _ => (List.range 16).map fun q =>
      .v (base + q) l (t.elem half (32 * l + 2 * q) ||| (t.elem half (32 * l + 2 * q + 1) <<< 16))

def execMmov (o : Op) (w16 : Bool) (s : State) : Out :=
  let act := s.act o
  let g := s.me
  let out := o.d.isV
  let (n, h) := tileOf (if out then o.a else o.d)
  let base := match (if out then o.d else o.a) with | .v n => n.toNat | _ => 0
  let i : Instr := .mmov o w16
  .next (
    if act = 0 then ((s.pay i).post o.hints [] 0 [] false o.d).finish o
    else if g.width != 32 then s.trap { code := codeILLEGALWIDTH, mask := act }
    else if g.regs ≤ base + (if w16 then 15 else 31) then s.illegal
    else
      let s := s.pay i
      if out then
        let s := s.post o.hints [] 0 [] true o.d
        (s.tileForm n (.out (halfOf w16 h) act base)).holdSplit .drain act o.hints.y
      else
        let s := s.post o.hints ((lanesOf act).flatMap (rowFromV g w16 base)) 0 [] true o.d
        (s.tileForm n (.fill (halfOf w16 h) (act.setWidth 32) 0)).finish o)

/-! ## MSTO and MSTA (R293, R294) -/

/-- The places of checked units. -/
def locsOf (cs : List (Nat × Nat × Chk)) : List Loc :=
  cs.filterMap fun c => match c.2.2 with | .at l => some l | _ => none

def execMsto (o : Op) (w16 : Bool) (s : State) : Out :=
  let act := s.act o
  let (n, h) := tileOf o.d
  let base := (s.dword o.a 0).toNat
  let pitch := s.pitch o w16
  .next (
    if act = 0 then (s.pay (.msto o w16)).finish o
    else if !pitchOk w16 pitch then s.illegal
    else
      let first := ((s.part (partOf s.cur.group)).tile (tileKey s.me.ctx n)).unitBytes (halfOf w16 h) 0 0
      let low : DWord := BitVec.ofNat 64 (leNat (first.take 8))
      let real := s.realAct o != 0
      let cs := s.tileChecks (.store false) real base pitch w16
      s.tileAccess (.msto o w16) act 2 cs (fun _ => low) fun s =>
        if real then (s.tileForm n (.store (halfOf w16 h) base pitch (locsOf cs))).holdSplit .drain act o.hints.y
        else s.finish o)

/-- The address checks of MSTA at issue (R270, R291); helper lanes alone translate no address (R25). -/
def State.mstaFaults (s : State) (real : Bool) (base pitch : Nat) (w16 : Bool) : List Nat :=
  (if s.tileRange s.me base pitch w16 then [] else [faultADDRESS])
  ++ (List.range 32).flatMap fun i =>
    if real then (s.rangeFault s.me (base + i * pitch) (rowBytes w16) 16 true).toList
    else if (base + i * pitch) % 16 = 0 then [] else [faultALIGN]

def execMsta (o : Op) (w16 : Bool) (fmt : BitVec 7) (s : State) : Out :=
  let act := s.act o
  let (n, h) := tileOf o.d
  let base := (s.dword o.a 0).toNat
  let pitch := s.pitch o w16
  let acc := blkAcc (s.fmtOf fmt)
  .next (
    if act = 0 then (s.pay (.msta o w16 fmt)).finish o
    else if !pitchOk w16 pitch || 3 < acc || w16 != acc16 acc then s.illegal
    else
      let s := s.pay (.msta o w16 fmt)
      match leastCode (s.mstaFaults (s.realAct o != 0) base pitch w16) with
      | some c => s.trap { code := c, mask := act, addr := base }
      | none =>
        if s.realAct o = 0 then s.finish o
        else if 256 ≤ s.openCount then s.trap { code := codeBATCHLIMIT, mask := act }
        else
          let id := s.nextCmd
          let s := s.enlist (.msta base pitch acc w16 [] 0) none []
          (s.tileForm n (.add (halfOf w16 h) id)).holdSplit .drain act o.hints.y)

/-! ## The store reads rows (R157, R288) -/

/-- Rows a draining form reads. -/
def TileForm.reads : TileForm → BitVec 32
  | .store .. | .add .. => BitVec.allOnes 32
  | .out _ rows _ => rows.setWidth 32
  | _ => 0

def TileForm.drains : TileForm → Bool
  | .store .. | .add .. | .out .. => true
  | _ => false

/-- A command given up before it was performed leaves its batch. -/
def State.unlist (s : State) (id : Nat) : State :=
  let c := s.cmd id
  let w := (s.wgOf c.wg).withBatch c.group c.seq fun b => { b with count := b.count - 1 }
  let w := { w with batches := w.batches.filter fun e => e.2.closed || e.2.count != 0 }
  { (s.setWg c.wg w) with cmds := Machine.put none s.cmds id none }

/-- Store one 16-byte unit of MSTO, translated under generation `gen`. A unit of a poisoned sector that the row
covers, poisoned there or in this core's L1, goes to its point of coherence, and the sector loses its poison (R424); `s0`
is the state before the rows. -/
def State.storeUnit (s s0 : State) (gen covered : Bool) (l : Loc) (bs : List Byte) : State :=
  let core := coreOf s.cur.group
  if covered && (s0.poisoned l || (List.range 16).any fun i => s0.readPoison core (l.plus i)) then (s.storeGen .poc gen l bs).setPoison l false else s.storeGen .l1 gen l bs

/-- Store a tile's rows, a unit at each of the places found at issue (R293, R368). -/
def State.storeTile (s : State) (gen : Bool) (t : Tile) (half : Option Bool) (base pitch : Nat) (units : List Loc) :
    State :=
  let w16 := half.isSome
  let s0 := s
  ((tileUnits base pitch w16).zip units).foldl (fun s ((row, off, a), l) =>
    let start := base + row * pitch
    let sector := a - a % 32
    let covered := start ≤ sector && sector + 32 ≤ start + rowBytes w16
    s.storeUnit s0 gen covered l (t.unitBytes half row off)) s

/-- Perform a draining form with the tile as read, `skip` the rows zeroed under DROP. -/
def State.performDrain (s : State) (j : TileJob) (t : Tile) (skip : BitVec 32) : State :=
  match j.form with
  | .store half base pitch units => s.storeTile j.gen t half base pitch units
  | .add half id =>
    let c := s.cmd id
    let words : Sparse Word := (List.range 1024).filterMap fun k =>
      let x := t.elem half k
      if x = 0 then none else some (k, x)
    match c.kind with
    | .msta base pitch acc h _ _ =>
      let c := { c with kind := .msta base pitch acc h words skip, arrived := true }
      { s with cmds := Machine.set s.cmds id c }
    | _ => s
  | .out half rows base =>
    let ws := (lanesOf rows).flatMap (rowToV t half base)
    let g := s.group j.group
    let comes (r : Result) : Result := if r.held && r.id == j.id then { r with writes := ws, held := false } else r
    s.setGroup j.group { g with inflight := g.inflight.map comes }
  | _ => s

/-- A POISON trap leaves nothing of the form behind (R157). -/
def State.abandonDrain (s : State) (j : TileJob) : State :=
  match j.form with
  | .add _ id => s.unlist id
  | .out .. => s.setGroup j.group ((s.group j.group).unpost j.id)
  | _ => s

/-- MSTO, MSTA or MMOV out of a tile reads its rows: the plane issue completes, or traps POISON. -/
def State.tileDrain (s : State) (part : Nat) : State :=
  match (s.part part).jobs with
  | [] => s
  | j :: _ =>
    if !j.form.drains then s
    else
      let key := tileKey j.ctx j.tile
      let s := s.turnTile part key
      let t := (s.part part).tile key
      let bad := t.poison &&& j.form.reads
      let s := s.setPart part (s.part part).popJob
      let wait := ((s.group j.group).split j.slot).wait
      let act := (wait.map (·.lanes)).getD 0
      let old := s.cur
      let s := (s.resumeIssue j.group j.slot).endWait
      let s :=
        if bad != 0 && !s.dropOption j.ctx then
          (s.abandonDrain j).trap { code := codePOISON, detail := bad.toNat, mask := act }
        else
          let t := t.drop bad
          let s := if bad = 0 then s
            else (s.setPart part ((s.part part).setTile key t)).bumpAst j.ctx 1 (rowsIn bad).length
          (s.performDrain j t bad).retire ((wait.map (·.yield)).getD false) [] [] none
      ({ s with cur := old }).settleTiles part (s.part part).jobs.length

def execTileDrain (part : Nat) (s : State) : Out := .next (s.tileDrain part)

/-! ## Filling rows -/

/-- Write a result's elements into a tile; poison by R290. -/
def Tile.fill (t : Tile) (half : Option Bool) (rows poison : BitVec 32) (ws : List Write) : Tile :=
  let t := ws.foldl (fun t w => match w with | .m k x => t.setElem half k x | _ => t) t
  { t with poison :=
      (match half with
        | none => (t.poison &&& ~~~rows) ||| (poison &&& rows)
        | some _ => t.poison ||| (poison &&& rows)) }

/-- The rows of an MLDT, or of an MMOV into a tile, are written when its turn comes (R288, R292). -/
def State.fillTile (s : State) (key : Nat) (r : Result) : State :=
  let part := partOf key
  match (s.part part).jobs with
  | j :: _ =>
    match j.form with
    | .fill half rows poison =>
      if j.group = key && r.id = j.id then
        let s := s.onTile part (tileKey j.ctx j.tile) fun t => t.fill half rows poison r.writes
        let s := s.setPart part (s.part part).popJob
        let s := s.setGroup key ((s.group key).landHeld r.id)
        s.settleTiles part (s.part part).jobs.length
      else s
    | _ => s
  | [] => s

/-! ## MSTA at the reduction unit (R133, R294, R424) -/

/-- Element k's place in memory. -/
def mstaAddr (base pitch : Nat) (half : Bool) (k : Nat) : Nat :=
  base + k / 32 * pitch + k % 32 * (if half then 2 else 4)

/-- Add one element into memory; a poisoned sector is left unchanged. -/
def State.addElement (s : State) (c : Cmd) (lost : Bool) (acc a e : Nat) (x : Word) : State :=
  match s.engAt c a e true with
  | .at l =>
    if s.poisoned l || (lost && l.outside) then s
    else
      let m := BitVec.ofNat 32 (leNat (s.peeks l e))
      let y := if acc = 3 then m + x else accAdd acc m ((accFmt acc).val x)
      s.pokes l (leBytes e y.toNat)
  | _ => s

def State.mstaApply (s : State) (id : Nat) : State :=
  match look none s.cmds id with
  | none => s
  | some c =>
    match c.kind with
    | .msta base pitch acc half words skip =>
      if !c.arrived || c.waiting.isSome then s
      else
        let e := if half then 2 else 4
        let rows := (List.range 32).filter fun i => !skip.getLsbD i
        let accs := rows.map fun i => (base + i * pitch, rowBytes half, true)
        let ends := rows.map fun i => (base + i * pitch + rowBytes half - 16, 16, true)
        match s.engFind c (accs ++ ends) with
        | some (.missing page, a) => s.engWait id page a
        | some (_, a) => s.engineError id a
        | none =>
          let ks := rows.flatMap fun i => (List.range 32).map fun j => 32 * i + j
          let places := ks.filterMap fun k =>
            match s.engAt c (mstaAddr base pitch half k) e true with | .at l => some l | _ => none
          -- host memory is read first; the home of any other memory adds by itself
          let runs := outRuns ((places.filter fun l => !l.hevis).flatMap fun l => (List.range e).map l.plus)
          if !runs.isEmpty && c.fetch.isEmpty then s.fetchSources id 0 base runs
          else if !(c.fetch.all fun f => s.answered f.2) then s
          else
            let lost := match places.find? Loc.outside with | some (.ext k) => s.lostNow k | _ => false
            let hit := ks.find? fun k =>
              match s.engAt c (mstaAddr base pitch half k) e true with | .at l => s.poisoned l | _ => false
            let s := s.countBlocks (dieOf c.key) places
            let s := ks.foldl (fun s k =>
              s.addElement c lost acc (mstaAddr base pitch half k) e (look 0 words k)) s
            let s := match hit with | some k => s.engineRecord c 0 (mstaAddr base pitch half k) | none => s
            let s := s.commandSent c lost [] (places.flatMap fun l => (List.range e).map l.plus)
            s.dropCmd id
    | _ => s

def execMstaApply (cmd : Nat) (s : State) : Out := .next (s.mstaApply cmd)

end Sys2Proof.Machine
end

