-- ==== Sys2Proof/Machine/System.lean ====
section
/-! DEFINITION. Group 0xE (R283, R296 to R309) and words of an unassigned OP (R180); the call ring as a
group sees it (R297, R298, R381); waking from a WAIT (R49, R50, R261). -/

namespace Sys2Proof.Machine

def codeSYSCALLPARTIAL : Nat := 4
def codeEDITCONFLICT : Nat := 17
def codeSOFTWARE : Nat := 18
def codeBREAKPOINT : Nat := 19

/-- The value check of R283: a code, call number, marker or ring index is at most 65,535. -/
def small (x : Word) : Bool := x.toNat ≤ 65535

/-! ## SYSCALL (R296 to R298) -/

/-- Address of a slot of a context's call ring (R375). -/
def State.callSlot (s : State) (ctx slot : Nat) : Nat := s.ctxField ctx 48 8 + 1024 * slot

/-- The lowest free slot of a context's call ring (R381). -/
def Context.freeCall (c : Context) : Option Nat :=
  (List.range 64).find? fun k => !c.calls.any fun e => e.1 == k

/-- The 1,024 bytes of a call record (R297). -/
def State.callRecord (s : State) (a : Operand) (call : Nat) : List Byte :=
  let g := s.me
  let live := g.real &&& ~~~g.exited
  leBytes 2 (partField s.cur.group + g.index * 2 ^ 12) ++ leBytes 2 call ++ leBytes 4 0
  ++ leBytes 4 (s.wgOf g.wg).index ++ leBytes 4 g.launch ++ leBytes 8 g.real.toNat
  ++ leBytes 8 g.helper.toNat ++ List.replicate 32 0
  ++ (List.range 64).flatMap (fun l => leBytes 8 (if live.getLsbD l then (s.dword a l).toNat else 0))
  ++ List.replicate 448 0

/-- Write the call record, or wait for a free slot; then wait for the reply. -/
def State.sendCall (s : State) (d a : Operand) (call : Nat) (act : LaneMask) (y : Bool) : State :=
  let ctx := s.me.ctx
  match (s.ctxOf ctx).freeCall with
  | none => s.holdSplit (.ringSlot d a call) act y
  | some k =>
    let s := s.ctxWrite ctx (s.callSlot ctx k) (s.callRecord a call)
    let c := s.ctxOf ctx
    (s.setCtx ctx { c with calls := c.calls ++ [(k, false)] }).holdSplit (.reply d k) act y

def execSyscall (o : Op) (s : State) : Out :=
  let g := s.me
  let call := s.uword o.b
  .next (
    if s.cur.mask &&& g.real != g.real then s.trap { code := codeSYSCALLPARTIAL, mask := s.cur.mask }
    else if !small call then s.illegal
    else ((s.pay (.syscall o)).release .dev).sendCall o.d o.a call.toNat s.cur.mask o.hints.y)

/-- STATUS of a call-ring slot, as a strong load finds it. -/
def State.callStatus (s : State) (ctx slot : Nat) : Nat :=
  leNat (s.ctxRead ctx (s.callSlot ctx slot + 4) 4)

/-- Take the replies: acquire, write D, free the slot (R298, R421). -/
def State.takeReply (s : State) (key slot k : Nat) (d : Operand) (mask : LaneMask) : State :=
  let s := s.resumeIssue key slot
  let ctx := s.me.ctx
  let unknown := s.callStatus ctx k % 256 = 2
  let a := s.callSlot ctx k
  let reply (l : Nat) : DWord :=
    if unknown then BitVec.allOnes 64 else BitVec.ofNat 64 (leNat (s.ctxRead ctx (a + 64 + 8 * l) 8))
  let lanes := lanesOf mask
  let s := s.acquire .dev
  let s := s.logMe 4 mask (lanes.flatMap fun l => leBytes 8 (reply l).toNat)
  let c := s.ctxOf ctx
  let s := s.setCtx ctx { c with calls := c.calls.filter fun e => e.1 != k }
  (s.setMe (s.me.writes (destWrites64 d lanes reply))).completeWait

/-! ## Waking (R49, R50, R261) -/

/-- The register of an implicit wait's condition still carries its handle (R267). -/
def Group.tagged (g : Group) (c : Cond) : Bool := look none g.tags c.value.toNat == some (c.addr.setWidth 32)

/-- The conditions of an implicit wait on handles still to be met: a write of the register ends one too (R50, R267). -/
def State.handlesLeft (s : State) (g : Group) (w : Waiting) : List Cond :=
  w.conds.filter fun c => g.tagged c && !s.handleDone g (c.addr.setWidth 32)

/-- An implicit wait on handles ends: the group observes the completions (R129), and the split issues. -/
def State.wakeHandle (s : State) (key slot : Nat) (w : Waiting) : State :=
  let seen := w.conds.filter fun c => s.handleDone (s.group key) (c.addr.setWidth 32)
  let s := seen.foldl (fun s c => s.observe key (c.addr.setWidth 32)) s
  let g := s.group key
  s.setGroup key ((g.setSplit slot (some { g.split slot with wait := none })).settle 128)

/-- A `.sys` release has been acknowledged: the plane issue, already charged, is made again and performed with what it
read when it was first made (R103, R126). -/
def State.wakeAck (s : State) (key slot : Nat) (snap : Snap) : State :=
  let s := (s.resumeIssue key slot).endWait
  { s with agenda := .issue { s.cur with acked := true, snap := some snap } :: s.agenda }

/-- Whether a waiting split can wake with its wait satisfied. -/
def State.wakeable (s : State) (key slot : Nat) : Bool :=
  let g := s.group key
  match (g.split slot).wait with
  | none => false
  | some w =>
    !s.frozen key
    && (match w.kind with
        | .explicit _ => w.joined
        | .ringSlot .. => (s.ctxOf g.ctx).freeCall.isSome
        | .reply _ k => s.callStatus g.ctx k != 0
        | .handle => (s.handlesLeft g w).isEmpty
        | .ack tags _ => s.answered tags
        | _ => false)

/-- A split wakes. -/
def State.wake (s : State) (key slot : Nat) : State :=
  match ((s.group key).split slot).wait with
  | none => s
  | some w =>
    match w.kind with
    | .explicit d => s.wakeWait key slot d w true
    | .ringSlot d a call => ((s.resumeIssue key slot).endWait).sendCall d a call w.lanes w.yield
    | .reply d k => s.takeReply key slot k d w.lanes
    | .handle => s.wakeHandle key slot w
    | .ack _ snap => s.wakeAck key slot snap
    | _ => s

def execWaitWake (group slot : Nat) (s : State) : Out :=
  .next (if s.wakeable group slot then s.wake group slot else s)

/-- The expiry tick of an explicit WAIT has passed with its join not satisfied. -/
def State.timedOut (s : State) (key slot : Nat) : Bool :=
  match ((s.group key).split slot).wait with
  | none => false
  | some w =>
    !s.frozen key && !w.joined
    && (match w.kind, w.expiry with | .explicit _, some e => e < s.tick | _, _ => false)

def execWaitTimeout (group slot : Nat) (s : State) : Out :=
  .next (
    if s.timedOut group slot then
      match ((s.group group).split slot).wait with
      | some w =>
        (match w.kind with | .explicit d => s.wakeWait group slot d w false | _ => s)
      | none => s
    else s)

/-- Ticks between a monitor's reads of a host word (R260). -/
def pollTicks : Nat := 100

/-- The host word that an unmet monitor condition of a waiting group reads again, if its next read is due. -/
def State.pollDue (s : State) (g : Group) (c : Cond) : Option Nat :=
  if c.kind = .monitor && c.met.isNone && c.tested + pollTicks ≤ s.tick then
    match s.placeOf g c.addr.toNat 4 with
    | some (.ext k) => if viaHevis k then none else some k
    | _ => none
  else none

/-- A monitor on host memory asks for its word again, 100 ticks after it last did (R260); the condition is tested when
the completion comes, or as all ones where none does (R358). `lost`: no Successful completion will come. -/
def State.hostPoll (s : State) (key slot cond : Nat) (lost : Bool) : State :=
  let g := s.group key
  let sp := g.split slot
  match sp.wait with
  | none => s
  | some w =>
    match (w.conds[cond]?).bind fun c => (s.pollDue g c).map fun k => (c, k) with
    | none => s
    | some (c, k) =>
      let word : Word := BitVec.ofNat 32 (leNat (s.peeks (.ext k) 4))
      let o := s.originOf key slot w.plane w.region w.offset w.lanes c.addr.toNat
      let s := (s.ask k 4 (.monitor cond word) [] lost o).1
      let w := { w with conds := w.conds.set cond { c with tested := s.tick } }
      s.setGroup key (g.setSplit slot (some { sp with wait := some w }))

def execMonitorHostPoll (group slot cond : Nat) (lost : Bool) (s : State) : Out :=
  .next (s.hostPoll group slot cond lost)

/-! ## Traps by instruction -/

def execTrap (o : Op) (s : State) : Out :=
  let code := s.uword o.a
  let act := s.act o
  .next (
    if act = 0 then s.finish o
    else if !small code then s.illegal
    else (s.noteYield o.hints.y).trap { code := codeSOFTWARE, detail := code.toNat, mask := act, done := true })

def execTret (o : Op) (s : State) : Out := .next (s.noteYield o.hints.y).trapReturn

/-- BRK stops a held context's partition after its plane issue, and else traps BREAKPOINT (R308, R408). -/
def execBrk (o : Op) (s : State) : Out :=
  let code := s.uword o.a
  let act := s.act o
  .next (
    if act = 0 then s.finish o
    else if !small code then s.illegal
    else if s.isHeld s.me.ctx then
      (s.stopPart (partOf s.cur.group) 1 (s.cur.group % 16) s.cur.slot s.cur.plane code.toNat none).finish o
    else (s.noteYield o.hints.y).trap { code := codeBREAKPOINT, detail := code.toNat, mask := act, done := true })

def execDbgmark (o : Op) (s : State) : Out :=
  let x := s.uword o.a
  .next (
    if s.act o = 0 then s.finish o
    else if !small x then s.illegal
    else (s.traceMe 1 x.toNat).finish o)

/-- An unassigned OP traps ILLEGAL with reason 1 (R180, R181). -/
def execUnassignedOpcode (_op : BitVec 10) (s : State) : Out :=
  .next (s.trap { code := 1, detail := 1, mask := s.cur.mask })

/-! ## SETPERF and TOKRD (R303, R304) -/

def execSetperf (o : Op) (s : State) : Out :=
  .next ((if s.act o = 0 then s
    else s.setMe { s.me with hint := min (s.uword o.a).toNat 7 }).finish o)

/-- The four words of the cluster's Reel state. -/
def State.reelWords (s : State) : List Word :=
  let c := s.cluster (clusterOf s.cur.group)
  [ (s.readSr .pouch 0).setWidth 32, BitVec.ofNat 32 c.floorRem,
    BitVec.ofNat 32 (min c.shareRem (2 ^ 32 - 1)),
    BitVec.ofNat 32 (s.tick / Config.roundTicks % 2 ^ 16 * 2 ^ 16 + c.ratio * 2 ^ 8 + c.op) ]

def execTokrd (o : Op) (s : State) : Out :=
  let act := s.act o
  let ws := s.reelWords
  .next (
    if act = 0 then s.finish o
    else
      let s := s.logMe 7 act (ws.flatMap fun w => leBytes 4 w.toNat)
      (s.setMe (s.me.writes (destTuple o.d 0 ws))).finish o)

/-! ## EDIT (R305, R306, R319) -/

/-- The tick an edit counts as arriving in: decisions already made this tick came before it. -/
def State.editTick (s : State) : Nat := if s.port.decided = 0 then s.tick else s.tick + 1

/-- Order of edits of one tick: the port's first, then by partition. -/
def Edit.before (a b : Edit) : Bool :=
  a.tick < b.tick
  || (a.tick == b.tick
      && (match a.page, b.page with
          | some _, none => true
          | none, some _ => false
          | some _, some _ => false
          | none, none => a.part < b.part))

/-- Put an edit at its place in edit order. -/
def insertEdit (e : Edit) : List Edit → List Edit
  | [] => [e]
  | x :: xs => if e.before x then e :: x :: xs else x :: insertEdit e xs

def execEdit (o : Op) (f : Bool) (s : State) : Out :=
  let act := s.act o
  let i : Instr := .edit o f
  .next (
    if s.realAct o = 0 then ((s.pay i).postNone o.hints o.d).finish o
    else
      let a := (s.dword o.a 0).toNat
      let s := s.pay i
      let c : Chk := match aperture a with
        | .stack _ => .fault faultADDRESS
        | _ => s.check s.cur.group s.me 64 (.load false) a 128
      match s.verdict (some act) [(64, a, c)] with
      | .trap t => s.trap t
      | .out pages => s.switchOut pages
      | .go cs =>
        let s := s.release .dev
        let (data, runs) := match cs with
          | [(_, _, .at l)] => (s.peeks l 128, outRuns ((List.range 128).map l.plus))
          | _ => ([], [])
        let sp := s.mySplit
        let id := s.me.nextResult
        let (s, await) := s.askRuns .edit (s.here act a) runs
        let e : Edit :=
          { page := none, ctx := s.me.ctx, part := partOf s.cur.group, group := s.cur.group,
            slot := s.cur.slot, region := sp.region, offset := sp.offset, plane := s.cur.plane,
            dest := destCode o.d, mask := act, id, await, f, data, tick := s.editTick }
        let s := { s with port := { s.port with edits := insertEdit e s.port.edits } }
        let s := s.post o.hints [] 0 [] true o.d
        if f then s.holdSplit .port act o.hints.y else s.finish o)

/-! ## NOTIFY (R307) -/

def execNotify (o : Op) (s : State) : Out :=
  let k := s.uword o.b
  let i : Instr := .notify o
  .next (
    if s.realAct o = 0 then (s.pay i).finish o
    else if !small k || s.ctxField s.me.ctx 22 2 ≤ k.toNat then s.illegal
    else
      let bytes := (List.range 8).flatMap fun n => leBytes 4 (s.tuple o.a n 0).toNat
      let s := (s.pay i).release .sys
      (s.send (.ctx s.me.ctx k.toNat) (leBytes 2 1 ++ bytes.drop 2) s.acksOf).finish o)

end Sys2Proof.Machine
end

