-- ==== Sys2Proof/Machine/Sched.lean ====
section
/-! DEFINITION. Fetching and choosing what issues: the planes of an offset (R33 to R38), the candidates of a
partition (R47, R48, R64), the reservation (R65), pairs (R27), and one FCLK cycle of a cluster, partition
by partition. -/

namespace Sys2Proof.Machine

/-! ## The next plane issue of a split (R33 to R38, R371) -/

/-- Occupied effective planes of a split, ascending, with their masks (R34). -/
def Group.occupied (g : Group) (mask : LaneMask) (planes : Nat) : List (Nat × LaneMask) :=
  (List.range planes).filterMap fun k =>
    let m := maskOf ((lanesOf mask).filter fun l => effPlane (look 0 g.planes l) planes == k)
    if m = 0 then none else some (k, m)

/-- The plane issues of a split that begins its offset. Plane 0's copy decides whether they are one (R35);
past the region's end the trap is one, at the lowest occupied plane (R38). -/
def State.planesAt (s : State) (g : Group) (sp : Split) : List (Nat × LaneMask) :=
  let l := s.launch g.launch
  let (_, len, planes) := l.region sp.region
  let occ := g.occupied sp.mask planes
  if len < sp.offset + 12 then [((occ.headD (0, 0)).1, sp.mask)]
  else if planes ≤ 1 then occ
  else
    match s.fetch g.ctx (l.wordAddr sp.region 0 sp.offset) with
    | .word w => if (Hints.ofField (w.setWidth 24)).pc then [(0, sp.mask)] else occ
    | _ => [(0, sp.mask)]

/-- The plane issues a split has still to make at its offset. -/
def State.todo (s : State) (g : Group) (sp : Split) : List (Nat × LaneMask) :=
  match sp.mid with
  | some m => m.todo
  | none => s.planesAt g sp

/-- What a plane issue finds when it fetches and decodes its word. -/
inductive Found where
  | instr (i : Instr)
  | trap (code detail addr : Nat)
  | missing (id addr : Nat)
deriving DecidableEq, Repr

def codeREGIONEND : Nat := 10

/-- Fetch and decode the word of a plane at a split's offset (R181, R371). -/
def State.found (s : State) (g : Group) (sp : Split) (plane : Nat) : Found :=
  let l := s.launch g.launch
  if (l.region sp.region).2.1 < sp.offset + 12 then .trap codeREGIONEND 0 0
  else
    let a := l.wordAddr sp.region plane sp.offset
    match s.fetch g.ctx a with
    | .trap code => .trap code 0 a
    | .missing id page => .missing id page
    | .word w =>
      match decodeWord g.regs w with
      | .ok i => .instr i
      | .error r => .trap 1 r.reason 0

/-- Make the picked plane issue: the split's planes are fixed when it begins its offset (R34); an issue that a
watchpoint let go is not tested again (R412). -/
def State.begin (s : State) (c : Cur) : State :=
  let g := s.group c.group
  let s := { s with cur := { c with untested := g.released.contains c.slot } }
  let sp := g.split c.slot
  let mid : Mid := sp.mid.getD { todo := s.planesAt g sp, dests := [], planes := [], begun := false }
  s.setMe (({ g with released := g.released.filter (· != c.slot) } : Group).setSplit c.slot (some { sp with mid := some mid }))

/-- Writes that land before the issue, and the results that are left. -/
def landing (free : Nat) : Nat → List Result → List Write × List Result
  | _, [] => ([], [])
  | i, r :: rs =>
    let (ws, rest) := landing free (i + 1) rs
    if r.held || !r.await.isEmpty then (ws, r :: rest)
    else
      let early := (r.writes.zipIdx.filter fun e => Config.landed free (1024 * i + e.2)).map (·.1)
      let late := (r.writes.zipIdx.filter fun e => !Config.landed free (1024 * i + e.2)).map (·.1)
      (early ++ ws, { r with writes := late } :: rest)

/-- R86: some registers of results in flight have landed before this issue. -/
def State.landEarly (s : State) : State :=
  let g := s.me
  if g.inflight.isEmpty then s
  else
    let (ws, rest) := landing s.free 0 g.inflight
    { (s.setMe { (g.writes ws) with inflight := rest }) with free := s.free + 1 }

def Out.map (f : State → State) : Out → Out
  | .next s => .next (f s)
  | o => o

def Out.bind (f : State → Out) : Out → Out
  | .next s => f s
  | o => o

/-- D is a source: a destructive form, a store's data, an address in D. -/
def readsD (i : Instr) : Bool :=
  match i with
  | .imad .. | .ffma .. | .hfma2 .. | .tribit .. | .bfi .. | .bysel .. | .tpack .. | .st .. | .sts ..
  | .tst .. | .copy .. | .copyt .. | .gather .. | .scatter .. | .coll .. => true
  | _ => false

/-- Bytes of the entry that an ENQ reads: as many as the control block's ESIZE names, where they fit (R272). -/
def State.entrySize (s : State) (g : Group) (o : Op) : Nat :=
  match o.a with
  | .s cb =>
    let q := QueueBlock.read (s.ctxRead g.ctx (g.readS64 cb.toNat).toNat 64)
    if q.malformed || !entryFits g o.b q.esize then 0 else q.esize
  | _ => 0

/-- S registers an instruction reads. -/
def State.readsS (s : State) (g : Group) (i : Instr) : List Nat :=
  match i.op with
  | none => []
  | some o =>
    let sh := i.shape
    let span (k : Nat) (x : Operand) : List Nat :=
      match x with | .s n => (List.range k).map (n.toNat + ·) | _ => []
    let x : List Nat := match sh.x, i.xIndex with
      | .xt k, some n => (List.range k).map (n.toNat + ·)
      | _, _ => []
    match i with
    | .enq o => span sh.a.s o.a ++ span (s.entrySize g o / 4) o.b
    | .deq o => span sh.b.s o.b
    | _ => span sh.a.s o.a ++ span sh.b.s o.b ++ (if readsD i then span sh.d.s o.d else []) ++ x

/-- V registers an instruction reads. -/
def State.readsV (s : State) (g : Group) (i : Instr) : List Nat :=
  match i.op with
  | none => []
  | some o =>
    let sh := i.shape
    let span (k : Nat) (x : Operand) : List Nat :=
      match x with | .v n => (List.range k).map (n.toNat + ·) | _ => []
    match i with
    | .enq o => span (entryRegs g.width (s.entrySize g o)) o.b
    | .deq _ => []
    | .mma o .. => span 32 o.a ++ span (32 / 2 ^ bitsAt g.gang.toNat 16 2) o.b
    | .mmov o w => span (if w then 16 else 32) o.a
    | _ => span sh.a.v o.a ++ span sh.b.v o.b ++ (if readsD i then span sh.d.v o.d else [])

def codeREGISTERLOST : Nat := 35

/-- Registers an issue reads that an error has destroyed, by operand field, each with its lanes (R423). -/
def State.lostReads (s : State) (i : Instr) : List (Nat × LaneMask) :=
  let g := s.me
  let act := (i.op.map s.act).getD 0
  if g.lost.isEmpty then []
  else
    let v := (s.readsV g i).eraseDups.map fun r =>
      (r, maskOf ((lanesOf act).filter fun l => g.lost.contains (r, l)))
    let r := ((s.readsS g i).eraseDups.filter fun r => g.lost.contains (512 + r, 0)).map fun r => (512 + r, act)
    (v ++ r).filter fun e => e.2 != 0

/-- The read of a lost register is recorded, at the issue that makes it (R423, R425). -/
def State.readLost (s : State) (i : Instr) : State :=
  (s.lostReads i).foldl (fun s (field, mask) =>
    let s := s.logFault { code := codeREGISTERLOST, detail := field, mask, addr := 0, index := 0 }
    let read (e : Nat × Nat) : Bool := e.1 == field && (512 ≤ field || mask.getLsbD e.2)
    s.setMe { s.me with lost := s.me.lost.filter fun e => !read e }) s

/-- Fetch, decode and run the word of the plane issue being made. -/
def State.runWord (run : Instr → State → Out) (s : State) : Out :=
  match s.found s.me s.mySplit s.cur.plane with
  | .instr i => run i (s.readLost i)
  | .trap code detail addr => .next (s.trap { code, detail, mask := s.cur.mask, addr })
  | .missing id a => .next (s.switchOut [(id, a)])

/-- Make a plane issue: `run` is the meaning of an instruction. Results in flight may land before it (R86); one that is
made again reads what it read before (R103). -/
def State.issue (run : Instr → State → Out) (s : State) (c : Cur) : Out :=
  let s := s.begin c
  if c.snap.isSome then (s.swapRegs.runWord run).map State.endSnap else s.landEarly.runWord run

/-! ## Conditions of a candidate (R47, R48) -/

/-- A split's next plane issue with what it finds. -/
structure Prospect where
  cur : Cur
  region : Nat
  offset : Nat
  found : Found
  /-- H of its word, of an illegal one too (R174) -/
  hints : Hints
deriving DecidableEq, Repr

/-- H of the word of a plane at a split's offset; none where no word is fetched. -/
def State.hintsAt (s : State) (g : Group) (sp : Split) (plane : Nat) : Hints :=
  let l := s.launch g.launch
  Hints.ofField (
    if (l.region sp.region).2.1 < sp.offset + 12 then 0
    else match s.fetch g.ctx (l.wordAddr sp.region plane sp.offset) with | .word w => w.setWidth 24 | _ => 0)

def State.prospect (s : State) (key slot : Nat) : Option Prospect :=
  let g := s.group key
  match look none g.splits slot with
  | none => none
  | some sp =>
    match s.todo g sp with
    | [] => none
    | (plane, mask) :: _ =>
      some { cur := { group := key, slot, plane, mask, paired := false, acked := false }, region := sp.region,
             offset := sp.offset, found := s.found g sp plane, hints := s.hintsAt g sp plane }

def Prospect.instr (p : Prospect) : Option Instr :=
  match p.found with | .instr i => some i | _ => none

/-- Flags the issue waits for: its wait mask, and a set flag whose count stands at 63 (R174). -/
def flagsClear (g : Group) (h : Hints) : Bool :=
  (List.range 12).all (fun i => !h.wait.getLsbD i || look 0 g.flags (i + 1) == 0)
  && look 0 g.flags h.set1.toNat != 63 && look 0 g.flags h.set2.toNat != 63

/-- The pending handles whose registers an instruction reads: each incomplete, as the condition of an implicit
wait (R50, R267). -/
def State.handlesOf (s : State) (g : Group) (i : Instr) : List Cond :=
  match i with
  | .wait .. | .htest .. | .cancel .. => []
  | _ => (s.readsS g i).filterMap fun r =>
      match look none g.tags r with
      | some h =>
        if s.handleDone g h then none
        else some { kind := .handle, addr := h.setWidth 64, value := BitVec.ofNat 32 r, ne := false, scope := .lane,
                    acq := false, met := none, tested := s.tick }
      | none => none

/-- A read of a register tagged with a pending handle blocks (R50, R267). -/
def State.tagBlocked (s : State) (g : Group) (i : Instr) : Bool := !(s.handlesOf g i).isEmpty

/-- A store, barrier update, queue operation or release of the group has issued and is still to be performed: an MSTO
whose turn has not come, an operation on its way to its bank or port, a release that waits for acknowledgements, a FENCE
whose acknowledgements have not come. -/
def State.unperformed (s : State) (key : Nat) : Bool :=
  let g := s.group key
  (s.part (partOf key)).jobs.any (fun j => j.group == key && (match j.form with | .store .. => true | _ => false))
  || s.bank.any (fun e => e.group == key && !e.up.isCredit)
  || s.queueOps.any (fun e => e.group == key)
  || !s.answered g.fence
  || g.live.any fun k =>
    match (g.split k).wait with
    | some w => (match w.kind with | .ack .. => true | _ => false)
    | none => false

/-- A form of the memory, synchronisation, engine, matrix or system group: it may access memory or order accesses. -/
def ordersMemory (i : Instr) : Bool := i.op.isSome && 9 ≤ ((encode i).extractLsb' 92 4).toNat

/-- The group's earlier accesses are performed first, so that its accesses are performed in program order (R105, R107,
R108, R111, R112). -/
def State.inOrder (s : State) (key : Nat) (i : Instr) : Bool := !(ordersMemory i && s.unperformed key)

/-- The value checks that come before a charge (R254), for the forms that draw one. -/
def State.valuesOk (s : State) (i : Instr) : Bool :=
  match i with
  | .copy o _ => (s.uword o.b).toNat ≤ 262144
  | .copyt o _ =>
    let z := (s.uword o.b).toNat
    sizeOk z && copytBytes z (windowOf (s.blockOf o.d)) (windowOf (s.blockOf o.a)) ≤ 262144
  | .gather o _ | .scatter o _ =>
    let z := (s.uword o.b).toNat
    sizeOk z && z * popcount (s.realAct o) ≤ 262144
  | .coll o _ t =>
    let b := s.blockOf o.b
    collParts b != 0 && collRank b < collParts b && collCount b != 0
    && collCount b * collSize t ≤ 262144
  | .mma o w f => (s.mmaFault o w f).isNone
  | .mldt o w | .msto o w => pitchOk w (s.pitch o w)
  | .msta o w f =>
    let acc := blkAcc (s.fmtOf f)
    pitchOk w (s.pitch o w) && acc ≤ 3 && w == acc16 acc
  | .mmov o w =>
    let base := match (if o.d.isV then o.d else o.a) with | .v n => n.toNat | _ => 0
    s.me.width == 32 && base + (if w then 15 else 31) < s.me.regs
  | .notify o => small (s.uword o.b) && (s.uword o.b).toNat < s.ctxField s.me.ctx 22 2
  | _ => true

/-- The charge an issue presents: an illegal word, a fetch that fails and a failed value check draw
none. -/
def State.presents (s : State) (p : Prospect) : Nat :=
  let s := { s with cur := p.cur }
  match p.found with
  | .instr i => if s.valuesOk i then s.charge i else 0
  | _ => 0

/-- The issue needs no pass, or its lane unit is free (R22). -/
def State.unitFree (s : State) (p : Prospect) : Bool :=
  let s := { s with cur := p.cur }
  let now := (s.cluster (clusterOf p.cur.group)).lanes
  match p.found with
  | .instr i =>
    (match i.op, takesPass i with
      | some o, some sfu =>
        if popcount (s.act o) = 0 then true
        else
          let q := s.part (partOf p.cur.group)
          decide ((if sfu then q.sfuFree else q.bankFree) ≤ now)
      | _, _ => true)
  | _ => true

/-- The tile an instruction uses has a slot (R379). -/
def State.slotReady (s : State) (p : Prospect) (i : Instr) : Bool :=
  let ready (x : Operand) : Bool :=
    (s.part (partOf p.cur.group)).hasSlot (tileKey (s.group p.cur.group).ctx (tileOf x).1)
  match i with
  | .mma o .. | .mzero o _ | .mldt o _ | .msto o _ | .msta o .. | .mpois o => ready o.d
  | .mmov o _ => ready (if o.d.isV then o.a else o.d)
  | _ => true

/-- Largest replay payload a form can produce, if it can produce one (R421, R422). -/
def State.logBytes (s : State) (i : Instr) : Option Nat :=
  let lanes (o : Op) := popcount (s.act o)
  let clock (x : Operand) : Bool :=
    match x with | .sr .clock | .sr .tick | .sr .pouch => true | _ => false
  match i with
  | .atom o _ t .. => some (4 * t.regs * lanes o)
  | .atomcas o wide .. => some ((if wide then 8 else 4) * lanes o)
  | .atomf o _ t .. => some ((if t = .f32 then 4 else 2) * lanes o)
  | .enq _ => some 4
  | .deq _ => some 260
  | .edit .. => some 8
  | .syscall _ => some (8 * popcount s.cur.mask)
  | .htest _ | .wait .. => some 1
  | .tokrd _ => some 16
  | _ =>
    match i.op with
    | some o => if clock o.a || clock o.b then some 8 else none
    | none => none

/-- Units of the log that a record with so many bytes of payload fills (R421). -/
def logRecord (n : Nat) : Nat := 1 + (n + 31) / 32

/-- Units that records of a group's earlier plane issues will still fill: results that wait for outside requests, a WAIT's
wake-up, a SYSCALL's reply, an issue that is to be made again once it is acknowledged (R421, R422). -/
def State.logOwed (s : State) (key : Nat) (g : Group) : Nat :=
  let result (r : Result) : Nat := match r.log with
    | some p => logRecord (p.parts.map fun x => x.2.length).sum
    | none => 0
  let split (k : Nat) : Nat := match (g.split k).wait with
    | some w =>
      (match w.kind with
        | .explicit _ => logRecord 1
        | .ringSlot .. | .reply .. => logRecord (8 * popcount w.lanes)
        | .ack .. =>
          (match s.found g (g.split k) w.plane with
            | .instr i =>
              let mask := (((g.split k).mid.getD default).todo.headD (0, 0)).2
              let cur : Cur := { group := key, slot := k, plane := w.plane, mask, paired := false, acked := false }
              ((({ s with cur } : State).logBytes i).map logRecord).getD 0
            | _ => 0)
        | _ => 0)
    | none => 0
  (g.inflight.map result).sum + (g.live.map split).sum

/-- Units that records still to come of a context's earlier plane issues will fill (R422). -/
def State.logReserved (s : State) (ctx : Nat) : Nat :=
  let resident := s.groups.map fun (key, g) =>
    match g with | some g => if g.ctx = ctx then s.logOwed key g else 0 | none => 0
  let saved := s.wgs.map fun (_, w) =>
    match w with
    | some w => if w.ctx = ctx then (w.saved.map fun e => (e.2.map (s.logOwed noSlot)).getD 0).sum else 0
    | none => 0
  let edits := (s.port.edits.filter fun e => e.page.isNone && e.ctx == ctx).length * logRecord 8
  let queues := (s.queueOps.filter fun q => (s.group q.group).ctx == ctx).map fun q => logRecord (if q.deq then 260 else 4)
  resident.sum + saved.sum + edits + queues.sum

/-- A full replay log with STALL holds the issue until its largest record fits beside those still to come (R422). -/
def State.logRoom (s : State) (p : Prospect) (i : Instr) : Bool :=
  let s := { s with cur := p.cur }
  let ctx := s.me.ctx
  if s.recording ctx && s.stalling ctx then
    match s.logBytes i with
    | some n => logRecord n + s.logReserved ctx ≤ s.logFree ctx
    | none => true
  else true

/-- Each partition has at most one EDIT waiting at the port (R319). -/
def State.editRoom (s : State) (p : Prospect) (i : Instr) : Bool :=
  match i with
  | .edit .. => !s.port.edits.any fun e => e.page.isNone && e.part == partOf p.cur.group
  | _ => true

/-- The split may issue as far as its group goes: not held, not stopped; of a workgroup that is stopping,
only a split between the plane issues of one offset (R51). -/
def State.splitLive (s : State) (p : Prospect) : Bool :=
  let g := s.group p.cur.group
  let sp := g.split p.cur.slot
  let inHandler := g.live.any fun k => (g.split k).handler
  sp.wait.isNone && (!inHandler || sp.handler) && g.held.isNone
  && (match (s.wgOf g.wg).state with
      | .running => true
      | .stopping => sp.mid.isSome
      | .away => false)

/-- Every condition of R47 but tokens and leave. -/
def State.ready (s : State) (p : Prospect) : Bool :=
  let g := s.group p.cur.group
  s.splitLive p && s.unitFree p && flagsClear g p.hints
  && (match p.found with
      | .instr i =>
        !s.tagBlocked g i && s.slotReady p i && s.logRoom p i && s.editRoom p i && s.inOrder p.cur.group i
        && (match i with
            -- an MMA that fails its checks traps, whatever the latch holds (R286)
            | .mma o w f =>
              bitsAt g.gang.toNat 16 2 == 0 || s.latchOpen g (coreOf p.cur.group)
              || ({ s with cur := p.cur }.mmaFault o w f).isSome
            | _ => true)
      | _ => true)

/-- The token condition (R47, R65). -/
def State.affords (s : State) (p : Prospect) : Bool :=
  let c := s.cluster (clusterOf p.cur.group)
  let n := s.presents p
  n == 0 || (n ≤ c.levelStart && (c.reservation.isNone || c.reservation == some p.cur.group))

/-- A solo MMA that passes its checks needs leave (R75, R286). -/
def State.needsLeave (s : State) (p : Prospect) : Bool :=
  let s := { s with cur := p.cur }
  match p.found with
  | .instr (.mma o w f) => bitsAt s.me.gang.toNat 16 2 == 0 && (s.mmaFault o w f).isNone
  | _ => false

/-- The request of a split for leave. -/
def State.requestOf (s : State) (p : Prospect) : Option LeaveRequest :=
  (s.cluster (clusterOf p.cur.group)).leave.find? fun r =>
    r.parts.length == 1 && r.group == p.cur.group && r.slot == p.cur.slot

/-- Leave granted: every older request is granted too, and this one may start now (R75). -/
def State.leaveOk (s : State) (p : Prospect) : Bool :=
  let cl := clusterOf p.cur.group
  let c := s.cluster cl
  match s.requestOf p with
  | none => false
  | some r =>
    s.leaveNow cl r
    && c.leave.all fun q => q == r || !q.before r
        || ((s.die (cl / 32)).gap == 0 && q.parts.length == 1 && s.leaveNow cl q)

/-! ## Choosing (R46, R47) -/

def State.ageOf (s : State) (key : Nat) : Nat :=
  (s.cluster (clusterOf key)).clock - (s.group key).ageBase

/-- p comes before q within one group: least region, offset, slot. -/
def Prospect.before (p q : Prospect) : Bool :=
  p.region < q.region
  || (p.region == q.region
      && (p.offset < q.offset || (p.offset == q.offset && p.cur.slot < q.cur.slot)))

/-- The least of some prospects. -/
def leastBy (lt : Prospect → Prospect → Bool) : List Prospect → Option Prospect
  | [] => none
  | p :: ps =>
    match leastBy lt ps with
    | some q => some (if lt q p then q else p)
    | none => some p

/-- R47's order of candidates of different groups. -/
def State.ranks (s : State) (p q : Prospect) : Bool :=
  let a := s.ageOf p.cur.group
  let b := s.ageOf q.cur.group
  let pa := s.priority (s.group p.cur.group).launch
  let pb := s.priority (s.group q.cur.group).launch
  b / 16 < a / 16
  || (a / 16 == b / 16
      && (pb < pa
          || (pa == pb && (b < a || (a == b && p.cur.group < q.cur.group)))))

/-- The prospects of some of a partition's groups. -/
def State.prospectsIn (s : State) (part : Nat) (slots : List Nat) : List Prospect :=
  slots.flatMap fun k =>
    let key := 16 * part + k
    match look none s.groups key with
    | some g => g.live.filterMap fun slot => s.prospect key slot
    | none => []

/-- The prospects of a partition's groups, none where it is stopped and no STEP runs (R409, R411). -/
def State.prospects (s : State) (part : Nat) : List Prospect :=
  let q := s.part part
  s.prospectsIn part (match q.stopped, q.stepping with
    | none, _ => List.range 16
    | some _, some k => [k]
    | some _, none => [])

/-- One candidate for each group: the least of its splits. -/
def oneEach (ps : List Prospect) : List Prospect :=
  ps.filter fun p => ps.all fun q => q.cur.group != p.cur.group || !q.before p

/-- The first in R47's order. -/
def State.first (s : State) (ps : List Prospect) : Option Prospect := leastBy s.ranks (oneEach ps)

/-- The issuing mask as the guard of a pass-taking form leaves it (R88). -/
def State.maskOf (s : State) (p : Prospect) : LaneMask :=
  match p.instr with
  | some i =>
    (match i.op, takesPass i with
      | some o, some _ => { s with cur := p.cur }.act o
      | _, _ => p.cur.mask)
  | none => p.cur.mask

/-- Weight for the smoothing rule (R60). -/
def Prospect.weight (p : Prospect) : Nat :=
  match p.instr with
  | some i => if isUniform i then 0 else
      match i.shape.weight with | .lanes w => w | .mma => 256 | .bytes => 0
  | none => 0

/-- The yield hint: the group is passed over while another group is a candidate (R176). -/
def State.yields (s : State) (p : Prospect) : Bool :=
  (s.cluster (clusterOf p.cur.group)).clock < (s.group p.cur.group).yieldUntil

/-- The pick among candidates, with smoothing. -/
def State.choose (s : State) (part : Nat) (cs : List Prospect) : Option Prospect :=
  let cs := if cs.all s.yields then cs else cs.filter fun p => !s.yields p
  let one := oneEach cs
  match leastBy s.ranks one with
  | none => none
  | some p =>
    let top := one.filter fun q => s.ageOf q.cur.group / 16 == s.ageOf p.cur.group / 16
    if (s.part part).heavy then
      let light := top.filter fun q => q.weight ≤ 1 || popcount (s.maskOf q) ≤ 8
      match leastBy s.ranks light with
      | some q => some q
      | none => some p
    else some p

/-! ## Pairs (R27) -/

def namesOnlyLanes (x : Operand) : Bool :=
  match x with | .s _ | .t _ _ | .sr _ => false | _ => true

/-- A word that may pair. -/
def pairable (i : Instr) : Bool :=
  match i.op with
  | none => false
  | some o =>
    let group := ((encode i).extractLsb' 92 4).toNat
    let memory := match i with | .ld .. | .ldnr .. | .st .. | .lds .. | .sts .. => true | _ => false
    ((1 ≤ group && group ≤ 7) || memory)
    && namesOnlyLanes o.d && namesOnlyLanes o.a && namesOnlyLanes o.b

/-- A partner for the pick. -/
def State.partner (s : State) (p : Prospect) (cs : List Prospect) : Option Prospect :=
  let g := s.group p.cur.group
  let c := s.cluster (clusterOf p.cur.group)
  match p.instr with
  | none => none
  | some i =>
    if !pairable i then none
    else
      leastBy s.ranks ((oneEach cs).filter fun q =>
        let h := s.group q.cur.group
        q.cur.group != p.cur.group && h.launch == g.launch && q.region == p.region
        && q.offset == p.offset && q.cur.plane == p.cur.plane && q.found == p.found
        && quads (s.maskOf p) + quads (s.maskOf q) ≤ 4
        && s.presents p + s.presents q ≤ c.pouch
        && (c.reservation.isNone || s.presents q == 0 || s.presents p == 0))

/-! ## One partition's turn in an FCLK cycle -/

/-- Requests for leave of the partition's solo MMAs: made when every other condition holds, dropped when
the split has left its MMA; a frozen group's stands (R75, R411). -/
def State.askLeave (s : State) (part : Nat) : State :=
  let cs := (s.prospects part).filter fun p => s.ready p && s.affords p
  let cl := part / 16
  let c := s.cluster cl
  let still := c.leave.filter fun r =>
    r.parts != [part]
    || (s.prospectsIn part (List.range 16)).any fun p =>
        p.cur.group == r.group && p.cur.slot == r.slot && s.needsLeave p
  let new := cs.filter fun p => s.needsLeave p
    && !still.any fun r => r.group == p.cur.group && r.slot == p.cur.slot && r.parts == [part]
  let made := new.map fun p =>
    ({ cycle := c.clock, group := p.cur.group, slot := p.cur.slot, parts := [part] } : LeaveRequest)
  s.setCluster cl { c with leave := still ++ made, mmaSeen := c.mmaSeen || cs.any s.needsLeave }

/-! ### The reservation (R65) -/

/-- A reservation falls when its holder is gone, halted or stopping (R65). -/
def State.holderLost (s : State) (key : Nat) : Bool :=
  match look none s.groups key with
  | none => true
  | some g => g.held.isSome || s.frozen key || (s.wgOf g.wg).state != .running

/-- r is granted before q: priority, count, partition. -/
def State.wantsBefore (s : State) (r q : Nat × Nat) : Bool :=
  let a := s.priority (s.group r.1).launch
  let b := s.priority (s.group q.1).launch
  b < a || (a == b && (q.2 < r.2 || (q.2 == r.2 && partOf r.1 < partOf q.1)))

def State.grantReservation (s : State) (cl : Nat) : State :=
  let c := s.cluster cl
  if c.reservation.isSome then s
  else
    match c.wanting.find? fun r => c.wanting.all fun q => q == r || !s.wantsBefore q r with
    | some r =>
      let d := s.die (cl / 32)
      (s.setDie (cl / 32) { d with granted := d.granted + 1 }).setCluster cl { c with
        reservation := some r.1, reservedSlot := (((s.part (partOf r.1)).rank).map (·.2)).getD 0,
        wanting := c.wanting.filter fun q => q != r }
    | none => s

/-- A released reservation passes at once to the next requester that still stands (R65). -/
def State.passReservation (s : State) (cl : Nat) : State :=
  let c := s.cluster cl
  (s.setCluster cl { c with reservation := none, wanting := c.wanting.filter fun e => !s.holderLost e.1 }).grantReservation
    cl

/-- The reservation of a holder that is gone, halted or stopping passes on (R65). -/
def State.dropHolder (s : State) (cl : Nat) : State :=
  match (s.cluster cl).reservation with
  | some k => if s.holderLost k then s.passReservation cl else s
  | none => s

/-- A group leaves its slot: its reservation passes on, and nothing it asked for stands (R65). -/
def State.vacate (s : State) (key : Nat) : State :=
  let cl := clusterOf key
  let q := s.part (partOf key)
  let s := if (q.rank.map (·.1)) == some key then s.setPart (partOf key) { q with rank := none, rankCount := 0 } else s
  let c := s.cluster cl
  let s := s.setCluster cl { c with wanting := c.wanting.filter fun e => e.1 != key }
  if c.reservation == some key then s.passReservation cl else s

/-- Count how long the same unaffordable split stands first among those that meet every condition but the token
condition (R65). -/
def State.countFirst (s : State) (part : Nat) (cs : List Prospect) : State :=
  let q := s.part part
  let cl := part / 16
  let c := s.cluster cl
  match s.first cs with
  | none => s.setPart part { q with rank := none, rankCount := 0 }
  | some p =>
    let me := (p.cur.group, p.cur.slot)
    -- the holder lets go when another of its splits takes first place
    let drop := c.reservation == some p.cur.group && c.reservedSlot != p.cur.slot
    let s := if drop then s.passReservation cl else s
    if s.presents p ≤ c.levelStart && s.affords p then
      s.setPart part { q with rank := some me, rankCount := 0 }
    else
      s.setPart part
        { q with rank := some me, rankCount := if q.rank == some me then q.rankCount + 1 else 1 }

/-- The requests for the reservation of a partition (R65). -/
def State.askReservation (s : State) (part : Nat) : State :=
  let q := s.part part
  let cl := part / 16
  let c := s.cluster cl
  let others := c.wanting.filter fun e => partOf e.1 != part
  let mine := match q.rank with
    | some r =>
      if 64 ≤ q.rankCount && c.reservation != some r.1 then [(r.1, q.rankCount)] else []
    | none => []
  s.setCluster cl { c with wanting := others ++ mine }

/-- Charges refused as unaffordable in this cycle (R68). -/
def State.noteRefused (s : State) (cs : List Prospect) : State :=
  cs.foldl (fun s p =>
    if s.affords p then s
    else
      let g := s.group p.cur.group
      s.setGroup p.cur.group { g with refused := g.refused + s.presents p }) s

/-- The age of a group has stood still since an FCLK cycle; one that has come, or has completed an offset, since then
begins anew (R46, R409). -/
def Group.thawed (g : Group) (since now : Nat) : Group :=
  { g with ageBase := if since ≤ g.ageBase then now else g.ageBase + (now - since) }

/-- The age of a frozen group does not advance (R409): its groups, but for one slot, grow no older than at an
FCLK cycle. -/
def State.thaw (s : State) (part since : Nat) (but : Nat) : State :=
  let now := (s.cluster (part / 16)).clock
  let shift (e : Nat × Option Group) : Nat × Option Group :=
    if partOf e.1 = part && e.1 % 16 != but then
      (e.1, e.2.map fun g => g.thawed since now)
    else e
  { s with groups := s.groups.map shift }

/-- A split has issued: its group's request for the reservation falls with its count, and where it holds the reservation
for this plane issue the next requester gets it (R65). -/
def State.releaseReservation (s : State) (x : Cur) : State :=
  let cl := clusterOf x.group
  let c := s.cluster cl
  let p := s.part (partOf x.group)
  let s := if p.rank == some (x.group, x.slot) then
      (s.setPart (partOf x.group) { p with rank := none, rankCount := 0 }).setCluster cl
        { c with wanting := c.wanting.filter fun e => e.1 != x.group }
    else s
  if c.reservation == some x.group && c.reservedSlot == x.slot then s.passReservation cl else s

/-- A STEP, of a slot whose group has been frozen since a cycle, ends: the others' ages have stood still (R409, R411). -/
def State.endStep (s : State) (part slot since : Nat) : State :=
  let s := s.thaw part since slot
  let p := s.part part
  let now := (s.cluster (part / 16)).clock
  s.setPart part { p with stepping := none, stopped := p.stopped.map fun x => { x with since := now } }

/-- The issue of a STEP has been made: its partition stops again, with CAUSE 4 where the issue itself gave no lower one.
An issue that a watchpoint withheld was not made: the stop stands as it was, and the command completes NOTREADY, RESULT 4
(R411, R412). -/
def State.afterStep (s : State) (part slot : Nat) (old : Stopped) (c : Cur) : State :=
  let s := s.thaw part old.since slot
  if (s.group c.group).held.isSome then
    let p := s.part part
    let since := (s.cluster (part / 16)).clock
    (s.setPart part { p with stopped := some { old with since } }).dbgDone 3 4
  else (s.stopPart part 4 slot c.slot c.plane 0 none).dbgDone 3 0

/-- What follows an issue: smoothing's memory, the reservation let go, the count restarted, and the end of a STEP, of a
slot and the stop as it stood. -/
def State.afterIssue (s : State) (part : Nat) (p : Prospect) (step : Option (Nat × Stopped)) : State :=
  let s := s.setPart part { s.part part with heavy := 4 ≤ p.weight }
  let s := s.releaseReservation p.cur
  match step with
  | some (k, old) => s.afterStep part k old p.cur
  | none => s

/-- The split a plane issue names is resident. -/
def State.issuer (s : State) (c : Cur) : Bool :=
  match look none s.groups c.group with
  | some g => (look none g.splits c.slot).isSome
  | none => false

/-- The second issue of a pair; its faults and flags are its own (R27). -/
def State.issuePartner (run : Instr → State → Out) (s : State) (q : Prospect) : Out :=
  let c := { q.cur with paired := true }
  if s.issuer c then (s.issue run c).map fun s => s.releaseReservation c else .next s

/-- Splits whose next word reads a register tagged with a pending handle enter their implicit WAIT (R50). -/
def State.blockTagged (s : State) (ps : List Prospect) : State :=
  ps.foldl (fun s p =>
    match p.instr with
    | none => s
    | some i =>
      let g := s.group p.cur.group
      let conds := s.handlesOf g i
      if !s.splitLive p || conds.isEmpty then s
      else
        let w : Waiting :=
          { kind := .handle, conds, all := true, expiry := none, lanes := p.cur.mask, region := p.region,
            offset := p.offset, plane := p.cur.plane, yield := false }
        s.setGroup p.cur.group (g.setSplit p.cur.slot (some { g.split p.cur.slot with wait := some w }))) s

/-- A solo MMA that asks for no leave because it cannot pay, or whose group holds the reservation, is ranked and refused as
one that meets every condition but the token condition (R65, R68, R77; log entry 61). -/
def State.leaveLater (s : State) (p : Prospect) : Bool :=
  s.needsLeave p && (!s.affords p || (s.cluster (clusterOf p.cur.group)).reservation == some p.cur.group)

/-- A partition picks and issues (R47, R64). A partition that waits for the issue of a STEP runs for it (R411). -/
def State.servePart (run : Instr → State → Out) (s : State) (part : Nat) : Out :=
  let s := s.dropHolder (part / 16)
  let ps := s.prospects part
  let s := s.blockTagged ps
  let ready := ps.filter s.ready
  let leave (p : Prospect) : Bool := !s.needsLeave p || s.leaveOk p
  let ranked := ready.filter fun p => leave p || s.leaveLater p
  let may := ready.filter leave
  let s := ((s.countFirst part ranked).askReservation part).noteRefused ranked
  let cands := may.filter s.affords
  match s.choose part cands with
  | none => .next s
  | some p =>
    let n := s.presents p
    if (s.cluster (part / 16)).pouch < n then
      -- refused: the pouch no longer holds the charge after the cycle's earlier grants
      let g := s.group p.cur.group
      .next (s.setGroup p.cur.group { g with refused := g.refused + n })
    else
      let q := s.part part
      let step := match q.stepping, q.stopped with | some k, some x => some (k, x) | _, _ => none
      let s := if step.isSome then s.setPart part { q with stopped := none, stepping := none } else s
      let first := s.issue run p.cur
      let both := match s.partner p cands with
        | some q => first.bind fun t => t.issuePartner run q
        | none => first
      both.map fun t => t.afterIssue part p step

/-! ## FCLK cycles of a cluster -/

/-- A result lands: its writes, its floating-point flags, its completion flags. -/
def Group.landResult (g : Group) (idx : Nat) : Group :=
  match g.inflight[idx]? with
  | some r =>
    (((({ g with inflight := g.inflight.eraseIdx idx }).writes r.writes).orFpx r.fpx).lower r.set1).lower
      r.set2
  | none => g

/-- Results that fall in an FCLK cycle by rule (R273, R305). -/
def Group.landDue (g : Group) (clock : Nat) : Nat → Group
  | 0 => g
  | n + 1 =>
    match g.inflight.findIdx? fun r => match r.due with | some t => t ≤ clock | none => false with
    | some i => (g.landResult i).landDue clock n
    | none => g

/-- The FCLK edge: takes reach the pouch (R59), the level is fixed (R64), results that are due fall, the gate's requests
are made and it grants (R75). Flags due in this cycle (R273, R305) fall here, before the cycle's wait test reads them
(DESIGN CHOICE, log entry 61). -/
def State.startCycle (s : State) (cl : Nat) : State :=
  let c := s.cluster cl
  let level := min (c.pouch + c.taken) Config.pouchCapacity
  let s := s.setCluster cl { c with
    pouch := level, taken := 0, levelStart := level, wanting := c.wanting.filter fun e => !s.holderLost e.1 }
  let s := s.dropHolder cl
  let calm (e : Nat × Option Group) : Nat × Option Group :=
    if clusterOf e.1 = cl then
      (e.1, e.2.map fun g => ({ g with refused := 0 } : Group).landDue c.clock g.inflight.length)
    else e
  let began (w : Workgroup) : Workgroup :=
    if w.core / 4 = cl then { w with batches := w.batches.map fun e => (e.1, { e.2 with fresh := false }) } else w
  let s := { s with
    groups := s.groups.map calm, wgs := s.wgs.map fun (e : Nat × Option Workgroup) => (e.1, e.2.map began) }
  ((List.range 16).foldl (fun s p => (s.announce (16 * cl + p)).askLeave (16 * cl + p)) s).gateGrant cl

/-- The FCLK cycle ends: the queue operations that arrived in it are served (R274). -/
def State.endCycle (s : State) (cl : Nat) : State :=
  let s := s.serveQueues cl
  let c := s.cluster cl
  s.setCluster cl { c with
    clock := c.clock + 1, lanes := c.lanes + laneRate c.ratio, due := c.due - 1, cursor := 0,
    rot := (c.rot + 1) % 16, ran := c.ran + 1 }

/-- Steps that come before the cluster's next FCLK cycle: splits that wake, arrays that start or finish, a
reservation to grant. -/
def State.pendingIn (s : State) (cl : Nat) : Bool :=
  let c := s.cluster cl
  (s.groups.any fun e => clusterOf e.1 == cl
    && (match e.2 with
        | some g => g.live.any fun k => s.wakeable e.1 k || s.timedOut e.1 k
        | none => false))
  || ((List.range 16).any fun p => s.startDue (16 * cl + p) || s.completeDue (16 * cl + p))
  || (c.reservation.isNone && !c.wanting.isEmpty)

/-- The next partition of a cluster's FCLK cycle, in the rotated order of R64. -/
def State.cycleTurn (run : Instr → State → Out) (s : State) (cl : Nat) : Out :=
  let c := s.cluster cl
  if c.due = 0 || c.halted || (c.cursor == 0 && s.pendingIn cl) then .next s
  else
    let s := if c.cursor = 0 then s.startCycle cl else s
    let c := s.cluster cl
    let part := 16 * cl + (c.rot + c.cursor) % 16
    let last := c.cursor == 15
    let s := s.setCluster cl { c with cursor := c.cursor + 1 }
    (s.servePart run part).map fun s => if last then s.endCycle cl else s

/-! ## RESERVATION_REQUEST (R65) -/

def execReservationRequest (cluster : Nat) (s : State) : Out := .next (s.grantReservation cluster)

/-! ## LONG_LATENCY_RESULT (R174)

Flags are tested as they stand when an FCLK cycle begins, so that results land between the cycles of their group's
cluster. -/

def execLongLatencyResult (group idx : Nat) (s : State) : Out :=
  .next (
    match look none s.groups group with
    | none => s
    | some g =>
      match g.inflight[idx]? with
      | none => s
      | some r =>
        if !r.await.isEmpty || r.due.isSome || (s.cluster (clusterOf group)).cursor != 0 then s
        else if r.held then s.fillTile group r
        else s.setGroup group (g.landResult idx))

end Sys2Proof.Machine
end

