-- ==== Sys2Proof/Machine/Place.lean ====
section
/-! DEFINITION. Storage and places: device memory the Blocker allocates (R43, R365, R429), room on a core
(R42 to R44), groups as they become resident (R24, R28, R81) and leave (R54), and the steps
WORK_CLUSTER_PLACE and GROUP_RETIRE. -/

namespace Sys2Proof.Machine

/-! ## Device memory -/

/-- The cells of a range of the interleaved view, granule by granule of 4 KiB (R366). -/
def viewCells (a n : Nat) : List (Nat × Nat) :=
  if n = 0 then []
  else (List.range ((a + n - 1) / 4096 - a / 4096 + 1)).map fun i =>
    let lo := max a ((a / 4096 + i) * 4096)
    let hi := min (a + n) ((a / 4096 + i + 1) * 4096)
    (canonicalDev lo, canonicalDev lo + (hi - lo))

/-- The HBM cells, by local view, or other cells that a range of device memory occupies: of the interleaved view, four
granules in a row are one granule of each die (R362, R366). -/
def footprint (a n : Nat) : List (Nat × Nat) :=
  if hbmView ≤ a ∧ a < hbmView + 4 * hbmBytes then
    let o := a - hbmView
    let lo := (o + 16383) / 16384
    let hi := (o + n) / 16384
    if lo < hi then
      viewCells a (16384 * lo - o)
      ++ (List.range 4).map (fun d => (d * hbmBytes + 4096 * lo, d * hbmBytes + 4096 * hi))
      ++ viewCells (hbmView + 16384 * hi) (o + n - 16384 * hi)
    else viewCells a n
  else [(a, a + n)]

/-- Two ranges, given by their ends, have a byte in common. -/
def meets (x y : Nat × Nat) : Bool := max x.1 y.1 < min x.2 y.2

/-- Cells that no allocation may take: what the Blocker has allocated but for some blocks, what MAP records name,
retired granules, and the top of each die's HBM, where the tables stand (DESIGN CHOICE). -/
def State.busyBut (s : State) (but : List (Nat × Nat)) : List (Nat × Nat) :=
  ((s.allocated.filter fun e => !but.contains e).flatMap fun (a, n) => footprint a n)
  ++ (s.maps.flatMap fun (_, m) =>
    match m with | some m => if m.mkind = 0 then footprint m.target m.length else [] | none => [])
  ++ (s.retiredMem.map fun k => (4096 * k, 4096 * k + 4096))
  ++ (List.range 4).map fun d => ((d + 1) * hbmBytes - s.tableBytes, (d + 1) * hbmBytes)

def State.busyMem (s : State) : List (Nat × Nat) := s.busyBut []

def isFree (busy : List (Nat × Nat)) (a n : Nat) : Bool :=
  (footprint a n).all fun x => busy.all fun y => !meets x y

def roundUp (x align : Nat) : Nat := (x + align - 1) / align * align

/-- First fit between two addresses (DESIGN CHOICE: the spec names no order). -/
def firstFit (busy : List (Nat × Nat)) (lo hi align n : Nat) : Option Nat :=
  let cands := (roundUp lo align :: busy.map fun y => roundUp y.2 align)
  lowest (cands.filter fun a => lo ≤ a && a + n ≤ hi && isFree busy a n)

/-- HBM of a die that is up: one stack of C0 in Stage A (R395). -/
def State.hbmUp (s : State) (die : Nat) : Nat :=
  if s.stage = 2 then hbmBytes else if die = 0 then 0xC_0000_0000 else 0

def State.fitHbm (s : State) (busy : List (Nat × Nat)) (die align n : Nat) : Option Nat :=
  firstFit busy (die * hbmBytes) (die * hbmBytes + s.hbmUp die) align n

/-! ## Room on a core (R42 to R44) -/

/-- What is in use: group slots and register bytes by partition, shared-memory bytes by core, memory. -/
structure Room where
  slots : Sparse Nat
  regs : Sparse Nat
  shared : Sparse Nat
  busy : List (Nat × Nat)
deriving DecidableEq, Repr, Inhabited

/-- What a workgroup needs: groups, width, registers, shared bytes, stack bytes per lane. -/
structure Need where
  groups : Nat
  width : Nat
  regs : Nat
  shared : Nat
  stack : Nat
deriving DecidableEq, Repr, Inhabited

def Launch.need (l : Launch) : Need :=
  { groups := (l.lanes + l.width - 1) / l.width, width := l.width, regs := l.regs, shared := l.shared,
    stack := l.stack }

def Room.addGroup (r : Room) (part bytes : Nat) : Room :=
  { r with slots := put 0 r.slots part (look 0 r.slots part + 1),
           regs := put 0 r.regs part (look 0 r.regs part + bytes) }

def Room.addShared (r : Room) (core bytes : Nat) : Room :=
  { r with shared := put 0 r.shared core (look 0 r.shared core + bytes) }

/-- Stack backings of the groups of some workgroups, resident or away. -/
def State.backingsOf (s : State) (of : Workgroup → Bool) : List (Nat × Nat) :=
  (s.groups.filterMap fun e =>
    match e.2 with | some g => if of (s.wgOf g.wg) then some g.backing else none | none => none)
  ++ s.wgs.flatMap fun e =>
    match e.2 with
    | some w => if of w then w.saved.filterMap fun x => x.2.map (·.backing) else []
    | none => []

/-- What the work that `counts` says to count has in use; what the rest holds counts as free (R45). -/
def State.roomOf (s : State) (counts : Workgroup → Bool) : Room :=
  let r : Room :=
    { slots := [], regs := [], shared := [], busy := s.busyBut (s.backingsOf fun w => !counts w) }
  let r := s.groups.foldl (fun (r : Room) e =>
    match e.2 with
    | some g => if counts (s.wgOf g.wg) then r.addGroup (partOf e.1) (g.regs * g.width * 4) else r
    | none => r) r
  s.wgs.foldl (fun (r : Room) e =>
    match e.2 with
    | some w => if counts w && w.state != .away then r.addShared w.core w.sharedBytes else r
    | none => r) r

def State.room (s : State) : Room := s.roomOf fun _ => true

/-- Free group slots of a core and of a cluster. -/
def Room.freeOfCore (r : Room) (core : Nat) : Nat :=
  ((List.range 4).map fun p => 16 - look 0 r.slots (4 * core + p)).foldl (· + ·) 0
def Room.freeOfCluster (r : Room) (cl : Nat) : Nat :=
  ((List.range 4).map fun c => r.freeOfCore (4 * cl + c)).foldl (· + ·) 0

/-- The first of some numbers with the greatest measure. -/
def mostOf (f : Nat → Nat) : List Nat → Option Nat
  | [] => none
  | x :: xs =>
    match mostOf f xs with
    | some y => some (if f x < f y then y else x)
    | none => some x

/-- The partition of a core with the most free slots (R44). -/
def Room.firstPart (r : Room) (core : Nat) : Nat :=
  (mostOf (fun p => 16 - look 0 r.slots (4 * core + p)) (List.range 4)).getD 0

/-- Where a group goes: its partition, and its stack backing. -/
abbrev Spot := Nat × Nat × Nat

/-- Take a place for group i of n on a core, with backing unless it keeps one; a backing is aligned to 4,096 bytes
(DESIGN CHOICE, log entry 18). -/
def State.takeGroup (s : State) (core p0 : Nat) (n : Need) (keeps : Bool) (r : Room) (i : Nat) :
    Option (Room × Spot) :=
  let part := 4 * core + (p0 + i) % 4
  let bytes := n.regs * n.width * 4
  if look 0 r.slots part < 16 && look 0 r.regs part + bytes ≤ Config.registerFileBytes then
    let r := r.addGroup part bytes
    if n.stack = 0 || keeps then some (r, part, 0, 0)
    else
      let b := n.stack * n.width
      match s.fitHbm r.busy (core / 128) 4096 b with
      | some a => some ({ r with busy := (a, a + b) :: r.busy }, part, a, b)
      | none => none
  else none

/-- The groups of a workgroup in turn. -/
def State.takeGroups (s : State) (core p0 : Nat) (n : Need) (keeps : Bool) :
    List Nat → Room → Option (Room × List Spot)
  | [], r => some (r, [])
  | i :: is, r =>
    match s.takeGroup core p0 n keeps r i with
    | none => none
    | some (r, x) => (s.takeGroups core p0 n keeps is r).map fun (r, xs) => (r, x :: xs)

/-- Some groups of a workgroup fit on a core (R43, R44): the room afterwards and where they go. -/
def State.takeSome (s : State) (r : Room) (core : Nat) (n : Need) (keeps : Bool) (is : List Nat) :
    Option (Room × List Spot) :=
  if look 0 r.shared core + n.shared ≤ Config.sharedBytes then
    s.takeGroups core (r.firstPart core) n keeps is (r.addShared core n.shared)
  else none

/-- A workgroup fits on a core: all its groups do. -/
def State.takeWg (s : State) (r : Room) (core : Nat) (n : Need) : Option (Room × List Spot) :=
  s.takeSome r core n false (List.range n.groups)

/-- The core of a cluster for some groups of a workgroup: most free slots among those on which they fit. -/
def State.pickCore (s : State) (r : Room) (cl : Nat) (n : Need) (keeps : Bool) (is : List Nat) : Option Nat :=
  mostOf r.freeOfCore
    (((List.range 4).map (4 * cl + ·)).filter fun c => (s.takeSome r c n keeps is).isSome)

/-- `k` workgroups on one cluster, in ascending order: a core and spots for each. -/
def State.takeWgs (s : State) (cl : Nat) (n : Need) : Nat → Room → Option (Room × List (Nat × List Spot))
  | 0, r => some (r, [])
  | k + 1, r =>
    match s.pickCore r cl n false (List.range n.groups) with
    | none => none
    | some core =>
      match s.takeWg r core n with
      | none => none
      | some (r, xs) => (s.takeWgs cl n k r).map fun (r, ys) => (r, (core, xs) :: ys)

/-- The cluster of a die for a work cluster: most free slots among those with room. -/
def State.pickCluster (s : State) (r : Room) (die : Nat) (n : Need) (k : Nat) : Option Nat :=
  mostOf r.freeOfCluster
    (((List.range 32).map (32 * die + ·)).filter fun c => (s.takeWgs c n k r).isSome)

/-- Dies of a placement set in the order in which work cluster j tries them (R42). -/
def Launch.dieOrder (l : Launch) (j : Nat) : List Nat :=
  let ds := (List.range 4).filter fun d => l.dies.testBit d
  let i := j % max ds.length 1
  ds.drop i ++ ds.take i

/-- Workgroups of work cluster j (R18). -/
def Launch.clusterCount (l : Launch) (j : Nat) : Nat := min l.wcluster (l.wgcount - j * l.wcluster)
def Launch.clusterTotal (l : Launch) : Nat := (l.wgcount + l.wcluster - 1) / max l.wcluster 1

/-- Where work cluster j of a launch goes. -/
def State.planCluster (s : State) (r : Room) (l : Launch) (j : Nat) :
    Option (Room × List (Nat × List Spot)) :=
  (l.dieOrder j).findSome? fun d =>
    match s.pickCluster r d l.need (l.clusterCount j) with
    | some cl => s.takeWgs cl l.need (l.clusterCount j) r
    | none => none

/-- Where k work clusters from j on go, one after another (R45): none where one does not fit. -/
def State.planFrom (s : State) (l : Launch) : Nat → Nat → Room → Option (List (Nat × List Spot))
  | 0, _, _ => some []
  | k + 1, j, r =>
    match s.planCluster r l j with
    | some (r, plan) => (s.planFrom l k (j + 1) r).map (plan ++ ·)
    | none => none

/-! ## Becoming resident (R24, R28, R81) -/

/-- Lanes of group i of a workgroup of N lanes with workgroup index below n. -/
def lanesBelow (width i n : Nat) : LaneMask :=
  maskOf ((List.range width).filter fun l => width * i + l < n)

/-- A group as it becomes resident. -/
def State.freshGroup (s : State) (id wg i : Nat) (backing : Nat × Nat) (clock : Nat) : Group :=
  let l := s.launch id
  let real := lanesBelow l.width i l.lanes
  let helper := lanesBelow l.width i (roundUp l.lanes 4) &&& ~~~real
  let s4 := s.ctxFlag l.ctx 0
  let sp : Split :=
    { region := l.entry.region, offset := l.entry.offset, mask := real ||| helper, mid := none, wait := none,
      handler := false }
  let g : Group :=
    { ctx := l.ctx, launch := id, wg, index := i, width := l.width, regs := l.regs, real, helper, exited := 0,
      splits := [(0, some sp)], stack := [], budget := if s4 then 4 else 2, planes := [], v := [], s := [],
      p := [], flags := [], links := [], fpx := 0, gang := BitVec.ofNat 32 i,
      hint := s.ctxField l.ctx 18 1, tags := [], nextSeq := 1, stackMem := [], stackPoison := [], stackLim := l.stack / 256,
      backing, handling := none, inflight := [], nextResult := 0, ageBase := clock, drawn := 0, refused := 0, yieldUntil := 0,
      held := none, released := [], fence := [], lost := [], joined := [] }
  g.writes (writeS64 0 (BitVec.ofNat 64 l.arg) ++ writeS64 2 (BitVec.ofNat 64 l.data))

/-- The lowest free group slot of a partition. -/
def State.freeSlot (s : State) (part : Nat) : Nat :=
  ((List.range 16).find? fun k => (look none s.groups (16 * part + k)).isNone).getD 0

/-- A cluster that receives its first resident group becomes floored from the next hop (R67). -/
def State.floorCluster (s : State) (cl : Nat) : State :=
  let c := s.cluster cl
  if c.floored then s
  else
    let d := s.die (cl / 32)
    let rem := d.floorRate * (Config.roundHops - (s.hop + 1) % Config.roundHops)
    (s.setDie (cl / 32) { d with floors := d.floors + 1 }).setCluster cl
      { c with floored := true, floorRem := rem, allot := rem }

/-- Units of the save area that a workgroup takes: its groups' frames and its window (R376). -/
def Launch.unitsPerWg (l : Launch) : Nat := 19 * l.need.groups + (l.shared + 4095) / 4096

/-- Put the groups of a workgroup on their spots, lowest free slot first; their keys come back. -/
def State.seat (s : State) (mk : Nat → Spot → Group) : List (Nat × Spot) → State × List Nat
  | [] => (s, [])
  | (i, x) :: rest =>
    let key := 16 * x.1 + s.freeSlot x.1
    let s := if x.2.2 = 0 then s else { s with allocated := x.2 :: s.allocated }
    let (s, ks) := (s.setGroup key (mk i x)).seat mk rest
    (s, key :: ks)

/-- Start workgroup `index` of a launch on a core. -/
def State.startWg (s : State) (id index core : Nat) (spots : List Spot) (unit : Nat) : State :=
  let l := s.launch id
  let wg := s.nextWg
  let cl := core / 4
  let clock := (s.cluster cl).clock
  let (s, keys) := s.seat (fun i x => s.freshGroup id wg i x.2 clock) ((List.range spots.length).zip spots)
  let w : Workgroup :=
    { launch := id, ctx := l.ctx, index, core, state := .running, groups := keys, retired := [], shared := [],
      sharedPoison := [], sharedBytes := l.shared, missing := [], batches := [], collected := [], saved := [],
      draining := false, preempted := false, moving := none, unit, claimed := false, stopTick := 0 }
  let s := ({ s with nextWg := wg + 1 }.setWg wg w).takeUnits l.ctx unit l.unitsPerWg
  let l := s.launch id
  let l := { l with started := l.started + 1, cores := if l.cores.contains core then l.cores else core :: l.cores }
  ((s.setLaunch id l).bumpAst id 0 1).floorCluster cl

/-! ## WORK_CLUSTER_PLACE (R42) -/

/-- Start a work cluster's workgroups in ascending order; units that cannot be allocated end it (R376). -/
def State.startWgs (s : State) (id : Nat) : Nat → List (Nat × List Spot) → Option State
  | _, [] => some s
  | index, (core, spots) :: rest =>
    let l := s.launch id
    match s.fitUnits l.ctx l.unitsPerWg with
    | none => none
    | some u => (s.startWg id index core spots u).startWgs id (index + 1) rest

/-- The launch's scratchpad areas stand on every die of its set (R43, R378). -/
def State.areasHeld (s : State) (id : Nat) : Bool :=
  let l := s.launch id
  l.scratch = 0 || (List.range 4).all fun d => !l.dies.testBit d || (keys l.areas).contains d

/-- A co-operative launch that has been admitted starts all its workgroups before anything else is placed
(R45). -/
def State.starting (s : State) (id : Nat) : Bool :=
  let a := s.astOf id
  (s.launch id).coop && a.phase == .building && a.progress == 3

/-- A launch still has work clusters to place, and may place them: it is admitted and not drained. -/
def State.waiting (s : State) (id : Nat) : Bool :=
  match look none s.launches id with
  | none => false
  | some l =>
    let a := s.astOf id
    let phase := a.phase == .live || (a.phase == .building && a.progress == 3)
    phase && !l.draining && l.next < l.clusterTotal && !(s.ctxOf l.ctx).fatal && s.areasHeld id

/-- Windows of workgroups that are away but still hold their core's shared memory (R378). -/
def State.keptShared (s : State) (core : Nat) : Nat :=
  s.wgs.foldl (fun n e =>
    match e.2 with
    | some w => if w.core = core && w.state == .away && !w.claimed then n + w.sharedBytes else n
    | none => n) 0

/-- Shared bytes of a plan on a core. -/
def planShared (n : Need) (core : Nat) (plan : List (Nat × List Spot)) : Nat :=
  n.shared * (plan.filter fun e => e.1 == core).length

/-- The storage of a plan is not another's: what is owned by those away must be claimed first (R378). -/
def State.unowned (s : State) (n : Need) (plan : List (Nat × List Spot)) : Bool :=
  let r := s.room
  plan.all fun e =>
    look 0 r.shared e.1 + s.keptShared e.1 + planShared n e.1 plan ≤ Config.sharedBytes

/-- Work clusters that the launch's next step places: a co-operative launch starts whole (R45). -/
def State.batchOf (s : State) (id : Nat) : Nat :=
  let l := s.launch id
  if s.starting id then l.clusterTotal - l.next else 1

/-- a is offered room before b: priority, the launch being offered room, since when it waits, record id (R42). -/
def State.offeredBefore (s : State) (a b : Nat) : Bool :=
  let pa := s.priority a
  let pb := s.priority b
  let ta := (s.launch a).since.getD s.tick
  let tb := (s.launch b).since.getD s.tick
  if s.starting a != s.starting b then s.starting a
  else if pa != pb then pb < pa
  else if (s.offered == some a) != (s.offered == some b) then s.offered == some a
  else ta < tb || (ta == tb && a < b)

/-- Launches with work to place, in the order in which they are offered room. -/
def insertOffer (s : State) (a : Nat) : List Nat → List Nat
  | [] => [a]
  | b :: bs => if s.offeredBefore a b then a :: b :: bs else b :: insertOffer s a bs

def State.offers (s : State) : List Nat :=
  ((keys s.launches).filter s.waiting).foldr (insertOffer s) []

/-- The next work clusters of a launch go where the plan says: all of them, or none where units run out. Each work cluster
of one step beyond the first is a step of its own (R329, R332, R335). -/
def State.placeNext (s : State) (id : Nat) (plan : List (Nat × List Spot)) : State :=
  let l := s.launch id
  let n := s.batchOf id
  match s.startWgs id (l.next * l.wcluster) plan with
  | none => (s.setLaunch id { l with draining := true }).faultRecord id 2
  | some s =>
    let l := s.launch id
    let a := s.astOf id
    ({ s with offered := some id }.setLaunch id { l with next := l.next + n, since := none }).writeAst id
      { a with steps := a.steps + (n - 1) }

/-- Launches that find no room note since when they wait; the offer passes on. -/
def State.noteWait (s : State) (id : Nat) : State :=
  let l := s.launch id
  let s := if s.offered = some id then { s with offered := none } else s
  if l.since.isSome then s else s.setLaunch id { l with since := some s.tick }

/-- The first launch in order whose next work clusters fit, and their plan; those before it are passed over. -/
def State.nextPlace (s : State) : List Nat → State × Option (Nat × List (Nat × List Spot))
  | [] => (s, none)
  | id :: ids =>
    match s.planFrom (s.launch id) (s.batchOf id) (s.launch id).next s.room with
    | some plan => (s, some (id, plan))
    | none => (s.noteWait id).nextPlace ids

/-! ## Leaving (R54) -/

/-- Free a group's slot and registers; a clearing that has judged it keeps what it used (R67). -/
def State.dropGroup (s : State) (key : Nat) : State :=
  let g := s.group key
  let note (e : JudgedGroup) : JudgedGroup :=
    if e.wg = g.wg && e.index = g.index && e.left.isNone then { e with left := some (g.drawn + g.refused) } else e
  let s : State := { s with
    groups := put none s.groups key none,
    hits := s.hits.filter fun h => h.cur.group != key,
    judged := s.judged.map fun j => { j with groups := j.groups.map note } }
  s.vacate key

/-- Release a workgroup: its window and its units. -/
def State.dropWg (s : State) (wg : Nat) : State :=
  let w := s.wgOf wg
  ({ s with wgs := put none s.wgs wg none }).freeUnits w.ctx w.unit (s.launch w.launch).unitsPerWg

/-- Release a group's stack backing. -/
def State.freeBacking (s : State) (g : Group) : State :=
  { s with allocated := s.allocated.filter fun e => e.2 = 0 || e != g.backing }

/-- The batches of a group are drained (R51): no closed one is incomplete, every command of an open one is
performed. -/
def Workgroup.drained (w : Workgroup) (grp : Nat) : Bool :=
  w.batches.all fun e => e.1 != grp || (!e.2.closed && e.2.count == e.2.done)

/-- Nothing of a group is in flight: results, tile forms, arrays, batches. -/
def State.quiet (s : State) (key : Nat) : Bool :=
  let g := s.group key
  let p := s.part (partOf key)
  g.inflight.isEmpty && p.jobs.all (fun j => j.group != key) && p.array.all (fun j => j.group != key)
  && (s.wgOf g.wg).drained g.index

/-- Every lane of the group has exited. -/
def Group.finished (g : Group) : Bool := g.live.isEmpty && g.stack.isEmpty

/-- A group whose lanes have all exited retires when its batches are complete; then its workgroup. -/
def State.retireGroup (s : State) (key : Nat) : State :=
  let g := s.group key
  let s := (s.dropGroup key).freeBacking g
  let w := s.wgOf g.wg
  let w := { w with groups := w.groups.set g.index noSlot, retired := w.retired ++ [g.index],
                    batches := w.batches.filter fun e => e.1 != g.index }
  let s := s.setWg g.wg w
  if w.retired.length < w.groups.length then s
  else
    let l := s.launch w.launch
    ((s.dropWg g.wg).setLaunch w.launch { l with retired := l.retired + 1 }).bumpAst w.launch 1 1

def execGroupRetire (group : Nat) (s : State) : Out :=
  .next (
    match look none s.groups group with
    | some g => if g.finished && s.quiet group then s.retireGroup group else s
    | none => s)

end Sys2Proof.Machine
end

