-- ==== Sys2Proof/Machine/Preempt.lean ====
section
/-! DEFINITION. Stopping, saving and returning workgroups (R51, R370, R376 to R380, R434): group frames, and the
steps PREEMPT, WORKGROUP_RESUME and STORAGE_CLAIM. -/

namespace Sys2Proof.Machine

/-! ## Group frames (R377, R434) -/

/-- 16 bytes in R32's layout. -/
def placeBytes (mask : LaneMask) (offset region : Nat) : List Byte :=
  leBytes 2 0 ++ leBytes 2 region ++ leBytes 4 offset ++ leBytes 8 mask.toNat

def CondKind.code : CondKind → Nat
  | .phase => 1 | .handle => 2 | .monitor => 3 | .time => 4

/-- One condition in the layout of R259. -/
def Cond.bytes (c : Cond) (more : Bool) : List Byte :=
  leBytes 8 c.addr.toNat ++ leBytes 4 c.value.toNat
  ++ leBytes 4 (c.kind.code + (if c.ne then 8 else 0) + 16 * c.scope.code.toNat
      + (if c.acq then 128 else 0) + (if more then 2 ^ 31 else 0))

def condsBytes : List Cond → List Byte
  | [] => []
  | c :: cs => c.bytes (!cs.isEmpty) ++ condsBytes cs

/-- A wait as a frame holds it: its conditions, expiry, and whether it is implicit. -/
structure Held where
  conds : List Cond
  expiry : Option Nat
  implicit : Bool
deriving DecidableEq, Repr

def plainCond (kind : CondKind) (addr : DWord) : Cond :=
  { kind, addr, value := 0, ne := false, scope := .lane, acq := false, met := none, tested := 0 }

/-- How a frame holds a split's wait (R434); `dump` for a dump, which marks the waits a save does not have. -/
def State.heldOf (s : State) (key slot : Nat) (dump : Bool) : Option Held :=
  let g := s.group key
  match (g.split slot).wait with
  | some w =>
    (match w.kind with
      | .explicit _ => some { conds := w.conds, expiry := w.expiry, implicit := false }
      | .reply _ k =>
        let c := plainCond .monitor (BitVec.ofNat 64 (s.callSlot g.ctx k + 4))
        some { conds := [{ c with ne := true, scope := .dev }], expiry := none, implicit := true }
      | .handle =>
        let conds := (w.conds.take 1).map fun c => plainCond .handle c.addr
        some { conds, expiry := none, implicit := true }
      | _ => if dump then some { conds := [], expiry := none, implicit := true } else none)
  | none => none

/-- A number with bit i set for each i below n of which p holds. -/
def bitsOf (n : Nat) (p : Nat → Bool) : Nat :=
  (List.range n).foldl (fun x i => if p i then x + 2 ^ i else x) 0

/-- The frame of a group, up to and including V register REGS − 1. A lane's links stand newest first, zeros after them
(DESIGN CHOICE, log entry 61). -/
def State.frameOf (s : State) (key : Nat) (dump : Bool) : List Byte :=
  let g := s.group key
  let helds := (List.range 4).map fun k => if (look none g.splits k).isSome then s.heldOf key k dump else none
  let held (k : Nat) : Option Held := helds.getD k none
  let slots := (List.range 4).flatMap fun k =>
    match look none g.splits k with
    | some sp => placeBytes sp.mask sp.offset sp.region
    | none => List.replicate 16 0
  let inHandler := (List.range 4).find? fun k =>
    match look none g.splits k with | some sp => sp.handler | none => false
  let planes := (List.range 64).foldl (fun x l => x + look 0 g.planes l * 4 ^ l) 0
  let state := g.hint + (if inHandler.isSome then 256 else 0) + 512 * inHandler.getD 0
    + 4096 * bitsOf 4 (fun k => (held k).isSome)
    + 65536 * bitsOf 4 (fun k => ((held k).map (·.implicit)).getD false)
  let waits := (List.range 4).flatMap fun k => padTo 64 (((held k).map fun h => condsBytes h.conds).getD [])
  let ends := (List.range 4).flatMap fun k =>
    match held k with
    | some h =>
      padTo 64 (leBytes 8 (h.expiry.getD (2 ^ 64 - 1))
        ++ leBytes 1 (bitsOf 4 fun i => ((h.conds[i]?).bind (·.met)).isSome))
    | none => List.replicate 64 0
  let linksOf (l : Nat) : List Byte :=
    padTo 128 ((look [] g.links l).flatMap fun e => leBytes 4 e.offset ++ leBytes 2 e.region ++ leBytes 2 0)
  (List.range 128).flatMap (fun r => leBytes 4 (g.readS r).toNat)
  ++ (List.range 15).flatMap (fun p => leBytes 8 (look 0 g.p p).toNat) ++ List.replicate 8 0
  ++ slots ++ leBytes 16 planes ++ leBytes 4 state ++ leBytes 4 g.gang.toNat ++ leBytes 4 g.fpx.toNat
  ++ leBytes 4 (g.stack.length % 64 + 256 * g.nextSeq)
  ++ leBytes 16 (bitsOf 128 fun r => (look none g.tags r).isSome) ++ List.replicate 16 0
  ++ waits ++ padTo 1024 (g.stack.flatMap fun e => placeBytes e.mask e.offset e.region)
  ++ (List.range 64).flatMap linksOf ++ ends
  ++ (List.range g.regs).flatMap fun r =>
    (List.range g.width).flatMap fun l => leBytes 4 (g.readV r l).toNat

/-- A save that cannot be written makes the context FATAL with a SAVE_LOST record naming the group (R374). -/
def State.saveLost (s : State) (key : Nat) : State :=
  let g := s.group key
  let sp := g.split (g.live.headD 0)
  let bytes := s.faultBytes key (g.live.headD 0) 0 sp.region sp.offset
    { code := 36, detail := 0, mask := 0, addr := 0, index := 0 } true
  ((s.writeFault g.ctx bytes).1).makeFatal g.ctx

/-! ## PREEMPT (R51, R55, R341, R370) -/

/-- Keys of a workgroup's groups that have not retired. -/
def Workgroup.keys (w : Workgroup) : List Nat := w.groups.filter (· != noSlot)

/-- A split stands still: at an issue boundary, or in a WAIT that a frame holds or that is issued afresh. -/
def Split.still (sp : Split) : Bool :=
  match sp.wait with
  | none => sp.mid.isNone
  | some w =>
    (match w.kind with
      | .port | .bank | .drain | .latch | .ack .. => false
      | _ => true)

/-- Steps 1 to 5 of R51 are over for a workgroup. -/
def State.stillWg (s : State) (w : Workgroup) : Bool :=
  w.keys.all fun key =>
    let g := s.group key
    g.live.all (fun k => (g.split k).still) && s.quiet key

/-- Members of the workgroup leave its core's latch, their offsets at their MMAs; their splits issue nothing until
the workgroup goes on. -/
def State.withdrawGang (s : State) (wg core : Nat) : State :=
  let c := s.core core
  match c.latch with
  | some (_, w, ms) =>
    if w = wg then
      ms.foldl (fun s m =>
        let wait := ((s.group m.group).split m.slot).wait.map fun w => { w with kind := .page }
        s.withdrawMember wait m) (s.setCore core { c with latch := none })
    else s
  | none => s

/-- A wait as a saved group keeps it: a page or a call-ring slot is sought afresh. -/
def Split.saved (sp : Split) : Split :=
  match sp.wait with
  | some w =>
    (match w.kind with
      | .page | .ringSlot .. => { sp with wait := none }
      | _ => sp)
  | none => sp

/-- The group as it is kept while away. -/
def Group.away (g : Group) : Group :=
  { g with splits := g.splits.map fun e => (e.1, e.2.map Split.saved), held := none, released := [],
           refused := 0, yieldUntil := 0 }

/-- Step 6 of R51 for the groups of a workgroup; none where a frame cannot be written. -/
def State.saveGroups (s : State) (wg : Nat) : List Nat → Except Nat State
  | [] => .ok s
  | key :: ks =>
    let g := s.group key
    let w := s.wgOf wg
    let a := s.unitAddr g.ctx (w.unit + 19 * g.index)
    let bytes := s.frameOf key false
    if s.writable g.ctx a bytes.length then
      let s := s.ctxWrite g.ctx a bytes
      let s := s.setWg wg { w with saved := put none w.saved g.index (some g.away) }
      (s.dropGroup key).saveGroups wg ks
    else .error key

/-- A saved-away workgroup. -/
def State.saveWg (s : State) (wg : Nat) : State :=
  let w := s.wgOf wg
  match s.saveGroups wg w.keys with
  | .error key => s.saveLost key
  | .ok s =>
    let s := s.boundary w.core
    let w := s.wgOf wg
    let s := s.setWg wg { w with state := .away, stopTick := s.tick }
    if w.preempted && w.moving.isNone then s.bumpAst w.launch 2 1 else s

/-- Free the call-ring slots that a group's splits hold. -/
def State.freeCalls (s : State) (g : Group) : State :=
  g.live.foldl (fun s k =>
    match (g.split k).wait with
    | some w =>
      (match w.kind with
        | .reply _ n =>
          let c := s.ctxOf g.ctx
          s.setCtx g.ctx { c with calls := c.calls.filter fun e => e.1 != n }
        | _ => s)
    | none => s) s

/-- A drained workgroup's registers and splits are discarded (R341). -/
def State.discardWg (s : State) (wg : Nat) : State :=
  let w := s.wgOf wg
  let s := s.boundary w.core
  let s := w.keys.foldl (fun s key => let g := s.group key; ((s.freeCalls g).dropGroup key).freeBacking g) s
  let s := w.saved.foldl (fun s (e : Nat × Option Group) =>
    match e.2 with | some g => (s.freeCalls g).freeBacking g | none => s) s
  s.dropWg wg

/-- Withdraw from the latch first, at a page switch-out not before all else is still (R370); then, once everything is
still, save or discard. -/
def State.preempt (s : State) (wg : Nat) : State :=
  let w := s.wgOf wg
  let held := match (s.core w.core).latch with | some (_, k, _) => k == wg | none => false
  if held then
    let t := s.withdrawGang wg w.core
    if w.preempted || w.moving.isSome || w.draining || t.stillWg w then t else s
  else if !s.stillWg w then s
  else if w.draining then s.discardWg wg
  else s.saveWg wg

def execPreempt (wg : Nat) (s : State) : Out :=
  .next (
    match look none s.wgs wg with
    | some w =>
      if w.state = .stopping then s.preempt wg
      else if w.state = .away && w.draining then s.discardWg wg
      else s
    | none => s)

/-! ## WORKGROUP_RESUME (R370, R378 to R380) -/

/-- R380: a group restored with a budget of n splits, which live in slots below n (R28). -/
def Group.fitBudget (g : Group) (n : Nat) : Group :=
  if g.live.all (· < n) then
    { g with budget := n }
  else
    let hs := g.live.filter fun k => (g.split k).handler
    let keep := (hs.take 1 ++ g.live.filter fun k => !(hs.take 1).contains k).take n
    let kept := g.live.filter fun k => keep.contains k
    let pushed := g.live.filter fun k => !keep.contains k
    let entry (k : Nat) : StackEntry :=
      let sp := g.split k
      match sp.wait with
      | some w => { mask := sp.mask, offset := w.offset, region := w.region, handler := sp.handler }
      | none => { mask := sp.mask, offset := sp.offset, region := sp.region, handler := sp.handler }
    { g with
      budget := n,
      splits := (List.range kept.length).zip (kept.map fun k => some (g.split k)),
      stack := pushed.map entry ++ g.stack }

/-- A condition found met at resumption was met by the expiry, which does not pass while the workgroup is away (R263). -/
def Cond.metBy (c : Cond) (expiry : Option Nat) : Cond :=
  { c with met := c.met.map fun t => match expiry with | some e => min t e | none => t }

/-- Every unmet condition is tested afresh (R263). -/
def State.retest (s : State) (key : Nat) : State :=
  (s.group key).live.foldl (fun s k =>
    let g := s.group key
    let sp := g.split k
    match sp.wait with
    | some w =>
      let (s, cs) := s.condsAtIssue key g (s.originOf key k w.plane w.region w.offset w.lanes 0) 0 w.conds
      let met := (w.conds.zip cs).map fun (old, c) => if old.met.isNone then c.metBy w.expiry else c
      s.setGroup key ((s.group key).setSplit k (some { sp with wait := some { w with conds := met } }))
    | none => s) s

/-- A tile goes into a free slot of a partition, or to its context's save area. -/
def State.moveTile (dst : Nat) (s : State) (e : Nat × Tile) : State :=
  let q := s.part dst
  let s := s.setPart dst (q.setTile e.1 e.2)
  if q.tiles.length < 32 then s else s.saveTile dst e.1

/-- Move a context's tiles with a workgroup's groups, `mine`, from a partition to another (R379): only where the source
keeps no group of the context and the destination had none. They take the place of any the destination still held, but
for those that an earlier source brought, `kept`. -/
def State.moveTiles (s : State) (ctx : Nat) (mine : List Nat) (kept : Bool) (src dst : Nat) : State :=
  let others := (List.range 16).any fun k =>
    !mine.contains (16 * dst + k)
    && (match look none s.groups (16 * dst + k) with | some g => g.ctx == ctx | none => false)
  if s.ctxOn src ctx || others then s
  else
    let p := s.part src
    let s := if kept then s else s.dropTiles dst ctx
    let s := s.setPart src (p.withoutTiles ctx)
    let q := s.part dst
    let s := s.setPart dst { q with
      savedTiles := (p.savedTiles.filter fun e => e.1 / 32 == ctx) ++ q.savedTiles
      wrote := if p.wrote.contains ctx && !q.wrote.contains ctx then ctx :: q.wrote else q.wrote }
    ((p.tiles.filter fun e => e.1 / 32 == ctx).reverse).foldl (State.moveTile dst) s

/-- The hardware cluster on which workgroups of the same work cluster stand, if any (R17). -/
def State.siblingCluster (s : State) (wg : Nat) : Option Nat :=
  let w := s.wgOf wg
  let c := (s.launch w.launch).wcluster
  s.wgs.findSome? fun e =>
    match e.2 with
    | some v =>
      if e.1 != wg && v.launch = w.launch && v.index / c = w.index / c && v.state != .away then
        some (v.core / 4)
      else none
    | none => none

/-- Clusters of a die with the most free group slots first. -/
def orderClusters (r : Room) : Nat → List Nat → List Nat
  | 0, _ => []
  | n + 1, cls =>
    match mostOf r.freeOfCluster cls with
    | some c => c :: orderClusters r n (cls.filter (· != c))
    | none => []

/-- Tiles move from several partitions, one after another. -/
def State.moveAll (s : State) (ctx : Nat) (mine done : List Nat) : List (Nat × Nat) → State
  | [] => s
  | (src, dst) :: rest => (s.moveTiles ctx mine (done.contains dst) src dst).moveAll ctx mine (dst :: done) rest

/-- The core to which a workgroup returns: the one it moves to, or by R42 to R44. -/
def State.returnCore (s : State) (wg : Nat) : Option Nat :=
  let w := s.wgOf wg
  let l := s.launch w.launch
  let n := l.need
  let is := keys w.saved
  let r := s.room
  let fits (c : Nat) : Bool := (s.takeSome r c n true is).isSome
  match w.moving with
  | some c => if fits c then some c else none
  | none =>
    match s.siblingCluster wg with
    | some cl => s.pickCore r cl n true is
    | none =>
      (l.dieOrder (w.index / l.wcluster)).findSome? fun d =>
        (orderClusters r 32 ((List.range 32).map (32 * d + ·))).findSome? fun cl => s.pickCore r cl n true is

/-- Its window fits among unowned storage, or stands on the core already (R378). -/
def State.windowFree (s : State) (wg core : Nat) : Bool :=
  let w := s.wgOf wg
  let own := if w.core = core && !w.claimed then w.sharedBytes else 0
  look 0 s.room.shared core + s.keptShared core + w.sharedBytes ≤ Config.sharedBytes + own

/-- A launch of higher priority still waits for room, or one starts whole (R42, R45). -/
def State.outranked (s : State) (id : Nat) : Bool :=
  (keys s.launches).any fun k =>
    let a := s.astOf k
    s.starting k || (s.priority id < s.priority k
      && (s.waiting k || (a.phase == .building && a.progress == 2)))

/-- What a workgroup that is away owns cannot be written to its save area: the context becomes FATAL, and the
record names the first of its groups (R374). -/
def State.claimLost (s : State) (wg : Nat) : State :=
  let w := s.wgOf wg
  let g := ((w.saved.head?).bind (·.2)).getD default
  let bytes := faultRecordBytes (w.groups.getD g.index 0) 0 0 0 0 g.index w.launch w.index s.tick
    { code := 36, detail := 0, mask := 0, addr := 0, index := 0 } true
  ((s.writeFault w.ctx bytes).1).makeFatal w.ctx

/-- Write a workgroup's window to its save area; its bytes leave the core. -/
def State.claimWg (s : State) (wg : Nat) : State :=
  let w := s.wgOf wg
  let l := s.launch w.launch
  let a := s.unitAddr w.ctx (w.unit + 19 * l.need.groups)
  if s.writable w.ctx a w.sharedBytes then
    let s := s.ctxWrite w.ctx a (lookRange 0 w.shared 0 w.sharedBytes)
    s.setWg wg { s.wgOf wg with claimed := true, shared := [] }
  else s.claimLost wg

/-- Put the saved groups on their spots. -/
def State.reseat (s : State) (wg core : Nat) (spots : List Spot) : State :=
  let w := s.wgOf wg
  let l := s.launch w.launch
  let clock := (s.cluster (core / 4)).clock
  let budget := if s.ctxFlag w.ctx 0 then 4 else 2
  let is := keys w.saved
  let old (i : Nat) : Group := (look none w.saved i).getD default
  let (s, window) := if w.claimed then s.unitRead w.ctx (s.unitAddr w.ctx (w.unit + 19 * l.need.groups)) w.sharedBytes
    else (s, [])
  let (s, ks) := s.seat (fun i _ => { (old i).fitBudget budget with ageBase := clock })
    (is.zip (spots.map fun x => (x.1, 0, 0)))
  let places := is.zip ks
  let groups := places.foldl (fun (t : List Nat) e => t.set e.1 e.2) w.groups
  let shared := if w.claimed then putList 0 [] 0 window else w.shared
  let s := s.setWg wg { w with
    core, state := .running, groups, shared, saved := [], claimed := false, preempted := false, moving := none }
  let pairs := (places.map fun e => (partOf (w.groups.getD e.1 0), partOf e.2)).eraseDups
  let s := if w.core = core then s else s.moveAll w.ctx ks [] pairs
  let s := places.foldl (fun s e => s.retest e.2) (s.boundary core)
  let l := s.launch w.launch
  let l := { l with cores := if l.cores.contains core then l.cores else core :: l.cores }
  (s.setLaunch w.launch l).floorCluster (core / 4)

/-- Return a workgroup that is away, where it has room and storage. Its window stays on its core, moves with a migration,
or goes through its save area (R378). -/
def State.returnWg (s : State) (wg : Nat) : State :=
  let w := s.wgOf wg
  match s.returnCore wg with
  | none => if w.moving.isSome then s.setWg wg { w with moving := none } else s
  | some core =>
    if !s.windowFree wg core || !s.areasHeld w.launch then s
    else if w.core != core && w.moving.isNone && !w.claimed && w.sharedBytes != 0 then s.claimWg wg
    else
      match s.takeSome s.room core (s.launch w.launch).need true (keys w.saved) with
      | some (_, spots) => s.reseat wg core spots
      | none => s

/-- A workgroup that had not stopped yet goes on where it stands. -/
def State.goOn (s : State) (wg : Nat) : State :=
  let w := s.wgOf wg
  let wake (sp : Split) : Split :=
    match sp.wait with
    | some w => if w.kind = .page then { sp with wait := none } else sp
    | none => sp
  let s := w.keys.foldl (fun s key =>
    let g := s.group key
    s.setGroup key { g with splits := g.splits.map fun e => (e.1, e.2.map wake) }) s
  s.setWg wg { w with state := .running }

def execWorkgroupResume (wg : Nat) (s : State) : Out :=
  .next (
    match look none s.wgs wg with
    | some w =>
      if !w.missing.isEmpty || w.draining || (s.ctxOf w.ctx).fatal then s
      else if w.state = .stopping && !w.preempted then s.goOn wg
      else if w.state = .away && !s.outranked w.launch then s.returnWg wg
      else s
    | none => s)

/-! ## STORAGE_CLAIM (R378) -/

/-- Storage on a core is wanted: by the next work cluster to be placed, or by a returning workgroup. -/
def State.wanted (s : State) (core : Nat) : Bool :=
  (match s.nextPlace s.offers with
    | (_, some (id, plan)) =>
      plan.any (fun e => e.1 == core) && !s.unowned (s.launch id).need (plan.filter fun e => e.1 == core)
    | (_, none) => false)
  || s.wgs.any fun e =>
    match e.2 with
    | some w =>
      w.state == .away && w.missing.isEmpty && !w.draining && !s.outranked w.launch
      && s.returnCore e.1 == some core && !s.windowFree e.1 core
    | none => false

/-- The unclaimed window on a core of the lowest priority, then of the earliest stopped. -/
def State.claimVictim (s : State) (core : Nat) : Option Nat :=
  let vs := s.wgs.filterMap fun e =>
    match e.2 with
    | some w =>
      if w.core = core && w.state == .away && !w.claimed && w.sharedBytes != 0 then some e.1 else none
    | none => none
  let before (a b : Nat) : Bool :=
    let x := s.wgOf a
    let y := s.wgOf b
    let px := s.priority x.launch
    let py := s.priority y.launch
    px < py || (px == py && x.stopTick ≤ y.stopTick)
  vs.find? fun a => vs.all fun b => before a b

/-- Claim the first victim's window on a core. -/
def State.claim (s : State) (core : Nat) : State :=
  match s.claimVictim core with
  | some wg => s.claimWg wg
  | none => s

def execStorageClaim (core : Nat) (s : State) : Out :=
  .next (if s.wanted core then s.claim core else s)

end Sys2Proof.Machine
end

