-- ==== Sys2Proof/Machine/Market.lean ====
section
/-! DEFINITION. The Reel, the market and power (R52, R53, R56 to R59, R67 to R74, R400 to R406): the steps
REEL_HOP, MARKET_CLEARING, OPERATING_POINT_CHANGE, TELEMETRY_RECORD and the writes of the power registers. -/

namespace Sys2Proof.Machine

/-! ## Power registers (R400, R401) -/

def regBudget : Nat := powerBase
def regDie (d : Nat) : Nat := powerBase + 0x100 + 8 * d
def regCluster (c : Nat) : Nat := powerBase + 0x200 + 8 * c

/-- DISCARDS (R354). -/
def regDiscards : Nat := 0x20_0100
def State.discard (s : State) : State := s.bumpReg regDiscards 1

/-- MODULE_MAX of the signed configuration block (R394). -/
def State.moduleMax (s : State) : Nat := field s.boot.cfg 104 2

/-- MODULE_BUDGET: WATTS is held at most MODULE_MAX; reserved bits read 0. -/
def State.writeBudget (s : State) (x : DWord) : State :=
  s.setReg regBudget (BitVec.ofNat 64 (min (x.toNat % 2 ^ 16) s.moduleMax))

/-- DIE_CTL: CEILING is held at most MODULE_MAX; a TLIM outside 60 to 105 discards the write. -/
def State.writeDieCtl (s : State) (die : Nat) (x : DWord) : State :=
  let n := x.toNat
  let tlim := n % 2 ^ 8
  if tlim < 60 || 105 < tlim then s.discard
  else
    let ceiling := min (bitsAt n 48 16) s.moduleMax
    s.setReg (regDie die) (BitVec.ofNat 64
      (ceiling * 2 ^ 48 + bitsAt n 32 16 * 2 ^ 32 + bitsAt n 16 8 * 2 ^ 16 + tlim))

/-- CL_CTL: OP_LO above OP_HI or LHI discards the write; LRATIO_SET bit 1 reads 1. -/
def State.writeClCtl (s : State) (cluster : Nat) (x : DWord) : State :=
  let n := x.toNat
  let lo := bitsAt n 3 3
  if bitsAt n 6 3 < lo || bitsAt n 9 3 < lo then s.discard
  else
    s.setReg (regCluster cluster) (BitVec.ofNat 64
      (bitsAt n 16 24 * 2 ^ 16 + bitsAt n 9 3 * 2 ^ 9 + bitsAt n 6 3 * 2 ^ 6 + lo * 8
        + (bitsAt n 2 1 * 4 + 2 + bitsAt n 0 1)))

/-- IDE_REQUIRED of the signed configuration block (R394). -/
def State.ideRequired (s : State) : Bool := (field s.boot.cfg 12 4).testBit 0

/-- A request outside an established stream is refused (R360). -/
def State.ideRefuses (s : State) (ide : Bool) : Bool := s.ideRequired && !(ide && !s.port.streams.isEmpty)

/-- A posted write is performed, or refused and counted (R360). -/
def State.posted (s : State) (ide : Bool) (go : State → State) : State := if s.ideRefuses ide then s.discard else go s

/-- The management controller's write does not cross the port, and is never refused (R360, R400); the driver's is a
register write. -/
def execModuleBudgetWrite (value : DWord) (s : State) : Out := .next (s.writeBudget value)
def execDieCtlWrite (die : Nat) (value : Streamed DWord) (s : State) : Out :=
  .next (s.posted value.ide fun s => if die < Config.dies then s.writeDieCtl die value.val else s.discard)
def execClCtlWrite (cluster : Nat) (value : Streamed DWord) (s : State) : Out :=
  .next (s.posted value.ide fun s =>
    if cluster < Config.clusters then s.writeClCtl cluster value.val else s.discard)

/-- Fields of the power registers as a clearing reads them. -/
structure DieCtl where
  ceiling : Nat
  didt : Nat
  gap : Nat
  tlim : Nat
deriving DecidableEq, Repr

def dieCtlOf (x : DWord) : DieCtl :=
  { ceiling := bitsAt x.toNat 48 16, didt := bitsAt x.toNat 32 16, gap := bitsAt x.toNat 16 8,
    tlim := bitsAt x.toNat 0 8 }

structure ClCtl where
  cap : Nat
  lhi : Nat
  hi : Nat
  lo : Nat
  set : Nat
deriving DecidableEq, Repr

def clCtlOf (x : DWord) : ClCtl :=
  { cap := bitsAt x.toNat 16 24, lhi := bitsAt x.toNat 9 3, hi := bitsAt x.toNat 6 3,
    lo := bitsAt x.toNat 3 3, set := bitsAt x.toNat 0 3 }

/-! ## The Reel (R56 to R59, R74) -/

/-- Fourteenths of an FCLK cycle per hop, by operating point (R69). -/
def opRate (op : Nat) : Nat := [8, 9, 10, 11, 12, 13, 14, 16].getD op 8

/-- STEP of R74, none without a limit. -/
def Die.step (d : Die) : Option Nat := if d.didt = 0 then none else some (max 1 (d.didt * 78 / 392))

/-- The word loaded in the r-th hop of a round: R67's schedule, limited by R74. -/
def Die.loaded (d : Die) (r : Nat) : (Nat × Nat) × Bool :=
  let floor := d.floorRate * d.floors
  let want := floor + d.shareSum / Config.roundHops + (if r < d.shareSum % Config.roundHops then 1 else 0)
  let top := match d.step with | some n => min want (d.lastLoad + n) | none => want
  ((min floor top, top - min floor top), top < want)

/-- The injector's part of a hop (R58), and the words' advance by one station. -/
def Die.inject (d : Die) (r : Nat) : Die :=
  let back := d.ring.getD 32 (0, 0)
  let (w, held) := d.loaded r
  { d with
    ring := w :: (d.ring ++ List.replicate (33 - d.ring.length) (0, 0)).take 32,
    lastLoad := w.1 + w.2, injected := d.injected + w.1 + w.2, expired := d.expired + back.1 + back.2,
    didtHeld := d.didtHeld || held }

/-- What a cluster takes from the word at its station (R59). -/
def Cluster.takes (c : Cluster) (rate : Nat) (w : Nat × Nat) : Nat × Nat :=
  let room := Config.pouchCapacity - c.pouch - c.taken
  let tf := min (min w.1 rate) (min c.floorRem room)
  let ts := min (min w.2 ((c.shareAllot + 6999) / 7000)) (min c.shareRem (room - tf))
  (tf, ts)

/-- The take, added at the next FCLK edge, or at once while the clock is stopped (R59, R72). -/
def Cluster.take (c : Cluster) (tf ts : Nat) : Cluster :=
  let c := { c with floorRem := c.floorRem - tf, shareRem := c.shareRem - ts }
  if c.halted then { c with pouch := c.pouch + tf + ts } else { c with taken := c.taken + tf + ts }

/-- The cluster's FCLK edges of a hop. -/
def Cluster.edges (c : Cluster) : Cluster :=
  if c.halted then c
  else
    let n := c.frac + opRate c.op
    { c with due := c.due + n / 14, frac := n % 14 }

/-- One cluster of a die in a hop. -/
def State.clusterHop (s : State) (cl : Nat) : State :=
  match look none s.clusters cl with
  | none => s
  | some c =>
    let d := s.die (cl / 32)
    let w := d.ring.getD (cl % 32 + 1) (0, 0)
    let (tf, ts) := c.takes d.floorRate w
    let s := s.setDie (cl / 32) { d with ring := d.ring.set (cl % 32 + 1) (w.1 - tf, w.2 - ts) }
    s.setCluster cl (c.take tf ts).edges

def State.started (s : State) : List Nat := (List.range 4).filter fun d => (s.die d).started
def State.clustersUp (s : State) : List Nat := s.started.flatMap fun d => (List.range 32).map (32 * d + ·)

/-- One die in a hop. -/
def State.dieHop (s : State) (die : Nat) : State :=
  let s := s.setDie die ((s.die die).inject (s.hop % Config.roundHops))
  ((List.range 32).map (32 * die + ·)).foldl State.clusterHop s

/-- What a clearing judges, as it stands now (R67, R73). -/
def State.judge (s : State) : Judged :=
  { regs := s.port.regs,
    groups := s.groups.filterMap fun e => e.2.map fun g =>
      { key := e.1, wg := g.wg, index := g.index, hint := min g.hint (field (s.body g.ctx) 17 1),
        left := none } }

/-- New operating points and ratios, DIDT and GAP apply from the first hop of a round (R72, R402). -/
def State.roundStart (s : State) : State :=
  let change (cl : Nat) (s : State) : State :=
    let c := s.cluster cl
    if c.op = c.nextOp ∧ c.ratio = c.nextRatio then s else s.setCluster cl { c with halted := true }
  let s := s.clustersUp.foldl (fun s cl => change cl s) s
  let s := s.started.foldl (fun s d =>
    let ctl := dieCtlOf (s.reg (regDie d))
    s.setDie d { s.die d with didt := ctl.didt, gap := ctl.gap }) s
  { s with cleared := false, judged := none, roundRegs := s.port.regs }

/-- Every running cluster has made the FCLK cycles of the hop; a stopped clock makes none, and stops for at
most 2 ticks of its round (R72). -/
def State.hopDone (s : State) : Bool :=
  s.clustersUp.all fun cl =>
    let c := s.cluster cl
    if c.halted then s.hop % Config.roundHops + 1 < 2 * Config.hopsPerTick else c.due == 0

/-- The edit port has an edit to decide at this tick's end (R319); an EDIT whose bytes are still on their way from
outside the device has not arrived. -/
def State.editDue (s : State) : Bool :=
  s.hop % Config.hopsPerTick == 13 && s.port.decided < 4
  && (match s.port.edits.find? fun e => e.await.isEmpty with | some e => e.tick ≤ s.tick | none => false)

/-- Dies whose telemetry record falls at the coming tick (R405, R406). -/
def State.telemetryDue (s : State) : List Nat :=
  let t := (s.hop + 1) / Config.hopsPerTick
  if (s.hop + 1) % (Config.hopsPerTick * Config.telemetryTicks) = 0 then
    s.started.filter fun d => (s.die d).recordTick < t
  else []

/-- A monitor on host memory reads its word again in this tick (R260); the read comes before the tick ends. -/
def State.pollsDue (s : State) : Bool :=
  s.hop % Config.hopsPerTick == 13
  && s.groups.any fun e =>
    match e.2 with
    | some g => g.live.any fun k =>
        match (g.split k).wait with
        | some w => w.conds.any fun c => (s.pollDue g c).isSome
        | none => false
    | none => false

/-- The round's last hop. -/
def State.lastHop (s : State) : Bool := s.hop % Config.roundHops + 1 == Config.roundHops

def State.hopReady (s : State) : Bool :=
  !s.started.isEmpty && s.hopDone && !s.editDue && !s.pollsDue && s.telemetryDue.isEmpty && (!s.lastHop || s.cleared)

/-- All hop words advance one station. -/
def State.advance (s : State) : State :=
  let s := { s with hop := s.hop + 1 }
  let s := if s.hop % Config.hopsPerTick = 0 then
      { s with port := { s.port with decided := 0 }, tickRegs := s.port.regs }
    else s
  let s := if s.hop % Config.roundHops = 0 then s.roundStart else s
  let s := if s.hop % Config.roundHops = Config.roundHops - Config.hopsPerTick then
      { s with judged := some s.judge }
    else s
  s.started.foldl State.dieHop s

def execReelHop (s : State) : Out := .next (if s.hopReady then s.advance else s)

/-- The clocks of a cluster start again at the new point and ratio (R72). -/
def execOperatingPointChange (cluster : Nat) (s : State) : Out :=
  .next (
    match look none s.clusters cluster with
    | some c =>
      if c.halted then
        s.setCluster cluster { c with
          op := c.nextOp, ratio := c.nextRatio, halted := false, pouch := c.pouch + c.taken, taken := 0 }
      else s
    | none => s)

/-! ## MARKET_CLEARING (R67 to R71, R403, R404) -/

/-- Tokens per hop of some watts. -/
def tokensOf (watts : Nat) : Nat := watts * 10000 / 28

/-- One who shares a pool: number, bid, and the most its share may be. -/
structure Bidder where
  id : Nat
  bid : Nat
  most : Nat
deriving DecidableEq, Repr

/-- The sharing loop of R67: shares, and the numbers of those clamped. -/
def shareLoop : Nat → Nat → List Bidder → List (Nat × Nat) × List Nat
  | 0, _, _ => ([], [])
  | n + 1, pool, us =>
    let total := (us.map (·.bid)).foldl (· + ·) 0
    if us.isEmpty || pool = 0 || total = 0 then ([], [])
    else
      let part (b : Bidder) : Nat := pool * b.bid / total
      let big := us.filter fun b => b.most < part b
      if big.isEmpty then (us.map fun b => (b.id, part b), [])
      else
        let pool := pool - (big.map (·.most)).foldl (· + ·) 0
        let (sh, cl) := shareLoop n pool (us.filter fun b => part b ≤ b.most)
        (big.map (fun b => (b.id, b.most)) ++ sh, big.map (·.id) ++ cl)

def shareOut (pool : Nat) (us : List Bidder) : List (Nat × Nat) × List Nat :=
  shareLoop (us.length + 1) pool (us.filter fun b => b.bid != 0)

def shareOf (sh : List (Nat × Nat)) (id : Nat) : Nat := ((sh.find? fun e => e.1 == id).map (·.2)).getD 0

/-- used(g) of a judged group (R68). -/
def State.usedBy (s : State) (e : JudgedGroup) : Nat :=
  match e.left with
  | some n => n
  | none => let g := s.group e.key; g.drawn + g.refused

/-- A cluster's used and bid over its judged groups (R68). -/
def State.usedOf (s : State) (j : Judged) (cl : Nat) : Nat :=
  ((j.groups.filter fun e => clusterOf e.key == cl).map s.usedBy).foldl (· + ·) 0
def State.bidOf (s : State) (j : Judged) (cl : Nat) : Nat :=
  ((j.groups.filter fun e => clusterOf e.key == cl).map fun e => 2 ^ e.hint * s.usedBy e).foldl (· + ·) 0

/-- A cluster's thermal term of R403, none where unbounded. -/
def thermal (h tlim b : Nat) : Option Nat :=
  if h + 8 ≤ tlim then none
  else if tlim ≤ h then some 0
  else some (Config.roundHops * b * (tlim - h) / 8)

/-- cap[c] of R403. -/
def capOf (b f cap : Nat) (therm : Option Nat) : Nat :=
  let top := Config.roundHops * b
  let op := if cap = 0 then top else Config.roundHops * cap
  max (Config.roundHops * f) (min (min (therm.getD top) op) top)

/-- The operating point of R70. -/
def chooseOp (used allot ran lo hi : Nat) : Nat :=
  if used = 0 then lo
  else
    (((List.range 8).reverse.find? fun k =>
      lo ≤ k && k ≤ hi && used * (1000 * opRate k) ≤ allot * ran)).getD lo

/-- The operating point and lane ratio of R71 and R404. -/
def chooseRatio (op : Nat) (c : ClCtl) (mma : Bool) : Nat × Nat :=
  if c.lhi < op && c.set.testBit 0 then (op, 0)
  else
    let op := min op c.lhi
    (op, if c.set.testBit 2 && !mma then 2 else 1)

def ctlOf (j : Judged) (cl : Nat) : ClCtl := clCtlOf (look 0 j.regs (regCluster cl))

/-- One cluster as cleared: a cluster judged with a group is floored and has a share; one whose first group has
come since is floored with no share (R67). -/
def State.clearCluster (s : State) (j : Judged) (f : Nat) (sh : List (Nat × Nat)) (cl : Nat) : State :=
  let c := s.cluster cl
  let judged := j.groups.any fun e => clusterOf e.key == cl
  let here := s.groups.any fun e => clusterOf e.1 == cl
  let floor := if judged || here then Config.roundHops * f else 0
  let share := if judged then shareOf sh cl else 0
  let used := s.usedOf j cl
  let ctl := ctlOf j cl
  let (op, ratio) := chooseRatio (chooseOp used (floor + share) c.ran ctl.lo ctl.hi) ctl c.mmaSeen
  s.setCluster cl { c with
    floored := judged || here, floorRem := floor, shareRem := share, shareAllot := share,
    allot := floor + share, nextOp := op, nextRatio := ratio, ran := 0, mmaSeen := false,
    overRounds := if c.allot < used then c.overRounds + 1 else 0 }

/-- The die arbiter's clearing with budget b. -/
def State.clearDie (s : State) (j : Judged) (die b : Nat) (clamped : Bool) : State :=
  let f := b / 512
  let cls := (List.range 32).map (32 * die + ·)
  let judged (cl : Nat) : Bool := j.groups.any fun e => clusterOf e.key == cl
  let floored := cls.filter judged
  let tlim := (dieCtlOf (look 0 j.regs (regDie die))).tlim
  let therm (cl : Nat) : Option Nat := thermal (Config.sensor s.tick cl) tlim b
  let bidder (cl : Nat) : Bidder :=
    { id := cl, bid := s.bidOf j cl,
      most := capOf b f (ctlOf j cl).cap (therm cl) - Config.roundHops * f }
  let (sh, cut) := shareOut (Config.roundHops * (b - f * floored.length)) (floored.map bidder)
  let n := (cls.filter fun cl => judged cl || s.groups.any fun e => clusterOf e.1 == cl).length
  let d := s.die die
  let s := s.setDie die { d with
    budget := b, floorRate := f, floors := n, shareSum := (sh.map (·.2)).foldl (· + ·) 0, emergency := false,
    clamped := d.clamped + cut.length, dieClamped := d.dieClamped + (if clamped then 1 else 0),
    thermal := d.thermal || cls.any fun cl => (therm cl).isSome,
    hottest := (cls.map fun cl => Config.sensor s.tick cl).foldl max d.hottest }
  cls.foldl (fun s cl => s.clearCluster j f sh cl) s

/-! ## Migration (R52, R53) -/

/-- A group stands in an open phase of a barrier wider than its workgroup. -/
def State.inOpenPhase (s : State) (g : Group) : Bool :=
  g.joined.any (fun (a, ph) => leNat (s.peeks (.dev a) 4) == ph)
  || g.live.any fun k =>
    match (g.split k).wait with
    | some w => w.conds.any fun c =>
        c.kind == .phase && (match aperture c.addr.toNat with | .scratch .. => true | _ => false)
    | none => false

def Split.calling (sp : Split) : Bool :=
  match sp.wait with
  | some w => (match w.kind with | .reply .. | .ringSlot .. => true | _ => false)
  | none => false

/-- A workgroup may migrate (R53). -/
def State.eligible (s : State) (wg : Nat) : Bool :=
  let w := s.wgOf wg
  let c := (s.launch w.launch).wcluster
  w.state == .running && w.missing.isEmpty && w.batches.isEmpty
  && w.keys.all (fun key =>
    let g := s.group key
    !s.inOpenPhase g && g.live.all fun k => !(g.split k).calling)
  && s.wgs.all fun e =>
    match e.2 with
    | some v => e.1 == wg || v.launch != w.launch || v.index / c != w.index / c
    | none => true

/-- Lowest priority first, then highest index. -/
def State.movesBefore (s : State) (a b : Nat) : Bool :=
  let x := s.wgOf a
  let y := s.wgOf b
  let px := s.priority x.launch
  let py := s.priority y.launch
  px < py || (px == py && y.index ≤ x.index)

/-- A core of the die with room, on the cluster of lowest use. -/
def State.moveTarget (s : State) (used : Nat → Nat) (cl wg : Nat) : Option Nat :=
  let w := s.wgOf wg
  let n := (s.launch w.launch).need
  let is := (List.range n.groups).filter fun i => !w.retired.contains i
  let r := s.room
  let die := cl / 32
  let cands := ((List.range 32).map (32 * die + ·)).filter fun k =>
    k != cl && (s.pickCore r k n true is).isSome
  match cands.find? fun a => cands.all fun b => used a < used b || (used a == used b && a ≤ b) with
  | some k => s.pickCore r k n true is
  | none => none

/-- A cluster over its allotment for 8 rounds sends one workgroup away. -/
def State.migrateFrom (s : State) (used : Nat → Nat) (cl : Nat) : State :=
  let cands := (keys s.wgs).filter fun wg => (s.wgOf wg).core / 4 == cl && s.eligible wg
  match cands.find? fun a => cands.all fun b => a == b || s.movesBefore a b with
  | none => s
  | some wg =>
    match s.moveTarget used cl wg with
    | none => s
    | some core =>
      let w := s.wgOf wg
      (s.setWg wg { w with state := .stopping, preempted := true, moving := some core }).bumpAst
        w.launch 3 1

/-! ## The clearing -/

/-- The package arbiter's die budgets (R67): die, budget, clamped. -/
def State.dieBudgets (s : State) (j : Judged) : List (Nat × Nat × Bool) :=
  let m := tokensOf (look 0 j.regs regBudget).toNat
  let base := m / 16
  let bidder (d : Nat) : Bidder :=
    let ceiling := (dieCtlOf (look 0 j.regs (regDie d))).ceiling
    let top := max base (tokensOf (if ceiling = 0 then s.moduleMax else ceiling))
    { id := d, bid := (((List.range 32).map (32 * d + ·)).map (s.bidOf j)).foldl (· + ·) 0,
      most := top - base }
  let (sh, cut) := shareOut (m - base * s.started.length) (s.started.map bidder)
  s.started.map fun d => (d, min (base + shareOf sh d) 16777215, cut.contains d)

/-- Clear the round: budgets, floors, shares, points and ratios; migrations of R52. -/
def State.clearing (s : State) : State :=
  let j := s.judged.getD s.judge
  let used (cl : Nat) : Nat := s.usedOf j cl
  let hot := s.clustersUp.filter fun cl => 8 ≤ (s.cluster cl).overRounds
  let s' := (s.dieBudgets j).foldl (fun t (d, b, cut) => t.clearDie j d b cut) s
  let s' := hot.foldl (fun t cl => t.migrateFrom used cl) s'
  let fresh (g : Group) : Group := { g with drawn := 0, refused := 0 }
  let away (w : Workgroup) : Workgroup := { w with saved := w.saved.map fun e => (e.1, e.2.map fresh) }
  { s' with
    cleared := true, groups := s'.groups.map fun e => (e.1, e.2.map fresh),
    wgs := s'.wgs.map fun e => (e.1, e.2.map away) }

def execMarketClearing (s : State) : Out :=
  .next (if !s.started.isEmpty && s.lastHop && s.hopDone && !s.cleared then s.clearing else s)

/-! ## TELEMETRY_RECORD (R405, R406) -/

/-- The 64 bytes of a die's record at tick t. -/
def Die.record (d : Die) (die t : Nat) : List Byte :=
  let avg := Config.measured t die 2 % 2 ^ 32
  let peak := min (avg + Config.measured t die 3) (2 ^ 32 - 1)
  leBytes 8 t ++ leBytes 4 d.seq ++ leBytes 1 die
  ++ leBytes 1 ((if d.didtHeld then 1 else 0) + (if d.thermal then 2 else 0))
  ++ leBytes 2 (min (16 * d.hottest + Config.measured t die 0) (2 ^ 16 - 1)) ++ leBytes 4 (Config.measured t die 1)
  ++ leBytes 4 avg ++ leBytes 4 peak ++ leBytes 4 (min (Config.measured t die 4) peak) ++ leBytes 8 d.injected ++ leBytes 8 d.expired
  ++ leBytes 4 d.granted ++ leBytes 2 d.clamped ++ leBytes 1 d.dieClamped ++ List.replicate 9 0

/-- Each die's record is one record event; the period's counts begin again. -/
def State.telemetry (s : State) (t : Nat) (dies : List Nat) : State :=
  dies.foldl (fun s die =>
    let d := s.die die
    let s := s.setDie die { d with
      seq := (d.seq + 1) % 2 ^ 32, recordTick := t, injected := 0, expired := 0, granted := 0, clamped := 0,
      dieClamped := 0, didtHeld := false, thermal := false, hottest := 0 }
    s.send .telemetry (d.record die t)) s

def execTelemetryRecord (s : State) : Out :=
  .next (
    if s.hopDone && s.cleared then s.telemetry ((s.hop + 1) / Config.hopsPerTick) s.telemetryDue else s)

end Sys2Proof.Machine
end

