-- ==== Sys2Proof/Machine/Edits.lean ====
section
/-! DEFINITION. Desired state as edits change it (R316 to R327) and the edit port (R318 to R322, R348 to R350):
the steps EDIT_WINDOW_DMWR and EDIT_DECISION. -/

namespace Sys2Proof.Machine

/-! ## Edits (R318, R320) -/

/-- Statuses of R305. -/
inductive EditStatus where
  | ok | conflict | full | denied | malformed
deriving DecidableEq, Repr, Inhabited

def EditStatus.code : EditStatus → Nat
  | .ok => 0 | .conflict => 1 | .full => 2 | .denied => 3 | .malformed => 4

/-- The header of an edit. -/
structure EditHead where
  expect : Nat
  id : Nat
  kind : Nat
  op : Nat
deriving DecidableEq, Repr

def editHead (b : List Byte) : EditHead :=
  { expect := field b 0 8, id := field b 8 4, kind := field b 12 2, op := field b 14 2 }

def zeroFrom (b : List Byte) (off n : Nat) : Bool := field b off n == 0

/-- An address in the global aperture (R97). -/
def inGlobal (a : Nat) : Bool := a < 2 ^ 52

/-- Limits of a CTX body (R324). -/
def ctxBodyOk (b : List Byte) : Bool :=
  let n := field b 22 2
  let log := field b 30 2
  let area (off : Nat) : Nat := field b off 8
  field b 16 1 ≤ 7 && field b 17 1 ≤ 7 && field b 18 1 ≤ field b 17 1 && field b 19 1 < 32
  && field b 20 2 ≤ 4095 && n ≤ 8 && 1 ≤ field b 24 4 && field b 24 4 ≤ 65535 && 1 ≤ field b 28 2
  && (if n = 0 then log == 0 else 4 ≤ log && log ≤ 16)
  && [32, 40, 48, 56, 64, 72, 80, 88].all (fun off => inGlobal (area off))
  && [40, 48, 56, 64, 72].all (fun off => area off != 0)
  && [40, 56, 64, 72].all (fun off => area off % 4096 == 0) && area 48 % 65536 == 0
  && zeroFrom b 100 28

/-- Limits of a MAP body (R325). -/
def mapBodyOk (b : List Byte) : Bool :=
  let leaf := leafBytes (field b 47 1)
  let mkind := field b 44 1
  let place := field b 45 1
  let home := field b 46 1
  field b 47 1 ≤ 3 && field b 16 8 % leaf == 0 && field b 24 8 != 0 && field b 24 8 % leaf == 0
  && field b 16 8 + field b 24 8 ≤ 2 ^ 52 && mkind ≤ 3 && place ≤ 2 && (mkind == 0 || place == 0)
  && home ≤ 3 && (place == 1 || home == 0) && field b 48 1 ≤ 7 && field b 49 1 ≤ 1 && field b 50 1 ≤ 1
  && zeroFrom b 51 1 && (mkind == 2 || field b 52 4 == 0) && zeroFrom b 56 72

/-- Limits of a PROG body (R18, R326). -/
def progBodyOk (b : List Byte) : Bool :=
  let w := 8 * 2 ^ field b 20 1
  let lanes := field b 22 2
  let flags := field b 26 1
  let dies := field b 27 1
  field b 20 1 ≤ 3 && 1 ≤ field b 21 1 && field b 21 1 ≤ 16 && 1 ≤ lanes && lanes ≤ 1024 && lanes ≤ 16 * w
  && 1 ≤ field b 24 1 && field b 24 1 ≤ 16 && field b 25 1 ≤ 7 && flags ≤ 3
  && (!flags.testBit 1 || (flags.testBit 0 && dies == 15)) && 1 ≤ dies && dies ≤ 15
  && 1 ≤ field b 28 4 && field b 28 4 ≤ 16777215 && field b 32 4 ≤ 262144 && field b 36 4 ≤ 100663296
  && field b 40 4 % 256 == 0 && zeroFrom b 64 64

/-- Limits of a QUEUE body (R327). -/
def queueBodyOk (b : List Byte) : Bool :=
  let esize := field b 22 2
  1 ≤ field b 20 2 && field b 20 2 ≤ 16 && 16 ≤ esize && esize ≤ 256 && esize % 16 == 0
  && field b 24 8 % 64 == 0 && inGlobal (field b 24 8) && field b 32 8 % 16 == 0
  && zeroFrom b 44 84

def bodyOk (kind : Nat) (b : List Byte) : Bool :=
  match kind with
  | 1 => ctxBodyOk b
  | 2 => mapBodyOk b
  | 3 => progBodyOk b
  | 4 => queueBodyOk b
  | _ => false

/-- Check 1 of R320. -/
def editWellFormed (b : List Byte) : Bool :=
  let h := editHead b
  h.id < 65536 && 1 ≤ h.kind && h.kind ≤ 4
  && ((h.op == 1 && bodyOk h.kind b) || (h.op == 2 && zeroFrom b 16 112))

/-- The context a body of a kind names, if it names one. -/
def namedCtx (kind : Nat) (b : List Byte) : Option Nat :=
  match kind with
  | 2 => some (field b 40 4)
  | 3 | 4 => some (field b 16 4)
  | _ => none

/-- OWNER of a PRESENT CTX record. -/
def State.ownerOf (s : State) (ctx : Nat) : Option Nat :=
  let r := s.record ctx
  if r.present && r.kind = 1 then some (field r.body 20 2) else none

/-- Contexts that a change of a MAP, PROG or QUEUE record is judged by (R321): the one the new body names and, where
`old` counts, the one the current body names. -/
def judgedBy (old : Bool) (r : Record) (h : EditHead) (b : List Byte) : List Nat :=
  (if old then (namedCtx r.kind r.body).toList else [])
  ++ (if h.op = 1 then (namedCtx h.kind b).toList else [])

/-- Check 3 of R320: the writer is a page, which an ABSENT record's body does not concern, or, with none, a context. -/
def State.permitted (s : State) (page : Option Nat) (ctx : Nat) (r : Record) (h : EditHead) (b : List Byte) :
    Bool :=
  match page with
  | some p =>
    if p = 0 then true
    else if h.kind = 1 then
      (!r.present && h.op == 1 && field b 20 2 == p) || (r.kind == 1 && field r.body 20 2 == p)
    else (judgedBy r.present r h b).all fun c => s.ownerOf c == some p
  | none =>
    let x := s.record ctx
    h.kind != 1 && x.present && x.kind == 1 && (field x.body 19 1).testBit 2
    && (judgedBy true r h b).all fun c => c == ctx

/-- PRESENT records that name a context (R324). -/
def State.naming (s : State) (ctx : Nat) : Nat :=
  (s.dsr.filter fun e =>
    match e.2 with
    | some r => r.present && namedCtx r.kind r.body == some ctx
    | none => false).length

/-- Check 5's quota: a SET that makes a record PRESENT, of a context whose record is PRESENT. -/
def State.overQuota (s : State) (r : Record) (h : EditHead) (b : List Byte) : Bool :=
  match namedCtx h.kind b with
  | some c =>
    let x := s.record c
    h.op == 1 && !r.present && x.present && x.kind == 1 && field x.body 24 4 < s.naming c + 1
  | none => false

/-- The port's decision (R320): the status, and the version R305 gives for it. -/
def State.decide (s : State) (page : Option Nat) (ctx : Nat) (b : List Byte) : EditStatus × Nat :=
  let h := editHead b
  let r := s.record h.id
  let phase := (s.astOf h.id).phase
  let idle := !r.present && (phase == .absent || phase == .retired)
  if !editWellFormed b then (.malformed, 0)
  else if h.kind != r.kind && !idle then (.malformed, 0)
  else if !s.permitted page ctx r h b then (.denied, 0)
  else if h.expect != r.version then (.conflict, r.version)
  else if 2 ^ 64 - 1 ≤ r.version || s.overQuota r h b then (.full, 0)
  else (.ok, r.version + 1)

/-- Apply an accepted edit to its slot (R322). -/
def State.applyEdit (s : State) (b : List Byte) : State :=
  let h := editHead b
  let r := s.record h.id
  let r : Record :=
    if h.op = 1 then
      { version := r.version + 1, kind := h.kind, present := true, body := b,
        fresh := r.fresh || !r.present }
    else { r with version := r.version + 1, present := false }
  { s with dsr := set s.dsr h.id r, accepted := s.accepted + 1 }

/-! ## EDIT_WINDOW_DMWR (R349, R350, R360) -/

def regUredits : Nat := 0x20_0108

def State.answerWith (s : State) (status : CplStatus) (data : List Byte) : State :=
  { s with port := { s.port with answer := some { status, data } } }

/-- Edits of host writers that wait for the edit port (R350). -/
def State.hostEdits (s : State) : Nat := (s.port.edits.filter fun e => e.page.isSome).length

def State.dmwr (s : State) (page offset : Nat) (data : List Byte) (poisoned ide : Bool) : State :=
  if s.ideRefuses ide then (s.discard.bumpReg regUredits 1).answerWith .unsupported []
  else if data.length != 128 || offset != 0 || poisoned then
    (s.bumpReg regUredits 1).answerWith .unsupported []
  else if 64 ≤ s.hostEdits then s
  else
    let e : Edit :=
      { page := some page, ctx := 0, part := 0, group := 0, slot := 0, region := 0, offset := 0, plane := 0,
        dest := 0, mask := 0, id := 0, await := [], f := false, data, tick := s.editTick }
    { s with port := { s.port with edits := insertEdit e s.port.edits } }

def execEditWindowDmwr (page offset : Nat) (data : List Byte) (poisoned ide : Bool) (s : State) : Out :=
  .next (if s.port.presented && page < 4096 then s.dmwr page offset data poisoned ide else s)

/-! ## EDIT_DECISION (R305, R306, R319 to R322, R348) -/

/-- A host writer's outcome: RESULT first, then the completion. -/
def State.answerPage (s : State) (page : Nat) (st : EditStatus) (version : Nat) : State :=
  let (seq, _, _) := look (0, 0, 0) s.port.results page
  let results := put (0, 0, 0) s.port.results page ((seq + 1) % 2 ^ 32, st.code, version)
  let s := { s with port := { s.port with results } }
  s.answerWith (if st = .ok then .successful else .retry) []

/-- S registers that an EDIT writes, by its scoreboard code. -/
def editWrites (dest : Nat) (st : EditStatus) (version : Nat) : List Write :=
  if 512 ≤ dest ∧ dest < 640 then
    [.s (dest - 512) (BitVec.ofNat 32 st.code), .s (dest - 511) (BitVec.ofNat 32 version)]
  else []

/-- Give the held result of an EDIT its writes; it lands as any long-latency result (R175). -/
def Group.answerEdit (g : Group) (e : Edit) (ws : List Write) : Group :=
  match g.inflight.findIdx? fun r => r.held && r.id == e.id with
  | some i => { g with inflight := g.inflight.modify i fun r => { r with held := false, writes := ws } }
  | none => g

/-- A device writer's outcome; EDIT.f leaves its wait, and traps on CONFLICT (R306). -/
def State.answerGroup (s : State) (e : Edit) (st : EditStatus) (version : Nat) : State :=
  match look none s.groups e.group with
  | none => s
  | some _ =>
    let ws := editWrites e.dest st version
    let s := s.logValue e.group 3 e.plane e.region e.offset e.mask (leBytes 4 st.code ++ leBytes 4 version)
    if !e.f then s.setGroup e.group ((s.group e.group).answerEdit e ws)
    else
      -- D is written before the split goes on
      let s := s.setGroup e.group (((s.group e.group).landHeld e.id).writes ws)
      let s := s.resumeIssue e.group e.slot
      if st = .conflict then
        let y := (s.mySplit.wait.map (·.yield)).getD false
        (s.noteYield y).endWait.trap { code := codeEDITCONFLICT, detail := version % 2 ^ 32, mask := s.cur.mask, done := true }
      else s.completeWait

/-- Decide the first edit in edit order that has arrived. -/
def State.decideNext (s : State) : State :=
  match s.port.edits.find? fun e => e.await.isEmpty with
  | none => s
  | some e =>
    let (st, version) := s.decide e.page e.ctx e.data
    let rest := s.port.edits.eraseP fun e => e.await.isEmpty
    let s := { s with port := { s.port with edits := rest, decided := s.port.decided + 1 } }
    let s := if st = .ok then s.applyEdit e.data else s
    match e.page with
    | some p => s.answerPage p st version
    | none => s.answerGroup e st version

def execEditDecision (s : State) : Out :=
  .next (if s.editDue && s.hopDone then s.decideNext else s)

end Sys2Proof.Machine
end

