-- ==== Sys2Proof/Machine/Port.lean ====
section
/-! DEFINITION. The PCI Express port (R344 to R355, R360, R391, R395, R400, R407, R412, R418, R427): BARs,
registers, notification rings and delivery, and the steps RECORD_EVENT, HOST_WRITE_DISCARD, REGISTER_WRITE,
BAR4_ACCESS, MSIX_UNMASK, CONFIG_REQUEST and UNSUPPORTED_REQUEST. -/

namespace Sys2Proof.Machine

/-! ## Interrupts (R353) -/

/-- Send an MSI-X message, or note it as pending where the vector is masked. -/
def State.sendMsix (s : State) (v : Nat) : State :=
  if v = 0xFFFF || 2048 ≤ v then s
  else if s.port.unmasked.contains v && !s.port.functionMasked then
    { s with port := { s.port with messages := v :: s.port.messages } }
  else if s.port.pending.contains v then s
  else { s with port := { s.port with pending := v :: s.port.pending } }

/-- Send the pending messages of vectors that are no longer masked, one each. -/
def State.sendPending (s : State) : State :=
  if s.port.functionMasked then s
  else
    let (go, stay) := s.port.pending.partition fun v => s.port.unmasked.contains v
    { s with port := { s.port with messages := go ++ s.port.messages, pending := stay } }

def State.unmask (s : State) (v : Nat) : State :=
  if v < 2048 && !s.port.unmasked.contains v then
    { s with port := { s.port with unmasked := v :: s.port.unmasked } }.sendPending
  else s

def State.mask (s : State) (v : Nat) : State :=
  { s with port := { s.port with unmasked := s.port.unmasked.filter (· != v) } }

/-- Unmask a vector by a write to BAR2, or the function by a configuration request (R353, R360). -/
def execMsixUnmask (vector : Streamed Nat) (function : Bool) (s : State) : Out :=
  .next (
    if function then { s with port := { s.port with functionMasked := false } }.sendPending
    else s.posted vector.ide fun s => s.unmask vector.val)

/-- The host sets the function mask. -/
def State.maskFunction (s : State) : State := { s with port := { s.port with functionMasked := true } }

/-- A route of R353. -/
structure Route where
  evaddr : Nat
  evbit : Nat
  armbit : Nat
  msixv : Nat
deriving DecidableEq, Repr

/-- The route at a register offset. -/
def State.routeAt (s : State) (off : Nat) : Route :=
  let a := (s.reg off).toNat
  let b := (s.reg (off + 8)).toNat
  let c := (s.reg (off + 16)).toNat
  { evaddr := a, evbit := bitsAt b 0 8, armbit := bitsAt b 8 8, msixv := bitsAt c 32 16 }

def regDelivfail : Nat := 0x20_0118
def regCpltimeout : Nat := 0x20_0128

/-- A request of the device that got no Successful completion, counted where it got none at all (R358). -/
def State.noReply (s : State) : State := if Config.timedOut s.free then s.bumpReg regCpltimeout 1 else s

/-- Deliver through a route: set the event bit, and send a message where the consumer was armed. A CAS that is
not answered Successful counts in DELIVFAIL and sends the message anyway. -/
def State.deliver (s : State) (r : Route) : State :=
  if r.evaddr = 0 then s.sendMsix r.msixv
  else
    let served := Config.casServed s.free
    let s := { s with free := s.free + 1 }
    if served then
      let o := BitVec.ofNat 64 (leNat (s.peeks (.ext r.evaddr) 8))
      let n := (o ||| (1#64 <<< r.evbit)) &&& ~~~(1#64 <<< r.armbit)
      let s := s.pokes (.ext r.evaddr) (leBytes 8 n.toNat)
      if o.getLsbD r.armbit then s.sendMsix r.msixv else s
    else (s.noReply.bumpReg regDelivfail 1).sendMsix r.msixv

/-! ## Rings (R351, R352, R354, R406, R418) -/

/-- A ring in use: a context whose memory holds it, or none for untranslated bus addresses; its base, capacity,
slot bytes and route, if any. -/
structure RingAt where
  ctx : Option Nat
  base : Nat
  cap : Nat
  slot : Nat
  route : Option Nat
deriving DecidableEq, Repr

/-- A ring described by a BASE and a CTL register. -/
def State.busRing (s : State) (base ctl slot : Nat) (route : Option Nat) : Option RingAt :=
  let x := s.reg ctl
  if ringOn x then some { ctx := none, base := (s.reg base).toNat, cap := 2 ^ (x.toNat % 32), slot, route } else none

def regDnr : Nat := 0x20_0000
def trcBase : Nat := dbgBase + 0x440

/-- Where a ring stands, if it is in use. -/
def State.ringAt (s : State) : Ring → Option RingAt
  | .ctx id k =>
    let n := s.ctxField id 22 2
    if (look none s.ctxs id).isSome && k < n then
      let cap := 2 ^ s.ctxField id 30 2
      some { ctx := some id, base := s.ctxField id 64 8 + k * (64 + 32 * cap), cap, slot := 32,
             route := some (32 * (8 * s.ctxField id 20 2 + k)) }
    else none
  | .driver => s.busRing regDnr (regDnr + 8) 32 (some (regDnr + 0x20))
  | .telemetry => s.busRing (powerBase + 8) (powerBase + 0x10) 64 (some (powerBase + 0x20))
  | .sample => s.busRing smpBase (smpBase + 8) 64 none
  | .trace => s.busRing trcBase trcCtl 32 none

/-- Bytes of a ring's memory, at the points of coherence. -/
def State.ringRead (s : State) (r : RingAt) (off n : Nat) : List Byte :=
  match r.ctx with
  | some id => s.ctxRead id (r.base + off) n
  | none => s.peeks (.ext (r.base + off)) n

def State.ringWrite (s : State) (r : RingAt) (off : Nat) (bs : List Byte) : State :=
  match r.ctx with
  | some id => s.ctxWrite id (r.base + off) bs
  | none => s.pokes (.ext (r.base + off)) bs

/-- Count a dropped record. -/
def State.dropRecord (s : State) (k : Ring) (full : Bool) : State :=
  match k with
  | .ctx id _ => s.bumpAst id 2 1
  | .driver => s.bumpReg 0x20_0110 1
  | .telemetry => if full then s.bumpReg (powerBase + 0x40) 1 else s
  | .sample => if full then s.bumpReg (smpBase + 0x18) 1 else s
  | .trace => if full then s.bumpReg (dbgBase + 0x450) 1 else s

def State.deliverAt (s : State) (route : Option Nat) : State :=
  match route with
  | some off => s.deliver (s.routeAt off)
  | none => s

/-- CONS and ACK outside the device are asked for: the request, and whether it gets no good answer. -/
def State.askCons (s : State) (r : RingAt) : State × List Nat × Bool :=
  let (o, runs) := match r.ctx with
    | some id => (s.unitOrigin id, outRuns (s.rangePlaces id (r.base + 8) 8))
    | none => (s.unitOrigin 0, [(r.base + 8, 8)])
  let (s, tags) := s.askRuns .unit o runs
  (s, tags, s.port.out.any fun q => tags.contains q.tag && q.lost)

/-- One record event on a ring (R352); bytes 8 to 15 read all ones where the unit's read of them got no good answer (R358,
log entry 61). -/
def State.recordOn (s : State) (k : Ring) (r : RingAt) (data : List Byte) (lost : Bool) : State :=
  let c := if lost then 2 ^ 64 - 1 else leNat (s.ringRead r 8 8)
  let p := leNat (s.ringRead r 0 8)
  let prod := p % 2 ^ 32
  let ovf := p.testBit 63
  if r.cap ≤ (prod + 2 ^ 32 - c % 2 ^ 32) % 2 ^ 32 then
    let s := s.dropRecord k true
    if ovf then s else (s.ringWrite r 0 (leBytes 8 (p + 2 ^ 63))).deliverAt r.route
  else
    let s := s.ringWrite r (64 + r.slot * (prod % r.cap)) data
    let keep := ovf && !c.testBit 63
    (s.ringWrite r 0 (leBytes 8 ((prod + 1) % 2 ^ 32 + (if keep then 2 ^ 63 else 0)))).deliverAt r.route

/-- The events of one ring are handled in order; a NOTIFY's record waits for what its release waits for (R307), and every
record for the unit's read of CONS, where that leaves the device. -/
def State.record1 (s : State) (idx : Nat) : State :=
  match s.notices[idx]? with
  | none => s
  | some n =>
    if ((s.notices.take idx).any fun m => m.ring == n.ring) || !s.answered n.after then s
    else
      let rest := s.notices.eraseIdx idx
      match s.ringAt n.ring with
      | none => { s with notices := rest }.dropRecord n.ring false
      | some r =>
        match n.cons, s.askCons r with
        | none, (t, tag :: tags, lost) =>
          { t with notices := s.notices.set idx { n with after := tag :: tags, cons := some lost } }
        | cons, _ => { s with notices := rest }.recordOn n.ring r n.data (cons == some true)

def execRecordEvent (idx : Nat) (s : State) : Out := .next (s.record1 idx)

/-! ## Registers of BAR2 -/

/-- A debug command's register (R407): a write starts the command, as the next step, or is discarded. -/
def State.writeCommand (s : State) (x : DWord) : State :=
  if s.dbgBusy then s.discard
  else
    let n := x.toNat
    let part := bitsAt n 32 11
    let cmd : Instr := match n / 2 ^ 56 with
      | 1 => .stop part
      | 2 => .resume part
      | 3 => .step part (bitsAt n 44 4)
      | 4 => .dump part (n % 2 ^ 32)
      | op => .badop (BitVec.ofNat 8 op)
    { s with agenda := .event cmd :: s.agenda }

/-- A counter register takes only a write of 0. -/
def State.clearReg (s : State) (off : Nat) (x : DWord) : State := if x = 0 then s.setReg off 0 else s

/-- WP_HITS: a write of 0 clears it (R412). -/
def isHits (off : Nat) : Bool := wpReg 0 ≤ off && off < wpReg 16 && (off - wpReg 0) % 32 == 24

/-- What a register offset is; the power registers that are kept as written keep no reserved bit (R401). -/
inductive RegKind where
  | plain | counter | command | budget
  | masked (bits : DWord)
  | die (d : Nat)
  | cluster (c : Nat)
  | requests (d k : Nat)
  | vector (v : Nat)
  | none
deriving DecidableEq, Repr

/-- Registers by offset from 0x0D0_0000 of BAR2; each is 64 bits at a multiple of 8. -/
def regKind (off : Nat) : RegKind :=
  if off % 8 != 0 then .none
  else if off < 0x10_0000 then .plain
  else if off = regDnr ∨ off = regDnr + 8 ∨ (regDnr + 0x20 ≤ off ∧ off < regDnr + 0x40) then .plain
  else if 0x20_0100 ≤ off ∧ off < 0x20_0130 then .counter
  else if 0x20_0200 ≤ off ∧ off < 0x20_0300 then
    (if (off - 0x20_0200) % 0x40 < 0x28 then .requests ((off - 0x20_0200) / 0x40) ((off - 0x20_0200) % 0x40 / 8) else .none)
  else if off = regBudget then .budget
  else if off = powerBase + 8 ∨ off = powerBase + 0x20 then .plain
  else if off = powerBase + 0x10 then .masked 0x11F
  else if off = powerBase + 0x28 then .masked 0xFFFF
  else if off = powerBase + 0x30 then .masked 0x0000_FFFF_0000_0000
  else if off = powerBase + 0x38 then .masked 0
  else if off = powerBase + 0x40 then .counter
  else if regDie 0 ≤ off ∧ off < regDie 4 then .die ((off - regDie 0) / 8)
  else if regCluster 0 ≤ off ∧ off < regCluster 128 then .cluster ((off - regCluster 0) / 8)
  else if off = dbgBase then .command
  else if off = dbgBase + 8 then .plain
  else if holdReg 0 ≤ off ∧ off < holdReg 16 then .plain
  else if isHits off then .counter
  else if wpReg 0 ≤ off ∧ off < wpReg 16 then .plain
  else if off = smpBase ∨ off = smpBase + 8 ∨ off = smpBase + 16 ∨ off = trcBase ∨ off = trcCtl then .plain
  else if off = smpBase + 0x18 ∨ off = dbgBase + 0x450 then .counter
  else if traceEn 0 ≤ off ∧ off < traceEn 32 then .plain
  else if 0x20_3000 ≤ off ∧ off < 0x20_3500 then
    (if (off - 0x20_3000) % 0x100 < 160 then .counter else .none)
  else if 0x21_0000 ≤ off ∧ off < 0x21_8000 then
    (if off % 16 = 8 then .vector ((off - 0x21_0000) / 16) else .plain)
  else .none

/-- A driver's write of 64 bits to a register. -/
def State.writeReg (s : State) (off : Nat) (x : DWord) : State :=
  match regKind off with
  | .plain => s.setReg off x
  | .masked bits => s.setReg off (x &&& bits)
  | .counter => s.clearReg off x
  | .command => s.writeCommand x
  | .budget => s.writeBudget x
  | .die d => s.writeDieCtl d x
  | .cluster c => s.writeClCtl c x
  | .requests d k =>
    if x = 0 then let y := s.die d; s.setDie d { y with counters := put 0 y.counters k 0 } else s
  | .vector v => let s := s.setReg off x; if x.getLsbD 32 then s.mask v else s.unmask v
  | .none => s.discard

/-- The offset counts from the start of BAR2. -/
def execRegisterWrite (offset : Nat) (value : Streamed DWord) (s : State) : Out :=
  .next (s.posted value.ide fun s =>
    if 0x0D0_0000 ≤ offset then s.writeReg (offset - 0x0D0_0000) value.val else s.discard)

/-- A write to the edit window that is no DMWr, to RESULT, to a reserved or read-only area or to an unassigned
offset (R316, R346, R348, R349); any other place is not this step's. -/
def execHostWriteDiscard (bar : Nat) (offset : Streamed Nat) (s : State) : Out :=
  .next (s.posted offset.ide fun s =>
    if bar = 0 then s.discard
    else if bar = 2 && (offset.val < 0x0D0_0000
        || regKind ((offset.val - 0x0D0_0000) / 8 * 8) == .none) then s.discard
    else s)

/-! ## BAR4 (R118, R346, R360, R362) -/

/-- Device memory at consecutive physical addresses; what the tables hold is a free value (log entry 19). -/
def State.physRead (s : State) (a n : Nat) : State × List Byte :=
  ({ s with free := s.free + 1 }, (List.range n).map fun i =>
    if s.inTables (a + i) then Config.tableByte s.free (canonicalDev (a + i))
    else s.peek (.dev (canonicalDev (a + i))))

/-- A write there; only the Blocker writes the tables (R363). -/
def State.physWrite (s : State) (a : Nat) : List Byte → State
  | [] => s
  | b :: bs => (if s.inTables a then s else s.poke (.dev (canonicalDev a)) b).physWrite (a + 1) bs

def State.bar4 (s : State) (addr len : Nat) (write : Option (List Byte)) (ide : Bool) : State :=
  let n := match write with | some bs => bs.length | none => len
  if s.ideRefuses ide then
    match write with
    | some _ => s.discard
    | none => s.discard.answerWith .unsupported []
  else if (List.range n).all fun i => devExists (addr + i) then
    match write with
    | some bs => s.physWrite addr bs
    | none => let (s, bs) := s.physRead addr n; s.answerWith .successful bs
  else
    match write with
    | some _ => s.discard
    | none => s.answerWith .unsupported []

def execBar4Access (addr len : Nat) (write : Option (List Byte)) (ide : Bool) (s : State) : Out :=
  .next (if s.port.presented then s.bar4 addr len write ide else s)

/-! ## Other requests -/

/-- Configuration requests are answered with Retry Status until the function is presented (R395). -/
def execConfigRequest (s : State) : Out :=
  .next (s.answerWith (if s.port.presented then .successful else .retry) [])

/-- A request that needs an absent feature (R345). An AtomicOp to a BAR that arrives outside a stream is refused, and so
counted (R360). -/
def execUnsupportedRequest (f : AbsentFeature) (posted : Streamed Bool) (s : State) : Out :=
  let s := if f = .atomicCompleter ∧ s.ideRefuses posted.ide then s.discard else s
  .next (if posted.val then s else s.answerWith .unsupported [])

end Sys2Proof.Machine
end

