-- ==== Sys2Proof/Machine/Links.lean ====
section
/-! DEFINITION. Requests that cross a link (R105, R126, R127, R252, R356 to R359): the steps
HEVIS_REQUEST_ARRIVAL, HEVIS_ACK, HEVIS_RETRY, CPL_TIMEOUT and PCIE_COMPLETION. -/

namespace Sys2Proof.Machine

def codeREMOTELOST : Nat := 33
def regLinklost : Nat := 0x20_0120

/-! ## Replies -/

/-- The register a write names. -/
def Write.sameReg (a b : Write) : Bool :=
  match a, b with
  | .v r l _, .v q j _ => r == q && l == j
  | .s r _, .s q _ => r == q
  | .p r l _, .p q j _ => r == q && l == j
  | .m k _, .m j _ => k == j
  | _, _ => false

/-- A write with its value replaced. -/
def Write.withWord (w : Write) (x : Word) : Write :=
  match w with
  | .v r l _ => .v r l x
  | .s r _ => .s r x
  | .p r l _ => .p r l (x != 0)
  | .m k _ => .m k x

/-- Replace the values that some registers receive. -/
def reword (ws : List Write) (new : List Write) : List Write :=
  ws.map fun w => (new.find? fun n => n.sameReg w).getD w

/-- A replay part whose request has been answered (R421): its bytes, or all ones where it was lost. -/
def Pending.answer (p : Pending) (tag : Nat) (lost : Bool) : Pending :=
  { p with parts := p.parts.map fun (t, bs) =>
      if t = some tag then (none, if lost then bs.map fun _ => 0xFF#8 else bs) else (t, bs) }

/-- A result no longer waits for a request; `new` gives the registers of the request other values. -/
def Result.answered (r : Result) (tag : Nat) (lost : Bool) (new : List Write) : Result :=
  { r with
    await := r.await.filter (· != tag), writes := reword r.writes new,
    log := r.log.map fun p => p.answer tag lost }

/-- The request a reply belongs to. -/
def State.request (s : State) (tag : Nat) : Option OutReq := s.port.out.find? fun r => r.tag == tag

/-- Log the values of a result all of whose requests have been answered. -/
def State.logAnswered (s : State) (key : Nat) (r : Result) : State :=
  match r.log with
  | some p =>
    if r.await.isEmpty then
      s.logValue key p.kind r.plane r.region r.offset p.mask (p.parts.flatMap (·.2))
    else s
  | none => s

/-- A request that needs a completion through the PCI Express port (R344). -/
def OutReq.nonPosted (q : OutReq) : Bool := !q.hevis && q.kind != .posted

/-- A request is on its way: through Hevis Link no earlier request names a byte of it (R127); through the PCI Express
port fewer than 1,024 earlier non-posted ones are outstanding (R344). -/
def OutReq.sent (out : List OutReq) (q : OutReq) : Bool :=
  let before := out.filter fun r => r.tag < q.tag
  if q.hevis then !before.any fun r => r.hevis && meets (r.addr, r.addr + r.size) (q.addr, q.addr + q.size)
  else !q.nonPosted || (before.countP OutReq.nonPosted) < 1024

/-- An outstanding request that has been sent, by its tag. -/
def State.sent (s : State) (tag : Nat) : Option OutReq :=
  match s.request tag with
  | some q => if q.sent s.port.out then some q else none
  | none => none

/-- Take requests off the port; the ones that may be sent now are. -/
def State.unask (s : State) (gone : OutReq → Bool) : State :=
  let out := s.port.out.filter fun r => !gone r
  let out' := out.map fun r => if r.sent out && !r.sent s.port.out then { r with sentTick := s.tick } else r
  { s with port := { s.port with out := out' } }

/-- A monitor's word has come, or all ones in its place: the condition is tested (R260, R358). -/
def State.monitorReply (s : State) (o : Origin) (cond : Nat) (x : Word) : State :=
  if !s.isMaker o then s
  else
    let g := s.group o.group
    let sp := g.split o.slot
    match sp.wait with
    | none => s
    | some w =>
      match w.conds[cond]? with
      | none => s
      | some c =>
        if c.kind = .monitor && c.met.isNone && c.addr.toNat = o.va && c.wordOk x then
          let w := { w with conds := w.conds.set cond { c with met := some s.tick } }
          s.setGroup o.group (g.setSplit o.slot (some { sp with wait := some w }))
        else s

/-- Bytes of an EDIT have come, or all ones in their place; when all have, the edit arrives at the port (R305, R319). -/
def State.editReply (s : State) (q : OutReq) (lost : Bool) : State :=
  match s.port.edits.find? fun e => e.await.contains q.tag with
  | none => s
  | some e =>
    let rest := s.port.edits.eraseP fun e => e.await.contains q.tag
    let e := { e with
      await := e.await.filter (· != q.tag)
      data := if lost then patch e.data (q.origin.va % 128) (List.replicate q.size 0xFF#8) else e.data }
    let e := if e.await.isEmpty then { e with tick := s.editTick } else e
    { s with port := { s.port with edits := insertEdit e rest } }

/-- A read whose data never came leaves no copy of it in its core's L1. -/
def State.dropRead (s : State) (q : OutReq) : State :=
  (List.range q.size).foldl (fun s i =>
    let key := 2 * (q.addr + i) + 1
    let core := coreOf q.origin.group
    match s.l1 core key with
    | some x => if x.dirty then s else s.setL1 core key none
    | none => s) s

/-- What a reply does beside what it brings to registers. -/
def State.settleReply (s : State) (q : OutReq) (lost : Bool) : State :=
  match q.kind with
  | .monitor cond word => s.monitorReply q.origin cond (if lost then 0xFFFF_FFFF else word)
  | .edit => s.editReply q lost
  | .fetch id => if lost then s.fetchFailed id q.origin.va else s
  | .read => if lost then s.dropRead q else s
  | _ => s

/-- Take a request off the port, with the posted writes that a zero-length read followed (R126), and pass its reply to
who waits for it. -/
def State.reply (s : State) (q : OutReq) (lost : Bool) (new : List Write) : State :=
  let s := s.unask fun r => r.tag == q.tag || (q.kind.isFlush && r.kind == .posted && r.tag < q.tag)
  let s := s.settleReply q lost
  match look none s.groups q.origin.group with
  | none => s
  | some g =>
    match g.inflight.findIdx? fun r => r.await.contains q.tag with
    | none => s
    | some i =>
      let key := q.origin.group
      let r := ((g.inflight[i]?).getD default).answered q.tag lost new
      let r' := if r.await.isEmpty then { r with log := none } else r
      let s := s.logAnswered key r
      let g := s.group key
      s.setGroup key { g with inflight := g.inflight.set i r' }

/-- All ones in every register of a request's width. -/
def OutReq.ones (q : OutReq) : List Write := q.regs.map fun w => w.withWord 0xFFFF_FFFF

/-- A request that got no good answer: its registers receive all ones. -/
def State.unanswered (s : State) (q : OutReq) : State := s.reply q true q.ones

/-- REMOTE_LOST for a request, whose group may have left since (R356, R358, R425); MASK and ADDR are of the lanes that
receive all ones. -/
def State.remoteLost (s : State) (q : OutReq) (detail : Nat) : State :=
  let o := q.origin
  let bytes := faultRecordBytes o.group o.slot o.plane o.region o.offset o.index o.launch o.wgIndex s.tick
    { code := codeREMOTELOST, detail, mask := o.mask, addr := o.va, index := 0 } false
  (s.writeFault o.ctx bytes).1

/-- Made by a plane issue of a group: what a core, an engine, the notification unit or the Blocker asks for is not
(R358). -/
def OutKind.ofGroup : OutKind → Bool
  | .read | .register _ | .store | .rmw _ | .monitor .. | .edit | .queue => true
  | .flush group => group
  | .publish | .command | .posted | .fetch _ | .unit => false

/-- The request may go without a good answer: for a unit's own read that is settled as it is made (log entry 6). -/
def OutReq.mayFail (q : OutReq) : Bool := q.kind != .unit || q.lost

/-- A host AtomicOp that did not complete Successful is counted at the MAP record it used (R252, R330). -/
def State.countAtomicError (s : State) (q : OutReq) : State :=
  match q.kind with
  | .rmw record => if q.hevis then s else s.bumpAst record 2 1
  | _ => s

/-! ## Hevis Link -/

/-- The destination has performed the request and acknowledged it (R127). -/
def execHevisAck (tag : Nat) (s : State) : Out :=
  .next (
    match s.sent tag with
    | some q => if q.hevis && !q.lost then s.reply q false [] else s
    | none => s)

/-- Re-send after 500 ticks; after 8 attempts the request is abandoned (R356). -/
def State.retry (s : State) (q : OutReq) : State :=
  if s.tick < q.sentTick + 500 then s
  else if q.attempts < 8 then
    let again (r : OutReq) : OutReq :=
      if r.tag = q.tag then { r with attempts := r.attempts + 1, sentTick := s.tick } else r
    { s with port := { s.port with out := s.port.out.map again } }
  else ((s.bumpReg regLinklost 1).remoteLost q 0).unanswered q

def execHevisRetry (tag : Nat) (s : State) : Out :=
  .next (
    match s.sent tag with
    | some q => if q.hevis && q.mayFail then s.retry q else s
    | none => s)

/-- Place of a device physical address that names a cell. -/
def physLoc (a : Nat) : Loc := .dev (canonicalDev a)

/-- An incoming read-modify-write: poisoned bytes are not touched (R424). -/
def State.remoteRmw (s : State) (a n : Nat) (f : DWord → Option DWord) : State × List Byte :=
  let l := physLoc a
  if (List.range n).any fun i => s.poisoned (l.plus i) then (s, List.replicate n 0xFF)
  else if (List.range n).any fun i => s.inTables (a + i) then s.physRead a n
  else
    let old := s.peeks l n
    match f (BitVec.ofNat 64 (leNat old)) with
    | some x => (s.pokes l (leBytes n x.toNat), old)
    | none => (s, old)

/-- What an incoming request does, and the reply it carries back. -/
def State.remote (s : State) (a : Nat) : HevisOp → State × List Byte
  | .write bs => (s.physWrite a bs, [])
  | .rmw op t v => s.remoteRmw a (4 * t.regs) fun old => some (atomInt op t old v)
  | .rmwf op t v =>
    s.remoteRmw a (if t = .f32 then 4 else 2) fun old =>
      some ((atomFloat op t (old.setWidth 32) v).1.setWidth 64)
  | .cas wide cmp v => s.remoteRmw a (if wide then 8 else 4) fun old => if old = cmp then some v else none
  | .read n => s.physRead a n

def hevisBytes : HevisOp → Nat
  | .write bs => bs.length
  | .rmw _ t _ => 4 * t.regs
  | .rmwf _ t _ => if t = .f32 then 4 else 2
  | .cas wide _ _ => if wide then 8 else 4
  | .read n => n

/-- Each tag of a source is applied at most once; the first application's reply is sent again (R127). A request
that names no cell of this device is not applied. -/
def State.arrival (s : State) (src tag a : Nat) (op : HevisOp) : State :=
  match s.port.applied.find? fun e => e.1 == src && e.2.1 == tag with
  | some e => { s with port := { s.port with replies := e :: s.port.replies } }
  | none =>
    if (List.range (hevisBytes op)).all fun i => devExists (a + i) then
      let (s, bs) := s.remote a op
      { s with port := { s.port with
          applied := (src, tag, bs) :: s.port.applied, replies := (src, tag, bs) :: s.port.replies } }
    else s

def execHevisRequestArrival (src tag addr : Nat) (op : HevisOp) (s : State) : Out :=
  .next (if s.stage = 2 then s.arrival src tag addr op else s)

/-! ## PCI Express -/

/-- A non-posted request is abandoned when no completion has come for 5,000 ticks (R358). -/
def execCplTimeout (tag : Nat) (s : State) : Out :=
  .next (
    match s.sent tag with
    | some q =>
      if !q.nonPosted || !q.mayFail || s.tick < q.sentTick + 5000 then s
      else
        let s := s.bumpReg regCpltimeout 1
        let s := if q.kind.ofGroup then s.remoteLost q 1 else s
        (s.countAtomicError q).unanswered q
    | none => s)

/-- The words a peer register's value gives the registers of each lane. -/
def registerWords (regs : List Write) (data : List Byte) (n : Nat) : List Write :=
  regs.zipIdx.map fun (w, i) => w.withWord (BitVec.ofNat 32 (leNat ((data.drop (4 * (i % (n / 4)))).take 4)))

/-- A completion that arrives within 5,000 ticks (R358): Successful only where the completer performed the request. -/
def State.completion (s : State) (q : OutReq) (c : Completion) : State :=
  if c.status = .successful then
    if q.lost then s
    else
      match q.kind with
      | .register n => s.reply q false (registerWords q.regs c.data n)
      | _ => s.reply q false []
  else if q.mayFail then (s.countAtomicError q).unanswered q
  else s

/-- A completion of an outstanding request; one whose request was abandoned is discarded. -/
def execPcieCompletion (tag : Nat) (c : Completion) (s : State) : Out :=
  .next (
    match s.sent tag with
    | some q => if q.nonPosted && s.tick ≤ q.sentTick + 5000 then s.completion q c else s
    | none => s)

end Sys2Proof.Machine
end

