-- ==== Sys2Proof/Machine/Errors.lean ====
section
/-! DEFINITION. Errors that strike the part (R423, R427 to R429) and the background steps of caches (R32, R100,
R123): UNCORRECTABLE_ERROR, CORRECTED_ERROR, L1_EVICT and STACK_CACHE_SPILL. -/

namespace Sys2Proof.Machine

/-- Counters of R427 by structure. -/
def structureIndex : Structure → Nat
  | .hbm => 0 | .secondTier => 1 | .l2 => 2 | .scratchpad => 3 | .l1Shared => 4
  | .regFile => 5 | .accum => 6 | .stackCache => 7 | .links => 8 | .iodSram => 9

def regErrors (unit : Nat) (st : Structure) (ue : Bool) : Nat :=
  0x20_3000 + 0x100 * unit + 16 * structureIndex st + (if ue then 8 else 0)

def State.countError (s : State) (unit : Nat) (st : Structure) (ue : Bool) : State :=
  if unit ≤ 4 then s.bumpReg (regErrors unit st ue) 1 else s

def execCorrectedError (st : Structure) (unit : Nat) (s : State) : Out := .next (s.countError unit st false)

/-! ## Where an error strikes -/

/-- The structure that holds a site; L2, scratchpad, HBM and second tier go by the address. -/
def siteIn : ErrorSite → Structure → Bool
  | .memory a, .hbm => devExists a && !(scratchBase ≤ a && a < scratchBase + 4 * 2 ^ 32) && !(secondBase ≤ a)
  | .memory a, .secondTier => devExists a && secondBase ≤ a
  | .cached a, .l2 => devExists a && !(scratchBase ≤ a && a < scratchBase + 4 * 2 ^ 32)
  | .cached a, .scratchpad => devExists a && scratchBase ≤ a && a < scratchBase + 4 * 2 ^ 32
  | .shared .., .l1Shared | .l1 .., .l1Shared => true
  | .vreg .., .regFile | .sreg .., .regFile => true
  | .row .., .accum | .arrayA .., .accum | .arrayB .., .accum | .arrayRow .., .accum => true
  | .pte .., .hbm => true
  | .stack .., .stackCache => true
  | .iodSram, .iodSram => true
  | _, _ => false

/-- The die whose structures hold a site, 4 for the IOD (R366, R427); none where there is no such site. -/
def State.siteUnit (s : State) : ErrorSite → Option Nat
  | .memory a | .cached a => some (homeDie (canonicalDev a))
  | .shared wg _ => (look none s.wgs wg).map fun w => coreDie w.core
  | .l1 core _ => if core < 512 then some (coreDie core) else none
  | .vreg g .. | .sreg g _ | .stack g .. => (look none s.groups g).map fun _ => dieOf g
  | .row p .. | .arrayA p _ | .arrayB p | .arrayRow p _ => if p < 2048 then some (p / 512) else none
  | .pte _ _ level a => if level ≤ 3 && s.inTables a then some (homeDie (canonicalDev a)) else none
  | .iodSram => some 4

/-- The realised MAP record whose device memory holds a canonical address. -/
def State.coveringMap (s : State) (k : Nat) : Option Nat :=
  s.maps.findSome? fun (id, m) =>
    match m with
    | some m =>
      if m.mkind = 0 && (footprint m.target m.length).any fun x => x.1 ≤ k && k < x.2 then some id else none
    | none => none

/-- The memory-error notice of a sector (R428). -/
def State.memoryNotice (s : State) (a : Nat) (id : Option Nat) : State :=
  s.send .driver (leBytes 2 6 ++ leBytes 2 0 ++ leBytes 4 (id.getD 0xFFFF_FFFF) ++ leBytes 8 (a / 32 * 32)
    ++ leBytes 8 s.tick ++ leBytes 8 0)

/-- A memory error: poison, the notice of R428, and the granule's retirement: one that the Blocker allocated, counted at
its MAP record, and a free one; a driver's target is the driver's to move (R429). -/
def State.memoryError (s : State) (a : Nat) : State :=
  let k := canonicalDev a
  let s := s.setPoison (.dev k) true
  let id := s.coveringMap k
  let own := s.allocated.any fun (x, n) => (footprint x n).any fun y => y.1 ≤ k && k < y.2
  let s := if (own || id.isNone) && !s.retiredMem.contains (k / 4096) then
      let s := { s with retiredMem := k / 4096 :: s.retiredMem }
      match own, id with
      | true, some id => s.bumpAst id 1 1
      | _, _ => s
    else s
  s.memoryNotice a id

/-- The bytes of a sector in the phase cache, by one of their numbers. -/
def sectorKeys (place : Nat) : List Nat := (List.range 32).map fun i => place / 64 * 64 + 2 * i + place % 2

/-- An L1 copy: a written one is poisoned, an unchanged one is fetched again (R423). -/
def State.l1Error (s : State) (unit core place : Nat) : State :=
  let copies := (sectorKeys place).filterMap fun k => s.l1 core k
  if copies.isEmpty then s
  else if copies.any (·.dirty) then
    let c := s.core core
    let k := l1Sector place
    (s.setCore core { c with l1Poison := k :: c.l1Poison.filter (· != k) }).countError unit .l1Shared true
  else ((sectorKeys place).foldl (fun s i => s.setL1 core i none) s).countError unit .l1Shared false

/-- A lost register reads all ones; the issue that reads it writes the record (R423, R425). -/
def Group.loseV (g : Group) (r l : Nat) : Group :=
  { g with v := put 0 g.v (64 * r + l) 0xFFFF_FFFF, lost := (r, l) :: g.lost.filter (· != (r, l)) }
def Group.loseS (g : Group) (r : Nat) : Group :=
  { g with s := put 0 g.s r 0xFFFF_FFFF, lost := (512 + r, 0) :: g.lost.filter (· != (512 + r, 0)) }

def State.registerLost (s : State) (key : Nat) (f : Group → Group) : State :=
  match look none s.groups key with
  | none => s
  | some g => s.setGroup key (f g)

/-- Poison a row of a tile. -/
def Tile.poisonRow (t : Tile) (row : Nat) : Tile := { t with poison := t.poison ||| (1#32 <<< row) }

def State.rowError (s : State) (part ctx tile row : Nat) : State :=
  let p := s.part part
  let key := tileKey ctx tile
  s.setPart part { p with tiles := p.tiles.map fun e => if e.1 = key then (e.1, e.2.poisonRow row) else e }

/-- Errors of the MMA that an array is computing (R156). -/
def State.arrayError (s : State) (part : Nat) (f : MmaOperands → MmaOperands) : State :=
  let p := s.part part
  match p.array.findIdx? fun j => j.tileAtStart.isSome with
  | some i => s.setPart part { p with array := p.array.modify i fun j => { j with ops := f j.ops } }
  | none => s

/-- Bytes that an entry of a table level covers (R363). -/
def entryBytes (level : Nat) : Nat :=
  match level with | 0 => 2 ^ 39 | 1 => 2 ^ 30 | 2 => 2 ^ 21 | _ => 2 ^ 12

/-- The level of a leaf by its SIZE code; a leaf of 64 KiB is 16 entries of level 3 (R363). -/
def leafLevel (leaf : Nat) : Nat :=
  match leaf with | 0 | 1 => 3 | 2 => 2 | _ => 1

/-- A sector of four page-table entries is lost: they read as VALID 0 (R423). -/
def Mapping.lose (m : Mapping) (va level : Nat) : Mapping :=
  let x := (va / (4 * entryBytes level) * (4 * entryBytes level), (va / (4 * entryBytes level) + 1) * (4 * entryBytes level))
  if level ≤ leafLevel m.leaf && meets x (m.va, m.va + m.length) then { m with lost := x :: m.lost.erase x } else m

/-- The walk finds no leaf there; the table's sector is HBM that no MAP record covers (R423, R428). -/
def State.pteError (s : State) (ctx va level addr : Nat) : State :=
  let lose (m : Mapping) : Mapping := if m.ctx = ctx then m.lose va level else m
  let s := { s with maps := s.maps.map fun (e : Nat × Option Mapping) => (e.1, e.2.map lose) }
  s.memoryNotice addr none

/-- What an uncorrectable error does at its site. -/
def State.strike (s : State) (unit : Nat) : ErrorSite → State
  | .memory a => (s.memoryError a)
  | .cached a => s.setPoison (physLoc a) true
  | .shared wg off => if (look none s.wgs wg).isSome then s.setPoison (.shared wg off) true else s
  | .l1 core place => s.l1Error unit core place
  | .vreg g r l => s.registerLost g fun g => g.loseV r l
  | .sreg g r => s.registerLost g fun g => g.loseS r
  | .row p c t r => s.rowError p c t r
  | .arrayA p r | .arrayRow p r => s.arrayError p fun o => { o with errRows := o.errRows ||| (1#32 <<< r) }
  | .arrayB p => s.arrayError p fun o => { o with errB := true }
  | .pte c va level a => s.pteError c va level a
  | .stack g l off =>
    if (look none s.groups g).isSome then s.setPoison (.stack g (l * 2 ^ 32 + off)) true else s
  | .iodSram => s

/-- An L1 copy counts as its state at the error decides; every other site counts as uncorrectable. -/
def siteCounts : ErrorSite → Bool
  | .l1 .. => false
  | _ => true

def execUncorrectableError (st : Structure) (unit : Nat) (site : ErrorSite) (s : State) : Out :=
  .next (
    if siteIn site st && s.siteUnit site == some unit then
      (if siteCounts site then s.countError unit st true else s).strike unit site
    else s)

/-! ## Caches in the background -/

/-- The L1 may publish a weak store early (R123): `addr` is a place as the phase cache numbers places. -/
def execL1Evict (core addr : Nat) (s : State) : Out := .next (s.evictByte core (Loc.ofKey addr))

/-- Spill and fill of the stack cache are seen by no program (R32, R100). -/
def execStackCacheSpill (_core : Nat) (s : State) : Out := .next s

end Sys2Proof.Machine
end

