-- ==== Sys2Proof/Machine/Start.lean ====
section
/-! DEFINITION. Staged start (R393 to R397, R435), identity and attestation (R360, R361, R398, R399): the steps
FLASH_WRITE, CONVENTIONAL_RESET, BOOT_ROM_START, STAGE_A, STAGE_B, the SPDM requests and IDE_KM. -/

namespace Sys2Proof.Machine

/-! ## Flash and reset (R393, R397) -/

def execFlashWrite (area : FlashArea) (data : List Byte) (s : State) : Out :=
  let b := s.boot
  let b := match area with
    | .cfg0 => { b with cfg0 := data }
    | .cfg1 => { b with cfg1 := data }
    | .fw0 => { b with fw0 := data }
    | .fw1 => { b with fw1 := data }
    | .helper => { b with helper := data }
    | .cert => { b with cert := data }
  .next { s with boot := b }

/-- Flash and what lies outside the module, with all else as at reset. -/
def State.restart (s : State) : State :=
  let b := s.boot
  let boot := { Boot.reset with cfg0 := b.cfg0, cfg1 := b.cfg1, fw0 := b.fw0, fw1 := b.fw1, helper := b.helper,
                                cert := b.cert }
  { State.reset with boot, ext := s.ext, free := s.free }

/-- Start again from the boot ROM; the contents of device memory stay (DESIGN CHOICE). -/
def execConventionalReset (s : State) : Out := .next { s.restart with mem := s.mem, poison := s.poison }

/-- A loss of power starts again from the boot ROM; device memory reads as after power-on (R397, log entry 4). -/
def State.powerLoss (s : State) : State := s.restart

/-! ## The boot ROM (R394, R395) -/

def sigBytes : Nat := 29792

/-- A 16-bit field as a signed number lies between −50 and 50. -/
def trimOk (x : Nat) : Bool := x ≤ 50 || 65536 - 50 ≤ x

/-- A valid signed configuration block. -/
def cfgValid (b : List Byte) : Bool :=
  b.length == 192 + sigBytes && field b 0 4 == 0x47464357 && field b 12 4 < 2
  && 64 ≤ field b 36 4 && field b 36 4 ≤ 4096
  && (List.range 32).all (fun i => trimOk (field b (40 + 2 * i) 2)) && field b 104 2 ≤ 3000
  && zeroFrom b 106 86 && Config.verifies (b.take 192) (b.drop 192)

/-- The valid block with the greater CFGVER; CFG0 where they are equal. -/
def Boot.chooseCfg (b : Boot) : Option (List Byte) :=
  if cfgValid b.cfg0 && (!cfgValid b.cfg1 || field b.cfg1 4 4 ≤ field b.cfg0 4 4) then some b.cfg0
  else if cfgValid b.cfg1 then some b.cfg1
  else none

def secver (fw : List Byte) : Nat := field fw 4 4

/-- Bytes of an image's header and body: its image length (log entry 38). -/
def fwLength (fw : List Byte) : Nat := field fw 8 4

/-- A firmware image whose signature verifies over its header and body. -/
def fwValid (fw : List Byte) : Bool :=
  let n := fwLength fw
  64 ≤ n && n + sigBytes ≤ fw.length && field fw 0 4 == 0x31574657
  && Config.verifies (fw.take n) ((fw.drop n).take sigBytes)

/-- The first slot, in descending SECVER order, FW0 first on a tie, that verifies and is recent enough. -/
def Boot.chooseFw (b : Boot) (least : Nat) : Option (List Byte) :=
  let order := if secver b.fw0 < secver b.fw1 then [b.fw1, b.fw0] else [b.fw0, b.fw1]
  (order.find? fun fw => fwValid fw && least ≤ secver fw).map fun fw => fw.take (fwLength fw + sigBytes)

/-- "WICEN4-ID" in ASCII. -/
def idLabel : List Byte := [0x57, 0x49, 0x43, 0x45, 0x4E, 0x34, 0x2D, 0x49, 0x44]

/-- The seeds of the identity key, where the fingerprint corrects and gives the public key of the leaf certificate
(R398). -/
def Boot.identityKey (b : Boot) (n : Nat) : Option (List Byte) :=
  (Config.corrected (Config.fingerprint n) b.helper).bind fun k =>
    let seeds := Config.shake256 96 (k ++ idLabel)
    if Config.publicKey seeds = Config.leafKey b.cert then some seeds else none

/-- Measurements 1 to 4 and 6 (R399). -/
def measure (cfg fw : List Byte) (identity : Bool) : List (Nat × List Byte) :=
  [(1, Config.shake256 64 Config.bootRom), (2, Config.shake256 64 cfg), (3, Config.shake256 64 fw),
   (4, leBytes 4 (secver fw)), (6, leBytes 1 (if identity then 1 else 0))]

/-- BOOTSTATUS bit 8: the identity key was not reconstructed (R397). -/
def lostBit (identity : Option (List Byte)) : Nat := if identity.isSome then 0 else 256

def State.bootRom (s : State) : State :=
  let b := s.boot
  match b.chooseCfg with
  | none => { s with boot := { b with status := 3 + lostBit none } }
  | some cfg =>
    let identity := b.identityKey s.free
    let b := { b with cfg, identity, chain := b.cert }
    let s := { s with free := s.free + 1 }
    match b.chooseFw (field cfg 8 4) with
    | none => { s with boot := { b with status := 4 + lostBit identity } }
    | some fw =>
      let b := { b with fw, booted := true, status := lostBit identity,
                        measurements := measure cfg fw identity.isSome }
      let s := { s with boot := b, agenda := s.agenda ++ [Turn.event Instr.stageA] }
      let s := s.setReg regBudget (BitVec.ofNat 64 s.moduleMax)
      { s with tickRegs := s.port.regs, roundRegs := s.port.regs }

def execBootRomStart (s : State) : Out :=
  .next (if s.boot.booted || s.boot.status != 0 then s else s.bootRom)

/-! ## A die starts (R435) -/

/-- A cluster of a die that starts in mid-round. -/
def State.startCluster (s : State) (cl : Nat) : State :=
  let ctl := clCtlOf (look 0 s.tickRegs (regCluster cl))
  let (op, ratio) := chooseRatio ctl.lo ctl false
  s.setCluster cl
    { (default : Cluster) with op, ratio, nextOp := op, nextRatio := ratio }

/-- The die's emergency clearing: its floor, no share, nothing floored. It reads the registers as its tick began, and
the injector's and the gates' as the round began (R402, R435). -/
def State.startDie (s : State) (d : Nat) : State :=
  let ctl := dieCtlOf (look 0 s.roundRegs (regDie d))
  let b := min (tokensOf (look 0 s.tickRegs regBudget).toNat / 16) 16777215
  let die : Die :=
    { (default : Die) with
      started := true, budget := b, floorRate := b / 512, emergency := true, didt := ctl.didt, gap := ctl.gap,
      ring := List.replicate 33 (0, 0), recordTick := s.tick }
  ((List.range 32).map (32 * d + ·)).foldl State.startCluster (s.setDie d die)

/-- C0, the DSR and AST, the edit port and the Blocker come up; the function is presented. -/
def State.stageA (s : State) : State :=
  let s := s.startDie 0
  { s with stage := 1, port := { s.port with presented := true },
           boot := { s.boot with status := 1 + lostBit s.boot.identity } }

def execStageA (s : State) : Out := .next (if s.boot.booted && s.stage = 0 then s.stageA else s)

/-- All the rest comes up, or Stage B has failed until the next reset. -/
def State.stageB (s : State) (ok : Bool) : State :=
  if ok then
    let s := [1, 2, 3].foldl State.startDie s
    { s with stage := 2, boot := { s.boot with status := 2 + lostBit s.boot.identity } }
  else { s with boot := { s.boot with status := 5 + lostBit s.boot.identity } }

def execStageB (ok : Bool) (s : State) : Out :=
  .next (if s.stage = 1 && s.boot.status % 256 = 1 then s.stageB ok else s)

/-! ## SPDM (R361, R398, R399) -/

/-- Answer a message of the DOE mailbox. -/
def State.spdm (s : State) (a : SpdmAnswer) : State :=
  if s.port.presented then { s with port := { s.port with spdm := some a } } else s

def execGetVersion (s : State) : Out := .next (s.spdm .version)
def execGetCapabilities (s : State) : Out := .next (s.spdm .capabilities)

/-- A requester that offers neither algorithm gets an error and no session. -/
def execNegotiateAlgorithms (sigOk hashOk : Bool) (s : State) : Out :=
  let ok := sigOk || hashOk
  let s := s.spdm (if ok then .algorithms else .error)
  .next { s with port := { s.port with algorithms := ok, session := if ok then s.port.session else 0 } }

def execGetDigests (s : State) : Out := .next (s.spdm (.digests (Config.sha3 s.boot.chain)))

/-- CERT is slot 0. -/
def execGetCertificate (slot : Nat) (s : State) : Out :=
  .next (s.spdm (if slot = 0 then .certificate s.boot.chain else .error))

def execChallenge (nonce : List Byte) (s : State) : Out :=
  .next (s.spdm (match s.boot.identity with | some k => .challengeAuth (Config.sign k nonce) | none => .error))

/-- Measurement blocks; 5 is STAGE as it stands. -/
def State.blocks (s : State) (index : Nat) : List (Nat × List Byte) :=
  let all := s.boot.measurements ++ [(5, leBytes 1 s.stage)]
  if index = 0xFF then all else all.filter fun e => e.1 == index

def execGetMeasurements (signed : Bool) (index : Nat) (nonce : List Byte) (s : State) : Out :=
  let bs := s.blocks index
  .next (s.spdm (
    if !signed then .measurements bs []
    else match s.boot.identity with
      | some k => .measurements bs (Config.sign k (nonce ++ bs.flatMap (·.2)))
      | none => .error))

def execKeyExchange (nonce : List Byte) (s : State) : Out :=
  .next (
    match s.boot.identity with
    | some k =>
      if s.port.algorithms then
        let s := s.spdm (.keyExchange (Config.sign k nonce))
        { s with port := { s.port with session := 1 } }
      else s.spdm .error
    | none => s.spdm .error)

def execFinish (s : State) : Out :=
  .next (
    if s.port.session = 1 then
      let s := s.spdm .finished
      { s with port := { s.port with session := 2 } }
    else s.spdm .error)

/-- Keys of a stream, 0 the link's and 1 to 4 selective, over a secured session (R360). -/
def execIdeKm (stream : Nat) (key : List Byte) (s : State) : Out :=
  .next (
    if s.port.session = 2 && stream ≤ 4 then
      let s := s.spdm .ideDone
      { s with port := { s.port with streams := (stream, key) :: s.port.streams.filter fun e => e.1 != stream } }
    else s.spdm .error)

end Sys2Proof.Machine
end

