-- ==== Sys2Proof/Machine/Debug.lean ====
section
/-! DEFINITION. The debug core (R407 to R419, R432): the steps STOP, RESUME, STEP, DUMP, DUMP_WRITE, BADOP,
WATCHPOINT_PREDICATE and SAMPLE_RECORD. -/

namespace Sys2Proof.Machine

/-! ## Commands (R407, R411) -/

/-- A partition on a die that has started. -/
def State.partUp (s : State) (part : Nat) : Bool := part < 2048 && (s.die (part / 512)).started

def opSTOP : Nat := 1
def opRESUME : Nat := 2
def opSTEP : Nat := 3
def opDUMP : Nat := 4

/-- Results of DBG_STATUS. -/
def resOK : Nat := 0
def resBADPART : Nat := 2
def resNOTSTOPPED : Nat := 3
def resNOTREADY : Nat := 4
def resNODUMP : Nat := 5
def resHEADERFAULT : Nat := 6
def resBADOP : Nat := 7
def resBADSPAN : Nat := 8

/-- A command that finds the debug core busy is not started; one on a die that is not up completes BADPART. -/
def State.command (s : State) (op part : Nat) (run : State → State) : State :=
  if s.dbgBusy then s
  else if !s.partUp part then s.dbgDone op resBADPART
  else run s

def execStop (part : Nat) (s : State) : Out :=
  .next (s.command opSTOP part fun s => (s.stopPart part 5 255 0 0 0 none).dbgDone opSTOP resOK)

/-- A group is held no longer; the issue of a split goes on without a test (R412). -/
def Group.letGo (g : Group) (slot : Nat) : Group :=
  { g with held := none, released := slot :: g.released.filter (· != slot) }

/-- The charge of an issue can be drawn at once: the pouch holds it and no other group's reservation keeps it (R65), and a
full replay log does not hold the issue (R422). -/
def State.drawable (s : State) (p : Prospect) : Bool :=
  let c := s.cluster (clusterOf p.cur.group)
  let n := s.presents p
  (n == 0 || (n ≤ c.pouch && (c.reservation.isNone || c.reservation == some p.cur.group)))
  && (match p.found with | .instr i => s.logRoom p i | _ => true)

/-- A withheld plane issue is performed as though it had just been picked, its group's reservation let go; where its charge
cannot be drawn at once it is picked as any other (R65, R412). -/
def State.goAhead (s : State) (c : Cur) : State :=
  let s := s.dropHolder (clusterOf c.group)
  let s := s.setGroup c.group ((s.group c.group).letGo c.slot)
  match s.prospect c.group c.slot with
  | some p =>
    if s.drawable p then let s := s.releaseReservation p.cur; { s with agenda := .issue p.cur :: s.agenda } else s
  | none => s

/-- A group whose issue is withheld after a true result is a candidate again; hits whose predicate has not run keep
theirs (R411, R412). -/
def State.ungrip (s : State) (key : Nat) : State :=
  match look none s.groups key with
  | none => s
  | some g =>
    match g.held with
    | some (_, slot) => if s.hits.any fun h => h.cur.group == key then s else s.setGroup key (g.letGo slot)
    | none => s

/-- Every frozen group is a candidate again, and an issue whose predicate was true needs no new test (R411, R412). -/
def State.resumePart (s : State) (part : Nat) : State :=
  let p := s.part part
  match p.stopped with
  | none => s.dbgDone opRESUME resNOTSTOPPED
  | some x =>
    let s := s.tell part
    let s := (s.setPart part { p with stopped := none, stepping := none }).thaw part x.since 16
    let s := s.trace 3 255 0 part 0 0 0
    ((List.range 16).foldl (fun s k => s.ungrip (16 * part + k)) s).dbgDone opRESUME resOK

def execResume (part : Nat) (s : State) : Out :=
  .next (s.command opRESUME part fun s => s.resumePart part)

/-- A gang MMA finds the latch held by a gang all of whose missing members are frozen. -/
def State.latchFrozen (s : State) (key slot : Nat) : Bool :=
  match (s.prospect key slot).bind (·.instr), (s.core (coreOf key)).latch with
  | some (.mma ..), some (gang, wg, ms) =>
    let g := s.group key
    bitsAt g.gang.toNat 16 2 != 0 && !s.latchOpen g (coreOf key)
    && (((s.wgOf wg).gangKeys gang).filter fun k => !ms.any fun m => m.group == k).all s.frozen
  | _, _ => false

/-- A split waits for a register tagged with a pending handle: an implicit WAIT, whether entered or, in a frozen group,
not (R50, R434). -/
def State.handleHeld (s : State) (key slot : Nat) : Bool :=
  match (s.prospect key slot).bind (·.instr) with
  | some i => s.tagBlocked (s.group key) i
  | none => false

/-- A solo MMA stands behind a frozen group's older request for leave (R75). -/
def State.leaveFrozen (s : State) (key slot : Nat) : Bool :=
  match s.prospect key slot with
  | some p =>
    s.needsLeave p && (s.cluster (clusterOf key)).leave.any fun q =>
      q.parts.length == 1 && q.group != key && s.frozen q.group
      && (match s.requestOf p with | some r => q.before r | none => true)
  | none => false

/-- A split stands in WAIT, explicit or one of R50 and R434: the wait of a release for its acknowledgements is none of
them, and passes with time. -/
def Split.inWait (sp : Split) : Bool :=
  match sp.wait with
  | some w => (match w.kind with | .ack .. => false | _ => true)
  | none => false

/-- No split of a slot's group can issue, whatever time passes (R411). -/
def State.notReady (s : State) (key : Nat) : Bool :=
  match look none s.groups key with
  | none => true
  | some g =>
    let inHandler := g.live.any fun k => (g.split k).handler
    g.held.isSome
    || (g.live.filter fun k => !inHandler || (g.split k).handler).all fun k =>
        (g.split k).inWait || s.handleHeld key k || s.latchFrozen key k || s.leaveFrozen key k

/-- Let one group make one plane issue; `afterIssue` stops the partition again and completes the command. A STEP
whose group leaves meanwhile completes NOTREADY. -/
def State.stepPart (s : State) (part slot : Nat) : State :=
  let p := s.part part
  match p.stopped with
  | none => s.dbgDone opSTEP resNOTSTOPPED
  | some x =>
    if s.notReady (16 * part + slot) then s.dbgDone opSTEP resNOTREADY
    else
      let key := 16 * part + slot
      let now := (s.cluster (part / 16)).clock
      let s := s.tell part
      let s := s.setGroup key ((s.group key).thawed x.since now)
      (s.setPart part { s.part part with stepping := some slot }).dbgBegin

def execStep (part slot : Nat) (s : State) : Out :=
  .next (
    let p := s.part part
    if p.stepping = some slot && s.notReady (16 * part + slot) then
      (s.endStep part slot ((p.stopped.map (·.since)).getD 0)).dbgDone opSTEP resNOTREADY
    else s.command opSTEP part fun s => s.stepPart part slot)

def execBadop (op : BitVec 8) (s : State) : Out :=
  .next (if s.dbgBusy then s else s.dbgDone op.toNat resBADOP)

/-! ## Dumps (R414 to R417, R432) -/

def spanOff (x : DWord) : Nat := x.toNat % 2 ^ 32
def spanLen (x : DWord) : Nat := x.toNat / 2 ^ 32

def State.span (s : State) : DWord := s.reg (dbgBase + 8)

/-- The checks of a DUMP in R414's order. -/
def State.dumpPart (s : State) (part ctx : Nat) : State :=
  let len := spanLen s.span
  let off := spanOff s.span
  if (s.part part).stopped.isNone then s.dbgDone opDUMP resNOTSTOPPED
  else if len % 16 != 0 || 2 ^ 20 < len || off % 16 != 0 then s.dbgDone opDUMP resBADSPAN
  else if (look none s.ctxs ctx).isNone || s.ctxField ctx 80 8 = 0 then s.dbgDone opDUMP resNODUMP
  else { s.dbgBegin with dumping := some { part, ctx } }

def execDump (part ctx : Nat) (s : State) : Out :=
  .next (s.command opDUMP part fun s => s.dumpPart part ctx)

/-- Keys of the groups of a context resident on a partition, ascending. -/
def State.dumped (s : State) (part ctx : Nat) : List Nat :=
  ((List.range 16).map (16 * part + ·)).filter fun key =>
    match look none s.groups key with | some g => g.ctx == ctx | none => false

/-- Steps 1 and 2 of R414 are over: the partition's batches are drained, and the results of the context's groups
have been written. -/
def State.dumpReady (s : State) (d : Dumping) : Bool :=
  ((List.range 16).all fun k =>
    match look none s.groups (16 * d.part + k) with
    | some g => (s.wgOf g.wg).drained g.index
    | none => true)
  && (s.dumped d.part d.ctx).all fun key =>
    (s.group key).inflight.all fun r => s.inLatch key r

/-- A section: KIND, COUNT, ADDR and its bytes. -/
structure DumpSection where
  kind : Nat
  count : Nat
  addr : Nat
  data : List Byte
deriving DecidableEq, Repr

/-- The 64-byte group header of R417. -/
def State.dumpHeader (s : State) (key : Nat) : List Byte :=
  let g := s.group key
  let waits := g.live.any fun k => (s.heldOf key k true).isSome
  let inHandler := g.live.any fun k => (g.split k).handler
  let h := g.handling.getD { entry := 0, code := 0, detail := 0, done := false, region := 0, offset := 0,
                             frame := 0, mid := { todo := [], dests := [], planes := [], begun := false } }
  let mid (k : Nat) : Nat :=
    match (g.split k).mid with
    | some m => if m.begun then (match m.todo with | (plane, _) :: _ => 128 + plane | [] => 0) else 0
    | none => 0
  leBytes 1 (key % 16) ++ leBytes 1 g.index ++ leBytes 1 (widthCode g.width) ++ leBytes 1 (g.regs / 16)
  ++ leBytes 4 (s.wgOf g.wg).index ++ leBytes 4 g.launch
  ++ leBytes 1 ((if waits then 1 else 0) + (if g.held.isSome then 2 else 0))
  ++ leBytes 1 (if inHandler then 1 else 0) ++ leBytes 2 0
  ++ leBytes 4 (if inHandler then h.code else 0) ++ leBytes 4 (if inHandler then h.detail.toNat else 0)
  ++ ((List.range 4).flatMap fun k => leBytes 1 (mid k)) ++ List.replicate 36 0

def State.dumpRegs (s : State) (keys : List Nat) : DumpSection :=
  { kind := 1, count := keys.length, addr := 0,
    data := keys.flatMap fun key => s.dumpHeader key ++ s.frameOf key true }

/-- Results in flight at the stop of the context's groups. -/
def State.dumpBoard (s : State) (part : Nat) (keys : List Nat) : DumpSection :=
  let board := match (s.part part).stopped with | some x => x.board | none => []
  let es := board.filter fun e => keys.contains (16 * part + e.1)
  { kind := 2, count := es.length, addr := 0,
    data := es.flatMap fun (k, r) =>
      leBytes 1 k ++ leBytes 1 (r.set1 + 16 * r.set2) ++ leBytes 2 r.dest ++ leBytes 4 r.offset
      ++ leBytes 2 r.region ++ leBytes 1 r.plane ++ List.replicate 5 0 }

def State.dumpTiles (s : State) (part ctx : Nat) : DumpSection :=
  if !(s.part part).wrote.contains ctx then
    { kind := 3, count := 0, addr := 0, data := [] }
  else
    let tiles := (List.range 32).map fun n => s.tileNow part (tileKey ctx n)
    { kind := 3, count := 32, addr := 0,
      data := (tiles.flatMap fun t => (List.range 1024).flatMap fun i => leBytes 4 (look 0 t.words i).toNat)
        ++ tiles.flatMap fun t => leBytes 4 t.poison.toNat }

/-- Add a workgroup at its place in ascending SR.WG, once. -/
def State.addWgKey (s : State) (w : Nat) : List Nat → List Nat
  | [] => [w]
  | x :: xs =>
    if x = w then x :: xs
    else if (s.wgOf w).index < (s.wgOf x).index then w :: x :: xs
    else x :: s.addWgKey w xs

def State.dumpShared (s : State) (keys : List Nat) : DumpSection :=
  let ws := keys.foldl (fun ws k => s.addWgKey (s.group k).wg ws) []
  { kind := 4, count := ws.length, addr := 0,
    data := ws.flatMap fun w =>
      let x := s.wgOf w
      lookRange 0 x.shared 0 (roundUp x.sharedBytes 16) }

/-- The part of DBG_SPAN within the area of the lowest dumped group's launch on the partition's die. -/
def State.dumpScratch (s : State) (part : Nat) (keys : List Nat) : DumpSection :=
  let l := s.launch (s.group (keys.headD 0)).launch
  let die := part / 512
  let off := spanOff s.span
  let n := if keys.isEmpty || !(Sys2Proof.Machine.keys l.areas).contains die then 0
    else min (spanLen s.span) (l.scratch - off)
  { kind := 5, count := 0, addr := 0xFFFF_FC00_0000_0000 + die * 2 ^ 32 + off,
    data := s.peeks (.dev (scratchBase + die * 2 ^ 32 + look 0 l.areas die + off)) n }

/-- A barrier object read at its point of coherence; all ones where the read fails. -/
def State.dumpObject (s : State) (g : Group) (a : Nat) : List Byte :=
  let ones := List.replicate 16 0xFF#8
  match aperture a with
  | .global a =>
    (match s.mapping g.ctx a with
      | some (_, m) => if m.resident && m.device && m.perm.testBit 0 then s.peeks (m.loc a) 16 else ones
      | none => ones)
  | _ => match s.placeOf g a 16 with | some l => s.peeks l 16 | none => ones

def State.dumpBarriers (s : State) (keys : List Nat) : DumpSection :=
  let entries := keys.flatMap fun key =>
    let g := s.group key
    (List.range 4).flatMap fun k =>
      let conds : List Cond := match look none g.splits k with
        | some sp => (match sp.wait with | some w => w.conds | none => [])
        | none => []
      (conds.zipIdx.filter fun e => e.1.kind == .phase).map fun (c, i) =>
        leBytes 8 c.addr.toNat ++ s.dumpObject g c.addr.toNat ++ leBytes 1 (key % 16) ++ leBytes 1 k
        ++ leBytes 1 i ++ List.replicate 5 0
  { kind := 6, count := entries.length, addr := 0, data := entries.flatten }

/-- The sections that hold something, in order. -/
def State.dumpSections (s : State) (d : Dumping) : List DumpSection :=
  let keys := s.dumped d.part d.ctx
  let all := [s.dumpRegs keys, s.dumpBoard d.part keys, s.dumpTiles d.part d.ctx, s.dumpShared keys,
    s.dumpScratch d.part keys, s.dumpBarriers keys]
  all.filter fun x => !x.data.isEmpty

/-- Bytes of a range, from its start, that the context may write. -/
def State.writablePrefix (s : State) (ctx a n : Nat) : Nat :=
  ((List.range n).takeWhile fun i =>
    match s.mapping ctx (a + i) with
    | some (_, m) => m.resident && m.device && m.perm.testBit 1
    | none => false).length

/-- Write sections from an offset of the dump area on; their directory entries, and whether one is truncated. -/
def State.writeSections (s : State) (ctx base : Nat) : Nat → List DumpSection → State × List Byte × Bool
  | _, [] => (s, [], false)
  | off, x :: xs =>
    let n := s.writablePrefix ctx (base + off) x.data.length
    let whole := n = x.data.length
    let s := s.ctxWrite ctx (base + off) (x.data.take n)
    let (s, dir, cut) := s.writeSections ctx base (roundUp (off + x.data.length) 4096) xs
    (s, leBytes 1 x.kind ++ leBytes 1 (if whole then 1 else 2) ++ leBytes 2 x.count ++ leBytes 4 0
      ++ leBytes 4 off ++ leBytes 4 x.data.length ++ leBytes 4 n ++ leBytes 4 0
      ++ leBytes 8 (if x.kind = 5 then x.addr else 0) ++ dir, cut || !whole)

/-- The 64-byte header of R416. -/
def dumpHead (x : Stopped) (part ctx nsect : Nat) (cut : Bool) : List Byte :=
  let watch := if x.cause = 3 then x.watch else none
  [0x57#8, 0x44#8, 0x4D#8, 0x50#8] ++ leBytes 2 1 ++ leBytes 1 nsect ++ leBytes 1 x.cause ++ leBytes 4 part
  ++ leBytes 4 ctx ++ leBytes 8 x.tick ++ leBytes 8 x.clock ++ leBytes 1 (if cut then 1 else 0)
  ++ leBytes 1 (match watch with | some (w, _) => w | none => 0xFF) ++ leBytes 2 0
  ++ leBytes 4 (if x.cause = 1 then x.code else 0)
  ++ leBytes 8 (match watch with | some (_, a) => a.toNat | none => 0) ++ List.replicate 16 0

/-- Steps 3 to 5 of R414. -/
def State.writeDump (s : State) (d : Dumping) : State :=
  let base := s.ctxField d.ctx 80 8
  let secs := s.dumpSections d
  let x := ((s.part d.part).stopped).getD default
  let (s, dir, cut) := s.writeSections d.ctx base 4096 secs
  let head := padTo 256 (dumpHead x d.part d.ctx secs.length cut ++ dir)
  let s := { s with dumping := none }
  if s.writablePrefix d.ctx base 256 = 256 then
    (s.ctxWrite d.ctx base head).dbgDone opDUMP resOK
  else s.dbgDone opDUMP resHEADERFAULT

def execDumpWrite (s : State) : Out :=
  .next (
    match s.dumping with
    | some d => if s.dumpReady d then s.writeDump d else s
    | none => s)

/-! ## Predicates (R413) -/

/-- The registers of the debug core stand in a group of one lane that is nowhere resident. -/
def predKey : Nat := noSlot

def predGroup : Group :=
  { (default : Group) with
    width := 8, regs := 256, real := 1, budget := 2,
    splits := [(0, some { region := 0, offset := 0, mask := 1, mid := none, wait := none, handler := false })] }

/-- A field of class S, I or N. -/
def uniformField (x : Operand) : Bool :=
  match x with | .s _ | .imm _ | .none => true | _ => false

def uniformOp (o : Op) : Bool := uniformField o.d && uniformField o.a && uniformField o.b

/-- ISET and FSET write a predicate. -/
def predicateOp (o : Op) : Bool :=
  (match o.d with | .p _ => true | _ => uniformField o.d) && uniformField o.a && uniformField o.b

/-- A special register as the debug core reads it; the spec gives it SR.TICK alone, which is one count for the whole
module (R166), so the others are free values (DESIGN CHOICE, log entry 61). -/
def State.debugSr (s : State) (r : SReg) : DWord :=
  match r with
  | .tick => BitVec.ofNat 64 s.tick
  | _ => Config.debugSr s.free r.code.toNat

/-- MOV with an S destination, from an S register, an immediate or a special register (R413). -/
def State.predMov (s : State) (o : Op) (wide : Bool) : Option Out :=
  if !o.d.isS then none
  else
    match o.a with
    | .sr r =>
      let lanes := lanesOf (s.act o)
      let x := s.debugSr r
      let ws := if wide then destWrites64 o.d lanes fun _ => x else destWrites o.d lanes fun _ => x.setWidth 32
      some (.next (s.setMe (s.me.writes ws)))
    | a => if uniformField a then some (execMov o wide s) else none

/-- What a word of the arithmetic groups does to the debug core's registers. -/
def predExec (i : Instr) (s : State) : Option Out :=
  let u (o : Op) (r : Out) : Option Out := if uniformOp o then some r else none
  let p (o : Op) (r : Out) : Option Out := if predicateOp o then some r else none
  match i with
  | .iadd o t sat => u o (execIadd o t sat s)
  | .isub o t sat => u o (execIsub o t sat s)
  | .imul o t => u o (execImul o t s)
  | .imulh o t => u o (execImulh o t s)
  | .imad o t => u o (execImad o t s)
  | .imin o t => u o (execImin o t s)
  | .imax o t => u o (execImax o t s)
  | .iabs o t => u o (execIabs o t s)
  | .ineg o t => u o (execIneg o t s)
  | .lea o k => u o (execLea o k s)
  | .iset o t c => p o (execIset o t c s)
  | .and o => u o (execAnd o s)
  | .or o => u o (execOr o s)
  | .xor o => u o (execXor o s)
  | .not o => u o (execNot o s)
  | .tribit o tbl => u o (execTribit o tbl s)
  | .shl o => u o (execShl o s)
  | .shr o => u o (execShr o s)
  | .sar o => u o (execSar o s)
  | .rotl o => u o (execRotl o s)
  | .popc o => u o (execPopc o s)
  | .clz o => u o (execClz o s)
  | .brev o => u o (execBrev o s)
  | .bfe o t => u o (execBfe o t s)
  | .bfi o => u o (execBfi o s)
  | .bysel o => u o (execBysel o s)
  | .mov o wide => s.predMov o wide
  | .movi o x => if o.d.isS then some (execMovi o x s) else none
  | .fadd o r ftz sat => u o (execFadd o r ftz sat s)
  | .fsub o r ftz sat => u o (execFsub o r ftz sat s)
  | .fmul o r ftz sat => u o (execFmul o r ftz sat s)
  | .ffma o r ftz sat => u o (execFfma o r ftz sat s)
  | .fmin o ftz => u o (execFmin o ftz s)
  | .fmax o ftz => u o (execFmax o ftz s)
  | .fset o c ftz => p o (execFset o c ftz s)
  | .fclass o ftz => u o (execFclass o ftz s)
  | .frnd o r ftz => u o (execFrnd o r ftz s)
  | _ => none

/-- A load of the debug core: global memory with read permission, at the point of coherence. -/
def State.predLoad (s : State) (ctx a n : Nat) : Option (List Byte × List Bool) :=
  match aperture a with
  | .global a =>
    (match s.mapping ctx a with
      | some (_, m) =>
        if a % n = 0 && m.resident && m.device && m.perm.testBit 0 && m.mkind != 3 then
          let l := m.loc a
          some (s.peeks l n, (List.range n).map fun i => s.poisoned (l.plus i))
        else none
      | none => none)
  | _ => none

/-- What one word of a predicate comes to: the registers and the address of the next word, the result at EXIT,
or an end on a fault. -/
inductive PredStep where
  | next (g : Group) (pc : Nat)
  | exit (r : Bool)
  | bad

/-- A state in which a word reads and writes the debug core's registers. -/
def State.predState (s : State) (g : Group) : State :=
  { s.setGroup predKey g with cur := { group := predKey, slot := 0, plane := 0, mask := 1, paired := false, acked := false } }

def State.predMem (s : State) (ctx : Nat) (g : Group) (pc : Nat) (o : Op) (w : LoadW) : PredStep :=
  let t := s.predState g
  if !(o.a.isS && o.d.isS && uniformField o.b) then .bad
  else if t.act o = 0 then .next g (pc + 12)
  else
    match s.predLoad ctx (t.address o.a o.b 0) w.width.bytes with
    | some (bs, bad) => .next (g.writes (destTuple o.d 0 (loadWords w bs bad))) (pc + 12)
    | none => .bad

/-- One word. -/
def State.predWord (s : State) (ctx : Nat) (g : Group) (pc : Nat) : PredStep :=
  match s.fetch ctx pc with
  | .word w =>
    (match decodeWord 256 w with
      | .error _ => .bad
      | .ok i =>
        let t := s.predState g
        match i with
        | .exit o => if t.act o = 0 then .next g (pc + 12) else .exit (g.readS 0 != 0)
        | .bra o =>
          let v : Int := (immOf o.a).toInt
          let p := (pc : Int) + 4 * v
          if t.act o = 0 then .next g (pc + 12) else if p < 0 then .bad else .next g p.toNat
        | .ld o w => s.predMem ctx g pc o w
        | .lds o w _ _ => s.predMem ctx g pc o (.plain w)
        | _ =>
          match predExec i t with
          | some (.next t) =>
            let h := t.group predKey
            .next { predGroup with s := h.s, p := h.p } (pc + 12)
          | _ => .bad)
  | _ => .bad

/-- Run a predicate for at most n words: its result, and whether it ended on a fault. Each word has a counter of its own
for the free values it reads. -/
def State.predRun (s : State) (ctx : Nat) : Nat → Group → Nat → Bool × Bool
  | 0, _, _ => (true, true)
  | n + 1, g, pc =>
    match s.predWord ctx g pc with
    | .next g pc => State.predRun { s with free := s.free + 1 } ctx n g pc
    | .exit r => (r, false)
    | .bad => (true, true)

/-- Registers at the start of a predicate. -/
def State.predStart (s : State) (h : Hit) : Group :=
  let sp := (s.group h.cur.group).split h.cur.slot
  predGroup.writes (writeS64 0 h.addr ++ writeS64 2 h.mask ++ writeS64 4 h.data
    ++ [.s 6 (BitVec.ofNat 32 h.kind), .s 7 (BitVec.ofNat 32 (partField h.cur.group)),
        .s 8 (BitVec.ofNat 32 sp.region), .s 9 (BitVec.ofNat 32 sp.offset), .s 10 (BitVec.ofNat 32 h.cur.plane)])

/-- The result of a hit's predicate; PROG 0 is always true. -/
def State.predicate (s : State) (h : Hit) : Bool × Bool :=
  let prog := (s.reg (wpReg h.watch + 0x10)).toNat
  if prog = 0 then (true, false)
  else s.predRun (s.group h.cur.group).ctx Config.predicateWords (s.predStart h) prog

/-- PFAULT (R412). -/
def State.markPfault (s : State) (w : Nat) : State :=
  s.setReg (wpReg w + 0x18) (s.reg (wpReg w + 0x18) ||| (1#64 <<< 63))

/-- Serve a hit: stop the partition on a true result; on a false one go on to the issue's next watchpoint, or
perform the issue. -/
def State.serveHit (s : State) (i : Nat) (h : Hit) : State :=
  let key := h.cur.group
  let (r, bad) := s.predicate h
  let s : State := { s with free := s.free + Config.predicateWords }
  let s := if bad then s.markPfault h.watch else s
  if r then
    let s := { s with hits := s.hits.filter fun x => x.cur.group != key }
    s.stopPart (partOf key) 3 (key % 16) h.cur.slot h.cur.plane 0 (some (h.watch, h.addr))
  else
    let s := { s with hits := s.hits.eraseIdx i }
    match s.hits.find? fun x => x.cur.group == key with
    | some x => s.setGroup key { s.group key with held := some (x.watch, x.cur.slot) }
    | none => s.goAhead h.cur

/-- The first hit of a partition that is not stopped. -/
def execWatchpointPredicate (s : State) : Out :=
  .next (
    match s.hits.findIdx? fun h => !s.frozen h.cur.group with
    | some i => (match s.hits[i]? with | some h => s.serveHit i h | none => s)
    | none => s)

/-! ## Samples (R418, R419) -/

/-- A lane that was last: one whose data or acknowledgement returned; 0xFF where there was no access. -/
def Sample.last (x : Sample) (m : Nat) : Nat :=
  let ls := lanesOf x.hit
  if x.sectors = 0 || ls.isEmpty then 0xFF else ls.getD (m % ls.length) 0

/-- The 64 bytes of a sample record; what its requests waited is not the spec's to fix, nor which of its lanes was
last. -/
def sampleBytes (x : Sample) (m : Nat → Nat) : List Byte :=
  let k (i : Nat) : Nat := if x.sectors = 0 then 0 else m i
  leBytes 8 x.tick ++ leBytes 4 x.part ++ leBytes 4 x.ctx ++ leBytes 4 x.offset ++ leBytes 2 x.region
  ++ leBytes 1 x.plane ++ leBytes 1 (popcount x.mask) ++ leBytes 2 x.op ++ leBytes 2 x.sectors ++ leBytes 2 (k 0)
  ++ leBytes 1 (x.last (m 1)) ++ leBytes 1 0 ++ leBytes 4 (k 2) ++ leBytes 4 (k 3)
  ++ leBytes 4 (if x.link then k 4 else 0) ++ leBytes 4 (k 5) ++ List.replicate 16 0

/-- The sampled issue is complete: its group has no result of its place in flight, no split waiting there for
acknowledgements, and no request of its place at the port (R419). -/
def State.sampleDone (s : State) (x : Sample) : Bool :=
  let key := 16 * x.part + x.slot
  (match look none s.groups key with
    | some g =>
      (g.inflight.all fun r => !(r.region == x.region && r.offset == x.offset && r.plane == x.plane))
      && g.live.all fun k =>
        let sp := g.split k
        !(sp.region == x.region && sp.offset == x.offset
          && match sp.wait with | some w => (match w.kind with | .ack .. => true | _ => false) | none => false)
    | none => true)
  && s.port.out.all fun q =>
    !(q.origin.group == key && q.origin.region == x.region && q.origin.offset == x.offset && q.origin.plane == x.plane)

def execSampleRecord (idx : Nat) (s : State) : Out :=
  .next (
    match s.samples[idx]? with
    | some x =>
      if s.sampleDone x then
        let m := Config.sampled s.free
        let s := { s with samples := s.samples.eraseIdx idx, free := s.free + 1 }
        s.send .sample (sampleBytes x m)
      else s
    | none => s)

end Sys2Proof.Machine
end

