-- ==== Sys2Proof/Machine/Blocker.lean ====
section
/-! DEFINITION. The Blocker (R332 to R343, R365, R369, R376, R384 to R387): dependencies, builds, in-place changes
and teardowns, one step at a time: BLOCKER_STEP and QUEUE_GRACE_EXPIRY. -/

namespace Sys2Proof.Machine

/-! ## Entries (R329, R331, R335) -/

def faultNOFIT : Nat := 1
def faultNOMEM : Nat := 2
def faultDEPFAULT : Nat := 3
def faultBADIMAGE : Nat := 4
def faultNOPIN : Nat := 5
def faultOVERLAP : Nat := 6
def faultNOTARGET : Nat := 7

def noRecord : Nat := 0xFFFF_FFFF

/-- An entry in a phase other than BLOCKED and FAULTED. -/
def Ast.to (a : Ast) (phase : Phase) : Ast := { a with phase, fault := 0, teardown := false, waitOn := noRecord }

/-- A mark written (R339). -/
def Ast.marked (a : Ast) (v : Nat) : Ast :=
  { a with mark := v, working := v, skipped := if v = a.mark then a.skipped else a.mark + 1 < v }

def Ast.blockedOn (a : Ast) (on : Nat) (teardown : Bool) : Ast :=
  { a with phase := .blocked, fault := 0, teardown, waitOn := on }

/-- The newest version is worked towards in place, so that its SET starts no new build (R330). -/
def State.aimed (s : State) (id : Nat) : State :=
  { s with dsr := set s.dsr id { s.record id with fresh := false } }

/-- No workgroup waits for a MAP record any more, and the engines that wait at its pages may resume (R370, R373). -/
def State.pageHere (s : State) (id : Nat) : State :=
  let here (w : Workgroup) : Workgroup := { w with missing := w.missing.filter (· != id) }
  State.pageMarked { s with wgs := s.wgs.map fun e => (e.1, e.2.map here) } id

/-- A workgroup or an engine waits for a MAP record's pages. -/
def State.awaited (s : State) (id : Nat) : Bool :=
  (s.wgs.any fun e => (e.2.map fun w => w.missing.contains id).getD false)
  || s.cmds.any fun e => (e.2.map fun c => c.waiting == some id).getD false

/-- A MAP record's mark with RESIDENT 1 has been written: a fault, where one waits, is served (R330, R370, R373). -/
def State.pagesCame (s : State) (id : Nat) : State :=
  (if s.awaited id then s.bumpAst id 0 1 else s).pageHere id

/-- A build awaits: PENDING at the newest version, counters at 0 where the record was ABSENT (R330, R335). -/
def State.toPending (s : State) (id : Nat) : State :=
  let r := s.record id
  let a := s.astOf id
  let a := { a.to .pending with working := r.version, body := r.body, progress := 0, done := false }
  let a := if r.fresh then { a with c0 := 0, c1 := 0, c2 := 0, c3 := 0 } else a
  (s.writeAst id a).aimed id

/-- Nothing is realised any more, or ever was; a record that has become ABSENT is waited for no more (R370). -/
def State.ended (s : State) (id : Nat) : State :=
  let r := s.record id
  let a := s.astOf id
  if r.present then s.toPending id
  else (s.writeAst id ((a.to (if a.phase = .absent then .absent else .retired)).marked r.version)).pageHere id

/-! ## Ranges -/

/-- The pieces of a range, given by its ends, outside another. -/
def cutRange (x y : Nat × Nat) : List (Nat × Nat) :=
  if meets x y then [(x.1, max x.1 y.1), (min x.2 y.2, x.2)].filter fun z => z.1 < z.2
  else [x]

def without (x : Nat × Nat) (ys : List (Nat × Nat)) : List (Nat × Nat) :=
  ys.foldl (fun xs y => xs.flatMap fun x => cutRange x y) (if x.1 < x.2 then [x] else [])

/-- Fields of a MAP body (R325). -/
def mapRange (b : List Byte) : Nat × Nat := (field b 16 8, field b 16 8 + field b 24 8)

/-- Ranges of a context that its available MAP records make usable: resident, owned by DEVICE, with a
permission. -/
def State.usable (s : State) (ctx perm : Nat) : List (Nat × Nat) :=
  s.maps.filterMap fun (id, m) =>
    match m with
    | some m =>
      if m.ctx = ctx && s.available id && m.resident && m.device && m.perm &&& perm = perm then
        some (m.va, m.va + m.length)
      else none
    | none => none

/-- PRESENT MAP records of a context, with their ranges. -/
def State.presentMaps (s : State) (ctx : Nat) : List (Nat × Nat × Nat) :=
  s.dsr.filterMap fun (id, r) =>
    match r with
    | some r => if r.present && r.kind = 2 && field r.body 40 4 = ctx then some (id, mapRange r.body) else none
    | none => none

/-- How a range is covered: PRESENT MAP records that do not make it usable yet, and whether a byte lies under
none. -/
structure Cover where
  holders : List Nat
  bare : Bool
deriving DecidableEq, Repr

def Cover.full (c : Cover) : Bool := c.holders.isEmpty && !c.bare
def Cover.and (a b : Cover) : Cover := { holders := a.holders ++ b.holders, bare := a.bare || b.bare }
def Cover.all (cs : List Cover) : Cover := cs.foldl Cover.and { holders := [], bare := false }

def State.cover (s : State) (ctx a n perm : Nat) : Cover :=
  let rest := without (a, a + n) (s.usable ctx perm)
  let maps := s.presentMaps ctx
  { holders := (maps.filter fun m => rest.any fun x => meets x m.2).map (·.1),
    bare := rest.any fun x => !(without x (maps.map (·.2))).isEmpty }

/-- The same for a pinned area: every byte is to lie under a PRESENT MAP record (R336). -/
def State.pinCover (s : State) (ctx a n : Nat) : Cover :=
  { s.cover ctx a n 2 with bare := !(without (a, a + n) ((s.presentMaps ctx).map (·.2))).isEmpty }

/-! ## Pinned areas (R375) and images (R384) -/

/-- The four pinned areas of a CTX body: address and bytes. -/
def pinnedAreas (b : List Byte) : List (Nat × Nat) :=
  [ (field b 40 8, 4096), (field b 48 8, 65536), (field b 56 8, 32768 * (64 + 16384 * field b 28 2)),
    (field b 64 8, field b 22 2 * (64 + 32 * 2 ^ field b 30 2)) ]

/-- The pinned areas and the first 4 KiB of the save area. -/
def heldAreas (b : List Byte) : List (Nat × Nat) := pinnedAreas b ++ [(field b 72 8, 4096)]

def overlaps (x : Nat × Nat) (as : List (Nat × Nat)) : Bool := as.any fun a => meets x (a.1, a.1 + a.2)

/-- A section entry: KIND, OFFSET, SIZE. -/
def sectionEntry (b : List Byte) : Nat × Nat × Nat := (field b 0 4, field b 8 4, field b 12 4)

def State.sectionAt (s : State) (ctx img i : Nat) : Nat × Nat × Nat :=
  sectionEntry (s.ctxRead ctx (img + 64 + 16 * i) 16)

def State.sectionCount (s : State) (ctx img : Nat) : Nat := leNat (s.ctxRead ctx (img + 8) 4)

def State.sections (s : State) (ctx img : Nat) : List (Nat × Nat × Nat) :=
  (List.range (s.sectionCount ctx img)).map (s.sectionAt ctx img)

/-- What a PROG build needs of its image, each extent once the bytes that give it are usable (R334). -/
def State.imageCover (s : State) (ctx img : Nat) : Cover :=
  let head := s.cover ctx img 64 1
  if !head.full then head
  else
    let n := s.sectionCount ctx img
    if n < 2 || 16 < n then head
    else
      let table := s.cover ctx (img + 64) (16 * n) 1
      if !table.full then table
      else
        Cover.all ((s.sections ctx img).map fun (kind, off, size) =>
          match kind with
          | 1 => s.cover ctx (img + off) size 4
          | 3 | 4 => s.cover ctx (img + off) size 1
          | _ => { holders := [], bare := false })

/-! ## Dependencies (R334, R336, R338) -/

/-- 4 KiB granules of a range that do not lie on C0. -/
def offC0 (va n : Nat) : Bool :=
  16384 ≤ n || (List.range ((n + 4095) / 4096)).any fun k => homeHash (va + 4096 * k) != 0

def firstStack : Nat := 0xC_0000_0000

/-- The end of a range of HBM cells within its die. -/
def localEnd (x : Nat × Nat) : Nat := (x.2 - 1) % hbmBytes + 1

/-- The record's own build needs what Stage B brings up (R338). -/
def State.needsStageB (s : State) (kind : Nat) (b : List Byte) : Bool :=
  s.stage < 2
  && (match kind with
      | 2 =>
        let target := field b 32 8
        let n := field b 24 8
        (match field b 44 1, field b 45 1 with
          | 0, 0 => offC0 (field b 16 8) n
              || (target != 0 && (footprint target n).any fun x => firstStack < localEnd x)
          | 0, 1 => field b 46 1 != 0 || firstStack < n || firstStack < target + n
          | 0, _ => true
          | 2, _ => true
          | _, _ => false)
      | 3 => field b 27 1 / 2 != 0
      | _ => false)

/-- Whether a build may begin. -/
inductive Ready where
  | ok
  | wait (on : Nat)
  /-- a dependency is FAULTED; the first record that holds the build -/
  | fault (on : Nat)
  | nopin
deriving DecidableEq, Repr

/-- The least of some record ids. -/
def firstRecord (ids : List Nat) : Nat := (lowest ids).getD noRecord

def State.isFaulted (s : State) (id : Nat) : Bool := (s.astOf id).phase == .faulted

/-- Dependencies of a build or change on MAP records. -/
def State.readyUnder (s : State) (c : Cover) (pins : Cover) : Ready :=
  let holders := c.holders ++ pins.holders
  if holders.any s.isFaulted then .fault (firstRecord holders)
  else if !holders.isEmpty || c.bare then .wait (firstRecord holders)
  else if pins.bare then .nopin
  else .ok

/-- The body of a context: the one in force, or before it is built the one asked for. -/
def State.ctxBody (s : State) (c : Nat) : List Byte :=
  if (look none s.ctxs c).isSome then s.body c else (s.record c).body

/-- What a body needs of its context's MAP records: for its own bytes, and for the context's pinned areas. -/
def State.covers (s : State) (kind c : Nat) (b : List Byte) : Cover × Cover :=
  let none' : Cover := { holders := [], bare := false }
  match kind with
  | 3 =>
    (s.imageCover c (field b 48 8), Cover.all ((heldAreas (s.ctxBody c)).map fun (a, n) => s.pinCover c a n))
  | 4 =>
    ((s.cover c (field b 24 8) 64 3).and (s.cover c (field b 32 8) (2 ^ field b 20 2 * field b 22 2) 3), none')
  | _ => (none', none')

/-- Stage A keeps a record in PENDING: its build needs what Stage B brings up, or depends on a MAP record that does
(R338). -/
def State.stageHolds (s : State) (kind : Nat) (b : List Byte) : Bool :=
  s.needsStageB kind b
  || (match namedCtx kind b with
      | none => false
      | some c =>
        let (own, pins) := s.covers kind c b
        (own.holders ++ pins.holders).any fun h => let r := s.record h; s.needsStageB r.kind r.body)

/-- Dependencies of a body of a kind. -/
def State.readiness (s : State) (kind : Nat) (b : List Byte) : Ready :=
  match namedCtx kind b with
  | none => .ok
  | some c =>
    if s.isFaulted c then .fault c
    else if !s.available c || (look none s.ctxs c).isNone then .wait c
    else let (own, pins) := s.covers kind c b; s.readyUnder own pins

/-! ## Translation changes (R368, R369) -/

/-- Flip a context's generation bit; the posted writes made before it get a zero-length read behind them. -/
def State.flip (s : State) (ctx : Nat) : State :=
  match look none s.ctxs ctx with
  | some c => (s.flushPosted false (s.coreOrigin 0 ctx c.gen)).setCtx ctx { c with gen := !c.gen }
  | none => s

/-- Everything translated before the last flip is complete (R368): stores still in a phase cache, requests outside the
device, and stores of tiles whose turn has not come. -/
def State.drained (s : State) (ctx : Nat) : Bool :=
  let c := s.ctxOf ctx
  (s.cores.all fun e =>
    match e.2 with
    | some k => k.l1.all fun b =>
        (match b.2 with | some b => !b.dirty || b.ctx != ctx || b.gen == c.gen | none => true)
    | none => true)
  && (s.port.out.all fun q => q.origin.ctx != ctx || q.origin.gen == c.gen)
  && s.parts.all fun e =>
    match e.2 with
    | some p => p.jobs.all fun j =>
        j.ctx != ctx || j.gen == c.gen || (match j.form with | .store .. => false | _ => true)
    | none => true

/-- Another MAP record of the context stands between its flip and its drain. -/
def State.flipping (s : State) (ctx but : Nat) : Bool :=
  s.maps.any fun (id, m) =>
    match m with
    | some m =>
      let p := (s.astOf id).phase
      id != but && m.ctx == ctx && (p == .changing || p == .draining)
    | none => false

/-! ## MAP records (R336, R365) -/

/-- The peer table with a device in it, in a free place or in that of one no MAP record names. -/
def State.peerTable (s : State) (peer : Nat) : Option (List Nat) :=
  let ps := s.port.peers
  let used (p : Nat) : Bool := s.maps.any fun e =>
    match e.2 with | some m => m.mkind == 2 && m.peer == p | none => false
  if ps.contains peer then some ps
  else if ps.length < 256 then some (ps ++ [peer])
  else (ps.findIdx? fun p => !used p).map fun i => ps.set i peer

/-- First fit in an interleaved view, in agreement with the virtual address. -/
def State.fitView (s : State) (base size va n : Nat) : Option Nat :=
  let busy := s.busyMem
  ((List.range (size / 2 ^ 32 + 1)).map fun k => base + va % 2 ^ 32 + k * 2 ^ 32).find? fun a =>
    a + n ≤ base + size && isFree busy a n
    && (s.stage = 2 || base = secondBase || (footprint a n).all fun x => localEnd x ≤ firstStack)

/-- Device memory for a MAP record by its PLACE. -/
def State.allocMap (s : State) (b : List Byte) : Option Nat :=
  let va := field b 16 8
  let n := field b 24 8
  match field b 45 1 with
  | 0 => s.fitView hbmView (4 * hbmBytes) va n
  | 1 => s.fitHbm s.busyMem (field b 46 1) (leafBytes (field b 47 1)) n
  | _ => s.fitView secondBase secondBytes va n

/-- A TARGET lies in memory of its MKIND. -/
def targetOk (b : List Byte) : Bool :=
  let va := field b 16 8
  let n := field b 24 8
  let t := field b 32 8
  match field b 44 1 with
  | 0 =>
    (match field b 45 1 with
      | 0 => hbmView ≤ t && t + n ≤ hbmView + 4 * hbmBytes && t % 2 ^ 32 == va % 2 ^ 32
      | 1 => field b 46 1 * hbmBytes ≤ t && t + n ≤ (field b 46 1 + 1) * hbmBytes
      | _ => secondBase ≤ t && t + n ≤ secondBase + secondBytes && t % 2 ^ 32 == va % 2 ^ 32)
  | 1 | 3 => t < 2 ^ 52
  | _ => true

/-- Another available MAP record of the context covers some of the same bytes. -/
def State.overlapsMap (s : State) (id : Nat) (b : List Byte) : Bool :=
  s.maps.any fun (k, m) =>
    match m with
    | some m => k != id && m.ctx == field b 40 4 && s.available k && meets (mapRange b) (m.va, m.va + m.length)
    | none => false

/-- The leaves of a MAP body at a target. -/
def mappingOf (b : List Byte) (target : Nat) (owned : Bool) : Mapping :=
  { ctx := field b 40 4, va := field b 16 8, length := field b 24 8, target, mkind := field b 44 1,
    place := field b 45 1, home := field b 46 1, leaf := field b 47 1, perm := field b 48 1,
    device := field b 49 1 == 1, resident := field b 50 1 == 1, peer := field b 52 4, lost := [], owned }

/-- Realise a MAP record, or the fault that stops it. -/
def State.realiseMap (s : State) (id : Nat) (b : List Byte) : Except Nat State :=
  let put (s : State) (t : Nat) (owned : Bool) : State := { s with maps := set s.maps id (mappingOf b t owned) }
  let t := field b 32 8
  if s.overlapsMap id b then .error faultOVERLAP
  else if field b 44 1 = 0 && t = 0 then
    match s.allocMap b with
    | some a => .ok { put s a true with allocated := (a, field b 24 8) :: s.allocated }
    | none => .error faultNOMEM
  else if !targetOk b then .error faultNOTARGET
  else if field b 44 1 = 2 then
    match s.peerTable (field b 52 4) with
    | some ps => .ok { put s t false with port := { s.port with peers := ps } }
    | none => .error faultNOTARGET
  else .ok (put s t false)

/-- Release what a MAP record realised. -/
def State.releaseMap (s : State) (id : Nat) : State :=
  match look none s.maps id with
  | none => s
  | some m =>
    let n := field (s.body id) 24 8
    { s with
      maps := put none s.maps id none,
      allocated := if m.owned then s.allocated.erase (m.target, n) else s.allocated }

/-- R337: the change leaves a byte of a pinned area, or of the save area's first 4 KiB, of a LIVE or CHANGING
context unusable. -/
def State.holdsPin (s : State) (b : List Byte) : Option Nat :=
  let c := field b 40 4
  let p := (s.astOf c).phase
  let fine := field b 50 1 = 1 && (field b 48 1).testBit 1 && field b 49 1 = 1
  if !fine && (p == .live || p == .changing) && overlaps (mapRange b) (heldAreas (s.body c)) then some c else none

/-- Steps 1 to 3 of R369 for a change of PERM, OWNER or RESIDENT; every entry is written, one that was lost too. -/
def State.changeMap (s : State) (id : Nat) : State :=
  let r := s.record id
  let a := s.astOf id
  let m := (look none s.maps id).getD default
  let s := { s with maps := set s.maps id (mappingOf r.body m.target m.owned) }
  ((s.writeAst id { a.to .changing with working := r.version, body := r.body, progress := 1 }).aimed id).flip m.ctx

/-! ## QUEUE records (R271, R342, R343) -/

/-- Part of a control block. -/
def State.cbWrite (s : State) (q : Queue) (off : Nat) (bs : List Byte) : State := s.ctxWrite q.ctx (q.cb + off) bs
def State.cbField (s : State) (q : Queue) (off n : Nat) : Nat := leNat (s.ctxRead q.ctx (q.cb + off) n)

/-- Entries in a queue. -/
def State.entries (s : State) (q : Queue) : Nat := (s.cbField q 12 4 + 2 ^ 32 - s.cbField q 8 4) % 2 ^ 32

def qBUSY : Nat := 1
def qCLOSED : Nat := 2

def State.buildQueue (s : State) (id : Nat) (b : List Byte) (version : Nat) : State :=
  let q : Queue := { ctx := field b 16 4, cb := field b 24 8, closedAt := none, copied := none }
  ({ s with queues := set s.queues id q }).cbWrite q 0
    (leBytes 8 (field b 32 8) ++ leBytes 8 0 ++ leBytes 2 (field b 20 2) ++ leBytes 2 (field b 22 2)
      ++ leBytes 4 0 ++ leBytes 8 id ++ leBytes 8 version)

/-- Copy one entry from an old ring to a new one. -/
def State.copyEntry (s : State) (ctx old oldCap new newCap size i : Nat) : State :=
  let (s, bs) := s.unitRead ctx (old + i % oldCap * size) size
  s.ctxWrite ctx (new + i % newCap * size) bs

/-- Step 2 of R342; it waits while more entries stand in the queue than the new ring holds. -/
def State.copyQueue (s : State) (id : Nat) (q : Queue) (b : List Byte) : Option State :=
  let (s, cb) := s.unitRead q.ctx q.cb 20
  let head := field cb 8 4
  let n := (field cb 12 4 + 2 ^ 32 - head) % 2 ^ 32
  let newCap := 2 ^ field b 20 2
  if newCap < n then none
  else
    let old := field cb 0 8
    let oldCap := 2 ^ field cb 16 2
    let size := field cb 18 2
    let s' := (List.range n).foldl (fun (t : State) k =>
      t.copyEntry q.ctx old oldCap (field b 32 8) newCap size ((head + k) % 2 ^ 32)) s
    some { s' with queues := set s'.queues id { q with copied := some (field b 20 2, field b 32 8) } }

/-- Steps 2 to 4 of R342. `progress` 1: STATE is BUSY; 2: copied; 3: switched; 4: switched to a larger ring. -/
def State.changeQueue (s : State) (id : Nat) : Option State :=
  let r := s.record id
  let a := s.astOf id
  let q := (look none s.queues id).getD default
  let b := r.body
  match a.progress with
  | 1 => (s.copyQueue id q b).map fun s => s.setAst id { a with progress := 2 }
  | 2 =>
    if q.copied != some (field b 20 2, field b 32 8) then some (s.setAst id { a with progress := 1 })
    else
      let grew := field a.body 20 2 < field b 20 2
      let s := (s.cbWrite q 0 (leBytes 8 (field b 32 8))).cbWrite q 16 (leBytes 2 (field b 20 2))
      let s := s.cbWrite q 20 (leBytes 1 0)
      some (s.setAst id { a with progress := if grew then 4 else 3, body := b })
  | k =>
    let s := s.cbWrite q 32 (leBytes 8 r.version)
    let a := (a.to .live).marked r.version
    some (s.writeAst id (if k = 4 then a.bump 1 1 else a))

/-- Step 1 of R342. -/
def State.busyQueue (s : State) (id : Nat) : State :=
  let r := s.record id
  let q := (look none s.queues id).getD default
  ((s.cbWrite q 20 (leBytes 1 qBUSY)).writeAst id
    { (s.astOf id).to .changing with working := r.version, progress := 1 }).aimed id

/-- A newer version of a change under way. -/
def State.redirectQueue (s : State) (id : Nat) : State :=
  let r := s.record id
  let a := s.astOf id
  if 3 ≤ a.progress then s.busyQueue id
  else (s.writeAst id { a.to .changing with working := r.version, progress := 1 }).aimed id

/-- Step 1 of R343. -/
def State.closeQueue (s : State) (id : Nat) : State :=
  let q := (look none s.queues id).getD default
  let q' := { q with closedAt := some s.tick }
  { s with queues := set s.queues id q' }.cbWrite q 20 (leBytes 1 qCLOSED)

/-- The drain of a queue ends: it is empty, or GRACE ticks have passed since it was closed (R343). -/
def State.queueOver (s : State) (id : Nat) (q : Queue) : Bool :=
  match q.closedAt with
  | some t => s.entries q == 0 || t + field (s.body id) 40 4 ≤ s.tick
  | none => false

/-- Steps 3 and 4 of R343. -/
def State.expireQueue (s : State) (id : Nat) (q : Queue) : State :=
  let (s, cb) := s.unitRead q.ctx (q.cb + 8) 8
  let n := (field cb 4 4 + 2 ^ 32 - field cb 0 4) % 2 ^ 32
  let s := s.cbWrite q 20 (leBytes 1 255)
  let s := s.setAst id { s.astOf id with c0 := n }
  let s := { s with queues := put none s.queues id none }.ended id
  if n = 0 then s else s.blockerNotice id 2 n

/-! ## Images (R385, R387) -/

/-- A section of a kind: its offset and size. -/
def sectionOf (secs : List (Nat × Nat × Nat)) (kind : Nat) : Option (Nat × Nat) :=
  (secs.find? fun e => e.1 == kind).map (·.2)

/-- No two of some ranges meet. -/
def disjointRanges : List (Nat × Nat) → Bool
  | [] => true
  | x :: xs => xs.all (fun y => !meets x y) && disjointRanges xs

/-- A REGIONS entry: OFFSET, LP, PLANES. -/
def regionEntry (b : List Byte) : Nat × Nat × Nat := (field b 0 4, field b 4 4, field b 8 1)

/-- Entry i of a table of 16-byte entries. -/
def tableEntry (b : List Byte) (i : Nat) : List Byte := (b.drop (16 * i)).take 16

/-- A region entry lies within NATIVE and the limits of R385. -/
def regionOk (size : Nat) (r : Nat × Nat × Nat) : Bool :=
  r.1 % 4 == 0 && r.2.1 % 4 == 0 && 12 ≤ r.2.1 && (r.2.2 == 1 || r.2.2 == 2 || r.2.2 == 4)
  && r.1 + r.2.1 * r.2.2 ≤ size

/-- The end of an image's last section. -/
def imageEnd (secs : List (Nat × Nat × Nat)) : Nat :=
  secs.foldl (fun n e => max n (e.2.1 + e.2.2)) (64 + 16 * secs.length)

/-- The launch a PROG body describes, over a checked image. -/
def launchOf (b : List Byte) (regions : List (Nat × Nat × Nat)) (entry : Link) (data imageLen : Nat) : Launch :=
  { ctx := field b 16 4, width := 8 * 2 ^ field b 20 1, regs := 16 * field b 21 1, lanes := field b 22 2,
    wcluster := field b 24 1, prio := field b 25 1, coop := (field b 26 1).testBit 0, dies := field b 27 1,
    wgcount := field b 28 4, shared := field b 32 4, scratch := field b 36 4, stack := field b 40 4,
    arg := field b 56 8, regions, entry, data, image := field b 48 8, imageLen, areaUnits := [], cores := [],
    areas := [], next := 0, since := none, started := 0, retired := 0, draining := false,
    acks := none }

/-- The kernel descriptor fits the record (R91, R387). -/
def kernelOk (b k : List Byte) : Bool :=
  field k 4 1 == field b 20 1 && field k 5 1 ≤ field b 21 1 && field k 8 4 ≤ field b 32 4
  && field k 12 4 ≤ field b 36 4

/-- Check an image (R387); no launch where it fails. -/
def State.loadImage (s : State) (b : List Byte) : State × Option Launch :=
  let ctx := field b 16 4
  let img := field b 48 8
  let (s, head) := s.unitRead ctx img 64
  let n := field head 8 4
  if field head 0 4 != 0x31425A4F || field head 4 2 != 1 || field head 6 2 != 1 || n < 2 || 16 < n then (s, none)
  else
    let (s, table) := s.unitRead ctx (img + 64) (16 * n)
    let secs := (List.range n).map fun i => sectionEntry (tableEntry table i)
    match sectionOf secs 1 with
    | none => (s, none)
    | some (noff, nsize) =>
      let (roff, rsize) := (sectionOf secs 3).getD (0, 0)
      let (koff, ksize) := (sectionOf secs 4).getD (0, 0)
      let (s, rs) := s.unitRead ctx (img + roff) (16 * (rsize / 16))
      let raw := (List.range (rsize / 16)).map fun i => regionEntry (tableEntry rs i)
      let regions := raw.map fun r => (img + noff + r.1, r.2.1, r.2.2)
      let (s, kernel) := s.unitRead ctx (img + koff + 32 * field b 44 4) 32
      let data : Nat := match sectionOf secs 5 with
        | some (off, _) => img + off
        | none => (Config.noData img).toNat
      let l := launchOf b regions { region := 0, offset := 0 } data (imageEnd secs)
      let ok := disjointRanges (secs.map fun e => (e.2.1, e.2.1 + e.2.2)) && raw.all (regionOk nsize)
        && disjointRanges (raw.map fun r => (r.1, r.1 + r.2.1 * r.2.2)) && field b 44 4 < ksize / 32
        && kernelOk b kernel
      match l.locate ((l.region (field kernel 16 4)).1 + field kernel 20 4) with
      | some (r, o) =>
        if ok && field kernel 16 4 < regions.length then (s, some { l with entry := { region := r, offset := o } })
        else (s, none)
      | none => (s, none)

/-! ## Save areas (R376) -/

/-- The header keeps the limits of R376; its reserved bytes 17 to 63 are among them (DESIGN CHOICE, log entry 28). -/
def saveHeaderOk (h : List Byte) : Bool :=
  let size := field h 0 8
  let order := field h 16 1
  size % 4096 == 0 && 8192 ≤ size && (order == 0 || (12 ≤ order && order ≤ 40 && field h 8 8 % 2 ^ order == 0))
  && zeroFrom h 17 47

/-- Bytes of a buddy heap's blocks. -/
def heapBytes (c : Context) : Nat := (c.free ++ c.taken).foldl (fun n e => n + 2 ^ e.1) 0

/-- The heap the header names, wholly free where it is new (R383). -/
def Context.withHeap (c : Context) (order : Nat) : Context :=
  let n := if order = 0 then 0 else 2 ^ order
  if c.heapReady && heapBytes c = n then c
  else { c with heapReady := true, free := if order = 0 then [] else [(order, 0)], taken := [] }

/-! ## Launches (R45, R341, R378) -/

/-- Workgroups of a launch that are not yet discarded. -/
def State.wgsOf (s : State) (id : Nat) : List (Nat × Workgroup) :=
  s.wgs.filterMap fun (k, w) =>
    match w with | some w => if w.launch = id then some (k, w) else none | none => none

/-- Release a launch's areas and units. -/
def State.releaseProg (s : State) (id : Nat) : State :=
  match look none s.launches id with
  | none => s
  | some l =>
    let n := (l.scratch + 4095) / 4096
    let s := if (look none s.ctxs l.ctx).isNone then s
      else l.areaUnits.foldl (fun s e => s.freeUnits l.ctx e.2 n) s
    { s with launches := put none s.launches id none }

/-- A build fails: what it has realised so far is released (R336). -/
def State.failBuild (s : State) (id fault : Nat) : State := (s.releaseProg id).faultRecord id fault

/-- Stop a launch for good: no workgroup starts any more, and those that run stop (R341). -/
def State.haltLaunch (s : State) (id : Nat) : State :=
  let l := s.launch id
  let s := s.setLaunch id { l with draining := true }
  { s with wgs := s.wgs.map fun e => (e.1, e.2.map fun w => if w.launch = id then w.halt else w) }

/-- Requests that the stores of a launch wait on: zero-length reads, what its groups wrote through Hevis Link and what
its cores have published (R124, R126). -/
def State.launchAcks (s : State) (id : Nat) : List Nat :=
  let l := s.launch id
  (s.port.out.filter fun q =>
    match q.kind with
    | .flush _ => true
    | .store | .rmw _ | .queue => q.origin.launch == id && q.origin.ctx == l.ctx
    | .publish => l.cores.contains (coreOf q.origin.group)
    | _ => false).map (·.tag)

/-- Every core that held a workgroup of the launch crosses a phase boundary (R124); what is to be acknowledged is
noted. -/
def State.publishCores (s : State) (id : Nat) : State :=
  let l := s.launch id
  let s := (l.cores.foldl State.boundary s).flushPosted false (s.coreOrigin (l.cores.headD 0) l.ctx (s.ctxOf l.ctx).gen)
  s.setLaunch id { l with acks := some (s.launchAcks id) }

/-- What follows once the launch's stores are performed and acknowledged (R124, R126); publishing them comes first. -/
def State.oncePublished (s : State) (id : Nat) (go : State → State) : Option State :=
  match (s.launch id).acks with
  | none => some (s.publishCores id)
  | some tags => if s.answered tags then some (go s) else none

/-- The launch has retired by itself (R54). -/
def State.launchOver (s : State) (id : Nat) : Bool :=
  let l := s.launch id
  l.next == l.clusterTotal && (s.wgsOf id).isEmpty

/-- First fit in a die's scratchpad (DESIGN CHOICE). -/
def State.fitArea (s : State) (die n : Nat) : Option Nat :=
  let used : List (Nat × Nat) := s.launches.filterMap fun e =>
    match e.2 with
    | some l =>
      if (keys l.areas).contains die then some (look 0 l.areas die, look 0 l.areas die + roundUp l.scratch 4096)
      else none
    | none => none
  lowest ((0 :: used.map (·.2)).filter fun a =>
    a + n ≤ Config.scratchBytes && used.all fun u => !meets (a, a + n) u)

/-- A workgroup that is away and waits for no page. -/
def Workgroup.idle (w : Workgroup) : Bool := w.state == .away && w.missing.isEmpty && !w.draining

/-- The tick since which all workgroups of a launch are away. -/
def State.awaySince (s : State) (id : Nat) : Nat := (s.wgsOf id).foldl (fun n e => max n e.2.stopTick) 0

/-- Another launch's area on a die that may be claimed, since all its workgroups are away: of the lowest priority, then
of the earliest stopped (R378). -/
def State.areaVictim (s : State) (id die : Nat) : Option Nat :=
  let vs := (keys s.launches).filter fun k =>
    let ws := s.wgsOf k
    k != id && (keys (s.launch k).areas).contains die && !ws.isEmpty && ws.all (fun e => e.2.state == .away)
  let before (a b : Nat) : Bool :=
    s.priority a < s.priority b || (s.priority a == s.priority b && s.awaySince a ≤ s.awaySince b)
  vs.find? fun a => vs.all fun b => before a b

def areaAddr (die base : Nat) : Loc := .dev (scratchBase + die * 2 ^ 32 + base)

/-- Write a victim's area to its units. -/
def State.claimArea (s : State) (id die : Nat) : State :=
  let l := s.launch id
  let a := s.unitAddr l.ctx (look 0 l.areaUnits die)
  if s.writable l.ctx a l.scratch then
    let bs := s.peeks (areaAddr die (look 0 l.areas die)) l.scratch
    let s := s.ctxWrite l.ctx a bs
    s.setLaunch id { s.launch id with areas := drop l.areas die }
  else
    match (s.wgsOf id).head? with
    | some (k, _) => s.claimLost k
    | none => s

/-- Dies of a launch's set on which it has no area. -/
def Launch.bareDies (l : Launch) : List Nat :=
  if l.scratch = 0 then []
  else (List.range 4).filter fun d => l.dies.testBit d && !(keys l.areas).contains d

/-- One step towards an area on a die: take room, or claim another's; none where neither can be done. -/
def State.areaStep (s : State) (id die : Nat) (take : State → Nat → Option State) : Option State :=
  match s.fitArea die (roundUp (s.launch id).scratch 4096) with
  | some base => take s base
  | none => (s.areaVictim id die).map fun k => s.claimArea k die

/-- Areas in key order. -/
def addArea (m : Sparse Nat) (die base : Nat) : Sparse Nat := insertAt (drop m die) die base

/-- Give a launch that is being built its area and units on a die. -/
def State.newArea (s : State) (id die base : Nat) : Option State :=
  let l := s.launch id
  let n := (l.scratch + 4095) / 4096
  (s.fitUnits l.ctx n).map fun u =>
    (s.setLaunch id { l with
      areas := addArea l.areas die base, areaUnits := addArea l.areaUnits die u }).takeUnits l.ctx u n

/-- Give a launch its area back from its units. -/
def State.oldArea (s : State) (id die base : Nat) : State :=
  let l := s.launch id
  let (s, bs) := s.unitRead l.ctx (s.unitAddr l.ctx (look 0 l.areaUnits die)) l.scratch
  (s.pokes (areaAddr die base) bs).setLaunch id { l with areas := addArea l.areas die base }

/-- A LIVE launch whose area was claimed wants it back. -/
def State.restoreArea (s : State) (id : Nat) : Option State :=
  let l := s.launch id
  let wants := l.next < l.clusterTotal || (s.wgsOf id).any fun e => e.2.idle
  match l.bareDies with
  | [] => none
  | d :: _ =>
    if l.draining || !wants || s.outranked id then none
    else s.areaStep id d fun s base => some (s.oldArea id d base)

/-- Work of equal or higher priority counts as resident, that of lower priority as free: of other contexts (R45), and of
the launch's own context too, of which R45 says nothing (DESIGN CHOICE, log entry 61). -/
def State.admissionRoom (s : State) (id : Nat) : Room :=
  s.roomOf fun w => !(s.priority w.launch < s.priority id)

/-- The next workgroup to pre-empt for a launch: lowest priority first, then the earliest placed (DESIGN
CHOICE). -/
def State.preemptVictim (s : State) (id : Nat) : Option Nat :=
  let vs := s.wgs.filterMap fun e =>
    match e.2 with
    | some w =>
      if s.priority w.launch < s.priority id && w.state != .away && !w.draining && !w.preempted then some e.1
      else none
    | none => none
  vs.find? fun a => vs.all fun b => s.priority (s.wgOf a).launch ≤ s.priority (s.wgOf b).launch

/-- Pre-emption for a launch is under way. -/
def State.preempting (s : State) (id : Nat) : Bool :=
  s.wgs.any fun e =>
    match e.2 with
    | some w => w.state == .stopping && (w.preempted || w.draining) && s.priority w.launch < s.priority id
    | none => false

/-- Admission (R45): admitted, refused, or a workgroup to pre-empt first. -/
def State.letIn (s : State) (id : Nat) : Option State :=
  let l := s.launch id
  let a := s.astOf id
  let on := s.setAst id { a with progress := 3 }
  let fits (r : Room) : Bool := (s.planFrom l l.clusterTotal 0 r).isSome
  if !l.coop then
    let r : Room := { slots := [], regs := [], shared := [], busy := s.busyBut (s.backingsOf fun _ => true) }
    let one := ((List.range 4).filter fun d => l.dies.testBit d).any fun d =>
      (s.takeWgs (32 * d) l.need (l.clusterCount 0) r).isSome
    some (if one then on else s.failBuild id faultNOFIT)
  else if !fits (s.admissionRoom id) then some (s.failBuild id faultNOFIT)
  else if fits s.room then some on
  else if s.preempting id then none
  else (s.preemptVictim id).map fun k =>
    s.setWg k { s.wgOf k with state := .stopping, preempted := true }

/-- Step 1 of R341. -/
def State.loadProg (s : State) (id : Nat) : State :=
  let a := s.astOf id
  let c := field a.body 16 4
  let (s, h) := s.unitRead c (s.ctxField c 72 8) 64
  if !saveHeaderOk h then s.failBuild id faultNOMEM
  else
    match s.loadImage a.body with
    | (s, none) => s.failBuild id faultBADIMAGE
    | (s, some l) =>
      let s := s.setCtx c ((s.ctxOf c).withHeap (field h 16 1))
      (s.setLaunch id l).setAst id { a with progress := 1 }

/-- Step 2 of R341, die by die. -/
def State.areasProg (s : State) (id : Nat) : Option State :=
  match (s.launch id).bareDies with
  | [] => some (s.setAst id { s.astOf id with progress := 2 })
  | d :: _ =>
    some ((s.areaStep id d fun s base => s.newArea id d base).getD (s.failBuild id faultNOMEM))

/-- The next work clusters of a launch that is being built are placed, where the Blocker offers the launch room first and
their storage is not another's (R42, R341). -/
def State.placeBuilt (s : State) (id : Nat) : Option State :=
  match s.nextPlace s.offers with
  | (t, some (k, plan)) => if k = id && t.unowned (t.launch id).need plan then some (t.placeNext id plan) else none
  | (_, none) => none

/-- One step of a PROG build: 0 load, 1 areas, 2 admission, 3 the workgroups start. -/
def State.buildProg (s : State) (id : Nat) : Option State :=
  let a := s.astOf id
  let l := s.launch id
  match a.progress with
  | 0 => some (s.loadProg id)
  | 1 => s.areasProg id
  | 2 => s.letIn id
  | _ =>
    if if l.coop then l.next = l.clusterTotal else 1 ≤ l.next then
      some (s.writeAst id ((a.to .live).marked a.working))
    else s.placeBuilt id

/-! ## Builds -/

/-- A build begins, waits or fails (R335). -/
def State.startBuild (s : State) (id : Nat) : Option State :=
  let a := s.astOf id
  let r := s.record id
  if a.phase = .pending && s.stageHolds r.kind r.body then none
  else
  match s.readiness r.kind r.body with
  | .ok => some (s.writeAst id (a.to .building))
  | .nopin => some (s.failBuild id faultNOPIN)
  | .wait on =>
    if a.phase = .blocked && a.waitOn = on then none else some (s.writeAst id (a.blockedOn on false))
  | .fault on =>
    if a.phase = .blocked then some (s.failBuild id faultDEPFAULT)
    else some (s.writeAst id (a.blockedOn on false))

def newContext : Context :=
  { gen := false, fatal := false, free := [], taken := [], heapReady := false, calls := [],
    paging := none, units := [] }

/-- One step of a build. -/
def State.build (s : State) (id : Nat) : Option State :=
  let a := s.astOf id
  let r := s.record id
  let live (s : State) : State := s.writeAst id ((a.to .live).marked a.working)
  match r.kind with
  | 1 => some (live (s.setCtx id newContext))
  | 2 =>
    (match s.realiseMap id a.body with
      | .ok s => some (let t := live s; if field a.body 50 1 = 1 then t.pagesCame id else t)
      | .error f => some (s.failBuild id f))
  | 3 => s.buildProg id
  | _ => some (live (s.buildQueue id a.body a.working))

/-! ## In-place changes (R337) -/

/-- Two bodies differ in no byte outside some fields. -/
def sameBut (a b : List Byte) (fields : List (Nat × Nat)) : Bool :=
  ((List.range 112).map (16 + ·)).all fun i =>
    fields.any (fun f => f.1 ≤ i && i < f.1 + f.2) || a.getD i 0 == b.getD i 0

/-- Some PROG record of the context is available. -/
def State.progAvailable (s : State) (ctx : Nat) : Bool :=
  (keys s.launches).any fun id => (s.launch id).ctx == ctx && s.available id

/-- The SET that awaits can be applied in place. -/
def State.inPlace (s : State) (id : Nat) : Bool :=
  let r := s.record id
  let b := s.body id
  match r.kind with
  | 1 =>
    let always := [(16, 4), (24, 4)]
    let areas := [(22, 2), (28, 4), (32, 8), (40, 60)]
    sameBut b r.body (if s.progAvailable id then always else always ++ areas)
  | 2 => sameBut b r.body [(48, 3)]
  | 4 => sameBut b r.body [(20, 2), (32, 8), (40, 4)]
  | _ => false

/-- Show a wait, once; a change that is held is worked towards in place (R330). -/
def State.showWait (s : State) (id on : Nat) (teardown : Bool) : Option State :=
  let a := s.astOf id
  let v := (s.record id).version
  if a.phase = .blocked && a.waitOn = on && a.teardown = teardown && a.working = v then none
  else
    let s := s.writeAst id { a.blockedOn on teardown with working := v }
    some (if teardown then s else s.aimed id)

/-- The context is no more: its tiles go with it (R152, R335). -/
def State.dropContext (s : State) (id : Nat) : State :=
  { s with ctxs := put none s.ctxs id none, parts := s.parts.map fun e => (e.1, e.2.map (·.withoutTiles id)) }

/-- A change depends on records that are not available: it shows the wait, and faults from BLOCKED where one of
them is FAULTED (R334, R335). -/
def State.heldChange (s : State) (id : Nat) (go : State → Option State) : Option State :=
  let r := s.record id
  match s.readiness r.kind r.body with
  | .fault on => if (s.astOf id).phase = .blocked then some (s.faultRecord id faultDEPFAULT) else s.showWait id on false
  | .wait on => s.showWait id on false
  | _ => go s

/-- A MAP record's change, where R337 does not hold it and no other flip of its context is under way (R369). -/
def State.startMap (s : State) (id : Nat) : Option State :=
  let r := s.record id
  match s.holdsPin r.body with
  | some c => s.showWait id c false
  | none => if s.flipping (field r.body 40 4) id then none else some (s.changeMap id)

/-- Begin an in-place change. -/
def State.startChange (s : State) (id : Nat) : Option State :=
  let a := s.astOf id
  let r := s.record id
  match r.kind with
  | 1 => some ((s.writeAst id { a.to .changing with working := r.version }).aimed id)
  | 2 => s.heldChange id fun s => s.startMap id
  | _ => s.heldChange id fun s => some (s.busyQueue id)

/-- Go on with a change. -/
def State.change (s : State) (id : Nat) : Option State :=
  let a := s.astOf id
  let r := s.record id
  match r.kind with
  | 1 => some ((s.writeAst id { (a.to .live).marked r.version with body := r.body }).aimed id)
  | 2 =>
    let c := field r.body 40 4
    if !s.drained c then none
    else if a.working != r.version then s.heldChange id fun s => s.startMap id
    else
      let t := s.writeAst id ((a.to .live).marked r.version)
      some (if field r.body 50 1 = 1 then t.pagesCame id else t)
  | _ =>
    if a.working != r.version then s.heldChange id fun s => some (s.redirectQueue id)
    else s.changeQueue id

/-! ## Teardowns (R334, R335) -/

/-- A MAP, PROG or QUEUE record names a context, in the DSR or as it is realised. -/
def State.names (s : State) (id ctx : Nat) : Bool :=
  let r := s.record id
  namedCtx r.kind r.body == some ctx || (s.realised id && namedCtx r.kind (s.body id) == some ctx)

/-- The order of teardowns by kind (R333). -/
def tearOrder : List Nat := [4, 3, 2, 1]

/-- Records that hold a CTX record's teardown; not a MAP record whose own teardown the pinned areas hold. -/
def State.holdsCtx (s : State) (ctx id : Nat) : Bool :=
  let r := s.record id
  let p := (s.astOf id).phase
  let kept := r.kind == 2 && !r.present && p == .blocked && overlaps (mapRange (s.body id)) (pinnedAreas (s.body ctx))
  s.names id ctx && (r.present || (p != .absent && p != .retired)) && !kept

/-- Records that hold a MAP record's teardown. -/
def State.holdsMap (s : State) (m : Mapping) (id : Nat) : Bool :=
  let x := (m.va, m.va + m.length)
  let a := s.astOf id
  match (s.record id).kind with
  | 1 =>
    id == m.ctx && (a.phase == .live || a.phase == .changing) && overlaps x (pinnedAreas a.body)
  | 3 =>
    let l := s.launch id
    s.available id && l.ctx == m.ctx && meets x (l.image, l.image + l.imageLen)
  | 4 =>
    -- the ring in force, and while it changes the one copied to
    let ring (b : List Byte) : Nat × Nat := (field b 32 8, 2 ^ field b 20 2 * field b 22 2)
    let new := if a.phase == .changing then [ring (s.record id).body] else []
    s.available id && field a.body 16 4 == m.ctx && overlaps x ((field a.body 24 8, 64) :: ring a.body :: new)
  | _ => false

/-- The record on which a teardown waits, if it waits. -/
def State.tearWait (s : State) (id : Nat) : Option Nat :=
  let holds : Nat → Bool := match (s.record id).kind, look none s.maps id with
    | 1, _ => s.holdsCtx id
    | 2, some m => s.holdsMap m
    | _, _ => fun _ => false
  tearOrder.findSome? fun kind =>
    (keys s.dsr).find? fun k => k != id && (s.record k).kind == kind && holds k

/-- The teardown begins. -/
def State.startDrain (s : State) (id : Nat) : Option State :=
  let r := s.record id
  let on (s : State) : State :=
    s.writeAst id { (s.astOf id).to .draining with working := r.version, progress := 1 }
  match look none s.maps id with
  | some m =>
    if s.flipping m.ctx id || ((s.astOf id).phase = .changing && !s.drained m.ctx) then none
    else some (on ({ s with maps := set s.maps id { m with length := 0 } }.flip m.ctx))
  | none =>
    if (look none s.launches id).isSome then some (on (s.haltLaunch id))
    else if (look none s.queues id).isSome then some (on (s.closeQueue id))
    else some (on s)

/-- Tear down what is LIVE, CHANGING or BLOCKED, or show what holds it. -/
def State.tear (s : State) (id : Nat) : Option State :=
  match s.tearWait id with
  | some k => s.showWait id k true
  | none => s.startDrain id

/-- Go on with a teardown. -/
def State.drain (s : State) (id : Nat) : Option State :=
  match look none s.maps id with
  | some m =>
    if s.drained m.ctx then
      some ((s.releaseMap id).ended id)
    else none
  | none =>
    if (look none s.launches id).isSome then
      if (s.wgsOf id).isEmpty then s.oncePublished id fun s => (s.releaseProg id).ended id else none
    else
      match look none s.queues id with
      | some q => if s.queueOver id q then some (s.expireQueue id q) else none
      | none => some ((s.dropContext id).ended id)

/-! ## FAULTED records -/

/-- A FAULTED record: what is left of its launch is released; an accepted edit tears down what was realised and
goes on (R335, R374). -/
def State.faulted (s : State) (id : Nat) : Option State :=
  let r := s.record id
  let new := (s.astOf id).working != r.version || !r.present
  if (look none s.launches id).isSome then
    if (s.wgsOf id).any fun e => !e.2.draining then some (s.haltLaunch id)
    else if (s.wgsOf id).isEmpty then s.oncePublished id fun s => s.releaseProg id
    else none
  else if !new then none
  else if (look none s.queues id).isSome then s.startDrain id
  else if (look none s.maps id).isSome then if (s.tearWait id).isSome then none else s.startDrain id
  else if (s.tearWait id).isSome && (look none s.ctxs id).isSome then none
  else some ((s.dropContext id).ended id)

/-! ## One step (R332, R333) -/

/-- A launch that has retired by itself, its stores published and acknowledged (R124, R341). -/
def State.retireLaunch (s : State) (id : Nat) : State :=
  let s := s.releaseProg id
  let a := s.astOf id
  (s.writeAst id { a.to .retired with done := true }).blockerNotice id 3 0

/-- The step a record can take, and whether it is a teardown. -/
def State.stepOf (s : State) (id : Nat) : Option (Bool × State) :=
  let r := s.record id
  let a := s.astOf id
  let tear (x : Option State) : Option (Bool × State) := x.map fun s => (true, s)
  let make (x : Option State) : Option (Bool × State) := x.map fun s => (false, s)
  let settle : Option (Bool × State) := if r.present && s.inPlace id then make (s.startChange id) else tear (s.tear id)
  match a.phase with
  | .absent | .retired =>
    if r.version = a.mark then none
    else if r.present then make (some (s.toPending id)) else tear (some (s.ended id))
  | .pending =>
    if !r.present then tear (some (s.ended id))
    else if a.working != r.version then make (some (s.toPending id))
    else make (s.startBuild id)
  | .blocked =>
    if s.realised id then settle
    else if !r.present then tear (some (s.ended id))
    else if a.working != r.version then make (some (s.toPending id))
    else make (s.startBuild id)
  | .building =>
    if a.working = r.version then make (s.build id)
    else if r.present && s.inPlace id && s.readiness r.kind r.body = .ok then
      make (some ((s.writeAst id { a with working := r.version, body := r.body }).aimed id))
    else tear (s.startDrain id)
  | .live =>
    if r.version != a.mark then settle
    else if (look none s.launches id).isNone then none
    else if s.launchOver id then tear (s.oncePublished id fun s => s.retireLaunch id)
    else make (s.restoreArea id)
  | .changing =>
    if a.working != r.version && !(r.present && s.inPlace id) then
      -- a MAP record's change under way drains first (R369)
      match look none s.maps id with
      | some m => if s.drained m.ctx then tear (s.tear id) else none
      | none => tear (s.tear id)
    else make (s.change id)
  | .draining => tear (s.drain id)
  | .faulted => tear (s.faulted id)

/-- The first record of a kind with a step of a class. -/
def State.firstStep (s : State) (tear : Bool) (kind : Nat) : List Nat → Option (Nat × State)
  | [] => none
  | id :: ids =>
    match if (s.record id).kind = kind then s.stepOf id else none with
    | some (t, s') => if t = tear then some (id, s') else s.firstStep tear kind ids
    | none => s.firstStep tear kind ids

/-- The planned step: teardowns first, each class kind by kind; a slot never used has no kind, and comes after the
others' teardowns (DESIGN CHOICE). -/
def State.plan (s : State) : Option (Nat × State) :=
  let ids := keys s.dsr
  match [4, 3, 2, 1, 0].findSome? fun k => s.firstStep true k ids with
  | some x => some x
  | none => [1, 2, 3, 4].findSome? fun k => s.firstStep false k ids

/-- A step on a record has been performed (R329). -/
def State.stepped (s : State) (id : Nat) : State :=
  let a := s.astOf id
  s.writeAst id { a with steps := a.steps + 1 }

/-- The Blocker runs from Stage A on (R395). -/
def execBlockerStep (s : State) : Out :=
  .next (
    if s.stage = 0 then s
    else
      match s.plan with
      | some (id, s') => s'.stepped id
      | none => s)

/-- The end of a queue's drain is a step like any other: it comes when it is the planned one (R333, R343). -/
def execQueueGraceExpiry (id : Nat) (s : State) : Out :=
  .next (
    match look none s.queues id, s.plan with
    | some q, some (k, s') =>
      if s.stage != 0 && k == id && (s.astOf id).phase == .draining && s.queueOver id q then s'.stepped id else s
    | _, _ => s)

/-! ## WORK_CLUSTER_PLACE (R42, R341) -/

/-- The first launch in order whose next work clusters fit starts them. For a launch that is being built this is a step,
which comes when it is the planned one (R332, R333); a later work cluster of a LIVE launch is none, but for the fault
that ends it (DEDUCED, log entry 61). Storage that is another's is claimed first (STORAGE_CLAIM). -/
def execWorkClusterPlace (s : State) : Out :=
  .next (
    match s.nextPlace s.offers with
    | (t, some (id, plan)) =>
      if (t.astOf id).phase = .building then
        match t.plan with
        | some (k, s') => if k = id then s'.stepped id else t
        | none => t
      else if t.unowned (t.launch id).need plan then
        let t := t.placeNext id plan
        if (t.astOf id).phase = .faulted then t.stepped id else t
      else t
    | (t, none) => t)

/-! ## The header's counts (R328) -/

/-- Records in PENDING, BUILDING, CHANGING, DRAINING or BLOCKED. -/
def State.unconverged (s : State) : Nat :=
  (s.ast.filter fun e =>
    match e.2 with
    | some a => (match a.phase with | .pending | .building | .changing | .draining | .blocked => true | _ => false)
    | none => false).length

/-- Records in FAULTED. -/
def State.faultCount (s : State) : Nat :=
  (s.ast.filter fun e => match e.2 with | some a => a.phase == .faulted | none => false).length

end Sys2Proof.Machine
end

