-- ==== Sys2Proof/Machine/Service.lean ====
section
/-! DEFINITION. The service core and the call ring (R381 to R383): SYSCALL_SERVICE. -/

namespace Sys2Proof.Machine

/-! ## The buddy heap (R383) -/

/-- Least k with n ≤ 2^k. -/
def log2Up (n : Nat) : Nat := ((List.range 65).find? fun k => n ≤ 2 ^ k).getD 65

/-- The order of a request: at least 6. -/
def blockOrder (n : Nat) : Nat := max 6 (log2Up n)

/-- The lowest-addressed free block of the least order at least k. -/
def bestBlock (free : List (Nat × Nat)) (k : Nat) : Option (Nat × Nat) :=
  let fit := free.filter fun e => k ≤ e.1
  fit.find? fun a => fit.all fun b => a.1 < b.1 || (a.1 == b.1 && a.2 ≤ b.2)

/-- Upper halves freed in splitting a block of order j at an offset down to order k. -/
def upperHalves (k off : Nat) : Nat → List (Nat × Nat)
  | 0 => []
  | j + 1 => if j < k then [] else (j, off + 2 ^ j) :: upperHalves k off j

/-- Take a block for n bytes; its offset comes back. -/
def Context.alloc (c : Context) (order n : Nat) : Context × Option Nat :=
  let k := blockOrder n
  if 30 < k || order < k then (c, none)
  else
    match bestBlock c.free k with
    | none => (c, none)
    | some (j, off) =>
      ({ c with free := upperHalves k off j ++ c.free.erase (j, off), taken := (k, off) :: c.taken }, some off)

/-- Merge a free block with its buddy while the buddy is free, up to the heap's order. -/
def mergeBlock (order : Nat) : Nat → Nat × Nat → List (Nat × Nat) → List (Nat × Nat)
  | 0, b, free => b :: free
  | n + 1, (k, off), free =>
    let buddy := if off / 2 ^ k % 2 = 0 then off + 2 ^ k else off - 2 ^ k
    if k < order && free.contains (k, buddy) then mergeBlock order n (k + 1, min off buddy) (free.erase (k, buddy))
    else (k, off) :: free

/-- Free an allocated block by its offset. -/
def Context.release (c : Context) (order off : Nat) : Context × Bool :=
  match c.taken.find? fun e => e.2 == off with
  | none => (c, false)
  | some b => ({ c with taken := c.taken.erase b, free := mergeBlock order 64 b c.free }, true)

/-! ## Calls (R382) -/

/-- HEAPBASE and HEAPORDER of a context's save area. -/
def State.heap (s : State) (ctx : Nat) : Nat × Nat :=
  let a := s.ctxField ctx 72 8
  (leNat (s.ctxRead ctx (a + 8) 8), leNat (s.ctxRead ctx (a + 16) 1))

/-- Serve one lane of ALLOC or FREE: the reply. -/
def Context.serveLane (c : Context) (base order call arg : Nat) : Context × Nat :=
  if arg = 0 then (c, 0)
  else if call = 2 then
    if order = 0 then (c, 0)
    else
      let (c, r) := c.alloc order arg
      (c, match r with | some off => base + off | none => 0)
  else if order = 0 || arg < base then (c, 1)
  else
    let (c, ok) := c.release order (arg - base)
    (c, if ok then 0 else 1)

/-- Lanes in ascending order, with their arguments. -/
def Context.serveLanes (c : Context) (base order call : Nat) : List (Nat × Nat) → Context × List (Nat × Nat)
  | [] => (c, [])
  | (l, arg) :: rest =>
    let (c, r) := c.serveLane base order call arg
    let (c, rs) := c.serveLanes base order call rest
    (c, (l, r) :: rs)

/-- The real lanes of a call record and their arguments. -/
def State.callArgs (s : State) (ctx slot : Nat) : List (Nat × Nat) :=
  let a := s.callSlot ctx slot
  (lanesOf (BitVec.ofNat 64 (leNat (s.ctxRead ctx (a + 16) 8)))).map fun l =>
    (l, leNat (s.ctxRead ctx (a + 64 + 8 * l) 8))

/-- A call is no longer to be started. -/
def State.callStarted (s : State) (ctx slot : Nat) : State :=
  let c := s.ctxOf ctx
  s.setCtx ctx { c with calls := c.calls.map fun e => if e.1 = slot then (slot, true) else e }

/-- Reply slots first, STATUS last (R381). -/
def State.finishCall (s : State) (ctx slot status : Nat) (rs : List (Nat × Nat)) : State :=
  let a := s.callSlot ctx slot
  let s := rs.foldl (fun s e => s.ctxWrite ctx (a + 64 + 8 * e.1) (leBytes 8 e.2)) s
  s.ctxWrite ctx (a + 4) (leBytes 4 status)

/-- The MAP record behind a global address of a context. -/
def State.recordAt (s : State) (ctx a : Nat) : Option (Nat × Mapping) :=
  match aperture a with
  | .global a => s.mapping ctx a
  | _ => none

/-- MAP records the lanes name that are not resident, each with the lowest address named. -/
def State.absentPages (s : State) (ctx : Nat) (args : List (Nat × Nat)) : List (Nat × Nat) :=
  lowestByRecord (args.filterMap fun e =>
    if e.2 = 0 then none
    else
      match s.recordAt ctx e.2 with
      | some (id, m) => if m.resident then none else some (id, e.2)
      | none => none)

/-- A page request of a PAGEIN call (R372). -/
def State.requestPage (s : State) (ctx slot id va : Nat) : State :=
  let r := s.ctxRead ctx (s.callSlot ctx slot) 16
  let s := s.count (field r 0 2 % 2 ^ 11 / 512) 4
  s.send (s.noticeRing ctx)
    (leBytes 2 3 ++ leBytes 1 2 ++ leBytes 1 0 ++ leBytes 4 id ++ leBytes 8 (va - va % 4096)
      ++ leBytes 4 (field r 12 4) ++ leBytes 4 (field r 8 4) ++ leBytes 4 0 ++ leBytes 4 s.tick)

/-- Replies of PAGEIN: 2 where an address has no leaf. -/
def State.pageReplies (s : State) (ctx slot : Nat) : List (Nat × Nat) :=
  (s.callArgs ctx slot).map fun e =>
    (e.1, if e.2 = 0 || (s.recordAt ctx e.2).isSome then 0 else 2)

/-- Finish the PAGEIN call that is held, once every record it asked for is there. -/
def State.finishPaging (s : State) (ctx slot : Nat) (ids : List Nat) : State :=
  if ids.all (s.pageIsHere ctx) then
    let s := s.finishCall ctx slot 1 (s.pageReplies ctx slot)
    s.setCtx ctx { s.ctxOf ctx with paging := none }
  else s

/-- Start the next call of a context. -/
def State.startCall (s : State) (ctx slot : Nat) : State :=
  let args := s.callArgs ctx slot
  let call := leNat (s.ctxRead ctx (s.callSlot ctx slot + 2) 2)
  let s := s.callStarted ctx slot
  match call with
  | 1 =>
    let pages := s.absentPages ctx args
    let s := pages.foldl (fun s e => s.requestPage ctx slot e.1 e.2) s
    let s := s.setCtx ctx { s.ctxOf ctx with paging := some (slot, pages.map (·.1)) }
    s.finishPaging ctx slot (pages.map (·.1))
  | 2 | 3 =>
    let (base, order) := s.heap ctx
    let (c, rs) := (s.ctxOf ctx).serveLanes base order call args
    (s.setCtx ctx c).finishCall ctx slot 1 rs
  | 4 =>
    s.send (.ctx ctx 0) (leBytes 2 4 ++ List.replicate 6 0 ++ leBytes 8 (s.callSlot ctx slot)
      ++ List.replicate 16 0)
  | _ => s.finishCall ctx slot 2 []

/-- Serve a context: the call that is held, else the next in the order they were written. -/
def execSyscallService (ctx : Nat) (s : State) : Out :=
  .next (
    match look none s.ctxs ctx with
    | none => s
    | some c =>
      match c.paging with
      | some (slot, ids) => s.finishPaging ctx slot ids
      | none =>
        match c.calls.find? fun e => !e.2 with
        | some (slot, _) => s.startCall ctx slot
        | none => s)

end Sys2Proof.Machine
end

