-- ==== Sys2Proof/Machine/Dispatch.lean ====
section
/-! DEFINITION. Which meaning an instruction or step has: one arm per constructor of `Instr`. -/

namespace Sys2Proof.Machine

def exec (i : Instr) (s : State) : Host.Outcome State Fault Refusal :=
  match i with
  | .nop h => Sys2Proof.Machine.execNop h s
  | .bra o => Sys2Proof.Machine.execBra o s
  | .brx o => Sys2Proof.Machine.execBrx o s
  | .call o => Sys2Proof.Machine.execCall o s
  | .callx o => Sys2Proof.Machine.execCallx o s
  | .ret o => Sys2Proof.Machine.execRet o s
  | .exit o => Sys2Proof.Machine.execExit o s
  | .yield o => Sys2Proof.Machine.execYield o s
  | .pset o => Sys2Proof.Machine.execPset o s
  | .pseti o => Sys2Proof.Machine.execPseti o s
  | .pget o => Sys2Proof.Machine.execPget o s
  | .iadd o t sat => Sys2Proof.Machine.execIadd o t sat s
  | .isub o t sat => Sys2Proof.Machine.execIsub o t sat s
  | .imul o t => Sys2Proof.Machine.execImul o t s
  | .imulh o t => Sys2Proof.Machine.execImulh o t s
  | .imad o t => Sys2Proof.Machine.execImad o t s
  | .imin o t => Sys2Proof.Machine.execImin o t s
  | .imax o t => Sys2Proof.Machine.execImax o t s
  | .iabs o t => Sys2Proof.Machine.execIabs o t s
  | .ineg o t => Sys2Proof.Machine.execIneg o t s
  | .lea o k => Sys2Proof.Machine.execLea o k s
  | .iset o t c => Sys2Proof.Machine.execIset o t c s
  | .and o => Sys2Proof.Machine.execAnd o s
  | .or o => Sys2Proof.Machine.execOr o s
  | .xor o => Sys2Proof.Machine.execXor o s
  | .not o => Sys2Proof.Machine.execNot o s
  | .tribit o tbl => Sys2Proof.Machine.execTribit o tbl s
  | .shl o => Sys2Proof.Machine.execShl o s
  | .shr o => Sys2Proof.Machine.execShr o s
  | .sar o => Sys2Proof.Machine.execSar o s
  | .rotl o => Sys2Proof.Machine.execRotl o s
  | .popc o => Sys2Proof.Machine.execPopc o s
  | .clz o => Sys2Proof.Machine.execClz o s
  | .brev o => Sys2Proof.Machine.execBrev o s
  | .bfe o t => Sys2Proof.Machine.execBfe o t s
  | .bfi o => Sys2Proof.Machine.execBfi o s
  | .bysel o => Sys2Proof.Machine.execBysel o s
  | .mov o wide => Sys2Proof.Machine.execMov o wide s
  | .movi o value => Sys2Proof.Machine.execMovi o value s
  | .sel o k => Sys2Proof.Machine.execSel o k s
  | .plop o tbl => Sys2Proof.Machine.execPlop o tbl s
  | .p2v o => Sys2Proof.Machine.execP2v o s
  | .v2p o => Sys2Proof.Machine.execV2p o s
  | .srd o => Sys2Proof.Machine.execSrd o s
  | .swr o => Sys2Proof.Machine.execSwr o s
  | .bcast o => Sys2Proof.Machine.execBcast o s
  | .laneget o => Sys2Proof.Machine.execLaneget o s
  | .fadd o r ftz sat => Sys2Proof.Machine.execFadd o r ftz sat s
  | .fsub o r ftz sat => Sys2Proof.Machine.execFsub o r ftz sat s
  | .fmul o r ftz sat => Sys2Proof.Machine.execFmul o r ftz sat s
  | .ffma o r ftz sat => Sys2Proof.Machine.execFfma o r ftz sat s
  | .fmin o ftz => Sys2Proof.Machine.execFmin o ftz s
  | .fmax o ftz => Sys2Proof.Machine.execFmax o ftz s
  | .fset o c ftz => Sys2Proof.Machine.execFset o c ftz s
  | .fclass o ftz => Sys2Proof.Machine.execFclass o ftz s
  | .frnd o r ftz => Sys2Proof.Machine.execFrnd o r ftz s
  | .hadd2 o t r ftz sat => Sys2Proof.Machine.execHadd2 o t r ftz sat s
  | .hmul2 o t r ftz sat => Sys2Proof.Machine.execHmul2 o t r ftz sat s
  | .hfma2 o t r ftz sat => Sys2Proof.Machine.execHfma2 o t r ftz sat s
  | .hmin2 o t ftz => Sys2Proof.Machine.execHmin2 o t ftz s
  | .hmax2 o t ftz => Sys2Proof.Machine.execHmax2 o t ftz s
  | .hset2 o t c ftz => Sys2Proof.Machine.execHset2 o t c ftz s
  | .cvt o dst src r ftz sat => Sys2Proof.Machine.execCvt o dst src r ftz sat s
  | .tpack o t => Sys2Proof.Machine.execTpack o t s
  | .tunpk o t => Sys2Proof.Machine.execTunpk o t s
  | .rcp o ftz => Sys2Proof.Machine.execRcp o ftz s
  | .rsq o ftz => Sys2Proof.Machine.execRsq o ftz s
  | .sqrt o ftz => Sys2Proof.Machine.execSqrt o ftz s
  | .log2 o ftz => Sys2Proof.Machine.execLog2 o ftz s
  | .exp2 o ftz => Sys2Proof.Machine.execExp2 o ftz s
  | .sinpi o ftz => Sys2Proof.Machine.execSinpi o ftz s
  | .cospi o ftz => Sys2Proof.Machine.execCospi o ftz s
  | .tanh o ftz => Sys2Proof.Machine.execTanh o ftz s
  | .qswap o dir => Sys2Proof.Machine.execQswap o dir s
  | .qbcast o => Sys2Proof.Machine.execQbcast o s
  | .shfl o m => Sys2Proof.Machine.execShfl o m s
  | .vote o k => Sys2Proof.Machine.execVote o k s
  | .ballot o => Sys2Proof.Machine.execBallot o s
  | .redgrp o op t => Sys2Proof.Machine.execRedgrp o op t s
  | .scangrp o op exc t => Sys2Proof.Machine.execScangrp o op exc t s
  | .matchLanes o => Sys2Proof.Machine.execMatchLanes o s
  | .ld o w => Sys2Proof.Machine.execLd o w s
  | .st o w => Sys2Proof.Machine.execSt o w s
  | .ldnr o w k => Sys2Proof.Machine.execLdnr o w k s
  | .lds o w ord sc => Sys2Proof.Machine.execLds o w ord sc s
  | .sts o w ord sc => Sys2Proof.Machine.execSts o w ord sc s
  | .pref o => Sys2Proof.Machine.execPref o s
  | .tld o w => Sys2Proof.Machine.execTld o w s
  | .tst o w => Sys2Proof.Machine.execTst o w s
  | .atom o op t ord sc e => Sys2Proof.Machine.execAtom o op t ord sc e s
  | .atomcas o wide ord sc e => Sys2Proof.Machine.execAtomcas o wide ord sc e s
  | .atomf o op t ord sc e => Sys2Proof.Machine.execAtomf o op t ord sc e s
  | .fence o ord sc => Sys2Proof.Machine.execFence o ord sc s
  | .phase o => Sys2Proof.Machine.execPhase o s
  | .barinit o sc => Sys2Proof.Machine.execBarinit o sc s
  | .bararr o sc => Sys2Proof.Machine.execBararr o sc s
  | .bardrop o sc => Sys2Proof.Machine.execBardrop o sc s
  | .barexp o sc => Sys2Proof.Machine.execBarexp o sc s
  | .wait o all => Sys2Proof.Machine.execWait o all s
  | .batch o => Sys2Proof.Machine.execBatch o s
  | .htest o => Sys2Proof.Machine.execHtest o s
  | .cancel o => Sys2Proof.Machine.execCancel o s
  | .enq o => Sys2Proof.Machine.execEnq o s
  | .deq o => Sys2Proof.Machine.execDeq o s
  | .copy o bar => Sys2Proof.Machine.execCopy o bar s
  | .copyt o bar => Sys2Proof.Machine.execCopyt o bar s
  | .gather o bar => Sys2Proof.Machine.execGather o bar s
  | .scatter o bar => Sys2Proof.Machine.execScatter o bar s
  | .coll o op t => Sys2Proof.Machine.execColl o op t s
  | .gang o => Sys2Proof.Machine.execGang o s
  | .mma o w16 fmt => Sys2Proof.Machine.execMma o w16 fmt s
  | .mzero o w16 => Sys2Proof.Machine.execMzero o w16 s
  | .mldt o w16 => Sys2Proof.Machine.execMldt o w16 s
  | .msto o w16 => Sys2Proof.Machine.execMsto o w16 s
  | .msta o w16 fmt => Sys2Proof.Machine.execMsta o w16 fmt s
  | .mmov o w16 => Sys2Proof.Machine.execMmov o w16 s
  | .mpois o => Sys2Proof.Machine.execMpois o s
  | .syscall o => Sys2Proof.Machine.execSyscall o s
  | .trap o => Sys2Proof.Machine.execTrap o s
  | .tret o => Sys2Proof.Machine.execTret o s
  | .setperf o => Sys2Proof.Machine.execSetperf o s
  | .edit o f => Sys2Proof.Machine.execEdit o f s
  | .notify o => Sys2Proof.Machine.execNotify o s
  | .brk o => Sys2Proof.Machine.execBrk o s
  | .dbgmark o => Sys2Proof.Machine.execDbgmark o s
  | .tokrd o => Sys2Proof.Machine.execTokrd o s
  | .unassignedOpcode op => Sys2Proof.Machine.execUnassignedOpcode op s
  | .workgroupResume wg => Sys2Proof.Machine.execWorkgroupResume wg s
  | .longLatencyResult group idx => Sys2Proof.Machine.execLongLatencyResult group idx s
  | .gangArrayStart part => Sys2Proof.Machine.execGangArrayStart part s
  | .mmaComplete part => Sys2Proof.Machine.execMmaComplete part s
  | .tileSlotExchange part ctx tile => Sys2Proof.Machine.execTileSlotExchange part ctx tile s
  | .reservationRequest cluster => Sys2Proof.Machine.execReservationRequest cluster s
  | .reelHop => Sys2Proof.Machine.execReelHop s
  | .marketClearing => Sys2Proof.Machine.execMarketClearing s
  | .operatingPointChange cluster => Sys2Proof.Machine.execOperatingPointChange cluster s
  | .waitWake group slot => Sys2Proof.Machine.execWaitWake group slot s
  | .waitTimeout group slot => Sys2Proof.Machine.execWaitTimeout group slot s
  | .monitorHostPoll group slot cond lost => Sys2Proof.Machine.execMonitorHostPoll group slot cond lost s
  | .barrierBankUpdate bank addr count => Sys2Proof.Machine.execBarrierBankUpdate bank addr count s
  | .engineRequest cmd req => Sys2Proof.Machine.execEngineRequest cmd req s
  | .enginePageResume cmd => Sys2Proof.Machine.execEnginePageResume cmd s
  | .batchComplete batch => Sys2Proof.Machine.execBatchComplete batch s
  | .mstaApply cmd => Sys2Proof.Machine.execMstaApply cmd s
  | .collArrival cmd => Sys2Proof.Machine.execCollArrival cmd s
  | .collCombine coll => Sys2Proof.Machine.execCollCombine coll s
  | .l1Evict core addr => Sys2Proof.Machine.execL1Evict core addr s
  | .stackCacheSpill core => Sys2Proof.Machine.execStackCacheSpill core s
  | .tileDrain part => Sys2Proof.Machine.execTileDrain part s
  | .hevisRequestArrival src tag addr op => Sys2Proof.Machine.execHevisRequestArrival src tag addr op s
  | .hevisAck tag => Sys2Proof.Machine.execHevisAck tag s
  | .hevisRetry tag => Sys2Proof.Machine.execHevisRetry tag s
  | .cplTimeout tag => Sys2Proof.Machine.execCplTimeout tag s
  | .pcieCompletion tag c => Sys2Proof.Machine.execPcieCompletion tag c s
  | .editWindowDmwr page offset data poisoned ide => Sys2Proof.Machine.execEditWindowDmwr page offset data poisoned ide s
  | .editDecision => Sys2Proof.Machine.execEditDecision s
  | .hostWriteDiscard bar offset => Sys2Proof.Machine.execHostWriteDiscard bar offset s
  | .registerWrite offset value => Sys2Proof.Machine.execRegisterWrite offset value s
  | .bar4Access addr len write ide => Sys2Proof.Machine.execBar4Access addr len write ide s
  | .msixUnmask vector function => Sys2Proof.Machine.execMsixUnmask vector function s
  | .configRequest => Sys2Proof.Machine.execConfigRequest s
  | .unsupportedRequest f posted => Sys2Proof.Machine.execUnsupportedRequest f posted s
  | .getVersion => Sys2Proof.Machine.execGetVersion s
  | .getCapabilities => Sys2Proof.Machine.execGetCapabilities s
  | .negotiateAlgorithms sigOk hashOk => Sys2Proof.Machine.execNegotiateAlgorithms sigOk hashOk s
  | .getDigests => Sys2Proof.Machine.execGetDigests s
  | .getCertificate slot => Sys2Proof.Machine.execGetCertificate slot s
  | .challenge nonce => Sys2Proof.Machine.execChallenge nonce s
  | .getMeasurements signed index nonce => Sys2Proof.Machine.execGetMeasurements signed index nonce s
  | .keyExchange nonce => Sys2Proof.Machine.execKeyExchange nonce s
  | .finish => Sys2Proof.Machine.execFinish s
  | .ideKm stream key => Sys2Proof.Machine.execIdeKm stream key s
  | .recordEvent idx => Sys2Proof.Machine.execRecordEvent idx s
  | .blockerStep => Sys2Proof.Machine.execBlockerStep s
  | .workClusterPlace => Sys2Proof.Machine.execWorkClusterPlace s
  | .preempt wg => Sys2Proof.Machine.execPreempt wg s
  | .storageClaim core => Sys2Proof.Machine.execStorageClaim core s
  | .groupRetire group => Sys2Proof.Machine.execGroupRetire group s
  | .queueGraceExpiry id => Sys2Proof.Machine.execQueueGraceExpiry id s
  | .syscallService ctx => Sys2Proof.Machine.execSyscallService ctx s
  | .telemetryRecord => Sys2Proof.Machine.execTelemetryRecord s
  | .moduleBudgetWrite value => Sys2Proof.Machine.execModuleBudgetWrite value s
  | .dieCtlWrite die value => Sys2Proof.Machine.execDieCtlWrite die value s
  | .clCtlWrite cluster value => Sys2Proof.Machine.execClCtlWrite cluster value s
  | .stop part => Sys2Proof.Machine.execStop part s
  | .resume part => Sys2Proof.Machine.execResume part s
  | .step part slot => Sys2Proof.Machine.execStep part slot s
  | .dump part ctx => Sys2Proof.Machine.execDump part ctx s
  | .dumpWrite => Sys2Proof.Machine.execDumpWrite s
  | .badop op => Sys2Proof.Machine.execBadop op s
  | .watchpointPredicate => Sys2Proof.Machine.execWatchpointPredicate s
  | .sampleRecord idx => Sys2Proof.Machine.execSampleRecord idx s
  | .uncorrectableError st unit site => Sys2Proof.Machine.execUncorrectableError st unit site s
  | .correctedError st unit => Sys2Proof.Machine.execCorrectedError st unit s
  | .flashWrite area data => Sys2Proof.Machine.execFlashWrite area data s
  | .conventionalReset => Sys2Proof.Machine.execConventionalReset s
  | .bootRomStart => Sys2Proof.Machine.execBootRomStart s
  | .stageA => Sys2Proof.Machine.execStageA s
  | .stageB ok => Sys2Proof.Machine.execStageB ok s

end Sys2Proof.Machine
end

