-- ==== Sys2Proof/Machine/Windows.lean ====
section
/-! DEFINITION. What the host reads in BAR0 and BAR2 (R316, R317, R328 to R330, R346 to R349, R353, R354, R400): the
submission pages, the desired state, the actual state and the port's registers. -/

namespace Sys2Proof.Machine

/-- Byte `i` of a list whose missing bytes are 0. -/
def byteAt (bs : List Byte) (i : Nat) : Byte := bs.getD i 0

/-! ## BAR0 (R348, R349) -/

/-- The RESULT word of a submission page. -/
def State.resultBytes (s : State) (page : Nat) : List Byte :=
  let (seq, status, version) := look (0, 0, 0) s.port.results page
  leBytes 4 seq ++ leBytes 2 status ++ leBytes 2 0 ++ leBytes 8 version

/-- A byte of BAR0: the edit window and the reserved area read 0. -/
def State.pageByte (s : State) (x : Nat) : Byte :=
  if 0x80 ≤ x % 4096 then byteAt (s.resultBytes (x / 4096)) (x % 4096 - 0x80) else 0

/-! ## The desired and the actual state (R317, R328 to R330) -/

/-- A slot of the desired state region: its header, and its body from byte 16 on. -/
def State.slotBytes (s : State) (id : Nat) : List Byte :=
  let r := s.record id
  leBytes 8 r.version ++ leBytes 4 id ++ leBytes 2 r.kind ++ leBytes 2 (if r.present then 1 else 0)
    ++ r.body.drop 16

def Phase.code : Phase → Nat
  | .absent => 0 | .pending => 1 | .building => 2 | .live => 3 | .changing => 4
  | .draining => 5 | .retired => 6 | .blocked => 7 | .faulted => 8

/-- An entry of the actual state table. -/
def Ast.bytes (a : Ast) : List Byte :=
  let flag (b : Bool) (n : Nat) : Nat := if b then n else 0
  leBytes 8 a.mark ++ leBytes 8 a.working ++ leBytes 1 a.phase.code ++ leBytes 1 a.fault
    ++ leBytes 1 (flag a.teardown 1 + flag a.skipped 2 + flag a.done 4) ++ leBytes 1 0
    ++ leBytes 4 (if a.phase = .blocked then a.waitOn else noRecord) ++ leBytes 8 a.steps
    ++ leBytes 4 a.c0 ++ leBytes 4 a.c1 ++ leBytes 4 a.c2 ++ leBytes 4 a.c3

/-- The header of the actual state table. -/
def State.astHeader (s : State) : List Byte :=
  leBytes 8 s.unconverged ++ leBytes 8 s.faultCount ++ leBytes 1 s.stage ++ leBytes 7 0
    ++ leBytes 8 s.accepted ++ leBytes 8 s.lastTick

/-! ## The port's registers -/

/-- A register of BAR2 as the host reads it, by offset from 0x0D0_0000: the request counters of a die, a vector's mask
bit and the pending-bit array stand elsewhere than in `Port.regs`. -/
def State.readReg (s : State) (off : Nat) : DWord :=
  match regKind off with
  | .requests d k => BitVec.ofNat 64 (look 0 (s.die d).counters k)
  | .vector v => BitVec.ofNat 64 ((s.reg off).toNat / 2 ^ 33 * 2 ^ 33 + (s.reg off).toNat % 2 ^ 32
      + (if s.port.unmasked.contains v then 0 else 2 ^ 32))
  | _ =>
    if 0x22_0000 ≤ off ∧ off < 0x22_0100 then
      Sys2Proof.Machine.maskOf ((List.range 64).filter fun i => s.port.pending.contains (8 * (off - 0x22_0000) + i))
    else s.reg off

/-- A byte of BAR2; an unassigned offset reads 0 (R346). -/
def State.windowByte (s : State) (x : Nat) : Byte :=
  if x < 0x80_0000 then byteAt (s.slotBytes (x / 128)) (x % 128)
  else if x < 0x80_0040 then byteAt s.astHeader (x - 0x80_0000)
  else if x < 0x80_0040 + 0x40_0000 then byteAt (s.astOf ((x - 0x80_0040) / 64)).bytes ((x - 0x80_0040) % 64)
  else if 0x0D0_0000 ≤ x then byteAt (leBytes 8 (s.readReg ((x - 0x0D0_0000) / 8 * 8)).toNat) (x % 8)
  else 0

/-- The host reads bytes of BAR0 or BAR2: all at once, so none is torn (R347). -/
def State.hostRead (s : State) (bar off len : Nat) (ide : Bool) : State :=
  if !s.port.presented then s
  else if s.ideRefuses ide then s.discard.answerWith .unsupported []
  else
    let byte := if bar = 0 then s.pageByte else s.windowByte
    s.answerWith .successful ((List.range len).map fun i => byte (off + i))

end Sys2Proof.Machine
end

