-- ==== Sys2Proof/Machine/Turn.lean ====
section
/-! DEFINITION. Which agent moves in a step, and what its move is. `run` is the meaning of an instruction. The
word an issue runs is fetched here, and the word a host places is placed here. -/

namespace Sys2Proof.Machine

/-- A word of a program (groups 0x0 to 0xE), not another step of the part. -/
def isWord (i : Instr) : Bool :=
  match i with
  | .nop _ | .unassignedOpcode _ => true
  | _ => i.op.isSome

/-- The platform, a peer or another device writes memory outside the device. -/
def State.platform (s : State) (addr : Nat) (data : List Byte) : State := { s with ext := putList 0 s.ext addr data }

/-- A die starts a page walk: TLBMISS, and a request to the table's home (R367). What the translation caches hold
is left open, so any die may walk at any time. -/
def State.walk (s : State) (die home : Nat) : State :=
  if (s.die die).started then (s.count die 3).count die (if home = die then 0 else 1) else s

/-- A turn of the agenda. -/
def State.takeTurn (run : Instr → State → Out) (s : State) (t : Turn) : Out :=
  match t with
  | .cycle c => s.cycleTurn run c
  | .event i => if isWord i then .next s else run i s
  | .issue c => if s.issuer c then s.issue run c else .fault .noIssuer
  | .platform a bs => .next (s.platform a bs)
  | .powerLoss => .next s.powerLoss
  | .hostRead bar off len ide => .next (s.hostRead bar off len ide)
  | .maskFunction => .next s.maskFunction
  | .walk die home => .next (s.walk die home)

/-- A turn where the agenda names none: any agent may move, but a plane issue is made only by a partition that
picks it. -/
def State.freeStep (run : Instr → State → Out) (s : State) : Out :=
  let t := Config.freeTurn s.free
  let s := { s with free := s.free + 1 }
  match t with
  | .issue _ => .next s
  | t => s.takeTurn run t

/-- The next turn, after which the conditions of waiting splits are tested (R260). -/
def State.nextTurn (run : Instr → State → Out) (s : State) : Out :=
  (match s.agenda with
    | t :: rest => { s with agenda := rest }.takeTurn run t
    | [] => s.freeStep run).map s.testWaits

/-! ## Placing a word for the host -/

/-- A launch of one workgroup of one group of 32 lanes with 256 registers over an image at address 4096. -/
def placedLaunch : Launch :=
  { ctx := 0, width := 32, regs := 256, lanes := 32, wcluster := 1, prio := 0, coop := false, dies := 1,
    wgcount := 1, shared := 0, scratch := 0, stack := 0, arg := 0, regions := [(4096, 4080, 1)],
    entry := { region := 0, offset := 0 }, data := 4096, image := 4096, imageLen := 4096, areaUnits := [],
    cores := [0], areas := [], next := 1, since := none, started := 1, retired := 0, draining := false, acks := none }

/-- One page of device memory that holds the image, readable, writable and executable. -/
def placedMap : Mapping :=
  { ctx := 0, va := 4096, length := 4096, target := 4096, mkind := 0, place := 1, home := 0, leaf := 0, perm := 7,
    device := true, resident := true, peer := 0, lost := [], owned := false }

def placedGroup : Group :=
  { ctx := 0, launch := 2, wg := 0, index := 0, width := 32, regs := 256, real := 0xFFFFFFFF, helper := 0,
    exited := 0,
    splits := [(0, some { region := 0, offset := 0, mask := 0xFFFFFFFF, mid := none, wait := none, handler := false })],
    stack := [], budget := 2, planes := [], v := [], s := [(2, 4096)], p := [], flags := [], links := [], fpx := 0,
    gang := 0, hint := 0, tags := [], nextSeq := 1, stackMem := [], stackPoison := [], stackLim := 0,
    backing := (0, 0), handling := none, inflight := [], nextResult := 0, ageBase := 0, drawn := 0, refused := 0,
    yieldUntil := 0, held := none, released := [], fence := [], lost := [], joined := [] }

def placedWg : Workgroup :=
  { launch := 2, ctx := 0, index := 0, core := 0, state := .running, groups := [0], retired := [], shared := [],
    sharedPoison := [], sharedBytes := 0, missing := [], batches := [], collected := [], saved := [],
    draining := false, preempted := false, moving := none, unit := 0, claimed := false, stopTick := 0 }

def placedCur : Cur := { group := 0, slot := 0, plane := 0, mask := 0xFFFFFFFF, paired := false, acked := false }

/-- A program of one word stands in memory, its group is resident in slot 0 of the first partition, and its plane
issue has been picked. -/
def State.place1 (s : State) (bs : List Byte) : State :=
  { s with
    agenda := .issue placedCur :: s.agenda,
    mem := putList 0 s.mem 4096 bs,
    ctxs := set s.ctxs 0 newContext,
    maps := set s.maps 1 placedMap,
    launches := set s.launches 2 placedLaunch,
    wgs := set s.wgs 0 placedWg,
    groups := set s.groups 0 placedGroup }

end Sys2Proof.Machine
end

