-- ==== Sys2Proof/Machine/Step.lean ====
section
/-! DEFINITION. The one step of the machine. -/

namespace Sys2Proof.Machine

/-- One step: the next turn, with `exec` as the meaning of instructions. -/
def step (s : State) : Host.Outcome State Fault Refusal := s.nextTurn exec

/-- `s` with a program of one word, which the next step fetches and runs. -/
def State.withFetchWord (s : State) (nbits w : Nat) : State := s.place1 (bytesOf 12 (w % 2 ^ nbits))

end Sys2Proof.Machine
end

