-- ==== Sys2Proof/Safety.lean ====
section
/-! DEFINITION. The terms in which claims are stated: invariants of the state, what a form writes and leaves
alone, where a lane stands, what a core's load sees. -/

namespace Sys2Proof

open Machine

/-! ## Outcomes and invariants -/

/-- Device memory and memory outside the device are canonical. -/
def MemoryOk (s : State) : Prop := Memory.wf s.mem = true ∧ Memory.wf s.ext = true

/-- The outcome is a next state of which `p` holds. -/
def Next (o : Out) (p : State → Prop) : Prop := ∃ t, o = .next t ∧ p t

/-! ## What a form writes into its group's registers

`g` is the group before, `h` after; `m` the lanes of the issuing mask after the guard. -/

def SameV (g h : Group) : Prop := ∀ r l, l < 64 → h.readV r l = g.readV r l
def SameS (g h : Group) : Prop := ∀ r, h.readS r = g.readS r ∧ look none h.tags r = look none g.tags r
def SameP (g h : Group) : Prop := ∀ p l, h.readP p l = g.readP p l

/-- V register `d` takes `f` in each lane of `m`. -/
def WroteV (g h : Group) (d : Nat) (m : LaneMask) (f : Nat → Word) : Prop :=
  ∀ r l, l < 64 → h.readV r l = if r = d ∧ m.getLsbD l then f l else g.readV r l

/-- S register `d` takes the value of the lowest lane of `m`, and loses its pending handle (R177, R267). -/
def WroteS (g h : Group) (d : Nat) (m : LaneMask) (f : Nat → Word) : Prop :=
  match (lanesOf m).head? with
  | none => SameS g h
  | some l =>
    (∀ r, h.readS r = if r = d then f l else g.readS r)
    ∧ ∀ r, look none h.tags r = if r = d then none else look none g.tags r

/-- A 32-bit result in D; class N takes none. -/
def Wrote32 (g h : Group) (d : Operand) (m : LaneMask) (f : Nat → Word) : Prop :=
  SameP g h
  ∧ match d with
    | .v n => WroteV g h n.toNat m f ∧ SameS g h
    | .s n => WroteS g h n.toNat m f ∧ SameV g h
    | _ => SameV g h ∧ SameS g h

/-- A 64-bit result in the pair that D names: the low half in the lower register (R5). -/
def Wrote64 (g h : Group) (d : Operand) (m : LaneMask) (f : Nat → DWord) : Prop :=
  let lo (l : Nat) : Word := (f l).setWidth 32
  let hi (l : Nat) : Word := (f l).extractLsb' 32 32
  SameP g h
  ∧ match d with
    | .v n =>
      (∀ r l, l < 64 → h.readV r l =
        if m.getLsbD l then (if r = n.toNat then lo l else if r = n.toNat + 1 then hi l else g.readV r l)
        else g.readV r l)
      ∧ SameS g h
    | .s n =>
      SameV g h
      ∧ (match (lanesOf m).head? with
        | none => SameS g h
        | some l =>
          (∀ r, h.readS r = if r = n.toNat then lo l else if r = n.toNat + 1 then hi l else g.readS r)
          ∧ ∀ r, look none h.tags r = if r = n.toNat ∨ r = n.toNat + 1 then none else look none g.tags r)
    | _ => SameV g h ∧ SameS g h

/-- A predicate result: the bits of the lanes of `m`, and no others; PT keeps its value (R164, R186). -/
def WroteP (g h : Group) (d : Operand) (m : LaneMask) (f : Nat → Bool) : Prop :=
  SameV g h ∧ SameS g h
  ∧ match d with
    | .p n => ∀ p l, h.readP p l = if p = n.toNat ∧ p ≠ 15 ∧ m.getLsbD l then f l else g.readP p l
    | _ => SameP g h

/-- No V, S or predicate register changes. -/
def KeptRegs (g h : Group) : Prop := SameV g h ∧ SameS g h ∧ SameP g h

/-- Floating-point flags of the real lanes are ORed into SR.FPX (R137). -/
def Raised (g h : Group) (real : LaneMask) (e : Nat → Fpx) : Prop :=
  ∀ b, b < 6 → h.fpx.getLsbD b = (g.fpx.getLsbD b || (lanesOf real).any fun l => (e l).getLsbD b)

/-! ## What a form leaves alone -/

/-- A source that the replay log records (R421). -/
def clockSource (o : Op) : Bool :=
  let clock (x : Operand) : Bool := match x with | .sr .clock | .sr .tick | .sr .pouch => true | _ => false
  clock o.a || clock o.b

/-- One place of memory by its storage: host memory and peer registers share the memory outside the device. -/
def cellOf : Loc → Nat × Nat × Nat
  | .dev k => (0, k, 0)
  | .ext k | .mmio k => (1, k, 0)
  | .shared w o => (2, w, o)
  | .stack g o => (3, g, o)

/-- A place within the replay log of the issuing group's context (R422). -/
def InLog (s : State) (l : Loc) : Prop :=
  ∃ a id m, s.logAddr s.me.ctx ≤ a ∧ a < s.logAddr s.me.ctx + 64 + 32 * s.logUnits s.me.ctx
    ∧ s.mapping s.me.ctx a = some (id, m) ∧ cellOf (m.loc a) = cellOf l

/-- Memory is as before, but for the replay log where a recorded source is read. -/
def MemoryKept (s t : State) (o : Op) : Prop :=
  (∀ l, ¬ InLog s l → t.peek l = s.peek l)
  ∧ ((clockSource o = false ∨ s.recording s.me.ctx = false) →
      t.mem = s.mem ∧ t.ext = s.ext ∧ t.port = s.port ∧ t.free = s.free)

/-- What stays of the issuing group beside its registers, its place, its flags, its results in flight and the marks of
registers whose value an error has lost (R423). -/
def GroupKept (g h : Group) : Prop :=
  { h with
    v := g.v, s := g.s, p := g.p, tags := g.tags, fpx := g.fpx, inflight := g.inflight, flags := g.flags,
    nextResult := g.nextResult, lost := g.lost, splits := g.splits, stack := g.stack, exited := g.exited, links := g.links, planes := g.planes,
    ageBase := g.ageBase, yieldUntil := g.yieldUntil, handling := g.handling, drawn := g.drawn } = g

/-- The frame of a form that works on its group's registers alone: other groups, and everything but the pouch,
the lane unit and the replay log with the requests that reach it, are as before; the charge is drawn (R63). -/
structure LaneFrame (s t : State) (i : Instr) (o : Op) : Prop where
  group : GroupKept s.me t.me
  others : ∀ k, k ≠ s.cur.group → look none t.groups k = look none s.groups k
  rest : { t with groups := s.groups, clusters := s.clusters, parts := s.parts, mem := s.mem, ext := s.ext,
                  port := s.port, free := s.free } = s
  lost : ∀ e ∈ t.me.lost, e ∈ s.me.lost
  pouch : ∀ k, t.cluster k =
    if k = clusterOf s.cur.group then { s.cluster k with pouch := (s.cluster k).pouch - s.due i }
    else s.cluster k
  drawn : t.me.drawn = s.me.drawn + s.due i
  units : ∀ k, { t.part k with bankFree := (s.part k).bankFree, sfuFree := (s.part k).sfuFree } = s.part k
  memory : MemoryKept s t o

/-! ## Where lanes stand (R28 to R31) -/

/-- The place of a lane: of its split, else of its entry on the divergence stack; none once it has exited. -/
def laneAt (g : Group) (l : Nat) : Option (Nat × Nat) :=
  match g.splits.find? fun e => (e.2.map fun sp => sp.mask.getLsbD l).getD false with
  | some e => e.2.map fun sp => (sp.region, sp.offset)
  | none => (g.stack.find? fun e => e.mask.getLsbD l).map fun e => (e.region, e.offset)

/-- The lanes of the issuing split belong to no other split and no stack entry, and each slot has one entry. -/
def Alone (g : Group) (slot : Nat) : Prop :=
  (g.splits.map (·.1)).Nodup
  ∧ (∀ e ∈ g.splits, e.1 ≠ slot → ∀ sp, e.2 = some sp → sp.mask &&& (g.split slot).mask = 0)
  ∧ ∀ e ∈ g.stack, e.mask &&& (g.split slot).mask = 0

/-- The plane issue being made is the last of its offset, and the split stands in its slot. -/
def LastPlane (s : State) : Prop :=
  (look none s.me.splits s.cur.slot).isSome = true ∧ Alone s.me s.cur.slot
  ∧ ∀ m, s.mySplit.mid = some m → m.todo.tail = []

/-- Where a lane goes that this plane issue sends nowhere: the place an earlier plane of the offset recorded,
else the next word (R34, R29). -/
def otherwise (s : State) (l : Nat) : Dest :=
  let next := Dest.to s.mySplit.region (s.mySplit.offset + 12)
  match s.mySplit.mid with
  | some m => look next m.dests l
  | none => next

def destPlace : Dest → Option (Nat × Nat)
  | .to r o => some (r, o)
  | .gone => none

/-- Every lane of the issuing split stands where `d` says. -/
def LanesGo (s t : State) (d : Nat → Dest) : Prop :=
  ∀ l, l < 64 → s.mySplit.mask.getLsbD l → laneAt t.me l = destPlace (d l)

/-- No plane issue made so far at the offset sends a lane elsewhere or sets a plane number. -/
def Fresh (s : State) : Prop := ∀ m, s.mySplit.mid = some m → m.dests = [] ∧ m.planes = []

/-- The plane issue ends and sends no lane elsewhere (R29, R34): after the last of its offset every lane stands where
the offset's plane issues said, else at the next word; before that the split stays, with the rest of its planes to
issue. Planes, link stacks, exited lanes and the handler change only as those plane issues said; `y` is the yield hint
of the word (R176). -/
structure Onward (s t : State) (y : Bool) : Prop where
  go : LastPlane s → LanesGo s t (otherwise s)
  kept : Fresh s → (∀ l, look 0 t.me.planes l = look 0 s.me.planes l) ∧ t.me.links = s.me.links
    ∧ t.me.exited = s.me.exited ∧ (s.mySplit.mask ≠ 0 → t.me.handling = s.me.handling)
  stay : ∀ m, s.mySplit.mid = some m → m.todo.tail ≠ [] →
    (∃ n, t.mySplit.mid = some n ∧ n.todo = m.todo.tail ∧ n.dests = m.dests ∧ n.planes = m.planes)
    ∧ t.mySplit.region = s.mySplit.region ∧ t.mySplit.offset = s.mySplit.offset ∧ t.mySplit.wait = none
    ∧ t.me.stack = s.me.stack ∧ ∀ k, k ≠ s.cur.slot → look none t.me.splits k = look none s.me.splits k
  age : (∀ m, s.mySplit.mid = some m → m.todo.tail = []) →
    t.me.ageBase = (s.cluster (clusterOf s.cur.group)).clock
  yields : t.me.yieldUntil = if y then (s.cluster (clusterOf s.cur.group)).yieldTo else s.me.yieldUntil

/-! ## Lane forms -/

/-- The instruction completes with its result written: `w` says what D takes, `e` the flags raised; its lanes go on. -/
def Completes (s : State) (i : Instr) (o : Op) (w : Group → Group → Prop) (e : Nat → Fpx) : Prop :=
  Next (exec i s) fun t =>
    w s.me t.me ∧ Raised s.me t.me (s.realAct o) e ∧ t.me.inflight = s.me.inflight ∧ t.me.flags = s.me.flags
    ∧ t.me.nextResult = s.me.nextResult ∧ Onward s t o.hints.y ∧ LaneFrame s t i o

/-- As `Completes`, for a form that raises no floating-point flag. -/
def Completes32 (s : State) (i : Instr) (o : Op) (f : Nat → Word) : Prop :=
  Completes s i o (fun g h => Wrote32 g h o.d (s.act o) f) fun _ => 0
def Completes64 (s : State) (i : Instr) (o : Op) (f : Nat → DWord) : Prop :=
  Completes s i o (fun g h => Wrote64 g h o.d (s.act o) f) fun _ => 0
def CompletesP (s : State) (i : Instr) (o : Op) (f : Nat → Bool) : Prop :=
  Completes s i o (fun g h => WroteP g h o.d (s.act o) f) fun _ => 0

/-- The completion flags named in SET1 and SET2 rise by one each (R174). -/
def FlagsRaised (g h : Group) (x : Hints) : Prop :=
  ∀ f, look 0 h.flags f = look 0 g.flags f + (if f ≠ 0 ∧ f = x.set1.toNat then 1 else 0)
    + (if f ≠ 0 ∧ f = x.set2.toNat then 1 else 0)

/-- A long-latency form goes on with its result in flight (R174, R175): no register changes yet, the named
flags rise, and the result, numbered in order of issue, is one that writes `w` when it lands and raises the flags `e` of
the real lanes; its lanes go on. -/
def Posts (s : State) (i : Instr) (o : Op) (w : Group → Group → Prop) (e : Nat → Fpx) : Prop :=
  Next (exec i s) fun t =>
    KeptRegs s.me t.me ∧ t.me.fpx = s.me.fpx ∧ FlagsRaised s.me t.me o.hints
    ∧ (∃ r : Result, t.me.inflight = s.me.inflight ++ [r]
        ∧ r.id = s.me.nextResult ∧ r.held = false ∧ r.await = [] ∧ r.set1 = o.hints.set1.toNat ∧ r.set2 = o.hints.set2.toNat
        ∧ (∀ g : Group, w g (g.writes r.writes))
        ∧ ∀ b, b < 6 → r.fpx.getLsbD b = (lanesOf (s.realAct o)).any fun l => (e l).getLsbD b)
    ∧ t.me.nextResult = s.me.nextResult + 1 ∧ Onward s t o.hints.y ∧ LaneFrame s t i o

/-! ## Transfers -/

/-- A transfer leaves registers, memory and everything outside its group alone. -/
def TransferFrame (s t : State) : Prop :=
  KeptRegs s.me t.me ∧ t.me.fpx = s.me.fpx ∧ t.me.flags = s.me.flags ∧ t.me.inflight = s.me.inflight
  ∧ (∀ k, k ≠ s.cur.group → look none t.groups k = look none s.groups k)
  ∧ { t with groups := s.groups } = s

/-! ## What a core sees -/

/-- A byte as a weak load of a core reads it: its L1 copy, else the point of coherence (R121, R122). -/
def weakByte (s : State) (core : Nat) (l : Loc) : Byte :=
  match l.key with
  | some k => (match s.l1 core k with | some x => x.val | none => s.peek l)
  | none => s.peek l

/-- A byte as a strong load of a core at `.cl` or wider reads it: a store of the core's own that is not yet
published, else the point of coherence (R125). -/
def strongByte (s : State) (core : Nat) (l : Loc) : Byte :=
  match l.key with
  | some k => (match s.l1 core k with | some x => if x.dirty then x.val else s.peek l | none => s.peek l)
  | none => s.peek l

/-- Consecutive bytes. -/
def bytesAt (f : Loc → Byte) (l : Loc) (n : Nat) : List Byte := (List.range n).map fun i => f (l.plus i)

/-- The byte that the stores of an issue leave where `hit` says, the later lane last: none where none stores. -/
def storedWhere (n : Nat) (data : Nat → List Byte) (cs : List (Nat × Nat × Chk)) (hit : Loc → Bool) : Option Byte :=
  cs.foldl (fun acc (l, _, c) =>
    match c with
    | .at loc => match (List.range n).find? fun i => hit (loc.plus i) with
      | some i => some ((data l).getD i 0)
      | none => acc
    | _ => acc) none

/-- At a place, under the name it has there. -/
def storedByte (n : Nat) (data : Nat → List Byte) (cs : List (Nat × Nat × Chk)) (x : Loc) : Option Byte :=
  storedWhere n data cs fun y => y == x

/-- At a place, under any name. -/
def storedCell (n : Nat) (data : Nat → List Byte) (cs : List (Nat × Nat × Chk)) (x : Loc) : Option Byte :=
  storedWhere n data cs fun y => cellOf y == cellOf x

/-- No lane's checks find a fault or a missing page, and no watchpoint withholds the issue (R240, R412). -/
def ChecksPass (s : State) (kind n : Nat) (cs : List (Nat × Nat × Chk)) : Prop :=
  (∀ e ∈ cs, (∀ c, e.2.2 ≠ .fault c) ∧ ∀ id, e.2.2 ≠ .missing id)
  ∧ (s.cur.untested = true ∨ s.cur.acked = true
    ∨ s.watchHits kind n (cs.filterMap fun e => match e.2.2 with | .at _ => some (e.1, e.2.1) | _ => none) = [])

/-- No error has struck the core's copies of the sectors that some accesses touch (R423): a struck sector is written
back poisoned, and what is filled into it reads as poisoned. -/
def Unstruck (s : State) (core n : Nat) (cs : List (Nat × Nat × Chk)) : Prop :=
  ∀ e ∈ cs, ∀ l, e.2.2 = .at l → ∀ i, i < n → ∀ k, (l.plus i).key = some k → s.struck core k = false

/-- A place that is reached through Hevis Link, where a write may be lost on its way (log entry 6). -/
def overLink : Loc → Bool
  | .ext k | .mmio k => viaHevis k
  | _ => false

/-- A release at `.sys` of the plane issue being made has nothing to wait for (R126): no acknowledgement is to come, no
posted write is without a zero-length read behind it, and its core's L1 has no store to publish outside the device. -/
def NothingOut (s : State) : Prop :=
  s.acksOf = [] ∧ s.port.unread = false ∧ (s.core (coreOf s.cur.group)).stores true = []

/-- A release at a scope is performed in the step that issues it: its acknowledgements have come, or none is due. -/
def NoWait (s : State) (sc : Scope) : Prop := sc = .sys → s.cur.acked = true ∨ NothingOut s

/-- The issuing split waits at its plane issue, of which nothing has been performed, for the acknowledgements that its
release covers. -/
def WaitsAcked (s t : State) : Prop :=
  (∃ w, t.mySplit.wait = some w ∧ w.kind = .ack t.acksOf { v := s.me.v, s := s.me.s, p := s.me.p })
  ∧ t.mySplit.region = s.mySplit.region ∧ t.mySplit.offset = s.mySplit.offset
  ∧ KeptRegs s.me t.me ∧ t.me.flags = s.me.flags ∧ t.me.inflight = s.me.inflight

/-- Consecutive addresses. -/
def addrs (a n : Nat) : List Nat := (List.range n).map (a + ·)

/-- The 64 bytes of the fault record that a trap of the plane issue being made leaves (R425). -/
def IsFaultRecord (s : State) (t : Trap) (fatal : Bool) (b : List Byte) : Prop :=
  b.length = 64
  ∧ field b 0 2 = (t.code + if fatal then 2 ^ 15 else 0) % 2 ^ 16
  ∧ field b 2 1 = s.cur.plane % 256 ∧ field b 3 1 = s.cur.slot % 256
  ∧ field b 4 4 = s.cur.group / 16 % 2 ^ 32 ∧ field b 8 1 = s.cur.group % 16 ∧ field b 9 1 = s.me.index % 256
  ∧ field b 10 2 = 0 ∧ field b 12 4 = s.mySplit.offset % 2 ^ 32 ∧ field b 16 2 = s.mySplit.region % 2 ^ 16
  ∧ field b 18 2 = 0 ∧ field b 20 4 = t.detail % 2 ^ 32 ∧ field b 24 8 = t.mask.toNat ∧ field b 32 8 = t.addr % 2 ^ 64
  ∧ field b 40 4 = s.me.launch % 2 ^ 32 ∧ field b 44 4 = (s.wgOf s.me.wg).index % 2 ^ 32
  ∧ field b 48 8 = s.tick % 2 ^ 64 ∧ field b 56 8 = 0

/-- The 64 bytes of the frame of a trap taken by the plane issue being made, S0 to S3 as `g` has them (R300). -/
def IsTrapFrame (s : State) (g : Group) (t : Trap) (b : List Byte) : Prop :=
  b.length = 64
  ∧ field b 0 2 = (s.cur.plane + (if t.done then 8 else 0) + 16 * s.cur.slot) % 2 ^ 16
  ∧ field b 2 2 = s.mySplit.region % 2 ^ 16 ∧ field b 4 4 = s.mySplit.offset % 2 ^ 32
  ∧ (∀ i, i < 8 → field b (8 + 4 * i) 4 = 0) ∧ field b 40 8 = s.mySplit.mask.toNat
  ∧ ∀ i, i < 4 → field b (48 + 4 * i) 4 = (g.readS i).toNat

/-- A group's stacks, waits and numbers are within what a frame has room for (R32, R230, R259). -/
def FrameFits (g : Group) : Prop :=
  g.stack.length ≤ 64 ∧ (∀ l, (look [] g.links l).length ≤ 16) ∧ (∀ l, look 0 g.planes l < 4) ∧ g.hint < 8
  ∧ ∀ k w, (g.split k).wait = some w → w.conds.length ≤ 4

/-- A split, or a stack's entry, in 16 bytes of a frame (R32). -/
def IsPlace (b : List Byte) (at' : Nat) (mask : LaneMask) (offset region : Nat) : Prop :=
  field b at' 2 = 0 ∧ field b (at' + 2) 2 = region % 2 ^ 16 ∧ field b (at' + 4) 4 = offset % 2 ^ 32
  ∧ field b (at' + 8) 8 = mask.toNat

/-- The bytes of a group's frame as it is saved (R377), links newest first (log entry 61). -/
def IsGroupFrame (g : Group) (b : List Byte) : Prop :=
  b.length = 0x2900 + 4 * (g.regs * g.width)
  ∧ (∀ r, r < 128 → field b (4 * r) 4 = (g.readS r).toNat)
  ∧ (∀ p l, p < 15 → l < 64 → (field b (0x200 + 8 * p) 8).testBit l = g.readP p l)
  ∧ (∀ k, k < 4 → match look none g.splits k with
      | some sp => IsPlace b (0x280 + 16 * k) sp.mask sp.offset sp.region
      | none => field b (0x280 + 16 * k) 16 = 0)
  ∧ (∀ l, l < 64 → field b 0x2C0 16 / 4 ^ l % 4 = look 0 g.planes l)
  ∧ field b 0x2D0 4 % 8 = g.hint ∧ field b 0x2D4 4 = g.gang.toNat ∧ field b 0x2D8 4 = g.fpx.toNat
  ∧ field b 0x2DC 4 % 64 = g.stack.length % 64 ∧ field b 0x2DC 4 / 256 = g.nextSeq % 2 ^ 24
  ∧ (∀ n, n < 128 → (field b 0x2E0 16).testBit n = (look none g.tags n).isSome)
  ∧ (∀ k w d i c, k < 4 → (look none g.splits k).isSome = true → (g.split k).wait = some w → w.kind = .explicit d →
      w.conds[i]? = some c →
      (field b 0x2D0 4).testBit (12 + k) = true
      ∧ field b (0x300 + 64 * k + 16 * i) 8 = c.addr.toNat ∧ field b (0x308 + 64 * k + 16 * i) 4 = c.value.toNat
      ∧ field b (0x2800 + 64 * k) 8 = w.expiry.getD (2 ^ 64 - 1) % 2 ^ 64
      ∧ (field b (0x2808 + 64 * k) 1).testBit i = c.met.isSome)
  ∧ (∀ i e, g.stack[i]? = some e → IsPlace b (0x400 + 16 * i) e.mask e.offset e.region)
  ∧ (∀ l i e, l < 64 → (look [] g.links l)[i]? = some e →
      field b (0x800 + 128 * l + 8 * i) 4 = e.offset % 2 ^ 32 ∧ field b (0x804 + 128 * l + 8 * i) 2 = e.region % 2 ^ 16)
  ∧ ∀ r l, r < g.regs → l < g.width → field b (0x2900 + 4 * (r * g.width + l)) 4 = (g.readV r l).toNat

/-- Addresses of a context that name different bytes of device memory. -/
def Apart (s : State) (ctx : Nat) (xs : List Nat) : Prop :=
  (∀ x ∈ xs, ∃ e, s.mapping ctx x = some e ∧ e.2.mkind = 0)
  ∧ (xs.map fun x => (s.mapping ctx x).map fun e => cellOf (e.2.loc x)).Nodup

/-- Only this core's L1 and the group's own state may differ. -/
def MemorySame (s t : State) : Prop := t.mem = s.mem ∧ t.ext = s.ext ∧ t.wgs = s.wgs ∧ t.poison = s.poison

/-- A comparison of two integers of one width, as R194 lists them. -/
def isetHolds {n : Nat} (c : Cmp) (signed : Bool) (a b : BitVec n) : Bool :=
  let lt := if signed then a.slt b else a.ult b
  match c with
  | .eq => a == b | .ne => a != b | .lt => lt | .le => lt || a == b | .gt => !lt && a != b | .ge => !lt
  | .num | .nan => false

/-- The L1 list of a core has one entry for each place. -/
def L1Ok (s : State) (core : Nat) : Prop := canonical none (s.core core).l1 = true

/-- Bytes of device memory after a write of some bytes at consecutive physical addresses. -/
def physWrote (s t : State) (a : Nat) (bs : List Byte) : Prop :=
  (∀ i, i < bs.length → (∀ j, i < j → j < bs.length → canonicalDev (a + j) ≠ canonicalDev (a + i)) →
    look 0 t.mem (canonicalDev (a + i)) = bs.getD i 0)
  ∧ ∀ k, (∀ i, i < bs.length → k ≠ canonicalDev (a + i)) → look 0 t.mem k = look 0 s.mem k

end Sys2Proof
end

