-- ==== Sys2Proof/Certificates/Slice0/Obligations.lean ====
section
/-! DEFINITION. The statements for the provers. Each says in its docstring which rules of spec/ it formalises,
or that it is derived. -/

open Sys2Proof Sys2Proof.Machine

/-! ## Groups 0x1 to 0x7: arithmetic -/

/-- R190: IADD and ISUB wrap to the type's width, or clamp to its range under `.sat`, in every operand form, and
change nothing but D, the pouch and the lane unit. -/
def Obligations.AddSub : Prop :=
  ∀ (o : Op) (t : Ty) (s : State),
    (t.regs = 1 →
      Completes32 s (.iadd o t false) o (fun l => s.word .int o.a l + s.word .int o.b l)
      ∧ Completes32 s (.isub o t false) o (fun l => s.word .int o.a l - s.word .int o.b l))
    ∧ (t = .i32 →
      Completes32 s (.iadd o t true) o (fun l => BitVec.ofInt 32 (max (-2147483648) (min 2147483647
        ((s.word .int o.a l).toInt + (s.word .int o.b l).toInt))))
      ∧ Completes32 s (.isub o t true) o (fun l => BitVec.ofInt 32 (max (-2147483648) (min 2147483647
        ((s.word .int o.a l).toInt - (s.word .int o.b l).toInt)))))
    ∧ (t = .n32 →
      Completes32 s (.iadd o t true) o (fun l => BitVec.ofNat 32 (min 4294967295
        ((s.word .int o.a l).toNat + (s.word .int o.b l).toNat)))
      ∧ Completes32 s (.isub o t true) o (fun l => BitVec.ofNat 32
        ((s.word .int o.a l).toNat - (s.word .int o.b l).toNat)))
    ∧ (t.regs = 2 →
      Completes64 s (.iadd o t false) o (fun l => s.dword o.a l + s.dword o.b l)
      ∧ Completes64 s (.isub o t false) o (fun l => s.dword o.a l - s.dword o.b l))
    ∧ (t = .i64 →
      Completes64 s (.iadd o t true) o (fun l => BitVec.ofInt 64 (max (-2 ^ 63) (min (2 ^ 63 - 1)
        ((s.dword o.a l).toInt + (s.dword o.b l).toInt))))
      ∧ Completes64 s (.isub o t true) o (fun l => BitVec.ofInt 64 (max (-2 ^ 63) (min (2 ^ 63 - 1)
        ((s.dword o.a l).toInt - (s.dword o.b l).toInt)))))
    ∧ (t = .n64 →
      Completes64 s (.iadd o t true) o (fun l => BitVec.ofNat 64 (min (2 ^ 64 - 1)
        ((s.dword o.a l).toNat + (s.dword o.b l).toNat)))
      ∧ Completes64 s (.isub o t true) o (fun l => BitVec.ofNat 64
        ((s.dword o.a l).toNat - (s.dword o.b l).toNat)))

/-- R191, R192, R193: the multiplying forms keep the named half of the exact product or sum; minimum, maximum,
absolute value and negation in every width; LEA adds B, zero-extended and shifted, to the pair A. -/
def Obligations.IntegerForms : Prop :=
  (∀ (o : Op) (t : Ty) (s : State),
     (t.regs = 1 →
       Completes32 s (.imul o t) o (fun l => s.word .int o.a l * s.word .int o.b l)
       ∧ Completes32 s (.imad o t) o (fun l =>
           s.word .int o.a l * s.word .int o.b l + s.word .int o.d l))
     ∧ (t.regs = 2 →
       Completes64 s (.imul o t) o (fun l => s.dword o.a l * s.dword o.b l)
       ∧ Completes64 s (.imad o t) o (fun l => s.dword o.a l * s.dword o.b l + s.dword o.d l))
     ∧ Completes32 s (.imulh o .i32) o (fun l =>
         ((s.word .int o.a l).signExtend 64 * (s.word .int o.b l).signExtend 64).extractLsb' 32 32)
     ∧ Completes32 s (.imulh o .n32) o (fun l =>
         ((s.word .int o.a l).setWidth 64 * (s.word .int o.b l).setWidth 64).extractLsb' 32 32))
  ∧ (∀ (o : Op) (k : BitVec 5) (s : State),
       let a (l : Nat) := s.word .int o.a l
       let b (l : Nat) := s.word .int o.b l
       let a2 (l : Nat) := s.dword o.a l
       let b2 (l : Nat) := s.dword o.b l
       Completes32 s (.imin o .i32) o (fun l => if (a l).sle (b l) then a l else b l)
       ∧ Completes32 s (.imin o .n32) o (fun l => if (a l).ule (b l) then a l else b l)
       ∧ Completes64 s (.imin o .i64) o (fun l => if (a2 l).sle (b2 l) then a2 l else b2 l)
       ∧ Completes64 s (.imin o .n64) o (fun l => if (a2 l).ule (b2 l) then a2 l else b2 l)
       ∧ Completes32 s (.imax o .i32) o (fun l => if (a l).sle (b l) then b l else a l)
       ∧ Completes32 s (.imax o .n32) o (fun l => if (a l).ule (b l) then b l else a l)
       ∧ Completes64 s (.imax o .i64) o (fun l => if (a2 l).sle (b2 l) then b2 l else a2 l)
       ∧ Completes64 s (.imax o .n64) o (fun l => if (a2 l).ule (b2 l) then b2 l else a2 l)
       ∧ Completes32 s (.iabs o .i32) o (fun l => if (a l).msb then -(a l) else a l)
       ∧ Completes64 s (.iabs o .i64) o (fun l => if (a2 l).msb then -(a2 l) else a2 l)
       ∧ Completes32 s (.ineg o .i32) o (fun l => -(a l))
       ∧ Completes64 s (.ineg o .i64) o (fun l => -(a2 l))
       ∧ Completes64 s (.lea o k) o (fun l => a2 l + ((b l).setWidth 64 <<< k.toNat)))

/-- R203 (and R194, R186, R202 as far as they say what is written): ISET, PLOP and V2P write the bit of each
performing lane, and no other; P2V writes the predicate as 1 or 0. -/
def Obligations.PredicateForms : Prop :=
  ∀ (o : Op) (c : Cmp) (tbl : BitVec 4) (s : State),
    c ≠ .num → c ≠ .nan →
    CompletesP s (.iset o .i32 c) o (fun l => isetHolds c true (s.word .int o.a l) (s.word .int o.b l))
    ∧ CompletesP s (.iset o .n32 c) o (fun l => isetHolds c false (s.word .int o.a l) (s.word .int o.b l))
    ∧ CompletesP s (.iset o .i64 c) o (fun l => isetHolds c true (s.dword o.a l) (s.dword o.b l))
    ∧ CompletesP s (.iset o .n64 c) o (fun l => isetHolds c false (s.dword o.a l) (s.dword o.b l))
    ∧ CompletesP s (.plop o tbl) o (fun l =>
        match s.pred o.a l, s.pred o.b l with
        | false, false => tbl.getLsbD 0 | false, true => tbl.getLsbD 1
        | true, false => tbl.getLsbD 2 | true, true => tbl.getLsbD 3)
    ∧ CompletesP s (.v2p o) o (fun l => s.word .int o.a l != 0)
    ∧ Completes32 s (.p2v o) o (fun l => if s.pred o.a l then 1 else 0)

/-- R196 (and R195, R197 as far as they say what AND to TRIBIT write): bitwise forms, shifts, counts and reversal. A
shift by 32 or more empties the word, SAR fills it with the sign, ROTL takes the amount modulo 32. -/
def Obligations.LogicForms : Prop :=
  (∀ (o : Op) (tbl : BitVec 8) (s : State),
     let a (l : Nat) := s.word .int o.a l
     let b (l : Nat) := s.word .int o.b l
     let d (l : Nat) := s.word .int o.d l
     Completes32 s (.and o) o (fun l => a l &&& b l)
     ∧ Completes32 s (.or o) o (fun l => a l ||| b l)
     ∧ Completes32 s (.xor o) o (fun l => a l ^^^ b l)
     ∧ Completes32 s (.not o) o (fun l => ~~~(a l))
     ∧ ∃ f, Completes32 s (.tribit o tbl) o f ∧ ∀ l i, i < 32 → (f l).getLsbD i =
         tbl.getLsbD (((a l).getLsbD i).toNat + 2 * ((b l).getLsbD i).toNat + 4 * ((d l).getLsbD i).toNat))
  ∧ (∀ (o : Op) (s : State),
       let a (l : Nat) := s.word .int o.a l
       let b (l : Nat) := s.word .int o.b l
       Completes32 s (.shl o) o (fun l => a l <<< (b l).toNat)
       ∧ Completes32 s (.shr o) o (fun l => a l >>> (b l).toNat)
       ∧ Completes32 s (.sar o) o (fun l => (a l).sshiftRight (b l).toNat)
       ∧ Completes32 s (.rotl o) o (fun l =>
           a l <<< ((b l).toNat % 32) ||| a l >>> (32 - (b l).toNat % 32))
       ∧ Completes32 s (.popc o) o (fun l =>
         BitVec.ofNat 32 ((List.range 32).filter fun i => (a l).getLsbD i).length)
       ∧ (∃ f, Completes32 s (.clz o) o f ∧ ∀ l, (f l).toNat ≤ 32
           ∧ (∀ i, i < (f l).toNat → (a l).getLsbD (31 - i) = false)
           ∧ ((f l).toNat < 32 → (a l).getLsbD (31 - (f l).toNat) = true))
       ∧ (∃ f, Completes32 s (.brev o) o f ∧ ∀ l i, i < 32 → (f l).getLsbD i = (a l).getLsbD (31 - i)))

/-- R198, R199: BFE and BFI on the field that B names, BYSEL's bytes of d:a. -/
def Obligations.BitFields : Prop :=
  ∀ (o : Op) (s : State),
    let a (l : Nat) := s.word .int o.a l
    let b (l : Nat) := s.word .int o.b l
    let d (l : Nat) := s.word .int o.d l
    let pos (l : Nat) := min ((b l).toNat % 256) 32
    let len (l : Nat) := min ((b l).toNat / 256 % 256) (32 - pos l)
    (∃ f, Completes32 s (.bfe o .n32) o f ∧ ∀ l i, i < 32 →
        (f l).getLsbD i = (decide (i < len l) && (a l).getLsbD (pos l + i)))
    ∧ (∃ f, Completes32 s (.bfe o .i32) o f ∧ ∀ l i, i < 32 →
        (f l).getLsbD i = if len l = 0 then false else (a l).getLsbD (pos l + min i (len l - 1)))
    ∧ (∃ f, Completes32 s (.bfi o) o f ∧ ∀ l i, i < 32 →
        (f l).getLsbD i = if pos l ≤ i ∧ i < pos l + len l then (a l).getLsbD (i - pos l) else (d l).getLsbD i)
    ∧ ∃ f, Completes32 s (.bysel o) o f ∧ ∀ l k, k < 4 →
        let c := (b l).extractLsb' (8 * k) 8
        let x := (d l ++ a l).extractLsb' (8 * (c.toNat % 8)) 8
        (f l).extractLsb' (8 * k) 8 =
          if c.getLsbD 7 then 0 else if c.getLsbD 6 then (if x.getLsbD 7 then 0xFF else 0) else x

/-- R200 to R205, R235, R137, R166 (derived): the moves between registers; SRD reads every special register; SWR
writes bits 5:0 of its source to SR.FPX when some lane performs it. A uniform SEL takes Pk as true where some lane of
the issuing mask has it, its guard removing none (R88). -/
def Obligations.MoveForms : Prop :=
  (∀ (o : Op) (x : Word) (k : BitVec 4) (s : State),
     Completes32 s (.mov o false) o (fun l => s.word .int o.a l)
     ∧ Completes64 s (.mov o true) o (fun l => s.dword o.a l)
     ∧ Completes32 s (.movi o x) o (fun _ => x)
     ∧ (isUniform (.sel o k) = false → Completes32 s (.sel o k) o (fun l =>
         if s.me.readP k.toNat l then s.word .int o.a l else s.word .int o.b l))
     ∧ (isUniform (.sel o k) = true → Completes32 s (.sel o k) o (fun l =>
         if (lanesOf s.cur.mask).any fun m => s.me.readP k.toNat m then s.word .int o.a l
         else s.word .int o.b l))
     ∧ Completes32 s (.bcast o) o (fun _ => s.uword o.a)
     ∧ Completes32 s (.laneget o) o (fun _ =>
         s.word .int o.a ((s.uword o.b).toNat % s.me.width))
     ∧ Completes32 s (.pget o) o (fun l => BitVec.ofNat 32 (look 0 s.me.planes l)))
  ∧ (∀ (o : Op) (r : SReg) (s : State),
       (o.a = .sr r →
         (r.wide = false → Completes32 s (.srd o) o (fun l => (s.readSr r l).setWidth 32))
         ∧ (r.wide = true → Completes64 s (.srd o) o (fun l => s.readSr r l)))
       ∧ Next (exec (.swr o) s) fun t =>
           KeptRegs s.me t.me ∧ t.me.fpx = (if s.act o = 0 then s.me.fpx else (s.uword o.a).setWidth 6)
           ∧ t.me.inflight = s.me.inflight ∧ t.me.flags = s.me.flags ∧ LaneFrame s t (.swr o) o)

/-- R206 to R211 (derived): the FP32 forms write the value of their operation and raise its flags for the real
lanes, FFMA with one rounding. -/
def Obligations.Fp32Forms : Prop :=
  ∀ (o : Op) (r : Rnd) (c : Cmp) (ftz sat : Bool) (s : State),
    let a (l : Nat) := s.word .f32 o.a l
    let b (l : Nat) := s.word .f32 o.b l
    let d (l : Nat) := s.word .f32 o.d l
    let form (i : Instr) (f : Nat → Word × Fpx) : Prop :=
      Completes s i o (fun g h => Wrote32 g h o.d (s.act o) fun l => (f l).1) fun l => (f l).2
    form (.fadd o r ftz sat) (fun l => fpAdd .f32 r ftz sat false (a l) (b l))
    ∧ form (.fsub o r ftz sat) (fun l => fpAdd .f32 r ftz sat true (a l) (b l))
    ∧ form (.fmul o r ftz sat) (fun l => fpMul .f32 r ftz sat (a l) (b l))
    ∧ form (.ffma o r ftz sat) (fun l => fpFma .f32 r ftz sat (a l) (b l) (d l))
    ∧ form (.fmin o ftz) (fun l => fpMinMax .f32 ftz false (a l) (b l))
    ∧ form (.fmax o ftz) (fun l => fpMinMax .f32 ftz true (a l) (b l))
    ∧ form (.fclass o ftz) (fun l => fpClass ftz (a l))
    ∧ form (.frnd o r ftz) (fun l => fpRound r ftz (a l))
    ∧ Completes s (.fset o c ftz) o
        (fun g h => WroteP g h o.d (s.act o) fun l => (fpCompare .f32 c ftz (a l) (b l)).1)
        fun l => (fpCompare .f32 c ftz (a l) (b l)).2

/-- R212 (derived): a packed form works on both halves, each by itself, and raises the flags of both. -/
def Obligations.PackedForms : Prop :=
  ∀ (o : Op) (t : Ty) (r : Rnd) (c : Cmp) (ftz sat : Bool) (s : State),
    let x (y : Operand) (k l : Nat) : Word := ((s.word .half y l).extractLsb' (16 * k) 16).setWidth 32
    let form (i : Instr) (f : Nat → Nat → Word × Fpx) : Prop :=
      ∃ w : Nat → Word, Completes s i o (fun g h => Wrote32 g h o.d (s.act o) w)
          (fun l => (f 0 l).2 ||| (f 1 l).2)
        ∧ ∀ l k, k < 2 → (w l).extractLsb' (16 * k) 16 = (f k l).1.setWidth 16
    form (.hadd2 o t r ftz sat) (fun k l => fpAdd (fmtOf t) r ftz sat false (x o.a k l) (x o.b k l))
    ∧ form (.hmul2 o t r ftz sat) (fun k l => fpMul (fmtOf t) r ftz sat (x o.a k l) (x o.b k l))
    ∧ form (.hfma2 o t r ftz sat) (fun k l =>
        fpFma (fmtOf t) r ftz sat (x o.a k l) (x o.b k l) (x o.d k l))
    ∧ form (.hmin2 o t ftz) (fun k l => fpMinMax (fmtOf t) ftz false (x o.a k l) (x o.b k l))
    ∧ form (.hmax2 o t ftz) (fun k l => fpMinMax (fmtOf t) ftz true (x o.a k l) (x o.b k l))
    ∧ form (.hset2 o t c ftz) (fun k l =>
        let y := fpCompare (fmtOf t) c ftz (x o.a k l) (x o.b k l)
        (if y.1 then 0xFFFF else 0, y.2))

/-- R213 to R216 (derived): conversions, TPACK and TUNPK; a conversion from an integer type to an integer type, of any
width and sign, wraps to the destination, or clamps to its range under `.sat`, and raises no flag. -/
def Obligations.ConversionForms : Prop :=
  (∀ (o : Op) (dt st t : Ty) (r : Rnd) (ftz sat : Bool) (s : State),
     let a (l : Nat) : DWord :=
       if st.regs = 2 then s.dword o.a l
       else (s.word (if st = .f32 then .f32 else .int) o.a l).setWidth 64
     let f (l : Nat) := convert dt st r ftz sat (a l)
     Completes s (.cvt o dt st r ftz sat) o
       (fun g h => if dt.regs = 2 then Wrote64 g h o.d (s.act o) (fun l => (f l).1)
         else Wrote32 g h o.d (s.act o) fun l => (f l).1.setWidth 32) (fun l => (f l).2)
     ∧ Completes s (.tpack o t) o
       (fun g h => Wrote32 g h o.d (s.act o) fun l =>
         (tapPack t (s.word .f32 o.a l) (s.word .f32 o.b l) (s.word .f32 o.d l)).1)
       (fun l => (tapPack t (s.word .f32 o.a l) (s.word .f32 o.b l) (s.word .f32 o.d l)).2)
     ∧ Completes32 s (.tunpk o t) o fun l => tapUnpack t (s.word .int o.a l) (s.word .int o.b l))
  ∧ (∀ (dt st : Ty) (r : Rnd) (ftz : Bool) (x : DWord),
       let n := tyBits dt
       let v : Int := if Ty.signed st then (x.setWidth (tyBits st)).toInt else (x.setWidth (tyBits st)).toNat
       let lo : Int := if Ty.signed dt then -2 ^ (n - 1) else 0
       let hi : Int := if Ty.signed dt then 2 ^ (n - 1) - 1 else 2 ^ n - 1
       let fit (k : Int) : DWord :=
         if Ty.signed dt then (BitVec.ofInt n k).signExtend 64 else (BitVec.ofInt n k).setWidth 64
       dt.isInt = true → st.isInt = true →
       convert dt st r ftz false x = (fit v, 0) ∧ convert dt st r ftz true x = (fit (max lo (min hi v)), 0))

/-- R217, R218 (derived): the special functions put their result in flight, to land later, and raise the named
completion flags now. -/
def Obligations.SpecialFunctions : Prop :=
  ∀ (o : Op) (ftz : Bool) (s : State),
    let form (i : Instr) (fn : FpVal → FpVal × Fpx) : Prop :=
      let f (l : Nat) : Word × Fpx :=
        let x := readFp .f32 ftz (s.word .f32 o.a l)
        finishFp .f32 .rn ftz false (fn x.1) x.2
      Posts s i o (fun g h => Wrote32 g h o.d (s.act o) fun l => (f l).1) fun l => (f l).2
    form (.rcp o ftz) rcpFn ∧ form (.rsq o ftz) rsqFn ∧ form (.sqrt o ftz) sqrtFn ∧ form (.log2 o ftz) log2Fn
    ∧ form (.exp2 o ftz) exp2Fn ∧ form (.sinpi o ftz) sinpiFn ∧ form (.cospi o ftz) cospiFn
    ∧ form (.tanh o ftz) tanhFn

/-! ## Group 0x8: exchange -/

/-- R220 to R223 (derived): QSWAP, QBCAST and SHFL bring each performing lane the value of A in its source lane, or
its own where that lane takes no part; VOTE, BALLOT and MATCH judge the real participants and give every performing
lane the result. -/
def Obligations.LaneExchange : Prop :=
  (∀ (o : Op) (dir : QDir) (m : ShflMode) (s : State),
     let form (i : Instr) (src : Nat → Nat) : Prop :=
       Posts s i o (fun g h => Wrote32 g h o.d (s.act o) fun l =>
         if src l < s.me.width ∧ (s.act o).getLsbD (src l) then s.word .int o.a (src l) else s.word .int o.a l)
         fun _ => 0
     let b (l : Nat) : Nat := (s.word .int o.b l).toNat
     form (.qswap o dir) (fun l => l ^^^ (match dir with | .x => 1 | .y => 2 | .xy => 3))
     ∧ form (.qbcast o) (fun l => l / 4 * 4 + (s.uword o.b).toNat % 4)
     ∧ form (.shfl o m) (fun l =>
         match m with
         | .idx => b l
         | .up => if b l ≤ l then l - b l else 64
         | .down => l + b l
         | .xor => if b l < 64 then l ^^^ b l else 64))
  ∧ (∀ (o : Op) (s : State),
       let real := lanesOf (s.realAct o)
       let vote (k : VoteKind) (v : Bool) : Prop :=
         Posts s (.vote o k) o (fun g h => WroteP g h o.d (s.act o) fun _ => v) fun _ => 0
       vote .all (real.all fun l => s.pred o.a l)
       ∧ vote .any (real.any fun l => s.pred o.a l)
       ∧ vote .eq ((real.all fun l => s.pred o.a l) || real.all fun l => !s.pred o.a l)
       ∧ (∃ x : DWord, Posts s (.ballot o) o (fun g h => Wrote64 g h o.d (s.act o) fun _ => x) (fun _ => 0)
           ∧ ∀ l, l < 64 → x.getLsbD l = ((s.realAct o).getLsbD l && s.pred o.a l))
       ∧ ∃ f : Nat → DWord,
           Posts s (.matchLanes o) o (fun g h => Wrote64 g h o.d (s.act o) f) (fun _ => 0)
           ∧ ∀ l m, m < 64 → (f l).getLsbD m =
               ((s.realAct o).getLsbD m && s.word .int o.a m == s.word .int o.a l))

/-- R223 to R226 (derived): REDGRP and SCANGRP put one result in flight; over integers it is the reduction of the
real participants, and of those up to or below the lane. -/
def Obligations.Reductions : Prop :=
  ∀ (o : Op) (op : RedOp) (sop : AddMinMax) (exc : Bool) (t : Ty) (s : State),
    let xs := (lanesOf (s.realAct o)).map fun l => (l, s.word .int o.a l)
    let r := reduce op t xs
    let fold (ys : List (Nat × Word)) : Word := ys.foldl (fun x y =>
      match sop with
      | .add => x + y.2
      | .min => if t = .i32 then (if x.sle y.2 then x else y.2) else (if x.ule y.2 then x else y.2)
      | .max => if t = .i32 then (if x.sle y.2 then y.2 else x) else (if x.ule y.2 then y.2 else x))
      (emptyRed (scanRed sop) t)
    Posts s (.redgrp o op t) o
      (fun g h => if op = .minix ∨ op = .maxix then Wrote64 g h o.d (s.act o) fun _ => r.2.1 ++ r.1
        else Wrote32 g h o.d (s.act o) fun _ => r.1) (fun _ => if s.realAct o = 0 then 0 else r.2.2)
    ∧ (t ≠ .f32 → op = .add → r.1 = (xs.map (·.2)).sum)
    ∧ ∃ (f : Nat → Word) (e : Fpx),
        Posts s (.scangrp o sop exc t) o (fun g h => Wrote32 g h o.d (s.act o) f)
          (fun _ => if s.realAct o = 0 then 0 else e)
        ∧ (t = .i32 ∨ t = .n32 → ∀ l, (s.act o).getLsbD l →
            f l = fold (xs.filter fun x => if exc then x.1 < l else x.1 ≤ l))

/-! ## Group 0x0: transfers and planes -/

/-- R29, R33, R34, R37, R227 to R229, R234, R235 (derived): after the last plane issue of an offset every lane of
the split stands where its own transfer sends it: NOP and YIELD on to the next word, BRA to o + 4 v, EXIT nowhere;
PSET and PSETI give each performing lane its plane number modulo 4, from the end of the offset on. -/
def Obligations.DirectForms : Prop :=
  (∀ (o : Op) (h : Hints) (v : BitVec 20) (s : State),
     LastPlane s →
     Next (exec (.nop h) s) (fun t => LanesGo s t (otherwise s) ∧ TransferFrame s t)
     ∧ Next (exec (.yield o) s) (fun t => LanesGo s t (otherwise s) ∧ TransferFrame s t)
     ∧ (o.a = .imm v → Next (exec (.bra o) s) fun t =>
         LanesGo s t (fun l => if (s.act o).getLsbD l
           then .to s.mySplit.region (branchOffset s.mySplit.offset v) else otherwise s l)
         ∧ TransferFrame s t)
     ∧ ((s.core (coreOf s.cur.group)).latch = none → Next (exec (.exit o) s) fun t =>
         LanesGo s t (fun l => if (s.act o).getLsbD l then .gone else otherwise s l)
         ∧ (∀ l, l < 64 → s.mySplit.mask.getLsbD l → (s.act o).getLsbD l → t.me.exited.getLsbD l = true)
         ∧ TransferFrame s t))
  ∧ (∀ (o : Op) (v : BitVec 20) (s : State),
       LastPlane s →
       Next (exec (.pset o) s) (fun t =>
         LanesGo s t (otherwise s) ∧ TransferFrame s t
         ∧ ∀ l, l < 64 → s.mySplit.mask.getLsbD l → (s.act o).getLsbD l →
           look 0 t.me.planes l = (s.word .int o.a l).toNat % 4)
       ∧ (o.a = .imm v → Next (exec (.pseti o) s) fun t =>
         LanesGo s t (otherwise s) ∧ TransferFrame s t
         ∧ ∀ l, l < 64 → s.mySplit.mask.getLsbD l → (s.act o).getLsbD l →
           look 0 t.me.planes l = v.toNat % 4))

/-- R228, R230 to R232 (derived): CALL sends its lanes to its target and pushes the next word on their link stacks;
RET sends them to the top of theirs and pops it; BRX and CALLX send each lane to the word its target locates, once
every lane's target passes every check, CALLX pushing the next word and BRX leaving the link stacks as they are. -/
def Obligations.StackForms : Prop :=
  ∀ (s : State),
  -- the link stacks of the lanes that the plane issue does not send anywhere
  let others (o : Op) (t : State) : Prop :=
    Fresh s → ∀ l, l < 64 → (s.act o).getLsbD l = false → look [] t.me.links l = look [] s.me.links l
  let pushed (o : Op) (t : State) : Prop :=
    (∀ l, l < 64 → (s.act o).getLsbD l →
      look [] t.me.links l = ⟨s.mySplit.region, s.mySplit.offset + 12⟩ :: look [] s.me.links l)
    ∧ others o t
  (∀ (o : Op) (v : BitVec 20) (r off : Nat),
     LastPlane s →
     (o.a = .imm v → s.callTarget v = some (r, off) → s.fullLinks (lanesOf (s.act o)) = [] →
       Next (exec (.call o) s) fun t =>
         LanesGo s t (fun l => if (s.act o).getLsbD l then .to r off else otherwise s l)
         ∧ TransferFrame s t ∧ pushed o t)
     ∧ ((∀ l, l < 64 → (s.act o).getLsbD l → look [] s.me.links l ≠ []) →
       Next (exec (.ret o) s) fun t =>
         LanesGo s t (fun l => if (s.act o).getLsbD l
           then .to ((look [] s.me.links l).headD default).region ((look [] s.me.links l).headD default).offset
           else otherwise s l)
         ∧ TransferFrame s t
         ∧ (∀ l, l < 64 → (s.act o).getLsbD l → look [] t.me.links l = (look [] s.me.links l).tail)
         ∧ others o t))
  ∧ (∀ (o : Op),
       LastPlane s → (∀ l ∈ lanesOf (s.act o), s.targetFails o l = none) →
       let place (l : Nat) := ((s.launch s.me.launch).locate (s.target o l)).getD (0, 0)
       let go (l : Nat) : Dest :=
         if (s.act o).getLsbD l then .to (place l).1 (place l).2 else otherwise s l
       Next (exec (.brx o) s) (fun t => LanesGo s t go ∧ TransferFrame s t
         ∧ (∀ l, l < 64 → (s.act o).getLsbD l → look [] t.me.links l = look [] s.me.links l)
         ∧ (Fresh s → t.me.links = s.me.links))
       ∧ (s.fullLinks (lanesOf (s.act o)) = [] →
           Next (exec (.callx o) s) fun t => LanesGo s t go ∧ TransferFrame s t ∧ pushed o t))

/-- R230 to R232, R240, R426 (derived): a CALL that locates no word, an indirect transfer with a lane that fails a
check, a call onto a full link stack and a RET from an empty one trap with their code, detail and mask, and move no
lane; the first fault of the lanes' checks in R426's order is the trap that every access form takes, with the mask of
the lanes that fail by it (of a single access, of all), the address of the first of them, and no lane's access made. -/
def Obligations.AddressTraps : Prop :=
  (∀ (o : Op) (v : BitVec 20) (r off : Nat) (s : State),
     let badTarget (i : Instr) : Prop := ∀ l n,
       (lanesOf (s.act o)).find? (fun l => (s.targetFails o l).isSome) = some l → s.targetFails o l = some n →
       ∃ m, exec i s = .next (s.trap { code := 11, detail := n, mask := m })
         ∧ ∀ k, k < 64 → (m.getLsbD k = true ↔ (s.act o).getLsbD k = true
            ∧ (o.a.isS = true ∨ (s.targetFails o k).isSome = true))
     let depth (i : Instr) (bad : Nat → Prop) : Prop :=
       (∃ l, l < 64 ∧ (s.act o).getLsbD l = true ∧ bad l) →
       ∃ m, exec i s = .next (s.trap { code := 12, mask := m })
         ∧ ∀ l, l < 64 → (m.getLsbD l = true ↔ (s.act o).getLsbD l = true ∧ bad l)
     (o.a = .imm v → s.act o ≠ 0 → s.callTarget v = none →
       exec (.call o) s = .next (s.trap { code := 11, detail := 3, mask := s.act o }))
     ∧ (o.a = .imm v → s.callTarget v = some (r, off) → depth (.call o) fun l => 16 ≤ (look [] s.me.links l).length)
     ∧ badTarget (.brx o) ∧ badTarget (.callx o)
     ∧ ((∀ l ∈ lanesOf (s.act o), s.targetFails o l = none) →
       depth (.callx o) fun l => 16 ≤ (look [] s.me.links l).length)
     ∧ depth (.ret o) fun l => look [] s.me.links l = [])
  ∧ (∀ (o : Op) (w : Width) (lw : LoadW) (k : BitVec 4) (ord : Ord) (sc : Scope) (op : AtomOp) (fop : AddMinMax) (t : Ty)
       (e : BitVec 8) (wide : Bool) (c : Nat) (s : State),
       let traps (i : Instr) (single : Bool) (cs : List (Nat × Nat × Chk)) : Prop :=
         (∃ x ∈ cs, x.2.2 = .fault c) → (∀ x ∈ cs, ∀ d, x.2.2 = .fault d → c ≤ d) →
         ∃ u : Trap, exec i s = .next ((s.pay i).trap u) ∧ u.code = c ∧ u.done = false
           ∧ u.detail = (if c = 7 then s.stackBytes s.me else 0)
           ∧ u.addr = ((cs.find? fun x => x.2.2 == .fault c).map (·.2.1)).getD 0
           ∧ (single = true → u.mask = s.act o)
           ∧ (single = false → ∀ l, l < 64 → (u.mask.getLsbD l = true ↔ ∃ a, (l, a, .fault c) ∈ cs))
       let at' (single : Bool) (a : Acc) (n : Nat) (addr : Nat → Nat) : List (Nat × Nat × Chk) :=
         s.checks a n (accessLanes single (s.act o) s.me.real) addr
       let loads := !o.a.isV
       let stores := storeSingle o
       let n := lw.width.bytes
       let atomN := 4 * t.regs
       traps (.ld o lw) loads (at' loads (.load false) n (s.address o.a o.b))
       ∧ traps (.ldnr o lw k) loads ((at' loads (.load false) n (s.address o.a o.b)).map fun x =>
           (x.1, x.2.1, noResident x.2.1 n (s.mapping s.me.ctx x.2.1).isSome x.2.2))
       ∧ traps (.lds o w ord sc) loads (at' loads (.load (peerForm w sc)) w.bytes (s.address o.a o.b))
       ∧ traps (.st o w) stores (at' stores (.store false) w.bytes (s.address o.a o.b))
       ∧ traps (.sts o w ord sc) stores (at' stores (.store (peerForm w sc)) w.bytes (s.address o.a o.b))
       ∧ traps (.tld o w) false (s.windowChecks o (.load false) w.bytes)
       ∧ traps (.tst o w) false (s.windowChecks o (.store false) w.bytes)
       ∧ traps (.atom o op t ord sc e) (atomSingle o)
           (at' (atomSingle o) (.rmw (op = .add || op = .exch)) atomN (s.atomAddr o e))
       ∧ traps (.atomcas o wide ord sc e) (atomSingle o)
           (at' (atomSingle o) (.rmw true) (if wide then 8 else 4) (s.atomAddr o e))
       ∧ traps (.atomf o fop t ord sc e) (atomSingle o)
           (at' (atomSingle o) (.rmw false) (if t = .f32 then 4 else 2) (s.atomAddr o e)))

/-! ## Groups 0x9 and 0xA: memory -/

/-- R121, R122, R236 to R239 (derived): LD and LDNR put in flight the registers of each lane as the core's weak
loads see memory, extended as the width says, zeros where no access is made; LDNR also the predicate of R242. No
memory changes where no byte is poisoned and no error has struck the core's copies. -/
def Obligations.WeakLoads : Prop :=
  ∀ (o : Op) (w : LoadW) (k : BitVec 4) (regs : Nat) (s : State),
    let n := w.width.bytes
    let core := coreOf s.cur.group
    let single := !o.a.isV
    let lanes := accessLanes single (s.act o) s.me.real
    let cs := s.checks (.load false) n lanes (s.address o.a o.b)
    let value (c : Chk) : List Word :=
      match c with
      | .at l => loadWords w (bytesAt (weakByte s core) l n) (List.replicate n false)
      | _ => List.replicate w.width.regs 0
    let writes (e : Nat × Nat × Chk) : List Write :=
      if single then
        (match o.d with
          | .v _ => (lanesOf (s.act o)).flatMap fun m => destTuple o.d m (value e.2.2)
          | _ => destTuple o.d e.1 (value e.2.2))
      else destTuple o.d e.1 (value e.2.2)
    let clean (ds : List (Nat × Nat × Chk)) : Prop :=
      Unstruck s core n ds ∧ ∀ e ∈ ds, ∀ l, e.2.2 = .at l → ∀ i, i < n → s.readPoison core (l.plus i) = false
    let done (ds : List (Nat × Nat × Chk)) (more : List Write) (t : State) : Prop :=
      MemorySame s t ∧ KeptRegs s.me t.me ∧ FlagsRaised s.me t.me o.hints
      ∧ ∃ r : Result, t.me.inflight = s.me.inflight ++ [r] ∧ r.held = false
        ∧ r.writes = ds.flatMap writes ++ more
    let ds := cs.map fun e => (e.1, e.2.1, noResident e.2.1 n (s.mapping s.me.ctx e.2.1).isSome e.2.2)
    (Instr.wf regs (.ld o w) = true → ChecksPass s 1 n cs → clean cs →
      Next (exec (.ld o w) s) (done cs []))
    ∧ (Instr.wf regs (.ldnr o w k) = true → ChecksPass s 1 n ds → clean ds →
      Next (exec (.ldnr o w k) s) (done ds ((lanesOf (s.act o)).map fun l =>
        .p k.toNat l (ds.any fun e => (single || e.1 == l) && (match e.2.2 with | .at _ => true | _ => false)))))

/-- R105, R108, R125, R126, R240, R359 (derived): LDS at `.cl` and wider reads past the core's L1, behind the core's own
stores; at `.wg` and narrower it reads as LD does. A lane that reads a peer register has a request at the port for it,
and its registers wait for the reply. -/
def Obligations.StrongLoads : Prop :=
  ∀ (o : Op) (w : Width) (ord : Ord) (sc : Scope) (regs : Nat) (s : State),
    let core := coreOf s.cur.group
    let lanes := accessLanes (!o.a.isV) (s.act o) s.me.real
    let cs := s.checks (.load (peerForm w sc)) w.bytes lanes (s.address o.a o.b)
    let see : Loc → Byte := match howOf sc with | .l1 => weakByte s core | .poc => strongByte s core
    let value (c : Chk) : List Word :=
      match c with
      | .at l => loadWords (.plain w) (bytesAt see l w.bytes) (List.replicate w.bytes false)
      | _ => List.replicate w.regs 0
    let writes (l : Nat) (xs : List Word) : List Write :=
      match o.a, o.d with
      | .v _, _ => destTuple o.d l xs
      | _, .v _ => (lanesOf (s.act o)).flatMap fun m => destTuple o.d m xs
      | _, _ => destTuple o.d l xs
    let peer (c : Chk) : Prop := ∃ k, c = .at (.mmio k)
    Instr.wf regs (.lds o w ord sc) = true → ChecksPass s 1 w.bytes cs → Unstruck s core w.bytes cs →
    (∀ e ∈ cs, ∀ l, e.2.2 = .at l → ∀ i, i < w.bytes →
      s.readPoison core (l.plus i) = false ∧ (howOf sc = .poc → s.poisoned (l.plus i) = false)) →
    (howOf sc = .poc → ∀ e ∈ cs, ∀ l, e.2.2 = .at l → ∀ i, i < w.bytes → overLink (l.plus i) = true →
      s.stored core (l.plus i) = none) →
    Next (exec (.lds o w ord sc) s) fun t =>
      KeptRegs s.me t.me ∧ FlagsRaised s.me t.me o.hints
      ∧ (ord = .rlx → ∀ x, (∀ k, x ≠ .mmio k) → overLink x = false → strongByte t core x = strongByte s core x)
      ∧ ∃ (r : Result) (v : Nat × Nat × Chk → List Word),
        t.me.inflight = s.me.inflight ++ [r] ∧ r.held = false
        ∧ r.writes = cs.flatMap (fun e => writes e.1 (v e))
        ∧ (∀ e ∈ cs, ¬ peer e.2.2 → v e = value e.2.2)
        ∧ ∀ e ∈ cs, ∀ k, e.2.2 = .at (.mmio k) →
          ∃ q ∈ t.port.out, q.tag ∈ r.await ∧ q.kind = .register w.bytes ∧ q.addr = k
            ∧ q.regs = writes e.1 (v e)

/-- R121, R239, R241, R245 (derived): after ST or TST every byte reads, to the issuing core, as the last lane that
stores there left it, and every other byte as before; what other cores see of global memory has not changed (but
where a handler's stack lies among peer registers, which nothing here speaks of). -/
def Obligations.WeakStores : Prop :=
  ∀ (o : Op) (w : Width) (regs : Nat) (s : State),
    let core := coreOf s.cur.group
    let n := w.bytes
    let data (l : Nat) : List Byte := s.storeData o.d l n
    let lanes := accessLanes (storeSingle o) (s.act o) s.me.real
    let cs := s.checks (.store false) n lanes (s.address o.a o.b)
    let ds := s.windowChecks o (.store false) n
    let done (es : List (Nat × Nat × Chk)) (t : State) : Prop :=
      ((∀ e ∈ es, ∀ k, e.2.2 ≠ .at (.mmio k)) →
        (∀ x, weakByte t core x = (storedByte n data es x).getD (weakByte s core x)) ∧ t.ext = s.ext)
      ∧ t.mem = s.mem ∧ KeptRegs s.me t.me
      ∧ t.me.inflight = s.me.inflight ∧ t.me.flags = s.me.flags
    (Instr.wf regs (.st o w) = true → ChecksPass s 2 n cs → Next (exec (.st o w) s) (done cs))
    ∧ (Instr.wf regs (.tst o w) = true → ChecksPass s 2 n ds → Next (exec (.tst o w) s) (done ds))

/-- R108, R121, R125, R126, R241 (derived): a relaxed STS at `.cl` and wider stores at the points of coherence of what
it names, and leaves every other byte there as it was; one at `.wg` and narrower stores as ST does. A releasing STS
stores and goes on where its release has nothing to wait for, as none narrower than `.sys` has: at `.cl` and wider
every byte's point of coherence then holds what the core's strong loads saw, with its own store after it. Else it
waits for its acknowledgements, and stores when they have come. (What Hevis Link carries may be lost on its way: log
entry 6.) -/
def Obligations.StoreForms : Prop :=
  ∀ (o : Op) (w : Width) (ord : Ord) (sc : Scope) (regs : Nat) (s : State),
    let core := coreOf s.cur.group
    let n := w.bytes
    let data (l : Nat) : List Byte := s.storeData o.d l n
    let lanes := accessLanes (storeSingle o) (s.act o) s.me.real
    let cs := s.checks (.store (peerForm w sc)) n lanes (s.address o.a o.b)
    let i : Instr := .sts o w ord sc
    let kept (t : State) : Prop :=
      KeptRegs s.me t.me ∧ t.me.inflight = s.me.inflight ∧ t.me.flags = s.me.flags
       ∧ (LastPlane s → LanesGo s t (otherwise s))
    -- at the points of coherence, where `base` stood there before
    let wide (base : Loc → Byte) (t : State) : Prop :=
      kept t ∧ ∀ x, (∀ k, x ≠ .mmio k) → overLink x = false → t.peek x = (storedCell n data cs x).getD (base x)
    let narrow (t : State) : Prop :=
      kept t ∧ t.mem = s.mem
      ∧ ((∀ e ∈ cs, ∀ k, e.2.2 ≠ .at (.mmio k)) →
        (∀ x, weakByte t core x = (storedByte n data cs x).getD (weakByte s core x)) ∧ t.ext = s.ext)
    Instr.wf regs i = true → ChecksPass s 2 n cs →
    (howOf sc = .l1 → Next (exec i s) narrow)
    ∧ (howOf sc = .poc →
      (Ord.releases ord = false ∨ s.realAct o = 0 ∨ s.cur.acked = true → Unstruck s core n cs →
        Next (exec i s) (wide s.peek))
      ∧ (Ord.releases ord = true → s.realAct o ≠ 0 → s.cur.acked = false → NoWait s sc → L1Ok s core →
        Next (exec i s) (wide (strongByte s core))))
    ∧ (Ord.releases ord = true → sc = .sys → s.realAct o ≠ 0 → ¬ NoWait s sc → Next (exec i s) (WaitsAcked s))

/-- R244, R245 (derived): TLD puts in flight a zero for each lane outside the window, and for every other what a
weak load of its address sees; PREF changes no register, no memory and nothing a weak load sees. -/
def Obligations.TensorForms : Prop :=
  (∀ (o : Op) (w : Width) (regs : Nat) (s : State),
     let n := w.bytes
     let core := coreOf s.cur.group
     let cs := s.windowChecks o (.load false) n
     let value (c : Chk) : List Word :=
       match c with
       | .at l => loadWords (.plain w) (bytesAt (weakByte s core) l n) (List.replicate n false)
       | _ => List.replicate w.regs 0
     Instr.wf regs (.tld o w) = true → ChecksPass s 1 n cs → Unstruck s core n cs →
     (∀ e ∈ cs, ∀ l, e.2.2 = .at l → ∀ i, i < n → s.readPoison core (l.plus i) = false) →
     Next (exec (.tld o w) s) fun t =>
       MemorySame s t ∧ KeptRegs s.me t.me ∧ FlagsRaised s.me t.me o.hints
       ∧ ∃ r : Result, t.me.inflight = s.me.inflight ++ [r] ∧ r.held = false
         ∧ r.writes = (cs.flatMap fun e => destTuple o.d e.1 (value e.2.2))
           ++ ((lanesOf (s.act o)).filter fun l => (s.windowAddr o n l).isNone).flatMap fun l =>
             destTuple o.d l [0])
  ∧ (∀ (o : Op) (regs : Nat) (s : State),
       Instr.wf regs (.pref o) = true →
       Next (exec (.pref o) s) fun t =>
         KeptRegs s.me t.me ∧ MemorySame s t ∧ t.me.inflight = s.me.inflight ∧ t.me.flags = s.me.flags
         ∧ ∀ x, weakByte t (coreOf s.cur.group) x = weakByte s (coreOf s.cur.group) x)

/-- R103, R126, R247 to R251 (derived): one performance of an atomic on memory of the device reads the bytes at their
point of coherence, behind the core's own stores, writes the new value there, and puts the old one in flight; an
atomic of any ordering and form completes with its named flags raised and one result in flight, once its release, if it
has one, has nothing to wait for; until then it waits for its acknowledgements. -/
def Obligations.AtomicForms : Prop :=
  (∀ (o : Op) (op : AtomOp) (fop : AddMinMax) (t : Ty) (e : BitVec 8) (sc : Scope) (regs : Nat) (l a : Nat)
     (loc : Loc) (s : State),
     let old (n : Nat) : Nat := leNat (bytesAt (strongByte s (coreOf s.cur.group)) loc n)
     let run (i : Instr) (n : Nat) (host : Bool) (new : Option Nat) : Prop :=
       Instr.wf regs i = true → o.a.isV = true → (s.realAct o).getLsbD l = true →
       s.recording s.me.ctx = false →
       s.checks (.rmw host) n (lanesOf (s.act o)) (s.atomAddr o e) = [(l, a, .at loc)] →
       ChecksPass s 3 n [(l, a, .at loc)] → loc.outside = false →
       (∀ k, k < n → s.poisoned (loc.plus k) = false) → Unstruck s (coreOf s.cur.group) n [(l, a, .at loc)] →
       Next (exec i s) fun t =>
         leNat (bytesAt t.peek loc n) = new.getD (old n)
         ∧ KeptRegs s.me t.me
         ∧ (∃ r : Result, t.me.inflight = s.me.inflight ++ [r] ∧ r.await = []
             ∧ r.writes = destTuple o.d l (oldWords n (BitVec.ofNat 64 (old n)) false))
     let b (l : Nat) : DWord := if t.regs = 2 then s.dword o.b l else (s.word .int o.b l).setWidth 64
     run (.atom o op t .rlx sc e) (4 * t.regs) (op = .add || op = .exch)
       (some ((atomInt op t (BitVec.ofNat 64 (old (4 * t.regs))) (b l)).toNat % 2 ^ (32 * t.regs)))
     ∧ run (.atomcas o false .rlx sc e) 4 true
       (if old 4 = (s.tuple o.b 0 l).toNat then some (s.tuple o.b 1 l).toNat else none)
     ∧ run (.atomcas o true .rlx sc e) 8 true
       (if old 8 = (s.tuple o.b 1 l ++ s.tuple o.b 0 l).toNat
         then some (s.tuple o.b 3 l ++ s.tuple o.b 2 l).toNat else none)
     ∧ run (.atomf o fop .f32 .rlx sc e) 4 false
       (some (atomFloat fop .f32 (BitVec.ofNat 32 (old 4)) (s.word .f32 o.b l)).1.toNat))
  ∧ (∀ (o : Op) (op : AtomOp) (fop : AddMinMax) (t : Ty) (wide : Bool) (ord : Ord) (sc : Scope) (e : BitVec 8)
       (s : State),
       clockSource o = false →
       let run (i : Instr) (n : Nat) (host : Bool) : Prop :=
         ChecksPass s 3 n (s.checks (.rmw host) n (accessLanes (atomSingle o) (s.act o) s.me.real) (s.atomAddr o e)) →
         (Ord.releases ord = false ∨ s.realAct o = 0 ∨ NoWait s sc →
           Next (exec i s) fun t =>
             FlagsRaised s.me t.me o.hints ∧ KeptRegs s.me t.me
             ∧ (LastPlane s → LanesGo s t (otherwise s))
             ∧ ∃ r : Result, t.me.inflight = s.me.inflight ++ [r] ∧ r.held = false)
         ∧ (Ord.releases ord = true → s.realAct o ≠ 0 → ¬ NoWait s sc →
           Next (exec i s) (WaitsAcked s))
       run (.atom o op t ord sc e) (4 * t.regs) (op = .add || op = .exch)
       ∧ run (.atomcas o wide ord sc e) (if wide then 8 else 4) true
       ∧ run (.atomf o fop t ord sc e) (if t = .f32 then 4 else 2) false)

/-! ## Group 0xB: ordering, barriers, waits, batches -/

/-- R120, R121, R126, R255, R256 (derived): a FENCE at `.cl` and wider and a PHASE publish every store of the core: no
store is left unpublished, and each byte's point of coherence then holds what the core's strong loads saw (but for
what Hevis Link carries, which may be lost on its way: log entry 6). A FENCE of any ordering and scope sends its split
on; one that releases at `.sys` leaves the group's later accesses to wait for the acknowledgements that are to come.
At `.wg` and narrower a FENCE changes no memory. -/
def Obligations.Fences : Prop :=
  ∀ (o : Op) (ord : Ord) (sc : Scope) (s : State),
    let core := coreOf s.cur.group
    let kept (t : State) : Prop := KeptRegs s.me t.me ∧ t.me.flags = s.me.flags ∧ t.me.inflight = s.me.inflight
    let published (t : State) : Prop :=
      kept t ∧ (∀ x, (∀ k, x ≠ .mmio k) → overLink x = false → t.peek x = strongByte s core x)
      ∧ ∀ k x, t.l1 core k = some x → x.dirty = false
    let goesOn (t : State) : Prop := LastPlane s → LanesGo s t (otherwise s)
    (L1Ok s core → s.act o ≠ 0 → wideScope sc = true → Next (exec (.fence o ord sc) s) published)
    ∧ (L1Ok s core → s.act o ≠ 0 → Next (exec (.phase o) s) fun t => published t ∧ goesOn t)
    ∧ Next (exec (.fence o ord sc) s) goesOn
    ∧ (s.act o ≠ 0 → Ord.releases ord = true → sc = .sys → Next (exec (.fence o ord sc) s) fun t =>
        (∀ x, x ∈ t.me.fence ↔ x ∈ s.me.fence ∨ x ∈ t.acksOf)
        ∧ (t.acksOf ≠ [] → ∀ i, ordersMemory i = true → t.inOrder s.cur.group i = false))
    ∧ (s.act o = 0 ∨ Ord.releases ord = false ∨ sc ≠ .sys →
        Next (exec (.fence o ord sc) s) fun t => ∀ x, x ∈ t.me.fence ↔ x ∈ s.me.fence)
    ∧ (s.act o = 0 ∨ wideScope sc = false →
        Next (exec (.fence o ord sc) s) fun t => kept t ∧ MemorySame s t ∧ t.cores = s.cores)

/-- R257, R258, R426 (derived): a barrier form that some lane performs sends its update to the object's bank and
holds its split until the bank has applied it; one whose address check fails, and a BARINIT of more than 65,535,
take their trap and send nothing. -/
def Obligations.BarrierForms : Prop :=
  (∀ (o : Op) (sc : Scope) (l : Loc) (s : State),
     let a := (s.dword o.a 0).toNat
     let sent (i : Instr) (up : BarUpdate) : Prop :=
       Next (exec i s) fun t =>
         t.bank = s.bank ++ [{ bank := (barKey l).1, addr := (barKey l).2, va := a, part := partOf s.cur.group,
                               group := s.cur.group, slot := s.cur.slot, up }]
         ∧ (∃ w, t.mySplit.wait = some w ∧ w.kind = .bank ∧ w.lanes = s.act o)
         ∧ t.mySplit.offset = s.mySplit.offset ∧ KeptRegs s.me t.me ∧ t.me.flags = s.me.flags
     s.act o ≠ 0 → s.barPlace s.me a = .ok l →
     ((s.uword o.b).toNat ≤ 65535 → sent (.barinit o sc) (.init (s.uword o.b).toNat))
     ∧ sent (.bararr o sc) (.arrive (narrower sc l.scope))
     ∧ sent (.bardrop o sc) (.drop (narrower sc l.scope))
     ∧ sent (.barexp o sc) (.expect (s.uword o.b).toNat))
  ∧ (∀ (o : Op) (sc : Scope) (c : Nat) (s : State),
       let a := (s.dword o.a 0).toNat
       s.act o ≠ 0 →
       (s.barPlace s.me a = .error c →
         exec (.bararr o sc) s = .next (s.trap { code := c, mask := s.act o, addr := a })
         ∧ exec (.bardrop o sc) s = .next (s.trap { code := c, mask := s.act o, addr := a })
         ∧ exec (.barexp o sc) s = .next (s.trap { code := c, mask := s.act o, addr := a }))
       ∧ (65535 < (s.uword o.b).toNat → exec (.barinit o sc) s = .next s.illegal))

/-- R104, R107, R113, R114 (derived): a bank cycle with one arrival works on the object as the arriving group's core
sees it: ARRIVED rises by 1, or, where that makes it EXPECT with no bytes outstanding, the phase completes: PHASE + 1
and the counts 0. No other byte changes, unless a phase of a scratchpad object completes, whose cores cross a
boundary. -/
def Obligations.BankCycle : Prop :=
  ∀ (e : BankEntry) (rest : List BankEntry) (sc : Scope) (s : State),
    let l := barLoc e.bank e.addr
    let core := coreOf e.group
    let b := BarObj.read (bytesAt (strongByte s core) l 16)
    let whole : Prop := b.arrived + 1 = b.expect ∧ b.lbytes = b.xbytes
    s.bank = e :: rest → e.up = .arrive sc → b.arrived + 1 ≤ b.expect → L1Ok s core →
    (e.bank = 0 → whole → ∀ c, c ≠ core → ∀ y ∈ (s.core c).l1, ∀ i, i < 16 → y.1 ≠ 2 * (e.addr + i)) →
    Next (exec (.barrierBankUpdate e.bank e.addr 1) s) fun t =>
      t.bank = rest
      ∧ (whole → BarObj.read (t.peeks l 16) =
        { phase := (b.phase + 1) % 2 ^ 32, expect := b.expect, arrived := 0, xbytes := 0, lbytes := 0 })
      ∧ (¬ whole → BarObj.read (t.peeks l 16) = { b with arrived := b.arrived + 1 })
      ∧ ((e.bank = 0 → ¬ whole) → ∀ x, (∀ i, i < 16 → x ≠ l.plus i) → t.peek x = s.peek x)

/-- R49, R259 to R261 (derived): a WAIT whose block passes its checks puts its split into WAIT on those conditions,
with its expiry. The split stands at the next word meanwhile; where a lower plane issue of the offset has sent lanes
elsewhere, it divides only as it wakes, and stands at the WAIT until then (the model's reading, log entry 25). A block
of more than 4 conditions, or with an illegal one, traps ILLEGAL. -/
def Obligations.Waits : Prop :=
  ∀ (o : Op) (all : Bool) (cs : List Cond) (s : State),
    s.act o ≠ 0 →
    (s.condBlock s.me 4 (sIndex o.a) = none → exec (.wait o all) s = .next s.illegal)
    ∧ (s.condBlock s.me 4 (sIndex o.a) = some cs →
      (∀ c ∈ cs, (∀ n, s.condCheck s.me c ≠ .fault n) ∧ ∀ n, s.condCheck s.me c ≠ .missing n) →
      LastPlane s → s.mySplit.mask ≠ 0 → (∀ l, otherwise s l ≠ .gone) →
      Next (exec (.wait o all) s) fun t =>
        KeptRegs s.me t.me ∧ t.me.flags = s.me.flags
        ∧ (∀ x, (∀ k, x ≠ .mmio k) → overLink x = false →
          strongByte t (coreOf s.cur.group) x = strongByte s (coreOf s.cur.group) x)
        ∧ t.mySplit.region = s.mySplit.region
        ∧ ((∀ m, s.mySplit.mid = some m → m.dests = []) → t.mySplit.offset = s.mySplit.offset + 12)
        ∧ ((∃ m, s.mySplit.mid = some m ∧ m.dests ≠ []) → t.mySplit.offset = s.mySplit.offset)
        ∧ ∃ w, t.mySplit.wait = some w ∧ w.kind = .explicit o.d ∧ w.all = all ∧ w.lanes = s.act o
          ∧ w.region = s.mySplit.region ∧ w.offset = s.mySplit.offset
          ∧ w.conds.length = cs.length ∧ w.conds.map (·.kind) = cs.map (·.kind)
          ∧ w.conds.map (·.addr) = cs.map (·.addr) ∧ w.conds.map (·.value) = cs.map (·.value)
          ∧ w.expiry = (match o.b with
              | .none => none
              | b => if (s.uword b).toNat = 0 then none else some (s.tick + (s.uword b).toNat)))

/-- R264 to R269 (derived): BATCH closes the group's open batch and hands its handle to D with the register tagged,
or, with no open batch, the handle of a batch already complete, untagged; HTEST tells whether a handle's batch was
complete as the FCLK cycle began, before a BATCH of this cycle closed it; CANCEL leaves none of an incomplete batch's
commands but those of a collective that has combined; both trap ILLEGAL on a word that is no handle. -/
def Obligations.BatchForms : Prop :=
  (∀ (o : Op) (n : BitVec 7) (s : State),
     let g := s.me
     let w := s.wgOf g.wg
     let h := BitVec.ofNat 32 (g.nextSeq * 256 + g.index)
     o.d = .s n → s.act o ≠ 0 →
     ((w.batchesOf g.index).filter (·.closed)).length < 16 →
     Next (exec (.batch o) s) fun t =>
       t.me.readS n.toNat = h ∧ (∀ r, r ≠ n.toNat → t.me.readS r = g.readS r)
       ∧ SameV g t.me ∧ SameP g t.me ∧ t.me.flags = g.flags ∧ t.mem = s.mem ∧ t.ext = s.ext
       ∧ t.me.nextSeq = (if g.nextSeq = 0xFF_FFFF then 1 else g.nextSeq + 1)
       ∧ look none t.me.tags n.toNat = (if (w.openBatch g.index).isSome then some h else none)
       ∧ (t.wgOf g.wg).batches = if (w.openBatch g.index).isSome
           then w.batches.map fun e => if e.1 = g.index ∧ e.2.seq = g.nextSeq
             then (e.1, { e.2 with closed := true, fresh := true }) else e
           else w.batches)
  ∧ (∀ (o : Op) (s : State),
       let g := s.me
       let h := s.uword o.a
       s.act o ≠ 0 →
       (s.handleOk g h = false →
         exec (.htest o) s = .next s.illegal ∧ exec (.cancel o) s = .next s.illegal)
       ∧ (s.handleOk g h = true → s.recording g.ctx = false →
         Next (exec (.htest o) s) (fun t =>
           WroteP g t.me o.d (s.act o) (fun _ => s.handleWasDone g h) ∧ t.me.flags = g.flags
           ∧ t.me.inflight = g.inflight)
         ∧ Next (exec (.cancel o) s) (fun t =>
           KeptRegs g t.me ∧ t.me.flags = g.flags
           ∧ (s.handleDone g h = false → ∀ id ∈ s.batchCmds g.wg (h.toNat % 16) (h.toNat / 256),
             s.combined id = false → look none t.cmds id = none)
           ∧ (s.handleDone g h = true → t.cmds = s.cmds))))

/-! ## Group 0xC: queues and engine commands -/

/-- R126, R132, R271 to R274 (derived): an ENQ or DEQ whose control block passes its checks goes on, its operation at
the block's port and its result to come; it has read an ENQ's entry and changed no memory. A check that fails is its
trap. At the end of the FCLK cycle the port judges the block as it then stands at its point of coherence, behind the
core's own stores: it answers BAD for a malformed block or an entry that does not fit, then CLOSED, BUSY and FULL, or
CLOSED and EMPTY, then BAD for an unusable slot, in this order, and memory reads as before unless it answers OK. OK
writes the entry, and TAIL + 1, or brings the entry into the registers of A, and HEAD + 1. An ENQ to a queue of scope
`.sys` is served only once what its release covers has been acknowledged. An issue of no real lane answers nothing. -/
def Obligations.QueueStatus : Prop :=
  (∀ (o : Op) (l : Loc) (c : Nat) (s : State),
     let g := s.me
     clockSource o = false → s.recording g.ctx = false →
     let form (i : Instr) (deq : Bool) (cb x : Operand) : Prop :=
       let a := (s.dword cb 0).toNat
       let op : QueueOp :=
         { part := partOf s.cur.group, group := s.cur.group, id := g.nextResult, cb := a, deq, d := o.d, x,
           data := if deq then [] else s.entryBytes x 256, slot := s.cur.slot, lanes := s.act o,
           region := s.mySplit.region, offset := s.mySplit.offset, plane := s.cur.plane, after := none }
       let on (t : State) : Prop :=
         KeptRegs g t.me ∧ FlagsRaised g t.me o.hints ∧ (LastPlane s → LanesGo s t (otherwise s)) ∧ MemorySame s t
       (s.realAct o = 0 → Next (exec i s) fun t =>
         on t ∧ t.queueOps = s.queueOps ∧ ∃ r : Result, t.me.inflight = g.inflight ++ [r] ∧ r.held = false ∧ r.writes = [])
       ∧ (s.realAct o ≠ 0 → s.queueCheck g a = .at l → Next (exec i s) fun t =>
         on t
         ∧ t.queueOps = s.queueOps ++ [op]
         ∧ ∃ r : Result, t.me.inflight = g.inflight ++ [r] ∧ r.held = true ∧ r.id = g.nextResult)
       ∧ (s.realAct o ≠ 0 → s.queueCheck g a = .fault c →
         exec i s = .next ((s.pay i).trap { code := c, mask := s.act o, addr := a }))
     form (.enq o) false o.a o.b ∧ form (.deq o) true o.b o.a)
  ∧ (∀ (q : QueueOp) (s : State),
       let g := s.group q.group
       let core := coreOf q.group
       let p := (s.pocRead g.ctx core q.cb 64).1
       let b := QueueBlock.read (p.ctxRead g.ctx q.cb 64)
       let slot := s.ringSlot g b (if q.deq then b.head else b.tail) (!q.deq)
       let st : Nat :=
         if b.malformed || !entryFits g q.x b.esize then 5
         else if q.deq then (if b.used = 0 then (if b.state = 2 then 4 else 2) else if slot.isNone then 5 else 0)
         else if b.state = 2 then 4 else if b.state = 1 then 3 else if b.used = b.cap then 1
         else if slot.isNone then 5 else 0
       let u := s.serveQueue q
       -- a byte of the context's memory, behind the core's own stores
       let sees (t : State) (a : Nat) : Byte := match s.mapping g.ctx a with
         | some e => strongByte t core (e.2.loc a)
         | none => 0
       let same (but : List Nat) : Prop :=
         ∀ x, (∀ k, x ≠ .mmio k) → overLink x = false →
           (∀ a ∈ but, (s.mapping g.ctx a).map (fun e => e.2.loc a) ≠ some x) → strongByte u core x = strongByte s core x
       let status (k : Nat) : List Write := destWrites q.d (lanesOf q.lanes) fun _ => BitVec.ofNat 32 k
       let answered (ws : List Write) : Prop :=
         u.queueOps = s.queueOps.filter (fun e => !(e.group == q.group && e.id == q.id))
         ∧ KeptRegs g (u.group q.group) ∧ (u.group q.group).flags = g.flags
         ∧ (u.group q.group).inflight.length = g.inflight.length
         ∧ ∀ (i : Nat) (r : Result), g.inflight[i]? = some r →
           (r.id ≠ q.id → (u.group q.group).inflight[i]? = some r)
           ∧ (r.id = q.id → ∃ ts lg,
             (u.group q.group).inflight[i]? = some { r with writes := ws, held := false, await := ts, log := lg })
       let sys : Prop := (s.placeOf g q.cb 64).map Loc.scope = some .sys
       let released := p.releaseBy (s.queueOrigin q) .sys
       let acks := released.acksFor q.group
       s.recording g.ctx = false → L1Ok s core → (look none s.groups q.group).isSome = true →
       (st ≠ 0 → answered (status st) ∧ same [])
       ∧ (st = 0 → q.deq = true → ∃ e, e.length = b.esize ∧ answered (status 0 ++ entryWrites g q.x q.lanes e))
       ∧ (st = 0 → q.deq = false → (¬ sys ∨ q.after.isSome = true ∨ acks = []) → answered (status 0))
       ∧ (st = 0 → q.deq = false → sys → q.after = none → acks ≠ [] →
         u.queueOps = s.queueOps.map (fun e =>
           if e.group = q.group ∧ e.id = q.id then { e with after := some acks } else e)
         ∧ (u.group q.group).inflight = g.inflight ∧ same [])
       ∧ (∀ a, st = 0 → q.deq = false → q.data.length = 256 → slot = some a →
         Apart s g.ctx (addrs q.cb 64 ++ addrs a b.esize) →
         answered (status 0) ∧ (addrs a b.esize).map (sees u) = q.data.take b.esize
         ∧ leNat ((addrs (q.cb + 12) 4).map (sees u)) = (b.tail + 1) % 2 ^ 32
         ∧ same (addrs a b.esize ++ addrs (q.cb + 12) 4))
       ∧ (∀ a, st = 0 → q.deq = true → slot = some a → Apart s g.ctx (addrs q.cb 64 ++ addrs a b.esize) →
         answered (status 0 ++ entryWrites g q.x q.lanes ((addrs a b.esize).map (sees s)))
         ∧ leNat ((addrs (q.cb + 8) 4).map (sees u)) = (b.head + 1) % 2 ^ 32
         ∧ same (addrs (q.cb + 8) 4)))
  ∧ (∀ (cl : Nat) (q : QueueOp) (s : State),
       s.queuesDue cl = [q] → (∀ e ∈ s.queueOps, (look none s.groups e.group).isSome = true) →
       let t := s.endCycle cl
       let u := s.serveQueue q
       t.mem = u.mem ∧ t.ext = u.ext ∧ t.queueOps = u.queueOps ∧ t.cores = u.cores
       ∧ (∀ k, (t.group k).inflight = (u.group k).inflight ∧ KeptRegs (u.group k) (t.group k))
       ∧ (t.cluster cl).clock = (u.cluster cl).clock + 1 ∧ (t.cluster cl).cursor = 0)

/-- R264, R275 to R279 (derived): a copy form or a COLL whose values and addresses pass joins the group's open
batch: its command stands with its operands, its blocks to perform, and no memory has changed yet; a COLL whose
block fails its value checks traps ILLEGAL. -/
def Obligations.EngineForms : Prop :=
  (∀ (o : Op) (s : State),
     let g := s.me
     let n := (s.uword o.b).toNat
     let d := (s.dword o.d 0).toNat
     let a := (s.dword o.a 0).toNat
     let dst := windowOf (s.blockOf o.d)
     let src := windowOf (s.blockOf o.a)
     let lanes := lanesOf (s.realAct o)
     let joined (i : Instr) (kind : CmdKind) (blocks : List Nat) : Prop :=
       blocks ≠ [] → Next (exec i s) fun t =>
         t.nextCmd = s.nextCmd + 1 ∧ t.mem = s.mem ∧ t.ext = s.ext ∧ KeptRegs g t.me ∧ t.me.flags = g.flags
         ∧ ∃ c, look none t.cmds s.nextCmd = some c ∧ c.kind = kind ∧ c.reqs = blocks ∧ c.seq = g.nextSeq
           ∧ c.group = g.index ∧ c.wg = g.wg
     let clear (ms : List (Nat × Nat)) (z align : Nat) : Prop :=
       ∀ m ∈ ms, s.rangeFault g m.1 z align true = none ∧ s.rangeFault g m.2 z align false = none
     s.act o ≠ 0 → s.openCount < 256 → clockSource o = false →
     (n ≤ 262144 → n % 16 = 0 → clear [(d, a)] n 16 →
       joined (.copy o none) (.copy d a n) (blocksIn d n))
     ∧ (sizeOk n = true → copytBytes n dst src ≤ 262144 → clear (windowMoves n dst src) n 1 →
       dst.base % n = 0 → dst.pitch % n = 0 → src.base % n = 0 → src.pitch % n = 0 →
       joined (.copyt o none) (.copyt (s.blockOf o.d) (s.blockOf o.a) n) (blocksOf (windowMoves n dst src)))
     ∧ (sizeOk n = true → n * lanes.length ≤ 262144 →
       let ms := lanes.map fun l => ((d + l * n) % 2 ^ 64, (s.dword o.a l).toNat)
       clear ms n n → joined (.gather o none) (.moves ms n) (blocksOf ms))
     ∧ (sizeOk n = true → n * lanes.length ≤ 262144 →
       let ms := lanes.map fun l => ((s.dword o.d l).toNat, (a + l * n) % 2 ^ 64)
       clear ms n n → joined (.scatter o none) (.moves ms n) (blocksOf ms)))
  ∧ (∀ (o : Op) (op : AddMinMax) (t : Ty) (s : State),
       let g := s.me
       let b := s.blockOf o.b
       let n := collCount b * collSize t
       let d := (s.dword o.d 0).toNat
       let a := (s.dword o.a 0).toNat
       let bad := collParts b = 0 ∨ collParts b ≤ collRank b ∨ collCount b = 0 ∨ 262144 < n
       s.act o ≠ 0 →
       (bad → exec (.coll o op t) s = .next s.illegal)
       ∧ (¬ bad → s.rangeFault g d n 16 true = none → s.rangeFault g a n 16 false = none →
         s.collFault g (collObj b) = none → s.openCount < 256 →
         Next (exec (.coll o op t) s) fun u =>
           u.nextCmd = s.nextCmd + 1 ∧ KeptRegs g u.me ∧ u.me.flags = g.flags
           ∧ ∃ c, look none u.cmds s.nextCmd = some c ∧ c.kind = .coll op t d a b ∧ c.arrived = false))

/-! ## Group 0xD: gangs, MMA and tiles -/

/-- R158 to R160, R284, R286, R287 (derived): a GANG of a legal value sets SR.GANG, and one that fails a value check
traps ILLEGAL; an MMA that fails a check traps by it; a solo MMA takes its place on the array, behind those that have
their start, with its operands captured, its start in this cycle and its result held, and starts at once on an idle
array. The first member of a gang enters the latch and waits; one that finds another gang there stalls. The last
member to enter releases the latch: where all format blocks are equal every member's MMA stands on its array with the
operands of the whole gang, the gang has asked for its starts, in partition order, or been given them, and no member
waits; where they differ every member traps ILLEGAL. -/
def Obligations.GangForms : Prop :=
  (∀ (o : Op) (s : State),
     s.act o ≠ 0 →
     (s.gangOk (s.uword o.a) = false → exec (.gang o) s = .next s.illegal)
     ∧ (s.gangOk (s.uword o.a) = true → (s.core (coreOf s.cur.group)).latch = none →
       Next (exec (.gang o) s) fun t =>
         t.me.gang = s.uword o.a ∧ KeptRegs s.me t.me ∧ t.me.flags = s.me.flags ∧ t.mem = s.mem))
  ∧ (∀ (o : Op) (w16 : Bool) (fmt : BitVec 7) (s : State),
       let g := s.me
       let part := partOf s.cur.group
       let core := coreOf s.cur.group
       let m := s.member o fmt
       let bare (j : ArrayJob) : ArrayJob := { j with start := none, tileAtStart := none, doneAt := 0 }
       (∀ t, s.mmaFault o w16 fmt = some t →
         ∃ u : State, exec (.mma o w16 fmt) s = .next (u.trap t) ∧ { u with clusters := s.clusters } = s)
       ∧ (s.mmaFault o w16 fmt = none → bitsAt g.gang.toNat 16 2 = 0 → clockSource o = false →
         Next (exec (.mma o w16 fmt) s) fun t =>
           KeptRegs g t.me ∧ FlagsRaised g t.me o.hints ∧ t.mem = s.mem ∧ (LastPlane s → LanesGo s t (otherwise s))
           ∧ (∃ r : Result, t.me.inflight = g.inflight ++ [r] ∧ r.held = true ∧ r.id = g.nextResult)
           ∧ ∃ j ops, s.capture [m] = [ops] ∧ j.ops = ops ∧ j.tile = m.tile ∧ j.half = m.half ∧ j.ctx = g.ctx
             ∧ j.group = s.cur.group ∧ j.id = g.nextResult ∧ j.asked = none
             ∧ j.start = some (s.cluster (clusterOf s.cur.group)).clock
             ∧ ((t.part part).array.map bare = (insertJob j (s.part part).array).map bare)
             ∧ (∃ k ∈ (t.part part).array, bare k = bare j ∧ k.start = j.start)
             ∧ ((s.part part).array = [] → (s.part part).jobs = [] →
               (t.part part).array = [{ j with
                 tileAtStart := some ((s.part part).tile (tileKey g.ctx m.tile)),
                 doneAt := (s.cluster (clusterOf s.cur.group)).lanes + 64 }]))
       ∧ (s.mmaFault o w16 fmt = none → bitsAt g.gang.toNat 16 2 ≠ 0 → (s.core core).latch = none →
         1 < (gangList g.gang).length → ((gangList g.gang).any fun i => s.breaksGang g.wg g.gang i) = false →
         Next (exec (.mma o w16 fmt) s) fun t =>
           KeptRegs g t.me ∧ FlagsRaised g t.me o.hints
           ∧ (t.core core).latch = some (g.gang, g.wg, [m])
           ∧ ∃ w, t.mySplit.wait = some w ∧ w.kind = .latch)
       ∧ (s.mmaFault o w16 fmt = none → bitsAt g.gang.toNat 16 2 ≠ 0 → s.latchOpen g core = false →
         Next (exec (.mma o w16 fmt) s) fun t => { t with clusters := s.clusters } = s)
       ∧ (∀ ms, s.mmaFault o w16 fmt = none → bitsAt g.gang.toNat 16 2 ≠ 0 →
         (s.core core).latch = some (g.gang, g.wg, ms) → ms.length + 1 = (gangList g.gang).length →
         ((gangList g.gang).any fun i => s.breaksGang g.wg g.gang i) = false →
         let clock := (s.cluster (core / 4)).clock
         let all := (List.range 64).filterMap fun k => (ms ++ [m]).find? fun x => x.group == 64 * core + k
         let first := all.headD default
         let job (t : State) (x : LatchMember) (p : ArrayJob → Prop) : Prop :=
           ∃ j ∈ (t.part (partOf x.group)).array, j.group = x.group ∧ j.id = x.id ∧ p j
         let ask : LeaveRequest :=
           { cycle := clock, group := first.group, slot := first.slot, parts := all.map fun x => partOf x.group }
         ((∃ x ∈ all, x.fmt ≠ first.fmt) →
           ∃ u : State, exec (.mma o w16 fmt) s = .next (u.trapMembers 1 8 all) ∧ (u.core core).latch = none
             ∧ u.mem = s.mem ∧ u.ext = s.ext ∧ u.parts = s.parts)
         ∧ ((∀ x ∈ all, x.fmt = first.fmt) → Next (exec (.mma o w16 fmt) s) fun t =>
           KeptRegs g t.me ∧ FlagsRaised g t.me o.hints ∧ t.mem = s.mem ∧ (t.core core).latch = none
           ∧ (∀ e ∈ all.zip (s.capture all), job t e.1 fun j =>
             j.ops = e.2 ∧ j.tile = e.1.tile ∧ j.half = e.1.half ∧ j.asked = some (clock, first.group))
           ∧ (ask ∈ (t.cluster (core / 4)).leave ∨ ∀ x ∈ all, job t x fun j => j.start.isSome = true)
           ∧ ∀ x ∈ all, ∀ y, look none (t.group x.group).splits x.slot = some y → y.wait = none)))

/-- R152, R153, R288 to R295 (derived): MZERO and MPOIS that find no other tile form waiting and no MMA on the array
act at once; a tile form behind others joins the end of its partition's order; MSTO, MSTA and MMOV out of a tile hold
their split until its rows are read; MSTO's units have their places, MSTA's command joins the batch; an MSTO or MSTA
of helper lanes alone stores nothing and goes on. -/
def Obligations.TileForms : Prop :=
  (∀ (o : Op) (n : BitVec 5) (s : State),
     let part := partOf s.cur.group
     let key := tileKey s.me.ctx n.toNat
     o.d = .t n false → s.act o ≠ 0 → (s.part part).jobs = [] → (s.part part).array = [] →
     clockSource o = false →
     Next (exec (.mzero o false) s) (fun t =>
       (t.part part).tile key = default ∧ (t.part part).jobs = [] ∧ KeptRegs s.me t.me ∧ t.mem = s.mem
       ∧ (LastPlane s → LanesGo s t (otherwise s)))
     ∧ Next (exec (.mpois o) s) (fun t =>
       ((t.part part).tile key).poison = ((s.part part).tile key).poison ||| s.uword o.a
       ∧ ((t.part part).tile key).words = ((s.part part).tile key).words
       ∧ (t.part part).jobs = [] ∧ KeptRegs s.me t.me ∧ t.mem = s.mem ∧ (LastPlane s → LanesGo s t (otherwise s))))
  ∧ (∀ (o : Op) (w16 : Bool) (fmt : BitVec 7) (n : BitVec 5) (h : Bool) (v : BitVec 8) (j : TileJob) (js : List TileJob)
       (regs : Nat) (s : State),
       let g := s.me
       let part := partOf s.cur.group
       let base := (s.dword o.a 0).toNat
       let pitch := s.pitch o w16
       let half := halfOf w16 h
       let joins (i : Instr) (form : TileForm) (p : State → Prop) : Prop :=
         Instr.wf regs i = true → Next (exec i s) fun t =>
           (∃ k, (t.part part).jobs = (s.part part).jobs ++ [k] ∧ k.tile = n.toNat ∧ k.ctx = g.ctx ∧ k.form = form)
           ∧ KeptRegs g t.me ∧ p t
       let holds (t : State) : Prop := ∃ w, t.mySplit.wait = some w ∧ w.kind = .drain
       let passedOver (t : State) : Prop :=
         MemorySame s t ∧ KeptRegs g t.me ∧ t.cmds = s.cmds ∧ (t.part part).jobs = (s.part part).jobs
         ∧ (LastPlane s → LanesGo s t (otherwise s))
       let units := s.tileChecks (.store false) true base pitch w16
       s.act o ≠ 0 → (s.part part).jobs = j :: js → (∀ b, j.form ≠ .zero b) → (∀ r, j.form ≠ .pois r) →
       (o.d = .t n h → joins (.mzero o w16) (.zero half) fun t => t.mem = s.mem)
       ∧ (o.d = .t n h → joins (.mpois o) (.pois (s.uword o.a)) fun _ => True)
       ∧ (o.d = .t n h → pitchOk w16 pitch = true → s.realAct o ≠ 0 → ChecksPass s 2 16 units →
         joins (.msto o w16) (.store half base pitch (locsOf units)) fun t => holds t ∧ t.mem = s.mem)
       ∧ (pitchOk w16 pitch = true → s.realAct o = 0 →
         ChecksPass s 2 16 (s.tileChecks (.store false) false base pitch w16) →
         Instr.wf regs (.msto o w16) = true → Next (exec (.msto o w16) s) passedOver)
       ∧ (o.d = .t n h → pitchOk w16 pitch = true →
         ChecksPass s 1 16 (s.tileChecks (.load false) true base pitch w16) →
         Instr.wf regs (.mldt o w16) = true → Next (exec (.mldt o w16) s) fun t =>
           (∃ k p, (t.part part).jobs = (s.part part).jobs ++ [k] ∧ k.tile = n.toNat ∧ k.id = g.nextResult
             ∧ k.form = .fill half (BitVec.allOnes 32) p)
           ∧ KeptRegs g t.me ∧ FlagsRaised g t.me o.hints ∧ t.mem = s.mem)
       ∧ (o.d = .t n h → pitchOk w16 pitch = true → blkAcc (s.fmtOf fmt) ≤ 3 →
         w16 = acc16 (blkAcc (s.fmtOf fmt)) → s.realAct o ≠ 0 → s.mstaFaults true base pitch w16 = [] →
         s.openCount < 256 →
         joins (.msta o w16 fmt) (.add half s.nextCmd) fun t => holds t ∧ t.nextCmd = s.nextCmd + 1)
       ∧ (pitchOk w16 pitch = true → blkAcc (s.fmtOf fmt) ≤ 3 → w16 = acc16 (blkAcc (s.fmtOf fmt)) → s.realAct o = 0 →
         s.mstaFaults false base pitch w16 = [] → Instr.wf regs (.msta o w16 fmt) = true →
         Next (exec (.msta o w16 fmt) s) passedOver)
       ∧ (o.a = .t n h → o.d = .v v → g.width = 32 → v.toNat + (if w16 then 15 else 31) < g.regs →
         joins (.mmov o w16) (.out half (s.act o) v.toNat) fun t => holds t ∧ FlagsRaised g t.me o.hints)
       ∧ (o.d = .t n h → o.a = .v v → g.width = 32 → v.toNat + (if w16 then 15 else 31) < g.regs →
         joins (.mmov o w16) (.fill half ((s.act o).setWidth 32) 0) fun t => FlagsRaised g t.me o.hints))

/-! ## Group 0xE: the system forms -/

/-- R299, R300, R374, R425 (derived): a trap with a handler writes its fault record into the next slot of the fault
area, raises PROD, writes the frame, and changes no other byte of memory where these lie in device memory; it moves
its whole split to the handler's place, sets S0:S1 and S2:S3 to the addresses of record and frame, and leaves every
other register alone. A trap whose context names no handler, or one at no word of the launch's code, or whose group is
in its handler, writes its record with FATAL set and makes the context FATAL, once: its launches drain, its workgroups
stop and its record is FAULTED; a context that is FATAL already only gains the record. -/
def Obligations.TrapTaking : Prop :=
  ∀ (t : Trap) (s : State),
    let g := s.endSnap.me
    let hpc := s.ctxField g.ctx 32 8
    let area := s.ctxField g.ctx 40 8
    let prod := leNat (s.unitRead g.ctx area 8).2
    let slot := area + 64 + 64 * (prod % 63)
    let frame := s.trapElement g.ctx s.cur.group
    let u : State := s.trap t
    let spared (but : List Nat) : Prop :=
      ∀ x, (∀ a ∈ but, (s.mapping g.ctx a).map (fun e => e.2.loc a) ≠ some x) → u.peek x = s.peek x
    let recorded (fatal : Bool) : Prop :=
      IsFaultRecord s t fatal (u.ctxRead g.ctx slot 64) ∧ leNat (u.ctxRead g.ctx area 8) = (prod + 1) % 2 ^ 64
    (∀ (r o : Nat),
      hpc ≠ 0 → g.handling = none → (s.launch g.launch).locate hpc = some (r, o) →
      (s.core (coreOf s.cur.group)).latch = none →
      u.mySplit.region = r ∧ u.mySplit.offset = o ∧ u.mySplit.mask = s.mySplit.mask
      ∧ u.mySplit.handler = true ∧ u.mySplit.mid = none ∧ u.mySplit.wait = none
      ∧ u.me.readS64 0 = BitVec.ofNat 64 slot ∧ u.me.readS64 2 = BitVec.ofNat 64 frame
      ∧ (∀ k, 4 ≤ k → u.me.readS k = g.readS k) ∧ SameV g u.me ∧ SameP g u.me
      ∧ u.me.flags = g.flags ∧ u.me.planes = g.planes ∧ u.me.links = g.links ∧ u.me.inflight = g.inflight
      ∧ (∃ h, u.me.handling = some h ∧ h.entry = s.mySplit.mask ∧ h.code = t.code ∧ h.frame = frame
        ∧ h.detail = BitVec.ofNat 32 t.detail ∧ h.done = t.done ∧ h.region = s.mySplit.region
        ∧ h.offset = s.mySplit.offset)
      ∧ (Apart s g.ctx (addrs slot 64 ++ addrs area 8 ++ addrs frame 64) →
        recorded false ∧ IsTrapFrame s g t (u.ctxRead g.ctx frame 64)
        ∧ spared (addrs slot 64 ++ addrs area 8 ++ addrs frame 64)))
    ∧ ((hpc = 0 ∨ g.handling ≠ none ∨ (s.launch g.launch).locate hpc = none) →
      (u.ctxOf g.ctx).fatal = true ∧ KeptRegs g u.me ∧ u.mySplit.mid = none
      ∧ (Apart s g.ctx (addrs slot 64 ++ addrs area 8) → recorded true ∧ spared (addrs slot 64 ++ addrs area 8))
      ∧ ((s.ctxOf g.ctx).fatal = true → u.launches = s.launches ∧ u.wgs = s.wgs ∧ u.ast = s.ast)
      ∧ ((s.ctxOf g.ctx).fatal = false → (∀ e ∈ s.dsr, ∀ x, e.1 = g.ctx → e.2 = some x → x.kind ≠ 3) →
        (u.astOf g.ctx).phase = .faulted ∧ ((s.astOf g.ctx).phase ≠ .faulted → (u.astOf g.ctx).fault = 0)
        ∧ (∀ id l, look none u.launches id = some l → l.ctx = g.ctx → l.draining = true)
        ∧ ∀ id w, look none u.wgs id = some w → w.ctx = g.ctx →
          w.draining = true ∧ (w.state = .stopping ∨ w.state = .away)))

/-- R39, R46, R301 (derived): TRET outside the handler's split traps ILLEGAL. From it, with the mask of its entry, it
restores S0 to S3 from the frame as it stands, behind the core's own stores, and resumes: at the frame's own place
with the plane issues still to make, after the last of which every lane goes where its plane issues said; or at
another word of the launch's code. A mask that has changed, or a place that is no word, makes the context FATAL. -/
def Obligations.TrapReturn : Prop :=
  ∀ (o : Op) (h : Handling) (s : State),
    let g := s.me
    let core := coreOf s.cur.group
    let fb := ((s.pocRead g.ctx core h.frame 64).1.unitRead g.ctx h.frame 64).2
    let r := field fb 2 2
    let off := field fb 4 4
    let regions := (s.launch g.launch).regions
    let here : Prop := r = h.region ∧ off = h.offset % 2 ^ 32
    let word : Prop := r < regions.length ∧ off % 4 = 0 ∧ off + 12 ≤ ((s.launch g.launch).region r).2.1
    let todo := (if (field fb 0 2).testBit 3 then h.mid.todo.tail else h.mid.todo).filter fun e => e.2 &&& s.mySplit.mask != 0
    let stands (p : Nat → Dest) (t : State) : Prop := Alone g s.cur.slot → LanesGo s t p
    let returned (t : State) : Prop :=
      t.me.handling = none
      ∧ (∀ i, i < 4 → t.me.readS i = BitVec.ofNat 32 (field fb (48 + 4 * i) 4))
      ∧ (∀ i, 4 ≤ i → t.me.readS i = g.readS i) ∧ SameV g t.me ∧ SameP g t.me
      ∧ t.me.ageBase = (s.cluster (clusterOf s.cur.group)).clock
      ∧ (L1Ok s core → ∀ x, (∀ k, x ≠ .mmio k) → overLink x = false → strongByte t core x = strongByte s core x)
    (g.handling = none ∨ s.mySplit.handler = false → exec (.tret o) s = .next (s.noteYield o.hints.y).illegal)
    ∧ (g.handling = some h → s.mySplit.handler = true → s.cur.mask ≠ h.entry &&& ~~~g.exited →
      Next (exec (.tret o) s) fun t => (t.ctxOf g.ctx).fatal = true ∧ KeptRegs g t.me)
    ∧ (g.handling = some h → s.mySplit.handler = true → s.cur.mask = h.entry &&& ~~~g.exited →
      (look none g.splits s.cur.slot).isSome = true →
      ((¬ here ∧ ¬ word) → Next (exec (.tret o) s) fun t => (t.ctxOf g.ctx).fatal = true ∧ KeptRegs g t.me)
      ∧ (here → todo ≠ [] → Next (exec (.tret o) s) fun t =>
        returned t ∧ stands (fun _ => .to h.region h.offset) t)
      ∧ (here → todo = [] → Next (exec (.tret o) s) fun t =>
        returned t ∧ stands (fun l => look (.to h.region (h.offset + 12)) h.mid.dests l) t)
      ∧ (¬ here → word → Next (exec (.tret o) s) fun t => returned t ∧ stands (fun _ => .to r off) t)
      ∧ (L1Ok s core → Apart s g.ctx (addrs h.frame 64) →
        ∀ i, i < 64 → ∀ e, s.mapping g.ctx (h.frame + i) = some e → fb.getD i 0 = strongByte s core (e.2.loc (h.frame + i))))

/-- R180, R181, R299, R302 to R304, R307 to R309, R420 (derived): SETPERF sets the group's hint, clamped to 7; TOKRD
writes the words of the Reel; NOTIFY hands its record to the ring, to be written once what its release waits for is
acknowledged; DBGMARK sends its trace record where its partition is traced, and else none; BRK stops the partition of
a held context, and else takes BREAKPOINT; TRAP takes SOFTWARE with its code, a word of an unassigned OP ILLEGAL with
reason 1, a code above 65,535 ILLEGAL. -/
def Obligations.SystemForms : Prop :=
  (∀ (o : Op) (n : BitVec 7) (s : State),
     let g := s.me
     let x := (s.uword o.a).toNat
     let k := (s.uword o.b).toNat
     let part := partOf s.cur.group
     let traced := ringOn (s.reg trcCtl) && (s.reg (traceEn (part / 64))).getLsbD (part % 64)
     s.act o ≠ 0 →
     Next (exec (.setperf o) s) (fun t =>
       t.me.hint = min x 7 ∧ KeptRegs g t.me ∧ t.me.flags = g.flags ∧ t.mem = s.mem ∧ t.clusters = s.clusters)
     ∧ (o.d = .s n → s.recording g.ctx = false → Next (exec (.tokrd o) s) fun t =>
       (∀ i, i < 4 → t.me.readS (n.toNat + i) = s.reelWords.getD i 0)
       ∧ (∀ r, r < n.toNat ∨ n.toNat + 4 ≤ r → t.me.readS r = g.readS r)
       ∧ SameV g t.me ∧ SameP g t.me ∧ t.mem = s.mem)
     ∧ (s.realAct o ≠ 0 → k ≤ 65535 → k < s.ctxField g.ctx 22 2 →
       Next (exec (.notify o) s) fun t =>
         KeptRegs g t.me
         ∧ ∃ data, t.notices =
             s.notices ++ [{ ring := .ctx g.ctx k, data, after := t.acksOf, cons := none }]
           ∧ data = leBytes 2 1 ++ ((List.range 8).flatMap fun n => leBytes 4 (s.tuple o.a n 0).toNat).drop 2)
     ∧ (x ≤ 65535 → Next (exec (.dbgmark o) s) fun t => KeptRegs g t.me ∧ t.mem = s.mem ∧ t.cur = s.cur
       ∧ (LastPlane s → LanesGo s t (otherwise s))
       ∧ (traced = false → t.notices = s.notices)
       ∧ (traced = true → ∃ b, t.notices = s.notices ++ [{ ring := .trace, data := b, after := [], cons := none }]
         ∧ b.length = 32 ∧ field b 0 1 = 1 ∧ field b 1 1 = s.cur.group % 16 ∧ field b 2 2 = x
         ∧ field b 4 4 = part % 2 ^ 32 ∧ field b 8 4 = s.mySplit.offset % 2 ^ 32
         ∧ field b 12 2 = s.mySplit.region % 2 ^ 16 ∧ field b 14 1 = s.cur.plane % 256
         ∧ field b 16 8 = (s.cluster (clusterOf s.cur.group)).clock % 2 ^ 64))
     ∧ (x ≤ 65535 → s.isHeld g.ctx = true → (s.part (partOf s.cur.group)).stopped = none →
       Next (exec (.brk o) s) fun t =>
         (∃ y, (t.part (partOf s.cur.group)).stopped = some y ∧ y.cause = 1 ∧ y.code = x
           ∧ y.offset = s.mySplit.offset)
         ∧ KeptRegs g t.me ∧ t.mem = s.mem))
  ∧ (∀ (o : Op) (op : BitVec 10) (s : State),
       let code := (s.uword o.a).toNat
       exec (.unassignedOpcode op) s = .next (s.trap { code := 1, detail := 1, mask := s.cur.mask })
       ∧ (s.act o ≠ 0 → code ≤ 65535 →
         exec (.trap o) s =
           .next ((s.noteYield o.hints.y).trap { code := 18, detail := code, mask := s.act o, done := true }))
       ∧ (s.act o ≠ 0 → 65535 < code →
         exec (.trap o) s = .next (s.trap { code := 1, detail := 8, mask := s.cur.mask })
         ∧ exec (.brk o) s = .next (s.trap { code := 1, detail := 8, mask := s.cur.mask })
         ∧ exec (.dbgmark o) s = .next (s.trap { code := 1, detail := 8, mask := s.cur.mask }))
       ∧ (s.act o ≠ 0 → code ≤ 65535 → s.isHeld s.me.ctx = false →
         exec (.brk o) s =
           .next ((s.noteYield o.hints.y).trap { code := 19, detail := code, mask := s.act o, done := true })))

/-- R126, R296 to R298 (derived): a SYSCALL of all real lanes publishes its core's stores, writes its call record to the
lowest free slot of the ring, every other byte staying as the core's strong loads saw it, and waits for the reply; or
waits for a slot. One of fewer lanes traps SYSCALL_PARTIAL, and a call number above 65,535 ILLEGAL. -/
def Obligations.Syscalls : Prop :=
  ∀ (o : Op) (s : State),
    let g := s.me
    let core := coreOf s.cur.group
    let whole : Prop := s.cur.mask &&& g.real = g.real
    let call := (s.uword o.b).toNat
    let live := g.real &&& ~~~g.exited
    let slot (k : Nat) : Nat := s.ctxField g.ctx 48 8 + 1024 * k
    (¬ whole → exec (.syscall o) s = .next (s.trap { code := 4, mask := s.cur.mask }))
    ∧ (whole → 65535 < call → exec (.syscall o) s = .next (s.trap { code := 1, detail := 8, mask := s.cur.mask }))
    ∧ (whole → call ≤ 65535 →
      Next (exec (.syscall o) s) fun t =>
        KeptRegs g t.me ∧ t.me.flags = g.flags
        ∧ (match (s.ctxOf g.ctx).freeCall with
          | some k => (∃ w, t.mySplit.wait = some w ∧ w.kind = .reply o.d k)
            ∧ (t.ctxOf g.ctx).calls = (s.ctxOf g.ctx).calls ++ [(k, false)]
            ∧ (clockSource o = false → L1Ok s core → Apart s g.ctx (addrs (slot k) 1024) →
              let b := t.ctxRead g.ctx (slot k) 1024
              field b 0 2 = (s.cur.group / 16 + g.index * 2 ^ 12) % 2 ^ 16 ∧ field b 2 2 = call ∧ field b 4 4 = 0
              ∧ field b 8 4 = (s.wgOf g.wg).index % 2 ^ 32 ∧ field b 12 4 = g.launch % 2 ^ 32
              ∧ field b 16 8 = g.real.toNat ∧ field b 24 8 = g.helper.toNat
              ∧ (∀ l, l < 64 → field b (64 + 8 * l) 8 = if live.getLsbD l then (s.dword o.a l).toNat else 0)
              ∧ ∀ x, (∀ k, x ≠ .mmio k) → overLink x = false →
                (∀ a ∈ addrs (slot k) 1024, (s.mapping g.ctx a).map (fun e => e.2.loc a) ≠ some x) →
                t.peek x = strongByte s core x)
          | none => (∃ w, t.mySplit.wait = some w ∧ w.kind = .ringSlot o.d o.a call)
            ∧ (t.ctxOf g.ctx).calls = (s.ctxOf g.ctx).calls))

/-- R305, R306, R319 (derived): an EDIT whose page passes its checks publishes its core's stores and hands the 128
bytes of the page, as the core's strong loads then see them, to the edit port at its place in edit order, with its
result held until the port decides; EDIT then goes on, and EDIT.f waits for the port. With no real lane nothing is
handed over, no register changes, and the result in flight writes nothing. -/
def Obligations.EditIssues : Prop :=
  ∀ (o : Op) (f : Bool) (l : Loc) (s : State),
    let g := s.me
    let core := coreOf s.cur.group
    let a := (s.dword o.a 0).toNat
    let goesOn (t : State) : Prop := LastPlane s → LanesGo s t (otherwise s)
    (s.realAct o ≠ 0 → (∀ x, aperture a ≠ .stack x) → s.check s.cur.group g 64 (.load false) a 128 = .at l →
      Next (exec (.edit o f) s) fun t =>
        KeptRegs g t.me ∧ FlagsRaised g t.me o.hints
        ∧ (∃ r : Result, t.me.inflight = g.inflight ++ [r] ∧ r.held = true ∧ r.id = g.nextResult ∧ r.dest = destCode o.d)
        ∧ (∃ e, t.port.edits = insertEdit e s.port.edits ∧ e.page = none ∧ e.ctx = g.ctx
          ∧ e.part = partOf s.cur.group ∧ e.group = s.cur.group ∧ e.slot = s.cur.slot ∧ e.f = f
          ∧ e.dest = destCode o.d ∧ e.id = g.nextResult ∧ e.tick = s.editTick ∧ e.data.length = 128
          ∧ (clockSource o = false → L1Ok s core → (∀ i, i < 128 → overLink (l.plus i) = false) →
            e.data = bytesAt (strongByte s core) l 128))
        ∧ (clockSource o = false → L1Ok s core →
          ∀ x, (∀ k, x ≠ .mmio k) → overLink x = false → t.peek x = strongByte s core x)
        ∧ (f = false → goesOn t)
        ∧ (f = true → t.mySplit.offset = s.mySplit.offset
          ∧ ∃ w, t.mySplit.wait = some w ∧ w.kind = .port ∧ w.lanes = s.act o))
    ∧ (s.realAct o = 0 →
      Next (exec (.edit o f) s) fun t =>
        KeptRegs g t.me ∧ FlagsRaised g t.me o.hints ∧ MemoryKept s t o ∧ t.port.edits = s.port.edits ∧ goesOn t
        ∧ ∃ r : Result, t.me.inflight = g.inflight ++ [r] ∧ r.held = false ∧ r.writes = [])

/-! ## The part's other steps: execution units -/

/-- R174, R175, R137 (derived): when a result that waits for nothing lands, between FCLK cycles of its cluster, its
registers are written, its floating-point flags join SR.FPX, the flags it named fall, and it is in flight no more. -/
def Obligations.ResultLands : Prop :=
  ∀ (k i : Nat) (g : Group) (r : Result) (s : State),
    look none s.groups k = some g → g.inflight[i]? = some r → r.await = [] → r.held = false → r.due = none →
    (s.cluster (clusterOf k)).cursor = 0 →
    Next (exec (.longLatencyResult k i) s) fun t =>
      let h := t.group k
      h.inflight = g.inflight.eraseIdx i ∧ h.v = (g.writes r.writes).v ∧ h.s = (g.writes r.writes).s
      ∧ h.p = (g.writes r.writes).p ∧ h.fpx = g.fpx ||| r.fpx
      ∧ (∀ f, look 0 h.flags f = look 0 g.flags f - (if f ≠ 0 ∧ f = r.set1 then 1 else 0)
          - (if f ≠ 0 ∧ f = r.set2 then 1 else 0))
      ∧ h.splits = g.splits ∧ { t with groups := s.groups } = s

/-- R75, R156, R157, R160, R161, R288, R290 to R295, R379 (derived): an MMA whose start slot has come starts and reads
its tile; one whose 64 half LCLK cycles are over writes it, leaves the array and lets its flags fall; a tile exchange
gives a tile a free slot, as it stands in its unit of the save area, or zero where it was never written, and writes
none. At the head of its partition's order, over clean rows: MMOV out of a tile brings its rows into the held result;
MSTO stores each 16-byte unit at its place, as a weak store of its core, and no other byte; MSTA hands its rows to its
command; each leaves the order, its split goes on, and an MZERO or MPOIS that stands next is applied at once. A
poisoned row traps POISON unless the context drops it. The rows of an MLDT, or an MMOV into a tile, are written when
its result comes at the head of the order, and not before. -/
def Obligations.ArrayAndTileSteps : Prop :=
  (∀ (part ctx tile : Nat) (j : ArrayJob) (js : List ArrayJob) (s : State),
     let p := s.part part
     let unit (u : Nat) : Nat := s.unitAddr ctx u
     let inside : Prop := ∀ u poison, p.savedTiles.find? (fun e => e.1 == tileKey ctx tile) = some (tileKey ctx tile, u, poison) →
       ∀ i, i < 4096 → ∀ e, s.mapping ctx (unit u + i) = some e → (e.2.loc (unit u + i)).outside = false
     (s.startDue part = true → p.array = j :: js →
       Next (exec (.gangArrayStart part) s) fun t =>
         ∃ k, (t.part part).array = k :: js ∧ k.tileAtStart = some (p.tile (tileKey j.ctx j.tile))
           ∧ k.doneAt = (s.cluster (part / 16)).lanes + 64 ∧ k.ops = j.ops ∧ t.groups = s.groups)
     ∧ (s.completeDue part = true → p.array = j :: js →
       Next (exec (.mmaComplete part) s) fun t =>
         (t.part part).array = js
         ∧ (t.part part).tile (tileKey j.ctx j.tile) = j.land (p.tile (tileKey j.ctx j.tile))
         ∧ t.mem = s.mem
         ∧ ∀ g r, look none s.groups j.group = some g → g.inflight.find? (fun x => x.held && x.id == j.id) = some r →
           (t.group j.group).inflight = g.inflight.eraseP (fun x => x.held && x.id == j.id)
           ∧ ∀ f, look 0 (t.group j.group).flags f = look 0 g.flags f - (if f ≠ 0 ∧ f = r.set1 then 1 else 0)
             - (if f ≠ 0 ∧ f = r.set2 then 1 else 0))
     ∧ (s.ctxOn part ctx = true → tile < 32 → p.tiles.length < 32 → inside →
       Next (exec (.tileSlotExchange part ctx tile) s) fun t =>
         (t.part part).hasSlot (tileKey ctx tile) = true
         ∧ (t.part part).tile (tileKey ctx tile) = s.tileNow part (tileKey ctx tile) ∧ t.groups = s.groups
         ∧ (t.part part).wrote = p.wrote))
  ∧ (∀ (part : Nat) (j : TileJob) (js : List TileJob) (s : State),
       let p := s.part part
       let g := s.group j.group
       let core := coreOf j.group
       let tile := p.tile (tileKey j.ctx j.tile)
       let calm (ks : List TileJob) : Prop := ∀ k ∈ ks, (∀ b, k.form ≠ .zero b) ∧ ∀ r, k.form ≠ .pois r
       -- the form has left the order, and so have those applied behind it
       let left (t : State) : Prop :=
         let q := t.part part
         t.cur = s.cur ∧ KeptRegs g (t.group j.group)
         ∧ (∀ y, look none (t.group j.group).splits j.slot = some y → y.wait = none)
         ∧ (calm js → q.jobs = js ∧ q.applied = p.applied + 1)
         ∧ ∀ k ks, js = k :: ks → calm ks →
           let old := p.tile (tileKey k.ctx k.tile)
           let new := q.tile (tileKey k.ctx k.tile)
           (∀ half, k.form = .zero half → q.jobs = ks ∧ q.applied = p.applied + 2 ∧ (half = none → new = default)
             ∧ ∀ h, half = some h → new.poison = old.poison ∧ ∀ e, e < 1024 → new.elem half e = 0)
           ∧ (∀ rows, k.form = .pois rows → q.jobs = ks ∧ q.applied = p.applied + 2
             ∧ new.poison = old.poison ||| rows ∧ new.words = old.words)
       let clean : Prop := tile.poison &&& j.form.reads = 0
       let drain : Out := exec (.tileDrain part) s
       p.jobs = j :: js → p.array = [] → (look none s.groups j.group).isSome = true →
       (∀ half rows v, j.form = .out half rows v → clean → Next drain fun t =>
         left t ∧ t.mem = s.mem
         ∧ (t.group j.group).inflight = g.inflight.map fun r =>
           if r.held && r.id == j.id then { r with writes := (lanesOf rows).flatMap (rowToV tile half v), held := false } else r)
       ∧ (∀ half id c base pitch acc h w k, j.form = .add half id → clean → look none s.cmds id = some c →
         c.kind = .msta base pitch acc h w k → Next drain fun t =>
           left t ∧ t.mem = s.mem ∧ t.ext = s.ext
           ∧ ∃ words, look none t.cmds id = some { c with kind := .msta base pitch acc h words 0, arrived := true }
             ∧ ∀ e, e < 1024 → look 0 words e = tile.elem half e)
       ∧ (∀ half base pitch units, j.form = .store half base pitch units → clean →
         let n := rowBytes half.isSome / 16
         let e := if half.isSome then 2 else 4
         units.length = 32 * n → (∀ l ∈ units, ∀ k, l ≠ .mmio k) →
         (∀ l ∈ units, ∀ i, i < 16 → s.poisoned (l.plus i) = false ∧ s.readPoison core (l.plus i) = false) →
         (∀ (u v : Nat) (l m : Loc), u < v → units[u]? = some l → units[v]? = some m →
            ∀ i k, i < 16 → k < 16 → l.plus i ≠ m.plus k) →
         Next drain fun t =>
           left t ∧ t.mem = s.mem ∧ t.ext = s.ext
           ∧ (∀ u l, units[u]? = some l → bytesAt (weakByte t core) l 16 =
             (List.range (16 / e)).flatMap fun k => leBytes e (tile.elem half (32 * (u / n) + 16 * (u % n) / e + k)).toNat)
           ∧ ∀ x, (∀ l ∈ units, ∀ i, i < 16 → x ≠ l.plus i) → weakByte t core x = weakByte s core x)
       ∧ (j.form.drains = true → ¬ clean → s.dropOption j.ctx = false → calm js →
         let mask := ((g.split j.slot).wait.map (·.lanes)).getD 0
         let detail := (tile.poison &&& j.form.reads).toNat
         ∃ u : State, drain = .next { u.trap { code := 16, detail, mask } with cur := s.cur }
           ∧ u.cur.group = j.group ∧ u.cur.slot = j.slot ∧ u.mem = s.mem ∧ u.ext = s.ext ∧ (u.part part).jobs = js))
  ∧ (∀ (key idx : Nat) (r : Result) (j : TileJob) (js : List TileJob) (half : Option Bool) (rows poison : BitVec 32) (s : State),
       let g := s.group key
       let part := partOf key
       let p := s.part part
       let old := p.tile (tileKey j.ctx j.tile)
       g.inflight[idx]? = some r → r.held = true → r.await = [] → r.due = none → (look none s.groups key).isSome = true →
       (s.cluster (clusterOf key)).cursor = 0 → p.array = [] → p.jobs = j :: js →
       (j.form = .fill half rows poison → j.group = key → r.id = j.id →
         (∀ k ∈ js, (∀ b, k.form ≠ .zero b) ∧ ∀ x, k.form ≠ .pois x) →
         g.inflight.find? (fun x => x.held && x.id == r.id) = some r →
         Next (exec (.longLatencyResult key idx) s) fun t =>
           let new := (t.part part).tile (tileKey j.ctx j.tile)
           (t.part part).jobs = js ∧ (t.part part).applied = p.applied + 1 ∧ t.mem = s.mem
           ∧ new.words = (old.fill half rows poison r.writes).words
           ∧ new.poison = (match half with
             | none => (old.poison &&& ~~~rows) ||| (poison &&& rows)
             | some _ => old.poison ||| (poison &&& rows))
           ∧ (∀ k x, r.writes = [.m k x] → new.elem half k = (if half.isSome then x &&& 0xFFFF else x))
           ∧ (t.group key).inflight = g.inflight.eraseP fun x => x.held && x.id == r.id)
       ∧ ((∀ a b c, j.form ≠ .fill a b c) ∨ j.group ≠ key ∨ r.id ≠ j.id →
         exec (.longLatencyResult key idx) s = .next s))

/-- R56 to R59, R65, R67 to R72, R74, R402 (derived): when every cluster has run its cycles and no edit, record, host
read or clearing is due first, a hop passes, and else the step does nothing (the model's order of what falls in one
hop, log entries 1 and 33): the hop count rises by 1 and no register or memory changes. In a hop the injector loads
its word as far as STEP lets it, each cluster takes from the word that comes to its station what its rates, its
remainders and its pouch admit, and what comes back to the injector is expired. The clearing of a round's last hop is
made once: the dies' budgets keep within MODULE_BUDGET, a cluster with a group gets its floor, the shares of a die's
clusters keep within what the floors leave, a lone bidder gets all of it up to its cap, and operating point and ratio
are chosen by what was used; no group, resident or away, is left with tokens drawn or refused. A halted cluster starts
again at its new point; of the groups that want a free reservation the first in R65's order gets it. -/
def Obligations.MarketSteps : Prop :=
  ∀ (cl : Nat) (c : Cluster) (s : State),
    (s.hopReady = true → Next (exec .reelHop s) fun t =>
      t.hop = s.hop + 1 ∧ t.groups = s.groups ∧ t.mem = s.mem ∧ t.ext = s.ext
      ∧ ∀ d ∈ s.started, (s.hop + 1) % Config.roundHops ≠ 0 →
        let x := s.die d
        let y := t.die d
        let floor := x.floorRate * x.floors
        let want := floor + x.shareSum / Config.roundHops
          + (if (s.hop + 1) % Config.roundHops < x.shareSum % Config.roundHops then 1 else 0)
        let load := if x.didt = 0 then want else min want (x.lastLoad + max 1 (x.didt * 78 / 392))
        let word (k : Nat) : Nat × Nat := x.ring.getD k (0, 0)
        y.ring.getD 0 (0, 0) = (min floor load, load - min floor load)
        ∧ y.injected = x.injected + load ∧ y.expired = x.expired + (word 32).1 + (word 32).2 ∧ y.lastLoad = load
        ∧ y.didtHeld = (x.didtHeld || decide (load < want))
        ∧ ∀ i, i < 32 → ∀ u, look none s.clusters (32 * d + i) = some u →
          let v := t.cluster (32 * d + i)
          let room := Config.pouchCapacity - u.pouch - u.taken
          let tf := min (min (word i).1 x.floorRate) (min u.floorRem room)
          let ts := min (min (word i).2 ((u.shareAllot + 6999) / 7000)) (min u.shareRem (room - tf))
          y.ring.getD (i + 1) (0, 0) = ((word i).1 - tf, (word i).2 - ts)
          ∧ v.floorRem = u.floorRem - tf ∧ v.shareRem = u.shareRem - ts
          ∧ (u.halted = false → v.pouch = u.pouch ∧ v.taken = u.taken + tf + ts
            ∧ v.due = u.due + (u.frac + opRate u.op) / 14 ∧ v.frac = (u.frac + opRate u.op) % 14)
          ∧ (u.halted = true → v.pouch = u.pouch + tf + ts ∧ v.taken = u.taken ∧ v.due = u.due))
    ∧ (s.hopReady = false → exec .reelHop s = .next s)
    ∧ (s.started ≠ [] → s.lastHop = true → s.hopDone = true → s.cleared = false →
      Next (exec .marketClearing s) fun t =>
        t.cleared = true ∧ t.hop = s.hop ∧ t.mem = s.mem
        ∧ (∀ k g, look none t.groups k = some g → g.drawn = 0 ∧ g.refused = 0)
        ∧ (∀ k w, look none t.wgs k = some w → ∀ e ∈ w.saved, ∀ g, e.2 = some g → g.drawn = 0 ∧ g.refused = 0)
        ∧ let j := s.judged.getD s.judge
          let m := tokensOf (look 0 j.regs regBudget).toNat
          (s.started.map fun d => (t.die d).budget).sum ≤ m
          ∧ ∀ d ∈ s.started,
            let y := t.die d
            let judged (k : Nat) : Bool := j.groups.any fun e => clusterOf e.key == k
            let here (k : Nat) : Bool := s.groups.any fun e => clusterOf e.1 == k
            let ks := (List.range 32).map (32 * d + ·)
            let pool := Config.roundHops * (y.budget - y.floorRate * (ks.filter judged).length)
            min (m / 16) 16777215 ≤ y.budget ∧ y.floorRate = y.budget / 512
            ∧ y.shareSum = (ks.map fun k => (t.cluster k).shareAllot).sum ∧ y.shareSum ≤ pool
            ∧ ∀ k ∈ ks,
              let u := s.cluster k
              let v := t.cluster k
              let ctl := clCtlOf (look 0 j.regs (regCluster k))
              let used := ((j.groups.filter fun e => clusterOf e.key == k).map s.usedBy).foldl (· + ·) 0
              v.floorRem = (if judged k || here k then Config.roundHops * y.floorRate else 0)
              ∧ v.shareRem = v.shareAllot ∧ v.allot = v.floorRem + v.shareAllot ∧ (judged k = false → v.shareAllot = 0)
              ∧ (ks.filter judged = [k] → s.bidOf j k ≠ 0 →
                v.shareAllot = min pool (capOf y.budget y.floorRate ctl.cap
                  (thermal (Config.sensor s.tick k) (dieCtlOf (look 0 j.regs (regDie d))).tlim y.budget)
                    - Config.roundHops * y.floorRate))
              ∧ (v.nextOp, v.nextRatio) = chooseRatio (chooseOp used v.allot u.ran ctl.lo ctl.hi) ctl u.mmaSeen
              ∧ v.ran = 0 ∧ v.mmaSeen = false)
    ∧ (look none s.clusters cl = some c → c.halted = true →
      Next (exec (.operatingPointChange cl) s) fun t =>
        (t.cluster cl).op = c.nextOp ∧ (t.cluster cl).ratio = c.nextRatio ∧ (t.cluster cl).halted = false
        ∧ (t.cluster cl).pouch = c.pouch + c.taken ∧ (∀ k, k ≠ cl → t.cluster k = s.cluster k))
    ∧ (∀ w, (s.cluster cl).reservation = none → w ∈ (s.cluster cl).wanting →
      (∀ q ∈ (s.cluster cl).wanting, q ≠ w → s.wantsBefore w q = true ∧ s.wantsBefore q w = false) →
      Next (exec (.reservationRequest cl) s) fun t =>
        (t.cluster cl).reservation = some w.1 ∧ (t.cluster cl).wanting = (s.cluster cl).wanting.filter (· != w)
        ∧ (t.die (cl / 32)).granted = (s.die (cl / 32)).granted + 1 ∧ t.groups = s.groups)

/-- R260 to R262, R358 (derived): a split whose join is satisfied wakes from an explicit WAIT with a true predicate,
one whose expiry has passed with a false one, and its conditions are gone; a poll of a monitor on host memory that is
due asks for the word and puts the next poll off; its Successful completion meets the condition, at the tick, where
the word read does, and one that is not Successful, or none in 5,000 ticks, where all ones does. -/
def Obligations.WakingSteps : Prop :=
  (∀ (k slot : Nat) (d : Operand) (w : Waiting) (s : State),
     let g := s.group k
     (g.split slot).wait = some w → w.kind = .explicit d → s.recording g.ctx = false →
     (look none g.splits slot).isSome = true →
     let woke (v : Bool) (t : State) : Prop :=
       (match d with
         | .p n => ∀ p l, (t.group k).readP p l =
             if p = n.toNat ∧ p ≠ 15 ∧ w.lanes.getLsbD l then v else g.readP p l
         | _ => SameP g (t.group k))
       ∧ SameV g (t.group k) ∧ SameS g (t.group k)
       ∧ ∀ x, look none (t.group k).splits slot = some x → x.wait = none
     (s.wakeable k slot = true → Next (exec (.waitWake k slot) s) (woke true))
     ∧ (s.timedOut k slot = true → Next (exec (.waitTimeout k slot) s) (woke false)))
  ∧ (∀ (k slot i a : Nat) (lost : Bool) (w : Waiting) (c : Cond) (s : State),
       let g := s.group k
       (look none g.splits slot).isSome = true →
       (g.split slot).wait = some w → w.conds[i]? = some c → s.pollDue g c = some a →
       Next (exec (.monitorHostPoll k slot i lost) s) fun t =>
         (∃ v, ((t.group k).split slot).wait = some v ∧ v.conds = w.conds.set i { c with tested := s.tick })
         ∧ t.mem = s.mem ∧ t.ext = s.ext ∧ KeptRegs g (t.group k)
         ∧ ∃ q, t.port.out = s.port.out ++ [q]
           ∧ q.kind = .monitor i (BitVec.ofNat 32 (leNat (s.peeks (.ext a) 4)))
           ∧ q.tag = s.port.nextTag ∧ q.hevis = false ∧ q.addr = a ∧ q.size = 4 ∧ q.sentTick = s.tick ∧ q.lost = lost
           ∧ q.origin.group = k ∧ q.origin.slot = slot ∧ q.origin.va = c.addr.toNat)
  ∧ (∀ (tag i : Nat) (word : Word) (q : OutReq) (w : Waiting) (c : Cond) (data : List Byte) (st : CplStatus) (s : State),
       let k := q.origin.group
       let slot := q.origin.slot
       s.sent tag = some q → q.kind = .monitor i word → q.hevis = false → s.isMaker q.origin = true →
       (look none (s.group k).splits slot).isSome = true →
       ((s.group k).split slot).wait = some w → w.conds[i]? = some c →
       c.kind = .monitor → c.met = none → c.addr.toNat = q.origin.va →
       let tested (x : Word) (t : State) : Prop :=
         ∃ v, ((t.group k).split slot).wait = some v
           ∧ v.conds = w.conds.set i { c with met := if c.wordOk x then some s.tick else none }
       (s.tick ≤ q.sentTick + 5000 → q.lost = false →
         Next (exec (.pcieCompletion tag { status := .successful, data }) s) (tested word))
       ∧ (s.tick ≤ q.sentTick + 5000 → st ≠ .successful →
         Next (exec (.pcieCompletion tag { status := st, data }) s) (tested 0xFFFFFFFF))
       ∧ (q.sentTick + 5000 ≤ s.tick → Next (exec (.cplTimeout tag) s) (tested 0xFFFFFFFF)))

/-! ## The part's other steps: engines -/

/-- R129, R133, R264, R267, R270, R275, R276, R294, R373, R424 (derived): an engine request of a COPY within device
memory moves its bytes, and the command of one block is done; a command whose page is here goes on; between FCLK cycles
a closed batch with every command performed and every write acknowledged completes, and the tags of its handle fall, and
one with a write to be acknowledged stays; an MSTA whose tile was read adds the elements of its rows into device memory,
each once, in its ACC format, writes nothing else, and is done. -/
def Obligations.EngineSteps : Prop :=
  (∀ (id d a x y : Nat) (s : State) (c : Cmd),
     look none s.cmds id = some c → c.kind = .copy d a 16 → c.reqs = [d / 256] → c.waiting = none → c.bar = none →
     c.fetch = [] →
     s.engAt c d 16 true = .at (.dev x) → s.engAt c a 16 false = .at (.dev y) →
     (∀ i, i < 16 → s.poisoned (.dev (y + i)) = false) →
     Next (exec (.engineRequest id 0) s) fun t =>
       (∀ k, look 0 t.mem k = if x ≤ k ∧ k < x + 16 then look 0 s.mem (y + (k - x)) else look 0 s.mem k)
       ∧ look none t.cmds id = none ∧ t.groups = s.groups ∧ t.ext = s.ext)
  ∧ (∀ (id page batch : Nat) (c : Cmd) (b : Batch) (s : State),
       let seq := batch % 2 ^ 24
       let grp := batch / 2 ^ 24 % 16
       let wg := batch / 2 ^ 28
       (look none s.cmds id = some c → c.waiting = some page → (c.here = true ∨ s.pageIsHere c.ctx page = true) →
         Next (exec (.enginePageResume id) s) fun t =>
           look none t.cmds id = some { c with waiting := none, here := false } ∧ { t with cmds := s.cmds } = s)
       ∧ (look none s.cmds id = some c → c.waiting = some page → c.here = false → s.pageIsHere c.ctx page = false →
         exec (.enginePageResume id) s = .next s)
       ∧ ((s.wgOf wg).batches.find? (fun e => e.1 == grp && e.2.seq == seq && e.2.closed && e.2.count == e.2.done) =
           some (grp, b) →
         s.answered b.tags = false → Next (exec (.batchComplete batch) s) fun t =>
           t.wgs = s.wgs ∧ t.groups = s.groups ∧ t.mem = s.mem)
       ∧ ((s.wgOf wg).batches.find? (fun e => e.1 == grp && e.2.seq == seq && e.2.closed && e.2.count == e.2.done) =
           some (grp, b) →
         (s.cluster ((s.wgOf wg).core / 4)).cursor = 0 → s.answered b.tags = true →
         Next (exec (.batchComplete batch) s) fun t =>
           (t.wgOf wg).incomplete grp seq = false ∧ t.mem = s.mem ∧ t.cmds = s.cmds
           ∧ ∀ k g, look none s.groups k = some g → g.wg = wg →
             ∃ h, look none t.groups k = some h ∧ (∀ e ∈ h.tags, e.2 ≠ some (handleWord seq grp))))
  ∧ (∀ (id base pitch acc x : Nat) (half : Bool) (words : Sparse Word) (skip : BitVec 32) (c : Cmd) (s : State),
       let e := if half then 2 else 4
       let off (k : Nat) : Nat := x + (mstaAddr base pitch half k - base)
       let old (k : Nat) : Word := BitVec.ofNat 32 (leNat (s.peeks (.dev (off k)) e))
       look none s.cmds id = some c → c.kind = .msta base pitch acc half words skip → c.arrived = true →
       c.waiting = none → c.fetch = [] → rowBytes half ≤ pitch → s.poison = [] →
       (∀ a n, base ≤ a → a < base + 32 * pitch → s.engAt c a n true = .at (.dev (x + (a - base)))) →
       Next (exec (.mstaApply id) s) fun t =>
         look none t.cmds id = none ∧ t.ext = s.ext ∧ t.groups = s.groups
         ∧ (∀ k, k < 1024 → skip.getLsbD (k / 32) = false →
             leNat (t.peeks (.dev (off k)) e) =
               (if acc = 3 then old k + look 0 words k
                 else accAdd acc (old k) ((accFmt acc).val (look 0 words k))).toNat % 2 ^ (8 * e))
         ∧ ∀ y, (∀ k, k < 1024 → skip.getLsbD (k / 32) = false → y < off k ∨ off k + e ≤ y) →
             look 0 t.mem y = look 0 s.mem y)

/-- R280 (derived): a COLL that arrives first at its object raises ARRIVED and stands as its member; when every
participant has arrived, each destination takes the elements combined in ascending rank order, the generation ends
and the commands are done. -/
def Obligations.Collectives : Prop :=
  ∀ (id x : Nat) (op : AddMinMax) (t : Ty) (d a : Nat) (b : BitVec 128) (c : Cmd) (k : Collective) (s : State),
    (look none s.cmds id = some c → c.kind = .coll op t d a b → c.arrived = false → c.waiting = none →
      s.engAt c (collObj b) 16 true = .at (.dev x) → look none s.colls (2 * x) = none →
      Next (exec (.collArrival id) s) fun u =>
        look none u.colls (2 * x) = some { members := [(collRank b, id)], parts := collParts b,
                                           count := collCount b, op, t, late := [], fetch := none, await := none }
        ∧ look none u.cmds id = some { c with arrived := true }
        ∧ leNat (u.peeks (.dev (x + 6)) 2) = (leNat (s.peeks (.dev (x + 6)) 2) + 1) % 65536
        ∧ ∀ q, q ≠ x + 6 → q ≠ x + 7 → look 0 u.mem q = look 0 s.mem q)
    ∧ (∀ (src dst : Nat → Nat),
      let e := collSize k.t
      let n := k.count * e
      let ids := byRank k
      look none s.colls (2 * x) = some k → k.fetch = none → k.await = none → k.members ≠ [] →
      leNat (s.peeks (.dev (x + 6)) 2) = k.parts → 1 ≤ k.count →
      (∀ i ∈ ids, ∃ o y du su blk, (s.cmd i).kind = .coll o y du su blk
        ∧ (∀ a z, du ≤ a → a < du + n → s.engAt (s.cmd i) a z true = .at (.dev (dst i + (a - du))))
        ∧ (∀ a z, su ≤ a → a < su + n → s.engAt (s.cmd i) a z false = .at (.dev (src i + (a - su))))
        ∧ (dst i + n ≤ x ∨ x + 16 ≤ dst i)) →
      (∀ i ∈ ids, ∀ j ∈ ids, i ≠ j → dst i + n ≤ dst j ∨ dst j + n ≤ dst i) →
      Next (exec (.collCombine (2 * x)) s) fun u =>
        look none u.colls (2 * x) = (if k.late = [] then none else some { k with members := [] })
        ∧ (∀ i ∈ ids, look none u.cmds i = none)
        ∧ leNat (u.peeks (.dev x) 4) = (leNat (s.peeks (.dev x) 4) + 1) % 2 ^ 32
        ∧ leNat (u.peeks (.dev (x + 6)) 2) = 0
        ∧ (∀ i ∈ ids, ∀ m, m < k.count → leNat (u.peeks (.dev (dst i + m * e)) e) =
            (collFold k.op k.t (ids.map fun j =>
              BitVec.ofNat 32 (leNat (s.peeks (.dev (src j + m * e)) e)))).toNat % 2 ^ (8 * e))
        ∧ ∀ y, (∀ i ∈ ids, y < dst i ∨ dst i + n ≤ y) → (y < x ∨ x + 8 ≤ y) → look 0 u.mem y = look 0 s.mem y)

/-- R32, R100, R123 (derived): the L1 may publish one byte early: its point of coherence takes what the core's
strong loads saw (but over Hevis Link, where it may be lost: log entry 6), nothing else changes; a spill of the stack
cache changes nothing a program sees. -/
def Obligations.CacheSteps : Prop :=
  ∀ (core k : Nat) (s : State),
    let l := Loc.ofKey k
    Next (exec (.l1Evict core k) s) (fun t =>
      (overLink l = false → t.peek l = strongByte s core l) ∧ (∀ x, cellOf x ≠ cellOf l → t.peek x = s.peek x)
      ∧ t.l1 core k = none ∧ t.groups = s.groups)
    ∧ exec (.stackCacheSpill core) s = .next s

/-! ## Links and the port -/

/-- R127, R252, R356, R358, R359 (derived): a reply to a group's request, or such a request given up, takes the
request off the port and the result that waits for it waits for it no more; what it brings into the request's
registers is all ones where the request got no good answer; a Hevis Link request is sent again after 500 ticks, and
given up after 8 attempts. That a request is lost or not is settled when it is made, so that a lost one is never
acknowledged nor completed Successful, is the model's choice (log entry 6). An incoming Hevis Link request is applied
once: it writes, reads or updates device memory at its physical address, where no page table stands, and its reply is
sent, and the same tag again sends the first reply again and changes no memory. -/
def Obligations.LinkSteps : Prop :=
  (∀ (tag i : Nat) (q : OutReq) (g : Group) (r : Result) (data : List Byte) (st : CplStatus) (s : State),
     s.sent tag = some q → look none s.groups q.origin.group = some g → q.kind ≠ .unit → (∀ id, q.kind ≠ .fetch id) →
     (∀ id m, look none s.maps id = some m → m.ctx = q.origin.ctx → m.mkind = 0) →
     g.inflight.findIdx? (fun x => x.await.contains tag) = some i → g.inflight[i]? = some r → r.log = none →
     let gone (x : OutReq) : Bool := x.tag == tag || (q.kind.isFlush && x.kind == .posted && decide (x.tag < tag))
     let answered (v : List Write) (t : State) : Prop :=
       t.port.out.map (fun x => { x with sentTick := 0 }) =
         (s.port.out.filter fun x => !gone x).map (fun x => { x with sentTick := 0 })
       ∧ (t.group q.origin.group).inflight = g.inflight.set i
           { r with await := r.await.filter (· != tag),
                    writes := r.writes.map fun w => (v.find? (·.sameReg w)).getD w }
       ∧ KeptRegs g (t.group q.origin.group) ∧ (t.group q.origin.group).flags = g.flags
     let ones : List Write := q.regs.map (·.withWord 0xFFFFFFFF)
     let same (t : State) : Prop := t.mem = s.mem ∧ t.ext = s.ext
     let bumped (off : Nat) (t : State) : Prop :=
       (t.reg off).toNat = min ((s.reg off).toNat + 1) (2 ^ 64 - 1)
     let failed (t : State) : Prop := ∀ id, q.kind = .rmw id →
       (t.astOf id).c2 = min ((s.astOf id).c2 + 1) (2 ^ 32 - 1)
     let reply (st : CplStatus) : Instr := .pcieCompletion tag { status := st, data }
     (q.hevis = true →
       (q.lost = false → Next (exec (.hevisAck tag) s) fun t => answered [] t ∧ same t)
       ∧ (q.lost = true → exec (.hevisAck tag) s = .next s)
       ∧ (s.tick < q.sentTick + 500 → exec (.hevisRetry tag) s = .next s)
       ∧ (q.sentTick + 500 ≤ s.tick → q.attempts < 8 → Next (exec (.hevisRetry tag) s) fun t =>
           t.port.out = s.port.out.map (fun x => if x.tag = tag then
             { x with attempts := x.attempts + 1, sentTick := s.tick } else x)
           ∧ { t with port := s.port } = s)
       ∧ (q.sentTick + 500 ≤ s.tick → 8 ≤ q.attempts → Next (exec (.hevisRetry tag) s) fun t =>
           answered ones t ∧ bumped 0x200120 t))
     ∧ (q.nonPosted = true →
       (q.sentTick + 5000 ≤ s.tick → Next (exec (.cplTimeout tag) s) fun t =>
         answered ones t ∧ bumped 0x200128 t ∧ failed t)
       ∧ (s.tick < q.sentTick + 5000 → exec (.cplTimeout tag) s = .next s)
       ∧ (q.sentTick + 5000 < s.tick → exec (reply st) s = .next s)
       ∧ (s.tick ≤ q.sentTick + 5000 →
         (st ≠ .successful → Next (exec (reply st) s) fun t => answered ones t ∧ same t ∧ failed t)
         ∧ (q.lost = true → exec (reply .successful) s = .next s)
         ∧ (q.lost = false → (∀ n, q.kind ≠ .register n) →
           Next (exec (reply .successful) s) fun t => answered [] t ∧ same t)
         ∧ (q.lost = false → ∀ n, q.kind = .register n →
           Next (exec (reply .successful) s) fun t => answered (registerWords q.regs data n) t ∧ same t))))
  ∧ (∀ (src tag a n : Nat) (bs : List Byte) (op : AtomOp) (t : Ty) (v : DWord) (h : HevisOp)
       (e : Nat × Nat × List Byte) (s : State),
       s.stage = 2 →
       let clear (n : Nat) : Prop := ∀ i, i < n → devExists (a + i) = true ∧ s.inTables (a + i) = false
       let first : Prop := s.port.applied.find? (fun e => e.1 == src && e.2.1 == tag) = none
       let replied (b : List Byte) (u : State) : Prop :=
         u.port.replies = (src, tag, b) :: s.port.replies ∧ u.port.applied = (src, tag, b) :: s.port.applied
       (s.port.applied.find? (fun e => e.1 == src && e.2.1 == tag) = some e →
         Next (exec (.hevisRequestArrival src tag a h) s) fun u =>
           u.port.replies = e :: s.port.replies ∧ { u with port := s.port } = s)
       ∧ (first → clear bs.length →
         Next (exec (.hevisRequestArrival src tag a (.write bs)) s) fun u =>
           replied [] u ∧ physWrote s u a bs ∧ u.groups = s.groups)
       ∧ (first → clear n →
         Next (exec (.hevisRequestArrival src tag a (.read n)) s) fun u =>
           replied ((List.range n).map fun i => look 0 s.mem (canonicalDev (a + i))) u
          ∧ { u with port := s.port, free := s.free } = s)
       ∧ (first → clear (4 * t.regs) →
         (∀ i, i < 4 * t.regs → s.poisoned (.dev (canonicalDev a + i)) = false) →
         let old := s.peeks (.dev (canonicalDev a)) (4 * t.regs)
         Next (exec (.hevisRequestArrival src tag a (.rmw op t v)) s) fun u =>
           replied old u
           ∧ leNat (u.peeks (.dev (canonicalDev a)) (4 * t.regs)) =
             (atomInt op t (BitVec.ofNat 64 (leNat old)) v).toNat % 2 ^ (32 * t.regs)))

/-- R305, R306, R318 to R322, R348 to R350, R360 (derived): a DMWr of 128 bytes to an edit window joins the edit order
unless 64 of the host's already wait, any other shape and any outside the stream that IDE_REQUIRED asks for are
answered Unsupported Request. The first edit whose bytes have all come is decided, and changes desired state only
where its EXPECT names the record's version. For a page it is written to RESULT before the answer; for EDIT it is
given to the held result, to land like any other; for EDIT.f it is written to the registers at once and the split
leaves its wait, but for a CONFLICT, which traps. -/
def Obligations.EditPort : Prop :=
  ∀ (page offset : Nat) (data : List Byte) (bad ide : Bool) (e : Edit) (late rest : List Edit) (s : State),
    let counted (off : Nat) (t : State) : Prop := (t.reg off).toNat = min ((s.reg off).toNat + 1) (2 ^ 64 - 1)
    let refused (t : State) : Prop :=
      t.port.answer = some { status := .unsupported, data := [] } ∧ t.port.edits = s.port.edits
      ∧ t.port.results = s.port.results ∧ counted 0x200108 t ∧ { t with port := s.port } = s
    (s.port.presented = true → page < 4096 → s.ideRefuses ide = false → data.length = 128 →
      (s.hostEdits < 64 → Next (exec (.editWindowDmwr page 0 data false ide) s) fun t =>
        (∃ x, t.port.edits = insertEdit x s.port.edits ∧ x.page = some page ∧ x.data = data ∧ x.tick = s.editTick)
        ∧ { t with port := s.port } = s)
      ∧ (64 ≤ s.hostEdits → exec (.editWindowDmwr page 0 data false ide) s = .next s))
    ∧ (s.port.presented = true → page < 4096 → s.ideRefuses ide = false →
      (data.length ≠ 128 ∨ offset ≠ 0 ∨ bad = true) →
      Next (exec (.editWindowDmwr page offset data bad ide) s) fun t =>
        refused t ∧ ∀ k, k ≠ 0x200108 → t.reg k = s.reg k)
    ∧ (s.port.presented = true → page < 4096 → s.ideRefuses ide = true →
      Next (exec (.editWindowDmwr page offset data bad ide) s) fun t =>
        refused t ∧ counted 0x200100 t ∧ ∀ k, k ≠ 0x200108 → k ≠ 0x200100 → t.reg k = s.reg k)
    ∧ ((s.port.presented = false ∨ 4096 ≤ page) → exec (.editWindowDmwr page offset data bad ide) s = .next s)
    ∧ ((s.editDue = false ∨ s.hopDone = false) → exec .editDecision s = .next s)
    ∧ (s.editDue = true → s.hopDone = true → s.port.edits = late ++ e :: rest → (∀ x ∈ late, x.await ≠ []) →
      e.await = [] →
      let st := (s.decide e.page e.ctx e.data).1
      let version := (s.decide e.page e.ctx e.data).2
      let id := field e.data 8 4
      let old := s.record id
      let decided (t : State) : Prop :=
        t.port.edits = late ++ rest ∧ t.port.decided = s.port.decided + 1
        ∧ (st ≠ .ok → t.dsr = s.dsr ∧ t.accepted = s.accepted)
        ∧ (st = .ok →
          field e.data 0 8 = old.version ∧ version = old.version + 1 ∧ t.accepted = s.accepted + 1
          ∧ (t.record id).version = version ∧ (t.record id).present = (field e.data 14 2 == 1)
          ∧ (field e.data 14 2 = 1 → (t.record id).body = e.data)
          ∧ ∀ k, k ≠ id → look none t.dsr k = look none s.dsr k)
      (∀ p, e.page = some p → Next (exec .editDecision s) fun t =>
        decided t ∧ t.mem = s.mem ∧ t.groups = s.groups
        ∧ look (0, 0, 0) t.port.results p = (((look (0, 0, 0) s.port.results p).1 + 1) % 2 ^ 32, st.code, version)
        ∧ t.port.answer = some { status := if st = .ok then .successful else .retry, data := [] })
      ∧ (∀ g, e.page = none → look none s.groups e.group = some g → s.recording g.ctx = false →
        let mine (r : Result) : Bool := r.held && r.id == e.id
        let wrote (h : Group) : Prop := 512 ≤ e.dest → e.dest < 639 →
          h.readS (e.dest - 512) = BitVec.ofNat 32 st.code ∧ h.readS (e.dest - 511) = BitVec.ofNat 32 version
        (∀ i r, e.f = false → g.inflight.findIdx? mine = some i → g.inflight[i]? = some r →
          Next (exec .editDecision s) fun t =>
            decided t ∧ t.mem = s.mem ∧ KeptRegs g (t.group e.group) ∧ (t.group e.group).splits = g.splits
            ∧ (t.group e.group).inflight = g.inflight.set i { r with held := false, writes := editWrites e.dest st version })
        ∧ (e.f = true → st ≠ .conflict → Next (exec .editDecision s) fun t =>
          decided t ∧ t.mem = s.mem ∧ wrote (t.group e.group)
          ∧ ∀ x, look none (t.group e.group).splits e.slot = some x → x.wait = none)
        ∧ (e.f = true → st = .conflict → ∃ u : State,
          exec .editDecision s =
            .next (u.trap { code := 17, detail := version % 2 ^ 32, mask := u.cur.mask, done := true })
          ∧ decided u ∧ u.cur.group = e.group ∧ u.cur.slot = e.slot ∧ u.mem = s.mem ∧ wrote u.me)))

/-- R118, R316, R345 to R347, R353, R354, R360, R395, R401, R407, R412 (derived): what the function does with the
host's other requests. A write to a read-only or unassigned place is discarded and counted, as is every write outside
the stream that IDE_REQUIRED asks for, an AtomicOp too; a power register takes the value written but for its reserved
bits, a register without a rule of its own takes all of it, and an offset that is no listed register counts as
unassigned (the model's reading, log entry 39); a counter is cleared by 0 alone, a register of a vector or of the
debug core is as its own step says; BAR4 reaches device memory by physical address, and is refused where there is
none, and its writes change no page table (where those stand is the model's choice, log entry 19); unmasking a vector
or the function sends what is pending; requests are answered Retry Status before the function is presented, and
Unsupported Request where the feature is absent; a read of RESULT gives its three fields at one moment. -/
def Obligations.HostRequests : Prop :=
  ∀ (off bar a n v d k page : Nat) (x bits : DWord) (bs : List Byte) (ide : Bool) (f : AbsentFeature) (s : State),
    let only (t : State) : Prop := { t with port := { t.port with regs := s.port.regs } } = s
    let port (t : State) : Prop := { t with port := s.port } = s
    let read (t : State) : Prop := { t with port := s.port, free := s.free } = s
    let counts (t : State) : Prop :=
      (t.reg 0x200100).toNat = min ((s.reg 0x200100).toNat + 1) (2 ^ 64 - 1) ∧ ∀ k, k ≠ 0x200100 → t.reg k = s.reg k
    let answered (st : CplStatus) (d : List Byte) (t : State) : Prop := t.port.answer = some { status := st, data := d }
    let discarded (i : Instr) : Prop := Next (exec i s) fun t => only t ∧ counts t
    let write : Instr := .registerWrite (0x0D0_0000 + off) ⟨x, ide⟩
    let takes (y : DWord) : Prop := Next (exec write s) fun t => only t ∧ ∀ k, t.reg k = if k = off then y else s.reg k
    let nowhere : Prop := ∃ i, i < bs.length ∧ devExists (a + i) = false
    (s.ideRefuses ide = true →
      discarded (.hostWriteDiscard bar ⟨off, ide⟩) ∧ discarded (.registerWrite off ⟨x, ide⟩)
      ∧ discarded (.msixUnmask ⟨v, ide⟩ false)
      ∧ (s.port.presented = true → discarded (.bar4Access a n (some bs) ide)
        ∧ Next (exec (.bar4Access a n none ide) s) fun t => port t ∧ counts t ∧ answered .unsupported [] t))
    ∧ (s.ideRefuses ide = false →
      discarded (.hostWriteDiscard 0 ⟨off, ide⟩)
      ∧ ((off < 0x0D0_0000 ∨ regKind ((off - 0x0D0_0000) / 8 * 8) = .none) → discarded (.hostWriteDiscard 2 ⟨off, ide⟩))
      ∧ (bar ≠ 0 → bar ≠ 2 → exec (.hostWriteDiscard bar ⟨off, ide⟩) s = .next s)
      ∧ (0x0D0_0000 ≤ off → regKind ((off - 0x0D0_0000) / 8 * 8) ≠ .none →
        exec (.hostWriteDiscard 2 ⟨off, ide⟩) s = .next s)
      ∧ (off < 0x0D0_0000 → discarded (.registerWrite off ⟨x, ide⟩))
      ∧ (regKind off = .none → discarded write)
      ∧ (regKind off = .plain → takes x)
      ∧ (regKind off = .masked bits → takes (x &&& bits))
      ∧ (regKind off = .counter → takes (if x = 0 then 0 else s.reg off))
      ∧ (regKind off = .budget → exec write s = exec (.moduleBudgetWrite x) s)
      ∧ (regKind off = .die d → exec write s = exec (.dieCtlWrite d ⟨x, ide⟩) s)
      ∧ (regKind off = .cluster d → exec write s = exec (.clCtlWrite d ⟨x, ide⟩) s)
      ∧ (regKind off = .requests d k → x ≠ 0 → exec write s = .next s)
      ∧ (regKind off = .requests d k → x = 0 → Next (exec write s) fun t =>
        (∀ j, look 0 (t.die d).counters j = if j = k then 0 else look 0 (s.die d).counters j)
        ∧ (∀ j, j ≠ d → t.die j = s.die j) ∧ { t with diesT := s.diesT } = s)
      ∧ (regKind off = .vector v → x.getLsbD 32 = false →
        exec write s = exec (.msixUnmask ⟨v, ide⟩ false) (s.setReg off x))
      ∧ (regKind off = .vector v → x.getLsbD 32 = true → Next (exec write s) fun t =>
        port t ∧ (∀ k, t.reg k = if k = off then x else s.reg k) ∧ t.port.pending = s.port.pending
        ∧ t.port.messages = s.port.messages ∧ t.port.unmasked = s.port.unmasked.filter (· != v))
      ∧ (regKind off = .command → s.dbgBusy = true → discarded write)
      ∧ (regKind off = .command → s.dbgBusy = false → Next (exec write s) fun t =>
        { t with agenda := s.agenda } = s
        ∧ t.agenda = .event (match x.toNat / 2 ^ 56 with
            | 1 => .stop (bitsAt x.toNat 32 11)
            | 2 => .resume (bitsAt x.toNat 32 11)
            | 3 => .step (bitsAt x.toNat 32 11) (bitsAt x.toNat 44 4)
            | 4 => .dump (bitsAt x.toNat 32 11) (x.toNat % 2 ^ 32)
            | op => .badop (BitVec.ofNat 8 op)) :: s.agenda)
      ∧ ((2048 ≤ v ∨ s.port.unmasked.contains v = true) → exec (.msixUnmask ⟨v, ide⟩ false) s = .next s)
      ∧ (v < 2048 → s.port.unmasked.contains v = false → Next (exec (.msixUnmask ⟨v, ide⟩ false) s) fun t =>
        port t ∧ t.port.unmasked = v :: s.port.unmasked
        ∧ (s.port.functionMasked = true → t.port.messages = s.port.messages ∧ t.port.pending = s.port.pending)
        ∧ (s.port.functionMasked = false →
          t.port.messages = s.port.pending.filter (fun y => (v :: s.port.unmasked).contains y) ++ s.port.messages
          ∧ t.port.pending = s.port.pending.filter fun y => !(v :: s.port.unmasked).contains y))
      ∧ (s.port.presented = true → ¬ nowhere → (∀ i, i < bs.length → s.inTables (a + i) = false) →
        Next (exec (.bar4Access a n (some bs) ide) s) fun t =>
          physWrote s t a bs ∧ t.groups = s.groups ∧ t.port = s.port)
      ∧ (s.port.presented = true → ¬ nowhere → (∀ i, i < bs.length → s.inTables (a + i) = true) →
        exec (.bar4Access a n (some bs) ide) s = .next s)
      ∧ (s.port.presented = true → nowhere → discarded (.bar4Access a n (some bs) ide))
      ∧ (s.port.presented = true → (∀ i, i < n → devExists (a + i) = true) →
        Next (exec (.bar4Access a n none ide) s) fun t => read t ∧ ∃ d, answered .successful d t ∧ d.length = n
          ∧ ∀ i, i < n → s.inTables (a + i) = false → d.getD i 0 = look 0 s.mem (canonicalDev (a + i)))
      ∧ (s.port.presented = true → (∃ i, i < n ∧ devExists (a + i) = false) →
        Next (exec (.bar4Access a n none ide) s) fun t => port t ∧ answered .unsupported [] t)
      ∧ (s.port.presented = true → Next (step { s with agenda := .hostRead 0 (4096 * page + 0x80) 16 ide :: s.agenda })
        fun t => answered .successful
          (let (seq, st, version) := look (0, 0, 0) s.port.results page
           leBytes 4 seq ++ leBytes 2 st ++ [0, 0] ++ leBytes 8 version) t))
    ∧ (s.port.presented = false → exec (.bar4Access a n none ide) s = .next s
      ∧ exec (.bar4Access a n (some bs) ide) s = .next s)
    ∧ Next (exec (.msixUnmask ⟨v, ide⟩ true) s) (fun t =>
      port t ∧ t.port.functionMasked = false ∧ t.port.unmasked = s.port.unmasked
      ∧ t.port.messages = s.port.pending.filter (fun y => s.port.unmasked.contains y) ++ s.port.messages
      ∧ t.port.pending = s.port.pending.filter fun y => !s.port.unmasked.contains y)
    ∧ (s.port.presented = false → Next (exec .configRequest s) fun t => port t ∧ answered .retry [] t)
    ∧ (s.port.presented = true → Next (exec .configRequest s) fun t => port t ∧ answered .successful [] t)
    ∧ (let refused : Prop := f = .atomicCompleter ∧ s.ideRefuses ide = true
       (¬ refused → Next (exec (.unsupportedRequest f ⟨false, ide⟩) s) (fun t => port t ∧ answered .unsupported [] t)
         ∧ exec (.unsupportedRequest f ⟨true, ide⟩) s = .next s)
       ∧ (refused → Next (exec (.unsupportedRequest f ⟨false, ide⟩) s) (fun t =>
           port t ∧ counts t ∧ answered .unsupported [] t)
         ∧ discarded (.unsupportedRequest f ⟨true, ide⟩)))

/-- R360, R361, R393, R398, R399 (derived): the SPDM responder's answers. Its certificate chain, slot 0, is the one
read at the start. Without an identity key it answers CHALLENGE, KEY_EXCHANGE and signed GET_MEASUREMENTS with an
error, and with one it signs by it; a requester that offers neither algorithm gets an error and no session; IDE keys
are taken over a finished session only. What is signed, the order of the messages and the index of a measurement are
presumed (log entry 37). -/
def Obligations.SpdmAnswers : Prop :=
  ∀ (sigOk hashOk : Bool) (index slot stream : Nat) (nonce key : List Byte) (s : State),
    s.port.presented = true →
    let gives (a : SpdmAnswer) (t : State) : Prop := t.port.spdm = some a ∧ { t with port := s.port } = s
    let bs := s.blocks index
    Next (exec .getVersion s) (gives .version)
    ∧ Next (exec .getCapabilities s) (gives .capabilities)
    ∧ Next (exec (.negotiateAlgorithms sigOk hashOk) s) (fun t =>
      gives (if sigOk || hashOk then .algorithms else .error) t ∧ (sigOk || hashOk || t.port.session == 0) = true)
    ∧ Next (exec .getDigests s) (gives (.digests (Config.sha3 s.boot.chain)))
    ∧ Next (exec (.getCertificate slot) s) (gives (if slot = 0 then .certificate s.boot.chain else .error))
    ∧ Next (exec (.getMeasurements false index nonce) s) (gives (.measurements bs []))
    ∧ (∀ seeds, s.boot.identity = some seeds →
      Next (exec (.challenge nonce) s) (gives (.challengeAuth (Config.sign seeds nonce)))
      ∧ Next (exec (.getMeasurements true index nonce) s)
        (gives (.measurements bs (Config.sign seeds (nonce ++ bs.flatMap (·.2)))))
      ∧ (s.port.algorithms = true → Next (exec (.keyExchange nonce) s) fun t =>
        gives (.keyExchange (Config.sign seeds nonce)) t ∧ t.port.session = 1))
    ∧ (s.boot.identity = none →
      Next (exec (.challenge nonce) s) (gives .error)
      ∧ Next (exec (.getMeasurements true index nonce) s) (gives .error))
    ∧ (s.boot.identity = none ∨ s.port.algorithms = false → Next (exec (.keyExchange nonce) s) fun t =>
      gives .error t ∧ t.port.session = s.port.session)
    ∧ (s.port.session = 1 → Next (exec .finish s) fun t => gives .finished t ∧ t.port.session = 2)
    ∧ (s.port.session = 2 → stream ≤ 4 → Next (exec (.ideKm stream key) s) fun t =>
      gives .ideDone t ∧ (stream, key) ∈ t.port.streams
      ∧ ∀ e, e.1 ≠ stream → (e ∈ t.port.streams ↔ e ∈ s.port.streams))
    ∧ (s.port.session ≠ 2 → Next (exec (.ideKm stream key) s) fun t =>
      gives .error t ∧ t.port.streams = s.port.streams)

/-! ## Notices, the Blocker and the service core -/

/-- R307, R352, R354, R358, R381 to R383 (derived): a record event on a ring in host memory, once what its record
waits for is acknowledged, first asks for CONS; then, with room, it writes the record into the producer's slot and
moves PROD on, and on a full ring it writes no record and sets OVF; a CONS that does not come reads all ones (the
model's choice, log entry 61); the service core answers an unknown call with STATUS 2 and hands call 4 to ring 0; a
block of the heap is of the order asked for, aligned to its size, and a freed block is free again. -/
def Obligations.RecordsAndCalls : Prop :=
  (∀ (idx : Nat) (n : Notice) (r : RingAt) (s : State),
     s.notices[idx]? = some n → (∀ m ∈ s.notices.take idx, m.ring ≠ n.ring) → s.answered n.after = true →
     s.ringAt n.ring = some r →
     r.ctx = none → n.data.length = r.slot → (∀ off, r.route = some off → (s.routeAt off).evaddr = 0) →
     (n.cons = none → (∀ x ∈ s.port.out, x.tag < s.port.nextTag) →
       Next (exec (.recordEvent idx) s) fun t =>
         t.mem = s.mem ∧ t.ext = s.ext ∧ t.groups = s.groups
         ∧ ∃ q, t.port.out = s.port.out ++ [q] ∧ q.kind = .unit ∧ q.tag = s.port.nextTag
           ∧ q.addr = r.base + 8 ∧ q.size = 8
           ∧ t.notices = s.notices.set idx { n with after := [q.tag], cons := some q.lost })
     ∧ ∀ gone, n.cons = some gone →
     let c := if gone then 2 ^ 64 - 1 else leNat (s.peeks (.ext (r.base + 8)) 8)
     let p := leNat (s.peeks (.ext r.base) 8)
     let used := (p % 2 ^ 32 + 2 ^ 32 - c % 2 ^ 32) % 2 ^ 32
     let at' := r.base + 64 + r.slot * (p % 2 ^ 32 % r.cap)
     Next (exec (.recordEvent idx) s) fun t =>
       t.notices = s.notices.eraseIdx idx ∧ t.mem = s.mem ∧ t.groups = s.groups
       ∧ (used < r.cap →
         t.peeks (.ext at') r.slot = n.data
         ∧ leNat (t.peeks (.ext r.base) 8) =
           (p + 1) % 2 ^ 32 + (if p.testBit 63 && !c.testBit 63 then 2 ^ 63 else 0)
         ∧ ∀ k, (k < r.base ∨ r.base + 8 ≤ k) → (k < at' ∨ at' + r.slot ≤ k) → look 0 t.ext k = look 0 s.ext k)
       ∧ (r.cap ≤ used →
         leNat (t.peeks (.ext r.base) 8) = (if p.testBit 63 then p else p + 2 ^ 63)
         ∧ ∀ k, (k < r.base ∨ r.base + 8 ≤ k) → look 0 t.ext k = look 0 s.ext k))
  ∧ (∀ (ctx slot n order off : Nat) (started : Bool) (c : Context) (s : State),
       let a := s.callSlot ctx slot
       let call := leNat (s.ctxRead ctx (a + 2) 2)
       (look none s.ctxs ctx = some c → c.paging = none → c.calls.find? (fun e => !e.2) = some (slot, started) →
         (call = 4 → Next (exec (.syscallService ctx) s) fun t =>
           t.mem = s.mem ∧ ∃ x, t.notices = s.notices ++ [{ ring := .ctx ctx 0, data := x, after := [], cons := none }]
             ∧ x.length = 32
             ∧ field x 0 2 = 4 ∧ field x 8 8 = a % 2 ^ 64)
         ∧ ((call = 0 ∨ 4 < call) →
           Apart s ctx (addrs (a + 4) 4) →
           Next (exec (.syscallService ctx) s) fun t =>
             leNat (t.ctxRead ctx (a + 4) 4) = 2 ∧ t.groups = s.groups))
       ∧ ((∀ e ∈ c.free, e.2 % 2 ^ e.1 = 0) → (c.alloc order n).2 = some off →
         n ≤ 2 ^ blockOrder n ∧ 6 ≤ blockOrder n ∧ off % 2 ^ blockOrder n = 0
         ∧ (blockOrder n, off) ∈ (c.alloc order n).1.taken)
       ∧ (c.taken.find? (fun e => e.2 == off) = some (n, off) → ¬ (n < order ∧ (n, if off / 2 ^ n % 2 = 0 then off + 2 ^ n
           else off - 2 ^ n) ∈ c.free) →
         (c.release order off).2 = true ∧ (n, off) ∈ (c.release order off).1.free))

/-- R332, R335, R339, R343 (derived): the Blocker alone with one CTX record takes it from ABSENT through PENDING and
BUILDING to LIVE, its mark then at the version reached, and after a DELETE through DRAINING to RETIRED, with nothing
realised; a QUEUE record that is draining, empty or with its grace passed, ends where its step is the planned one, and
its entries left are counted and noticed. -/
def Obligations.BlockerSteps : Prop :=
  ∀ (id : Nat) (r : Record) (q : Queue) (t0 : Nat) (s : State),
    let a := s.astOf id
    (s.stage ≠ 0 → s.dsr = [(id, some r)] → r.kind = 1 →
      look none s.maps id = none → look none s.launches id = none → look none s.queues id = none →
      let steps (p : State → Prop) : Prop := Next (exec .blockerStep s) fun t =>
        (t.astOf id).steps = a.steps + 1 ∧ t.mem = s.mem ∧ t.ext = s.ext ∧ t.groups = s.groups ∧ p t
      (a.phase = .absent → r.present = true → r.version ≠ a.mark →
        steps fun t => (t.astOf id).phase = .pending ∧ (t.astOf id).working = r.version ∧ (t.astOf id).body = r.body)
      ∧ (a.phase = .pending → r.present = true → a.working = r.version →
        steps fun t => (t.astOf id).phase = .building ∧ (t.astOf id).working = r.version)
      ∧ (a.phase = .building → a.working = r.version →
        steps fun t => (t.astOf id).phase = .live ∧ (t.astOf id).mark = r.version
          ∧ (look none t.ctxs id).isSome = true ∧ (t.ctxOf id).fatal = false)
      ∧ (a.phase = .live → r.present = false → r.version ≠ a.mark →
        steps fun t => (t.astOf id).phase = .draining ∧ (t.astOf id).working = r.version)
      ∧ (a.phase = .draining → r.present = false →
        steps fun t => (t.astOf id).phase = .retired ∧ (t.astOf id).mark = r.version
          ∧ look none t.ctxs id = none))
    ∧ (look none s.queues id = some q → q.closedAt = some t0 → a.phase = .draining → s.stage ≠ 0 →
      look none s.maps id = none → look none s.launches id = none → (∃ u, s.plan = some (id, u)) →
      (s.record id).present = false → (s.entries q = 0 ∨ t0 + field (s.body id) 40 4 ≤ s.tick) →
      Apart s q.ctx (addrs (q.cb + 8) 8) →
      Next (exec (.queueGraceExpiry id) s) fun t =>
        look none t.queues id = none ∧ (t.astOf id).phase = .retired ∧ (t.astOf id).mark = (s.record id).version
        ∧ (t.astOf id).c0 = s.entries q ∧ (t.astOf id).steps = a.steps + 1 ∧ t.groups = s.groups
        ∧ (s.entries q ≠ 0 → t.notices.length = s.notices.length + 1))

/-- R42, R51, R54, R81, R332, R341, R370, R377, R378, R380 (derived): the next work cluster of one workgroup of the
only launch offered room starts where the plan gives, its groups in R81's state, as a step on its record while that is
BUILDING and the step is the planned one (a later work cluster of a LIVE launch is none: the model's choice, log entry
61); a group whose lanes have all exited and with nothing in flight leaves, and its workgroup with the last of its
groups; a stopping workgroup of one group that stands still is saved away, its frame's bytes in its save area and
whole in the model's own copy, from which it returns (the model's choice, log entry 20), or discarded where it drains;
one that had not stopped goes on when what it missed is there, and one that is away returns to a core with room, its
window as it stood or first written to its save area where another core is to take it back; a window claimed leaves
its core. -/
def Obligations.WorkgroupSteps : Prop :=
  (∀ (id core u key : Nat) (spots : List Spot) (g : Group) (s : State),
     let l := s.launch id
     let building : Bool := (s.astOf id).phase == .building
     ((building = true → (s.record id).kind = 3 ∧ (s.astOf id).working = (s.record id).version
         ∧ (l.coop = false → l.next = 0) ∧ ∃ u, s.plan = some (id, u)) →
       s.offers = [id] → s.planFrom l (s.batchOf id) l.next s.room = some [(core, spots)] →
       s.unowned l.need [(core, spots)] = true → s.fitUnits l.ctx l.unitsPerWg = some u →
       Next (exec .workClusterPlace s) fun t =>
         (t.launch id).next = l.next + s.batchOf id ∧ (t.launch id).started = l.started + 1
         ∧ (t.astOf id).steps = (s.astOf id).steps + (if building then s.batchOf id else s.batchOf id - 1)
         ∧ (t.launch id).since = none ∧ t.offered = some id ∧ t.nextWg = s.nextWg + 1
         ∧ t.mem = s.mem
         ∧ (t.wgOf s.nextWg).launch = id ∧ (t.wgOf s.nextWg).index = l.next * l.wcluster
         ∧ (t.wgOf s.nextWg).core = core ∧ (t.wgOf s.nextWg).state = .running
         ∧ (t.wgOf s.nextWg).groups.length = spots.length
         ∧ ∀ k ∈ (t.wgOf s.nextWg).groups, ∃ h, look none t.groups k = some h
           ∧ h.launch = id ∧ h.wg = s.nextWg ∧ h.readS64 0 = BitVec.ofNat 64 l.arg
           ∧ h.readS64 2 = BitVec.ofNat 64 l.data ∧ (∀ i, 4 ≤ i → h.readS i = 0)
           ∧ (∀ i j, h.readV i j = 0) ∧ (∀ i j, i ≠ 15 → h.readP i j = false) ∧ (∀ f, look 0 h.flags f = 0)
           ∧ (∀ j, look 0 h.planes j = 0) ∧ h.fpx = 0 ∧ h.stack = [] ∧ h.gang = BitVec.ofNat 32 h.index)
     ∧ (look none s.groups key = some g → g.finished = true → s.quiet key = true →
       let w := s.wgOf g.wg
       Next (exec (.groupRetire key) s) fun t =>
         look none t.groups key = none ∧ (∀ k, k ≠ key → look none t.groups k = look none s.groups k) ∧ t.mem = s.mem
         ∧ (w.retired.length + 1 < w.groups.length → (t.wgOf g.wg).retired = w.retired ++ [g.index])
         ∧ (w.groups.length ≤ w.retired.length + 1 → look none t.wgs g.wg = none
           ∧ (t.launch w.launch).retired = (s.launch w.launch).retired + 1)))
  ∧ (∀ (wg key core k : Nat) (w : Workgroup) (r : Room) (spots : List Spot) (s : State),
       look none s.wgs wg = some w →
       let g := s.group key
       let free : Prop := (match (s.core w.core).latch with | some (_, x, _) => x == wg | none => false) = false
       let written (t : State) : Prop :=
         let a := s.unitAddr w.ctx (w.unit + 19 * (s.launch w.launch).need.groups)
         (t.wgOf wg).claimed = true ∧ (t.wgOf wg).shared = []
         ∧ (Apart s w.ctx (addrs a w.sharedBytes) →
             ∀ i, i < w.sharedBytes → (t.ctxRead w.ctx a w.sharedBytes).getD i 0 = look 0 w.shared i)
       (w.state = .stopping → free → s.stillWg w = true → w.draining = true →
         Next (exec (.preempt wg) s) fun t =>
           look none t.wgs wg = none ∧ ∀ k ∈ w.keys, look none t.groups k = none)
       ∧ (w.state = .stopping → free → s.stillWg w = true → w.draining = false → w.keys = [key] →
         s.writable g.ctx (s.unitAddr g.ctx (w.unit + 19 * g.index)) (s.frameOf key false).length = true →
         Next (exec (.preempt wg) s) fun t =>
           (t.wgOf wg).state = .away ∧ (t.wgOf wg).stopTick = s.tick ∧ look none t.groups key = none
           ∧ (let a := s.unitAddr g.ctx (w.unit + 19 * g.index)
              let n := 0x2900 + 4 * (g.regs * g.width)
              (s.core w.core).l1 = [] → FrameFits g → Apart s g.ctx (addrs a n) →
                IsGroupFrame g (t.ctxRead g.ctx a n))
           ∧ ∃ x, look none (t.wgOf wg).saved g.index = some x ∧ KeptRegs g x ∧ x.flags = g.flags ∧ x.stack = g.stack
             ∧ x.links = g.links ∧ x.planes = g.planes)
       ∧ (w.missing = [] → w.draining = false → (s.ctxOf w.ctx).fatal = false → w.state = .stopping →
         w.preempted = false →
         Next (exec (.workgroupResume wg) s) fun t =>
           (t.wgOf wg).state = .running ∧ t.mem = s.mem
           ∧ ∀ k ∈ w.keys, ∀ e ∈ (t.group k).splits, ∀ sp x, e.2 = some sp → sp.wait = some x → x.kind ≠ .page)
       ∧ (w.missing = [] → w.draining = false → (s.ctxOf w.ctx).fatal = false → w.state = .away →
         s.outranked w.launch = false → s.returnCore wg = some core → s.windowFree wg core = true →
         s.areasHeld w.launch = true →
         let through : Prop := w.core ≠ core ∧ w.moving = none ∧ w.claimed = false ∧ w.sharedBytes ≠ 0
         (¬ through → (w.core = core ∨ ∀ p, (s.part p).tiles = []) →
           s.takeSome s.room core (s.launch w.launch).need true (keys w.saved) = some (r, spots) →
           Next (exec (.workgroupResume wg) s) fun t =>
             (t.wgOf wg).state = .running ∧ (t.wgOf wg).core = core ∧ (t.wgOf wg).saved = []
             ∧ (w.claimed = false → (t.wgOf wg).shared = w.shared))
         ∧ (through →
           s.writable w.ctx (s.unitAddr w.ctx (w.unit + 19 * (s.launch w.launch).need.groups)) w.sharedBytes = true →
           Next (exec (.workgroupResume wg) s) fun t =>
             (t.wgOf wg).state = .away ∧ written t ∧ t.groups = s.groups))
       ∧ (s.wanted k = true → s.claimVictim k = some wg →
         s.writable w.ctx (s.unitAddr w.ctx (w.unit + 19 * (s.launch w.launch).need.groups)) w.sharedBytes = true →
         Next (exec (.storageClaim k) s) fun t => written t ∧ t.groups = s.groups))

/-! ## The operator and the debugger -/

/-- R360, R400 to R402, R405, R406 (derived): the power registers take what they accept, held to MODULE_MAX, and a
write they do not accept, or the driver's outside the stream that IDE_REQUIRED asks for, is discarded and counted; a
die's telemetry record is one record event of 64 bytes, after which the period's counts are 0. -/
def Obligations.PowerRegisters : Prop :=
  ∀ (v : DWord) (ide : Bool) (d cl : Nat) (s : State),
    let b (l n : Nat) := bitsAt v.toNat l n
    let only (off : Nat) (t : State) : Prop :=
      (∀ k, k ≠ off → t.reg k = s.reg k) ∧ { t with port := { t.port with regs := s.port.regs } } = s
    let discarded (i : Instr) : Prop := Next (exec i s) fun t =>
      only 0x200100 t ∧ (t.reg 0x200100).toNat = min ((s.reg 0x200100).toNat + 1) (2 ^ 64 - 1)
    let taken : Prop := s.ideRefuses ide = false
    Next (exec (.moduleBudgetWrite v) s) (fun t =>
      only 0x201000 t ∧ (t.reg 0x201000).toNat = min (b 0 16) s.moduleMax)
    ∧ (¬ taken → discarded (.dieCtlWrite d ⟨v, ide⟩) ∧ discarded (.clCtlWrite cl ⟨v, ide⟩))
    ∧ (taken → d < 4 → 60 ≤ b 0 8 → b 0 8 ≤ 105 → Next (exec (.dieCtlWrite d ⟨v, ide⟩) s) fun t =>
      let y := (t.reg (0x201100 + 8 * d)).toNat
      only (0x201100 + 8 * d) t ∧ bitsAt y 0 8 = b 0 8 ∧ bitsAt y 8 8 = 0 ∧ bitsAt y 16 8 = b 16 8 ∧ bitsAt y 24 8 = 0
      ∧ bitsAt y 32 16 = b 32 16 ∧ bitsAt y 48 16 = min (b 48 16) s.moduleMax)
    ∧ ((4 ≤ d ∨ b 0 8 < 60 ∨ 105 < b 0 8) → discarded (.dieCtlWrite d ⟨v, ide⟩))
    ∧ (taken → cl < 128 → b 3 3 ≤ b 6 3 → b 3 3 ≤ b 9 3 → Next (exec (.clCtlWrite cl ⟨v, ide⟩) s) fun t =>
      let y := (t.reg (0x201200 + 8 * cl)).toNat
      only (0x201200 + 8 * cl) t ∧ bitsAt y 0 1 = b 0 1 ∧ bitsAt y 1 1 = 1 ∧ bitsAt y 2 1 = b 2 1 ∧ bitsAt y 3 3 = b 3 3
      ∧ bitsAt y 6 3 = b 6 3 ∧ bitsAt y 9 3 = b 9 3 ∧ bitsAt y 12 4 = 0 ∧ bitsAt y 16 24 = b 16 24
      ∧ bitsAt y 40 24 = 0)
    ∧ ((128 ≤ cl ∨ b 6 3 < b 3 3 ∨ b 9 3 < b 3 3) → discarded (.clCtlWrite cl ⟨v, ide⟩))
    ∧ (s.hopDone = true → s.cleared = true → s.telemetryDue = [d] → Next (exec .telemetryRecord s) fun t =>
      (∃ x, t.notices = s.notices ++ [{ ring := .telemetry, data := x, after := [], cons := none }]
        ∧ x.length = 64
        ∧ field x 12 1 = d % 256 ∧ field x 8 4 = (s.die d).seq % 2 ^ 32)
      ∧ (t.die d).seq = ((s.die d).seq + 1) % 2 ^ 32 ∧ (t.die d).injected = 0 ∧ (t.die d).expired = 0
      ∧ (t.die d).granted = 0 ∧ (t.die d).clamped = 0 ∧ (t.die d).didtHeld = false ∧ (t.die d).thermal = false
      ∧ (t.die d).hottest = 0 ∧ t.mem = s.mem ∧ t.groups = s.groups)

/-- R407, R408, R411 to R414, R418, R419 (derived): STOP, RESUME, STEP and DUMP on a partition that is up, each with
its result in DBG_STATUS and SEQ advanced by 1, and the commands that are refused; the hit of a watchpoint whose
predicate program is 0 stops its partition with cause 3 and the hit's address, its access unperformed; a sample
becomes one record event of 64 bytes, once its issue is complete. A command that comes while another runs is not
started (the model's choice, log entry 30). -/
def Obligations.DebugSteps : Prop :=
  (∀ (part slot ctx : Nat) (op : BitVec 8) (x : Stopped) (d : Dumping) (s : State),
     let p := s.part part
     let seq := (s.reg 0x202010).toNat % 2 ^ 32
     let status (op res n : Nat) (t : State) : Prop :=
       t.reg 0x202010 = BitVec.ofNat 64 (op * 2 ^ 56 + res * 2 ^ 48 + n % 2 ^ 32)
     let kept (t : State) : Prop := t.mem = s.mem ∧ t.ext = s.ext ∧ ∀ k, KeptRegs (s.group k) (t.group k)
     let refused (i : Instr) (op res : Nat) : Prop := Next (exec i s) fun t =>
       status op res (seq + 1) t ∧ { t with port := s.port } = s
     (s.dbgBusy = false →
       (s.partUp part = false → p.stepping = none →
         refused (.stop part) 1 2 ∧ refused (.resume part) 2 2 ∧ refused (.step part slot) 3 2
         ∧ refused (.dump part ctx) 4 2)
       ∧ refused (.badop op) op.toNat 7
       ∧ (s.partUp part = true → p.stopped = none → Next (exec (.stop part) s) fun t =>
         kept t ∧ status 1 0 (seq + 1) t ∧ ∃ y, (t.part part).stopped = some y ∧ y.cause = 5 ∧ y.tick = s.tick)
       ∧ (s.partUp part = true → p.stopped = none → p.stepping = none →
         refused (.resume part) 2 3 ∧ refused (.step part slot) 3 3 ∧ refused (.dump part ctx) 4 3)
       ∧ (s.partUp part = true → p.stopped = some x → Next (exec (.resume part) s) fun t =>
         kept t ∧ status 2 0 (seq + 1) t ∧ (t.part part).stopped = none)
       ∧ (s.partUp part = true → p.stopped = some x → s.notReady (16 * part + slot) = false →
         Next (exec (.step part slot) s) fun t =>
           kept t ∧ (t.part part).stepping = some slot ∧ t.dbgBusy = true)
       ∧ (s.partUp part = true → p.stopped = some x → p.stepping = none → s.notReady (16 * part + slot) = true →
         refused (.step part slot) 3 4)
       ∧ (s.partUp part = true → p.stopped = some x →
         let len := (s.reg 0x202008).toNat / 2 ^ 32
         let off := (s.reg 0x202008).toNat % 2 ^ 32
         let spanOk : Prop := len % 16 = 0 ∧ len ≤ 2 ^ 20 ∧ off % 16 = 0
         let area : Prop := (look none s.ctxs ctx).isSome = true ∧ s.ctxField ctx 80 8 ≠ 0
         (¬ spanOk → refused (.dump part ctx) 4 8)
         ∧ (spanOk → ¬ area → refused (.dump part ctx) 4 5)
         ∧ (spanOk → area → Next (exec (.dump part ctx) s) fun t =>
           kept t ∧ t.dumping = some { part, ctx } ∧ t.dbgBusy = true)))
     ∧ (s.dbgBusy = true →
       exec (.stop part) s = .next s ∧ exec (.resume part) s = .next s ∧ exec (.dump part ctx) s = .next s
       ∧ exec (.badop op) s = .next s)
     ∧ (s.dumping = some d → s.dumpReady d = true → Next (exec .dumpWrite s) fun t =>
       t.dumping = none
       ∧ status 4 (if s.writablePrefix d.ctx (s.ctxField d.ctx 80 8) 256 = 256 then 0 else 6) (seq + 1) t
       ∧ t.groups = s.groups))
  ∧ (∀ (h : Hit) (idx : Nat) (x : Sample) (s : State),
       let key := h.cur.group
       (s.hits = [h] → (s.part (partOf key)).stopped = none → s.reg (0x202110 + 32 * h.watch) = 0 →
         Next (exec .watchpointPredicate s) fun t =>
           t.hits = [] ∧ t.mem = s.mem ∧ t.ext = s.ext ∧ t.group key = s.group key
           ∧ ∃ y, (t.part (partOf key)).stopped = some y ∧ y.cause = 3 ∧ y.watch = some (h.watch, h.addr)
             ∧ y.slot = key % 16)
       ∧ (s.samples[idx]? = some x → s.sampleDone x = false → exec (.sampleRecord idx) s = .next s)
       ∧ (s.samples[idx]? = some x → s.sampleDone x = true → Next (exec (.sampleRecord idx) s) fun t =>
         t.samples = s.samples.eraseIdx idx ∧ t.mem = s.mem ∧ t.groups = s.groups
         ∧ ∃ b, t.notices = s.notices ++ [{ ring := .sample, data := b, after := [], cons := none }]
           ∧ b.length = 64
           ∧ field b 0 8 = x.tick % 2 ^ 64 ∧ field b 8 4 = x.part % 2 ^ 32 ∧ field b 12 4 = x.ctx % 2 ^ 32
           ∧ field b 16 4 = x.offset % 2 ^ 32))

/-! ## Errors and start -/

/-- R423, R425, R427, R428 (derived): a corrected error is counted; an uncorrectable one counts at the unit that holds
its site: in memory it poisons its sector, changes no byte and sends a notice; in a register it makes it read all
ones, and the issue that reads it writes the record; in an accumulator row it poisons the row of the tile; in shared
memory or a stack it poisons the sector. -/
def Obligations.Errors : Prop :=
  ∀ (st : Structure) (unit a key r l part ctx tile row wg off : Nat) (g : Group) (site : ErrorSite) (i : Instr)
    (m : LaneMask) (s : State),
    unit ≤ 4 →
    let counted (ue : Bool) (st : Structure) (t : State) : Prop :=
      let off := 0x203000 + 0x100 * unit + 16 * structureIndex st + (if ue then 8 else 0)
      (t.reg off).toNat = min ((s.reg off).toNat + 1) (2 ^ 64 - 1) ∧ ∀ k, k ≠ off → t.reg k = s.reg k
    Next (exec (.correctedError st unit) s) (fun t => counted false st t ∧ { t with port := s.port } = s)
    ∧ ((siteIn site st = false ∨ s.siteUnit site ≠ some unit) → exec (.uncorrectableError st unit site) s = .next s)
    ∧ (Next (exec (.uncorrectableError .iodSram 4 .iodSram) s) fun t =>
      (t.reg 0x203498).toNat = min ((s.reg 0x203498).toNat + 1) (2 ^ 64 - 1) ∧ { t with port := s.port } = s)
    ∧ (siteIn (.memory a) .hbm = true → homeDie (canonicalDev a) = unit →
      Next (exec (.uncorrectableError .hbm unit (.memory a)) s) fun t =>
      counted true .hbm t ∧ t.poisoned (.dev (canonicalDev a)) = true ∧ t.mem = s.mem ∧ t.groups = s.groups
      ∧ ∃ b, t.notices = s.notices ++ [{ ring := .driver, data := b, after := [], cons := none }] ∧ field b 0 2 = 6
        ∧ field b 8 8 = a / 32 * 32 % 2 ^ 64)
    ∧ (look none s.groups key = some g → l < 64 → dieOf key = unit →
      Next (exec (.uncorrectableError .regFile unit (.vreg key r l)) s) fun t =>
        counted true .regFile t ∧ t.mem = s.mem ∧ (t.group key).lost.contains (r, l) = true
        ∧ ∀ q k, k < 64 → (t.group key).readV q k = if q = r ∧ k = l then 0xFFFFFFFF else g.readV q k)
    ∧ (let area := s.ctxField s.me.ctx 40 8
       let slot := area + 64 + 64 * (leNat (s.ctxRead s.me.ctx area 8) % 63)
       s.lostReads i = [(r, m)] → Apart s s.me.ctx (addrs slot 64 ++ addrs area 8) →
         let t := s.readLost i
         IsFaultRecord s { code := 35, detail := r, mask := m } false (t.ctxRead s.me.ctx slot 64)
         ∧ leNat (t.ctxRead s.me.ctx area 8) = (leNat (s.ctxRead s.me.ctx area 8) + 1) % 2 ^ 64
         ∧ KeptRegs s.me t.me ∧ t.lostReads i = [])
    ∧ ((look none s.wgs wg).isSome = true → coreDie (s.wgOf wg).core = unit →
      Next (exec (.uncorrectableError .l1Shared unit (.shared wg off)) s) fun t =>
        counted true .l1Shared t ∧ t.poisoned (.shared wg off) = true ∧ t.mem = s.mem ∧ t.groups = s.groups)
    ∧ (look none s.groups key = some g → dieOf key = unit →
      Next (exec (.uncorrectableError .stackCache unit (.stack key l off)) s) fun t =>
        counted true .stackCache t ∧ t.poisoned (.stack key (l * 2 ^ 32 + off)) = true ∧ t.mem = s.mem)
    ∧ (row < 32 → part < 2048 → part / 512 = unit → (∃ e ∈ (s.part part).tiles, e.1 = tileKey ctx tile) →
      Next (exec (.uncorrectableError .accum unit (.row part ctx tile row)) s) fun t =>
        counted true .accum t
        ∧ ((t.part part).tile (tileKey ctx tile)).poison.getLsbD row = true
        ∧ ((t.part part).tile (tileKey ctx tile)).words = ((s.part part).tile (tileKey ctx tile)).words)

/-- R393 to R397, R399, R435 (derived): a flash write changes its area alone; a conventional reset and a loss of power
keep flash and start at the boot ROM; the boot ROM takes the valid block with the greater CFGVER and the most recent
image that verifies and is recent enough, CFG0 and FW0 where two are equal, and asks for Stage A, or stops with code 3
or 4; Stage A presents the function, Stage B starts every die or leaves STAGE 1. That a reset keeps the contents of
device memory is the model's choice (log entry 13), and so is that memory reads 0 after a loss of power (log entry 4);
that an image's length counts its header and body, its signature behind them, is the model's reading (log entry 38).
-/
def Obligations.StagedStart : Prop :=
  ∀ (data : List Byte) (ok : Bool) (s : State),
    let b := s.boot
    let restarted (t : State) : Prop :=
      t.boot = { Boot.reset with cfg0 := b.cfg0, cfg1 := b.cfg1, fw0 := b.fw0, fw1 := b.fw1, helper := b.helper,
                                 cert := b.cert }
      ∧ t.stage = 0 ∧ t.groups = [] ∧ t.dsr = [] ∧ t.port = Port.reset ∧ t.agenda = [.event .bootRomStart]
      ∧ t.ext = s.ext
    Next (exec (.flashWrite .cfg0 data) s) (fun t => t.boot = { b with cfg0 := data } ∧ { t with boot := b } = s)
    ∧ Next (exec (.flashWrite .cfg1 data) s) (fun t => t.boot = { b with cfg1 := data } ∧ { t with boot := b } = s)
    ∧ Next (exec (.flashWrite .fw0 data) s) (fun t => t.boot = { b with fw0 := data } ∧ { t with boot := b } = s)
    ∧ Next (exec (.flashWrite .helper data) s) (fun t => t.boot = { b with helper := data } ∧ { t with boot := b } = s)
    ∧ Next (exec (.flashWrite .cert data) s) (fun t => t.boot = { b with cert := data } ∧ { t with boot := b } = s)
    ∧ Next (exec (.flashWrite .fw1 data) s) (fun t => t.boot = { b with fw1 := data } ∧ { t with boot := b } = s)
    ∧ Next (exec .conventionalReset s) (fun t => restarted t ∧ t.mem = s.mem ∧ t.poison = s.poison)
    ∧ Next (step { s with agenda := .powerLoss :: s.agenda }) (fun t => restarted t ∧ t.mem = [] ∧ t.poison = [])
    ∧ (∀ c, b.chooseCfg = some c → cfgValid c = true ∧ (c = b.cfg0 ∨ c = b.cfg1)
      ∧ (cfgValid b.cfg0 = true → field b.cfg0 4 4 ≤ field c 4 4)
      ∧ (cfgValid b.cfg1 = true → field b.cfg1 4 4 ≤ field c 4 4)
      ∧ (cfgValid b.cfg0 = true → field b.cfg0 4 4 = field c 4 4 → c = b.cfg0))
    ∧ (∀ f n, b.chooseFw n = some f → ∃ y, (y = b.fw0 ∨ y = b.fw1) ∧ fwValid y = true ∧ n ≤ secver y
      ∧ f = y.take (fwLength y + 29792)
      ∧ (fwValid b.fw0 = true → secver b.fw0 = secver y → y = b.fw0)
      ∧ ∀ x, (x = b.fw0 ∨ x = b.fw1) → fwValid x = true → n ≤ secver x → secver x ≤ secver y)
    ∧ (b.booted = false → b.status = 0 → Next (exec .bootRomStart s) fun t =>
      t.mem = s.mem ∧ t.stage = s.stage ∧ t.port.presented = s.port.presented
      ∧ (cfgValid b.cfg0 = false → cfgValid b.cfg1 = false → t.boot.status = 3 + 256 ∧ t.boot.booted = false)
      ∧ ∀ c, b.chooseCfg = some c →
        (b.chooseFw (field c 8 4) = none → t.boot.status % 256 = 4 ∧ t.boot.booted = false)
        ∧ ∀ f, b.chooseFw (field c 8 4) = some f →
          t.boot.booted = true ∧ t.boot.cfg = c ∧ t.boot.fw = f ∧ t.boot.status % 256 = 0
          ∧ t.boot.identity = b.identityKey s.free ∧ t.boot.chain = b.cert
          ∧ t.boot.status / 256 = (if t.boot.identity = none then 1 else 0) ∧ t.agenda = s.agenda ++ [.event .stageA]
          ∧ (t.reg 0x201000).toNat = field c 104 2
          ∧ (4, leBytes 4 (secver f)) ∈ t.boot.measurements)
    ∧ (b.booted = true → s.stage = 0 → Next (exec .stageA s) fun t =>
      t.stage = 1 ∧ t.port.presented = true ∧ (t.die 0).started = true ∧ t.boot.status % 256 = 1
      ∧ (∀ d, d ≠ 0 → t.die d = s.die d) ∧ t.mem = s.mem
      ∧ ∀ c, c < 32 → (t.cluster c).pouch = 0 ∧ (t.cluster c).reservation = none)
    ∧ (s.stage = 1 → b.status % 256 = 1 → Next (exec (.stageB ok) s) fun t =>
      t.mem = s.mem
      ∧ (ok = true → t.stage = 2 ∧ t.boot.status % 256 = 2
        ∧ ∀ d, d < 4 → d ≠ 0 → (t.die d).started = true)
      ∧ (ok = false → t.stage = 1 ∧ t.boot.status % 256 = 5 ∧ t.diesT = s.diesT))

/-! ## The whole machine -/

/-- R162, R181, R371 (derived): where the turn is a resident split's plane issue and the 12 bytes at its place decode
to an instruction, the step is that instruction's meaning, on the state in which the issue has begun and results in
flight may have landed, and reads of registers that an error has lost are recorded (R423); then the conditions of
waiting splits are tested. A word that does not decode traps ILLEGAL with its reason, one past the region's end
REGION_END, and one that cannot be fetched as its page says; one whose page is missing switches the workgroup out. -/
def Obligations.StepRunsDecoded : Prop :=
  ∀ (c : Cur) (rest : List Turn) (w : BitVec 96) (i : Instr) (e : Reject) (s : State),
    s.agenda = .issue c :: rest → s.issuer c = true → c.snap = none →
    let u := (({ s with agenda := rest } : State).begin c).landEarly
    let l := u.launch u.me.launch
    let place := l.wordAddr u.mySplit.region c.plane u.mySplit.offset
    let within : Prop := u.mySplit.offset + 12 ≤ (l.region u.mySplit.region).2.1
    u.cur = { c with untested := (s.group c.group).released.contains c.slot }
    ∧ u.mem = s.mem ∧ u.ext = s.ext ∧ u.agenda = rest
    ∧ (within → u.fetch u.me.ctx place = .word w → decodeWord u.me.regs w = .ok i →
      step s = Out.map s.testWaits (exec i (u.readLost i)) ∧ (u.me.lost = [] → u.readLost i = u))
    ∧ (∀ code, within → u.fetch u.me.ctx place = .trap code →
      step s = .next (s.testWaits (u.trap { code, detail := 0, mask := c.mask, addr := place })))
    ∧ (∀ id page, within → u.fetch u.me.ctx place = .missing id page →
      step s = .next (s.testWaits (u.switchOut [(id, page)])))
    ∧ (within → u.fetch u.me.ctx place = .word w → decodeWord u.me.regs w = .error e →
      step s = .next (s.testWaits (u.trap { code := 1, detail := e.reason, mask := c.mask })))
    ∧ (¬ within → step s = .next (s.testWaits (u.trap { code := 10, detail := 0, mask := c.mask })))

/-- R162 to R173, R205 (derived): words written out bit by bit from the spec's encodings decode to their
instructions. -/
def Obligations.DecodeWords : Prop :=
  -- the two words of R205's table, OP, MOD, GRD, D, A, B, X, H
  decodeWord 256 (0x04A#10 ++ 0x028#10 ++ 0b01111#5 ++ 0x403#12 ++ 0x001#12 ++ 0x209#12 ++ 0x000#11 ++ 0#24) =
    .ok (.iset { guard := { neg := false, p := 15 }, d := .p 3, a := .v 1, b := .s 9, hints := Hints.ofField 0 }
      .i32 .ge)
  ∧ decodeWord 256 (0x0C1#10 ++ 0x000#10 ++ 0b01111#5 ++ 0x20A#12 ++ 0x3F8#12 ++ 0x000#12 ++ 0x000#11 ++ 0#24) =
    .ok (.movi { guard := { neg := false, p := 15 }, d := .s 10, a := .none, b := .none, hints := Hints.ofField 0 }
      0x3F800000)
  -- an OP of group 0xF is unassigned
  ∧ decodeWord 256 (0x3C0#10 ++ 0#86) = .ok (.unassignedOpcode 0x3C0)

/-- R162 to R183 (derived): every well-formed instruction word decodes from its encoding to itself, with every
operand, modifier, guard and hint at every value the encoding admits. -/
def Obligations.RoundTrip : Prop :=
  ∀ (regs : Nat) (i : Instr), isWord i = true → Instr.wf regs i = true → decodeWord regs (encode i) = .ok i

/-- Derived; the model's own form of memory (`Memory.wf`, log entry 4), which no rule speaks of: every step keeps
device memory and memory outside the device in their canonical form. -/
def Obligations.MemoryInvariant : Prop :=
  ∀ (s t : State), MemoryOk s → step s = .next t → MemoryOk t

/-- R121, R122 (derived; the model's own form of a phase cache): every step leaves each core's L1 with at most one copy
of a place, which is what the statements of strong loads, fences and bank cycles ask of the state. -/
def Obligations.CacheInvariant : Prop :=
  ∀ (s t : State) (core : Nat), L1Ok s core → step s = .next t → L1Ok t core

/-- The canonical forms hold at reset (the model's own forms of memory and of a phase cache), and every byte then reads
0; that a byte which nothing has written reads 0 is the model's choice (log entry 4). -/
def Obligations.ResetMemory : Prop :=
  MemoryOk State.reset ∧ (∀ core, L1Ok State.reset core) ∧ ∀ l, State.reset.peek l = 0

/-- R400, R328, R316 (derived): the power registers, the desired state and the actual state table as reset leaves
them. -/
def Obligations.ResetValues : Prop :=
  (∀ d, d < 4 →
    let x := (State.reset.reg (0x201100 + 8 * d)).toNat
    bitsAt x 48 16 = 0 ∧ bitsAt x 32 16 = 0 ∧ bitsAt x 16 8 = 0 ∧ bitsAt x 0 8 = 95)
  ∧ (∀ c, c < 128 →
    let x := (State.reset.reg (0x201200 + 8 * c)).toNat
    bitsAt x 16 24 = 0 ∧ bitsAt x 9 3 = 7 ∧ bitsAt x 6 3 = 7 ∧ bitsAt x 3 3 = 0 ∧ bitsAt x 0 3 = 7)
  ∧ State.reset.reg 0x201010 = 0
  ∧ (∀ id, (State.reset.record id).version = 0 ∧ (State.reset.record id).present = false
    ∧ (State.reset.astOf id).phase = .absent ∧ (State.reset.astOf id).mark = 0)
  ∧ State.reset.stage = 0 ∧ State.reset.boot.status = 0 ∧ State.reset.port.presented = false
end

