-- ==== Sys2Proof/Laws/Sparse.lean ====
section
/-! SUPPORT. Laws of sparse tables: a read after a write, and the canonical form that every write keeps. -/

namespace Sys2Proof.Machine

variable {α : Type}

/-! ## Reads after writes -/

@[simp] theorem look_nil (d : α) (k : Nat) : look d [] k = d := rfl

theorem look_drop (d : α) (m : Sparse α) (k j : Nat) :
    look d (drop m k) j = if j = k then d else look d m j := by
  induction m with
  | nil => simp [drop]
  | cons e m ih =>
    obtain ⟨i, x⟩ := e
    by_cases hik : i = k
    · subst hik
      have : drop ((i, x) :: m) i = drop m i := by simp [drop]
      rw [this, ih]
      by_cases h : j = i <;> simp [look, h]
    · have : drop ((i, x) :: m) k = (i, x) :: drop m k := by simp [drop, hik]
      rw [this]
      by_cases h : j = i
      · subst h; simp [look, hik]
      · simp [look, h, ih]

theorem look_insertAt (d : α) (m : Sparse α) (k : Nat) (x : α) (j : Nat)
    (hk : ∀ e ∈ m, e.1 ≠ k) : look d (insertAt m k x) j = if j = k then x else look d m j := by
  induction m with
  | nil => simp [insertAt, look]
  | cons e m ih =>
    obtain ⟨i, y⟩ := e
    have hi : i ≠ k := hk (i, y) (by simp)
    have hm : ∀ e ∈ m, e.1 ≠ k := fun e he => hk e (by simp [he])
    unfold insertAt
    split
    · by_cases hj : j = k <;> simp [look, hj]
    · by_cases hj : j = i
      · subst hj; simp [look, hi]
      · simp [look, hj, ih hm]

theorem drop_ne (m : Sparse α) (k : Nat) : ∀ e ∈ drop m k, e.1 ≠ k := by
  intro e he
  simpa [drop] using (List.mem_filter.mp he).2

variable [DecidableEq α]

/-- A read after a write. -/
theorem look_put (d : α) (m : Sparse α) (k : Nat) (x : α) (j : Nat) :
    look d (put d m k x) j = if j = k then x else look d m j := by
  unfold put
  split
  · next h => rw [look_drop, h]
  · rw [look_insertAt _ _ _ _ _ (drop_ne m k), look_drop]
    by_cases h : j = k <;> simp [h]

@[simp] theorem look_put_self (d : α) (m : Sparse α) (k : Nat) (x : α) : look d (put d m k x) k = x := by
  simp [look_put]

theorem look_put_ne (d : α) (m : Sparse α) {k j : Nat} (x : α) (h : j ≠ k) :
    look d (put d m k x) j = look d m j := by
  simp [look_put, h]

theorem look_set (m : Sparse (Option α)) (k : Nat) (x : α) (j : Nat) :
    look none (set m k x) j = if j = k then some x else look none m j := look_put none m k _ j

theorem get_set [Inhabited α] (m : Sparse (Option α)) (k : Nat) (x : α) (j : Nat) :
    get (set m k x) j = if j = k then x else get m j := by
  unfold get
  rw [look_set]
  split <;> simp

/-- Writing a range: the last write of a key stands. -/
theorem look_putList (d : α) (m : Sparse α) (k : Nat) (xs : List α) (j : Nat) :
    look d (putList d m k xs) j = if k ≤ j ∧ j < k + xs.length then xs.getD (j - k) d else look d m j := by
  induction xs generalizing m k with
  | nil =>
    simp [putList]
  | cons x xs ih =>
    rw [putList, ih, look_put]
    by_cases h1 : j = k
    · subst h1; simp
    · by_cases h2 : k + 1 ≤ j ∧ j < k + 1 + xs.length
      · have h3 : k ≤ j ∧ j < k + (x :: xs).length := by simp; omega
        rw [if_pos h2, if_pos h3]
        have : j - k = (j - (k + 1)) + 1 := by omega
        rw [this]; rfl
      · have h3 : ¬ (k ≤ j ∧ j < k + (x :: xs).length) := by simp; omega
        rw [if_neg h2, if_neg h3, if_neg h1]

/-! ## The canonical form -/

omit [DecidableEq α] in
theorem rising_tail {e : Nat × α} {m : Sparse α} (h : rising (e :: m) = true) : rising m = true := by
  cases m with
  | nil => rfl
  | cons f m => obtain ⟨a, b⟩ := e; obtain ⟨c, d⟩ := f; simp [rising] at h; exact h.2

omit [DecidableEq α] in
theorem rising_head {e : Nat × α} {m : Sparse α} (h : rising (e :: m) = true) : ∀ f ∈ m, e.1 < f.1 := by
  induction m generalizing e with
  | nil => simp
  | cons g m ih =>
    obtain ⟨a, b⟩ := e; obtain ⟨c, d⟩ := g
    simp [rising] at h
    intro f hf
    rcases List.mem_cons.mp hf with rfl | hf
    · exact h.1
    · exact Nat.lt_trans h.1 (ih h.2 f hf)

omit [DecidableEq α] in
theorem rising_cons {e : Nat × α} {m : Sparse α} (h : rising m = true) (hl : ∀ f ∈ m, e.1 < f.1) :
    rising (e :: m) = true := by
  cases m with
  | nil => rfl
  | cons f m =>
    obtain ⟨a, b⟩ := e; obtain ⟨c, d⟩ := f
    simp [rising, h]
    exact hl (c, d) (by simp)

omit [DecidableEq α] in
theorem rising_filter (m : Sparse α) (p : Nat × α → Bool) (h : rising m = true) :
    rising (m.filter p) = true := by
  induction m with
  | nil => rfl
  | cons e m ih =>
    have ht := ih (rising_tail h)
    rw [List.filter_cons]
    split
    · exact rising_cons ht fun f hf => rising_head h f (List.mem_filter.mp hf).1
    · exact ht

omit [DecidableEq α] in
theorem insertAt_mem {m : Sparse α} {k : Nat} {x : α} {f : Nat × α} (h : f ∈ insertAt m k x) :
    f = (k, x) ∨ f ∈ m := by
  induction m with
  | nil => simp [insertAt] at h; exact Or.inl h
  | cons e m ih =>
    obtain ⟨j, y⟩ := e
    unfold insertAt at h
    split at h
    · simpa using h
    · rcases List.mem_cons.mp h with rfl | h
      · exact Or.inr (by simp)
      · rcases ih h with h | h
        · exact Or.inl h
        · exact Or.inr (by simp [h])

omit [DecidableEq α] in
theorem rising_insertAt {m : Sparse α} {k : Nat} {x : α} (h : rising m = true) (hk : ∀ e ∈ m, e.1 ≠ k) :
    rising (insertAt m k x) = true := by
  induction m with
  | nil => rfl
  | cons e m ih =>
    obtain ⟨j, y⟩ := e
    have hj : j ≠ k := hk (j, y) (by simp)
    unfold insertAt
    split
    · next hlt =>
      refine rising_cons h fun f hf => ?_
      rcases List.mem_cons.mp hf with rfl | hf
      · exact hlt
      · exact Nat.lt_trans hlt (rising_head h f hf)
    · next hlt =>
      refine rising_cons (ih (rising_tail h) fun e he => hk e (by simp [he])) fun f hf => ?_
      rcases insertAt_mem hf with rfl | hf
      · show j < k; omega
      · exact rising_head h f hf

/-- Every write keeps the canonical form. -/
theorem canonical_put (d : α) (m : Sparse α) (k : Nat) (x : α) (h : canonical d m = true) :
    canonical d (put d m k x) = true := by
  unfold canonical at *
  simp only [Bool.and_eq_true, List.all_eq_true] at *
  unfold put
  split
  · exact ⟨rising_filter m _ h.1, fun e he => h.2 e (List.mem_filter.mp he).1⟩
  · next hx =>
    refine ⟨rising_insertAt (rising_filter m _ h.1) (drop_ne m k), fun e he => ?_⟩
    rcases insertAt_mem he with rfl | he
    · simpa using hx
    · exact h.2 e (List.mem_filter.mp he).1

theorem canonical_putList (d : α) (m : Sparse α) (k : Nat) (xs : List α) (h : canonical d m = true) :
    canonical d (putList d m k xs) = true := by
  induction xs generalizing m k with
  | nil => exact h
  | cons x xs ih => exact ih _ _ (canonical_put d m k x h)

/-- A filtered table in canonical form stays so. -/
theorem canonical_filter (d : α) (m : Sparse α) (p : Nat × α → Bool) (h : canonical d m = true) :
    canonical d (m.filter p) = true := by
  unfold canonical at *
  simp only [Bool.and_eq_true, List.all_eq_true] at *
  exact ⟨rising_filter m p h.1, fun e he => h.2 e (List.mem_filter.mp he).1⟩

/-! ## Lanes of a mask -/

theorem mem_lanesOf (m : LaneMask) (l : Nat) : l ∈ lanesOf m ↔ l < 64 ∧ m.getLsbD l = true := by
  simp [lanesOf]

theorem lanesOf_nodup (m : LaneMask) : (lanesOf m).Nodup := List.nodup_range.filter _

end Sys2Proof.Machine
end

