-- ==== Sys2Proof/Laws/State.lean ====
section
/-! SUPPORT. What each update of a record leaves alone, field by field, and what reads it back. -/

namespace Sys2Proof.Machine


/-! ## setGroup -/

@[simp] theorem State.setGroup_agenda (s : State) (k : Nat) (x : Group) : (s.setGroup k x).agenda = s.agenda := rfl
@[simp] theorem State.setGroup_offered (s : State) (k : Nat) (x : Group) : (s.setGroup k x).offered = s.offered := rfl
@[simp] theorem State.setGroup_free (s : State) (k : Nat) (x : Group) : (s.setGroup k x).free = s.free := rfl
@[simp] theorem State.setGroup_cur (s : State) (k : Nat) (x : Group) : (s.setGroup k x).cur = s.cur := rfl
@[simp] theorem State.setGroup_hop (s : State) (k : Nat) (x : Group) : (s.setGroup k x).hop = s.hop := rfl
@[simp] theorem State.setGroup_cleared (s : State) (k : Nat) (x : Group) : (s.setGroup k x).cleared = s.cleared := rfl
@[simp] theorem State.setGroup_judged (s : State) (k : Nat) (x : Group) : (s.setGroup k x).judged = s.judged := rfl
@[simp] theorem State.setGroup_tickRegs (s : State) (k : Nat) (x : Group) : (s.setGroup k x).tickRegs = s.tickRegs := rfl
@[simp] theorem State.setGroup_roundRegs (s : State) (k : Nat) (x : Group) : (s.setGroup k x).roundRegs = s.roundRegs := rfl
@[simp] theorem State.setGroup_mem (s : State) (k : Nat) (x : Group) : (s.setGroup k x).mem = s.mem := rfl
@[simp] theorem State.setGroup_poison (s : State) (k : Nat) (x : Group) : (s.setGroup k x).poison = s.poison := rfl
@[simp] theorem State.setGroup_ext (s : State) (k : Nat) (x : Group) : (s.setGroup k x).ext = s.ext := rfl
@[simp] theorem State.setGroup_wgs (s : State) (k : Nat) (x : Group) : (s.setGroup k x).wgs = s.wgs := rfl
@[simp] theorem State.setGroup_nextWg (s : State) (k : Nat) (x : Group) : (s.setGroup k x).nextWg = s.nextWg := rfl
@[simp] theorem State.setGroup_cores (s : State) (k : Nat) (x : Group) : (s.setGroup k x).cores = s.cores := rfl
@[simp] theorem State.setGroup_parts (s : State) (k : Nat) (x : Group) : (s.setGroup k x).parts = s.parts := rfl
@[simp] theorem State.setGroup_clusters (s : State) (k : Nat) (x : Group) : (s.setGroup k x).clusters = s.clusters := rfl
@[simp] theorem State.setGroup_diesT (s : State) (k : Nat) (x : Group) : (s.setGroup k x).diesT = s.diesT := rfl
@[simp] theorem State.setGroup_cmds (s : State) (k : Nat) (x : Group) : (s.setGroup k x).cmds = s.cmds := rfl
@[simp] theorem State.setGroup_nextCmd (s : State) (k : Nat) (x : Group) : (s.setGroup k x).nextCmd = s.nextCmd := rfl
@[simp] theorem State.setGroup_colls (s : State) (k : Nat) (x : Group) : (s.setGroup k x).colls = s.colls := rfl
@[simp] theorem State.setGroup_bank (s : State) (k : Nat) (x : Group) : (s.setGroup k x).bank = s.bank := rfl
@[simp] theorem State.setGroup_queueOps (s : State) (k : Nat) (x : Group) : (s.setGroup k x).queueOps = s.queueOps := rfl
@[simp] theorem State.setGroup_dsr (s : State) (k : Nat) (x : Group) : (s.setGroup k x).dsr = s.dsr := rfl
@[simp] theorem State.setGroup_ast (s : State) (k : Nat) (x : Group) : (s.setGroup k x).ast = s.ast := rfl
@[simp] theorem State.setGroup_stage (s : State) (k : Nat) (x : Group) : (s.setGroup k x).stage = s.stage := rfl
@[simp] theorem State.setGroup_accepted (s : State) (k : Nat) (x : Group) : (s.setGroup k x).accepted = s.accepted := rfl
@[simp] theorem State.setGroup_lastTick (s : State) (k : Nat) (x : Group) : (s.setGroup k x).lastTick = s.lastTick := rfl
@[simp] theorem State.setGroup_ctxs (s : State) (k : Nat) (x : Group) : (s.setGroup k x).ctxs = s.ctxs := rfl
@[simp] theorem State.setGroup_maps (s : State) (k : Nat) (x : Group) : (s.setGroup k x).maps = s.maps := rfl
@[simp] theorem State.setGroup_launches (s : State) (k : Nat) (x : Group) : (s.setGroup k x).launches = s.launches := rfl
@[simp] theorem State.setGroup_queues (s : State) (k : Nat) (x : Group) : (s.setGroup k x).queues = s.queues := rfl
@[simp] theorem State.setGroup_allocated (s : State) (k : Nat) (x : Group) : (s.setGroup k x).allocated = s.allocated := rfl
@[simp] theorem State.setGroup_retiredMem (s : State) (k : Nat) (x : Group) : (s.setGroup k x).retiredMem = s.retiredMem := rfl
@[simp] theorem State.setGroup_port (s : State) (k : Nat) (x : Group) : (s.setGroup k x).port = s.port := rfl
@[simp] theorem State.setGroup_notices (s : State) (k : Nat) (x : Group) : (s.setGroup k x).notices = s.notices := rfl
@[simp] theorem State.setGroup_dumping (s : State) (k : Nat) (x : Group) : (s.setGroup k x).dumping = s.dumping := rfl
@[simp] theorem State.setGroup_hits (s : State) (k : Nat) (x : Group) : (s.setGroup k x).hits = s.hits := rfl
@[simp] theorem State.setGroup_samples (s : State) (k : Nat) (x : Group) : (s.setGroup k x).samples = s.samples := rfl
@[simp] theorem State.setGroup_boot (s : State) (k : Nat) (x : Group) : (s.setGroup k x).boot = s.boot := rfl
@[simp] theorem State.wgOf_setGroup (s : State) (k : Nat) (x : Group) (j : Nat) : (s.setGroup k x).wgOf j = s.wgOf j := rfl
@[simp] theorem State.core_setGroup (s : State) (k : Nat) (x : Group) (j : Nat) : (s.setGroup k x).core j = s.core j := rfl
@[simp] theorem State.part_setGroup (s : State) (k : Nat) (x : Group) (j : Nat) : (s.setGroup k x).part j = s.part j := rfl
@[simp] theorem State.cluster_setGroup (s : State) (k : Nat) (x : Group) (j : Nat) : (s.setGroup k x).cluster j = s.cluster j := rfl
@[simp] theorem State.die_setGroup (s : State) (k : Nat) (x : Group) (j : Nat) : (s.setGroup k x).die j = s.die j := rfl
@[simp] theorem State.ctxOf_setGroup (s : State) (k : Nat) (x : Group) (j : Nat) : (s.setGroup k x).ctxOf j = s.ctxOf j := rfl
@[simp] theorem State.launch_setGroup (s : State) (k : Nat) (x : Group) (j : Nat) : (s.setGroup k x).launch j = s.launch j := rfl
@[simp] theorem State.cmd_setGroup (s : State) (k : Nat) (x : Group) (j : Nat) : (s.setGroup k x).cmd j = s.cmd j := rfl
@[simp] theorem State.record_setGroup (s : State) (k : Nat) (x : Group) (j : Nat) : (s.setGroup k x).record j = s.record j := rfl
@[simp] theorem State.astOf_setGroup (s : State) (k : Nat) (x : Group) (j : Nat) : (s.setGroup k x).astOf j = s.astOf j := rfl
@[simp] theorem State.reg_setGroup (s : State) (k : Nat) (x : Group) (j : Nat) : (s.setGroup k x).reg j = s.reg j := rfl
@[simp] theorem State.tick_setGroup (s : State) (k : Nat) (x : Group) : (s.setGroup k x).tick = s.tick := rfl
@[simp] theorem State.body_setGroup (s : State) (k : Nat) (x : Group) (j : Nat) : (s.setGroup k x).body j = s.body j := rfl
@[simp] theorem State.mapping_setGroup (s : State) (k : Nat) (x : Group) (c a : Nat) : (s.setGroup k x).mapping c a = s.mapping c a := rfl
@[simp] theorem State.l1_setGroup (s : State) (k : Nat) (x : Group) (c j : Nat) : (s.setGroup k x).l1 c j = s.l1 c j := rfl

/-! ## setWg -/

@[simp] theorem State.setWg_agenda (s : State) (k : Nat) (x : Workgroup) : (s.setWg k x).agenda = s.agenda := rfl
@[simp] theorem State.setWg_offered (s : State) (k : Nat) (x : Workgroup) : (s.setWg k x).offered = s.offered := rfl
@[simp] theorem State.setWg_free (s : State) (k : Nat) (x : Workgroup) : (s.setWg k x).free = s.free := rfl
@[simp] theorem State.setWg_cur (s : State) (k : Nat) (x : Workgroup) : (s.setWg k x).cur = s.cur := rfl
@[simp] theorem State.setWg_hop (s : State) (k : Nat) (x : Workgroup) : (s.setWg k x).hop = s.hop := rfl
@[simp] theorem State.setWg_cleared (s : State) (k : Nat) (x : Workgroup) : (s.setWg k x).cleared = s.cleared := rfl
@[simp] theorem State.setWg_judged (s : State) (k : Nat) (x : Workgroup) : (s.setWg k x).judged = s.judged := rfl
@[simp] theorem State.setWg_tickRegs (s : State) (k : Nat) (x : Workgroup) : (s.setWg k x).tickRegs = s.tickRegs := rfl
@[simp] theorem State.setWg_roundRegs (s : State) (k : Nat) (x : Workgroup) : (s.setWg k x).roundRegs = s.roundRegs := rfl
@[simp] theorem State.setWg_mem (s : State) (k : Nat) (x : Workgroup) : (s.setWg k x).mem = s.mem := rfl
@[simp] theorem State.setWg_poison (s : State) (k : Nat) (x : Workgroup) : (s.setWg k x).poison = s.poison := rfl
@[simp] theorem State.setWg_ext (s : State) (k : Nat) (x : Workgroup) : (s.setWg k x).ext = s.ext := rfl
@[simp] theorem State.setWg_groups (s : State) (k : Nat) (x : Workgroup) : (s.setWg k x).groups = s.groups := rfl
@[simp] theorem State.setWg_nextWg (s : State) (k : Nat) (x : Workgroup) : (s.setWg k x).nextWg = s.nextWg := rfl
@[simp] theorem State.setWg_cores (s : State) (k : Nat) (x : Workgroup) : (s.setWg k x).cores = s.cores := rfl
@[simp] theorem State.setWg_parts (s : State) (k : Nat) (x : Workgroup) : (s.setWg k x).parts = s.parts := rfl
@[simp] theorem State.setWg_clusters (s : State) (k : Nat) (x : Workgroup) : (s.setWg k x).clusters = s.clusters := rfl
@[simp] theorem State.setWg_diesT (s : State) (k : Nat) (x : Workgroup) : (s.setWg k x).diesT = s.diesT := rfl
@[simp] theorem State.setWg_cmds (s : State) (k : Nat) (x : Workgroup) : (s.setWg k x).cmds = s.cmds := rfl
@[simp] theorem State.setWg_nextCmd (s : State) (k : Nat) (x : Workgroup) : (s.setWg k x).nextCmd = s.nextCmd := rfl
@[simp] theorem State.setWg_colls (s : State) (k : Nat) (x : Workgroup) : (s.setWg k x).colls = s.colls := rfl
@[simp] theorem State.setWg_bank (s : State) (k : Nat) (x : Workgroup) : (s.setWg k x).bank = s.bank := rfl
@[simp] theorem State.setWg_queueOps (s : State) (k : Nat) (x : Workgroup) : (s.setWg k x).queueOps = s.queueOps := rfl
@[simp] theorem State.setWg_dsr (s : State) (k : Nat) (x : Workgroup) : (s.setWg k x).dsr = s.dsr := rfl
@[simp] theorem State.setWg_ast (s : State) (k : Nat) (x : Workgroup) : (s.setWg k x).ast = s.ast := rfl
@[simp] theorem State.setWg_stage (s : State) (k : Nat) (x : Workgroup) : (s.setWg k x).stage = s.stage := rfl
@[simp] theorem State.setWg_accepted (s : State) (k : Nat) (x : Workgroup) : (s.setWg k x).accepted = s.accepted := rfl
@[simp] theorem State.setWg_lastTick (s : State) (k : Nat) (x : Workgroup) : (s.setWg k x).lastTick = s.lastTick := rfl
@[simp] theorem State.setWg_ctxs (s : State) (k : Nat) (x : Workgroup) : (s.setWg k x).ctxs = s.ctxs := rfl
@[simp] theorem State.setWg_maps (s : State) (k : Nat) (x : Workgroup) : (s.setWg k x).maps = s.maps := rfl
@[simp] theorem State.setWg_launches (s : State) (k : Nat) (x : Workgroup) : (s.setWg k x).launches = s.launches := rfl
@[simp] theorem State.setWg_queues (s : State) (k : Nat) (x : Workgroup) : (s.setWg k x).queues = s.queues := rfl
@[simp] theorem State.setWg_allocated (s : State) (k : Nat) (x : Workgroup) : (s.setWg k x).allocated = s.allocated := rfl
@[simp] theorem State.setWg_retiredMem (s : State) (k : Nat) (x : Workgroup) : (s.setWg k x).retiredMem = s.retiredMem := rfl
@[simp] theorem State.setWg_port (s : State) (k : Nat) (x : Workgroup) : (s.setWg k x).port = s.port := rfl
@[simp] theorem State.setWg_notices (s : State) (k : Nat) (x : Workgroup) : (s.setWg k x).notices = s.notices := rfl
@[simp] theorem State.setWg_dumping (s : State) (k : Nat) (x : Workgroup) : (s.setWg k x).dumping = s.dumping := rfl
@[simp] theorem State.setWg_hits (s : State) (k : Nat) (x : Workgroup) : (s.setWg k x).hits = s.hits := rfl
@[simp] theorem State.setWg_samples (s : State) (k : Nat) (x : Workgroup) : (s.setWg k x).samples = s.samples := rfl
@[simp] theorem State.setWg_boot (s : State) (k : Nat) (x : Workgroup) : (s.setWg k x).boot = s.boot := rfl
@[simp] theorem State.group_setWg (s : State) (k : Nat) (x : Workgroup) (j : Nat) : (s.setWg k x).group j = s.group j := rfl
@[simp] theorem State.core_setWg (s : State) (k : Nat) (x : Workgroup) (j : Nat) : (s.setWg k x).core j = s.core j := rfl
@[simp] theorem State.part_setWg (s : State) (k : Nat) (x : Workgroup) (j : Nat) : (s.setWg k x).part j = s.part j := rfl
@[simp] theorem State.cluster_setWg (s : State) (k : Nat) (x : Workgroup) (j : Nat) : (s.setWg k x).cluster j = s.cluster j := rfl
@[simp] theorem State.die_setWg (s : State) (k : Nat) (x : Workgroup) (j : Nat) : (s.setWg k x).die j = s.die j := rfl
@[simp] theorem State.ctxOf_setWg (s : State) (k : Nat) (x : Workgroup) (j : Nat) : (s.setWg k x).ctxOf j = s.ctxOf j := rfl
@[simp] theorem State.launch_setWg (s : State) (k : Nat) (x : Workgroup) (j : Nat) : (s.setWg k x).launch j = s.launch j := rfl
@[simp] theorem State.cmd_setWg (s : State) (k : Nat) (x : Workgroup) (j : Nat) : (s.setWg k x).cmd j = s.cmd j := rfl
@[simp] theorem State.record_setWg (s : State) (k : Nat) (x : Workgroup) (j : Nat) : (s.setWg k x).record j = s.record j := rfl
@[simp] theorem State.astOf_setWg (s : State) (k : Nat) (x : Workgroup) (j : Nat) : (s.setWg k x).astOf j = s.astOf j := rfl
@[simp] theorem State.me_setWg (s : State) (k : Nat) (x : Workgroup) : (s.setWg k x).me = s.me := rfl
@[simp] theorem State.mySplit_setWg (s : State) (k : Nat) (x : Workgroup) : (s.setWg k x).mySplit = s.mySplit := rfl
@[simp] theorem State.reg_setWg (s : State) (k : Nat) (x : Workgroup) (j : Nat) : (s.setWg k x).reg j = s.reg j := rfl
@[simp] theorem State.tick_setWg (s : State) (k : Nat) (x : Workgroup) : (s.setWg k x).tick = s.tick := rfl
@[simp] theorem State.body_setWg (s : State) (k : Nat) (x : Workgroup) (j : Nat) : (s.setWg k x).body j = s.body j := rfl
@[simp] theorem State.mapping_setWg (s : State) (k : Nat) (x : Workgroup) (c a : Nat) : (s.setWg k x).mapping c a = s.mapping c a := rfl
@[simp] theorem State.l1_setWg (s : State) (k : Nat) (x : Workgroup) (c j : Nat) : (s.setWg k x).l1 c j = s.l1 c j := rfl

/-! ## setCore -/

@[simp] theorem State.setCore_agenda (s : State) (k : Nat) (x : Core) : (s.setCore k x).agenda = s.agenda := rfl
@[simp] theorem State.setCore_offered (s : State) (k : Nat) (x : Core) : (s.setCore k x).offered = s.offered := rfl
@[simp] theorem State.setCore_free (s : State) (k : Nat) (x : Core) : (s.setCore k x).free = s.free := rfl
@[simp] theorem State.setCore_cur (s : State) (k : Nat) (x : Core) : (s.setCore k x).cur = s.cur := rfl
@[simp] theorem State.setCore_hop (s : State) (k : Nat) (x : Core) : (s.setCore k x).hop = s.hop := rfl
@[simp] theorem State.setCore_cleared (s : State) (k : Nat) (x : Core) : (s.setCore k x).cleared = s.cleared := rfl
@[simp] theorem State.setCore_judged (s : State) (k : Nat) (x : Core) : (s.setCore k x).judged = s.judged := rfl
@[simp] theorem State.setCore_tickRegs (s : State) (k : Nat) (x : Core) : (s.setCore k x).tickRegs = s.tickRegs := rfl
@[simp] theorem State.setCore_roundRegs (s : State) (k : Nat) (x : Core) : (s.setCore k x).roundRegs = s.roundRegs := rfl
@[simp] theorem State.setCore_mem (s : State) (k : Nat) (x : Core) : (s.setCore k x).mem = s.mem := rfl
@[simp] theorem State.setCore_poison (s : State) (k : Nat) (x : Core) : (s.setCore k x).poison = s.poison := rfl
@[simp] theorem State.setCore_ext (s : State) (k : Nat) (x : Core) : (s.setCore k x).ext = s.ext := rfl
@[simp] theorem State.setCore_groups (s : State) (k : Nat) (x : Core) : (s.setCore k x).groups = s.groups := rfl
@[simp] theorem State.setCore_wgs (s : State) (k : Nat) (x : Core) : (s.setCore k x).wgs = s.wgs := rfl
@[simp] theorem State.setCore_nextWg (s : State) (k : Nat) (x : Core) : (s.setCore k x).nextWg = s.nextWg := rfl
@[simp] theorem State.setCore_parts (s : State) (k : Nat) (x : Core) : (s.setCore k x).parts = s.parts := rfl
@[simp] theorem State.setCore_clusters (s : State) (k : Nat) (x : Core) : (s.setCore k x).clusters = s.clusters := rfl
@[simp] theorem State.setCore_diesT (s : State) (k : Nat) (x : Core) : (s.setCore k x).diesT = s.diesT := rfl
@[simp] theorem State.setCore_cmds (s : State) (k : Nat) (x : Core) : (s.setCore k x).cmds = s.cmds := rfl
@[simp] theorem State.setCore_nextCmd (s : State) (k : Nat) (x : Core) : (s.setCore k x).nextCmd = s.nextCmd := rfl
@[simp] theorem State.setCore_colls (s : State) (k : Nat) (x : Core) : (s.setCore k x).colls = s.colls := rfl
@[simp] theorem State.setCore_bank (s : State) (k : Nat) (x : Core) : (s.setCore k x).bank = s.bank := rfl
@[simp] theorem State.setCore_queueOps (s : State) (k : Nat) (x : Core) : (s.setCore k x).queueOps = s.queueOps := rfl
@[simp] theorem State.setCore_dsr (s : State) (k : Nat) (x : Core) : (s.setCore k x).dsr = s.dsr := rfl
@[simp] theorem State.setCore_ast (s : State) (k : Nat) (x : Core) : (s.setCore k x).ast = s.ast := rfl
@[simp] theorem State.setCore_stage (s : State) (k : Nat) (x : Core) : (s.setCore k x).stage = s.stage := rfl
@[simp] theorem State.setCore_accepted (s : State) (k : Nat) (x : Core) : (s.setCore k x).accepted = s.accepted := rfl
@[simp] theorem State.setCore_lastTick (s : State) (k : Nat) (x : Core) : (s.setCore k x).lastTick = s.lastTick := rfl
@[simp] theorem State.setCore_ctxs (s : State) (k : Nat) (x : Core) : (s.setCore k x).ctxs = s.ctxs := rfl
@[simp] theorem State.setCore_maps (s : State) (k : Nat) (x : Core) : (s.setCore k x).maps = s.maps := rfl
@[simp] theorem State.setCore_launches (s : State) (k : Nat) (x : Core) : (s.setCore k x).launches = s.launches := rfl
@[simp] theorem State.setCore_queues (s : State) (k : Nat) (x : Core) : (s.setCore k x).queues = s.queues := rfl
@[simp] theorem State.setCore_allocated (s : State) (k : Nat) (x : Core) : (s.setCore k x).allocated = s.allocated := rfl
@[simp] theorem State.setCore_retiredMem (s : State) (k : Nat) (x : Core) : (s.setCore k x).retiredMem = s.retiredMem := rfl
@[simp] theorem State.setCore_port (s : State) (k : Nat) (x : Core) : (s.setCore k x).port = s.port := rfl
@[simp] theorem State.setCore_notices (s : State) (k : Nat) (x : Core) : (s.setCore k x).notices = s.notices := rfl
@[simp] theorem State.setCore_dumping (s : State) (k : Nat) (x : Core) : (s.setCore k x).dumping = s.dumping := rfl
@[simp] theorem State.setCore_hits (s : State) (k : Nat) (x : Core) : (s.setCore k x).hits = s.hits := rfl
@[simp] theorem State.setCore_samples (s : State) (k : Nat) (x : Core) : (s.setCore k x).samples = s.samples := rfl
@[simp] theorem State.setCore_boot (s : State) (k : Nat) (x : Core) : (s.setCore k x).boot = s.boot := rfl
@[simp] theorem State.group_setCore (s : State) (k : Nat) (x : Core) (j : Nat) : (s.setCore k x).group j = s.group j := rfl
@[simp] theorem State.wgOf_setCore (s : State) (k : Nat) (x : Core) (j : Nat) : (s.setCore k x).wgOf j = s.wgOf j := rfl
@[simp] theorem State.part_setCore (s : State) (k : Nat) (x : Core) (j : Nat) : (s.setCore k x).part j = s.part j := rfl
@[simp] theorem State.cluster_setCore (s : State) (k : Nat) (x : Core) (j : Nat) : (s.setCore k x).cluster j = s.cluster j := rfl
@[simp] theorem State.die_setCore (s : State) (k : Nat) (x : Core) (j : Nat) : (s.setCore k x).die j = s.die j := rfl
@[simp] theorem State.ctxOf_setCore (s : State) (k : Nat) (x : Core) (j : Nat) : (s.setCore k x).ctxOf j = s.ctxOf j := rfl
@[simp] theorem State.launch_setCore (s : State) (k : Nat) (x : Core) (j : Nat) : (s.setCore k x).launch j = s.launch j := rfl
@[simp] theorem State.cmd_setCore (s : State) (k : Nat) (x : Core) (j : Nat) : (s.setCore k x).cmd j = s.cmd j := rfl
@[simp] theorem State.record_setCore (s : State) (k : Nat) (x : Core) (j : Nat) : (s.setCore k x).record j = s.record j := rfl
@[simp] theorem State.astOf_setCore (s : State) (k : Nat) (x : Core) (j : Nat) : (s.setCore k x).astOf j = s.astOf j := rfl
@[simp] theorem State.me_setCore (s : State) (k : Nat) (x : Core) : (s.setCore k x).me = s.me := rfl
@[simp] theorem State.mySplit_setCore (s : State) (k : Nat) (x : Core) : (s.setCore k x).mySplit = s.mySplit := rfl
@[simp] theorem State.reg_setCore (s : State) (k : Nat) (x : Core) (j : Nat) : (s.setCore k x).reg j = s.reg j := rfl
@[simp] theorem State.tick_setCore (s : State) (k : Nat) (x : Core) : (s.setCore k x).tick = s.tick := rfl
@[simp] theorem State.body_setCore (s : State) (k : Nat) (x : Core) (j : Nat) : (s.setCore k x).body j = s.body j := rfl
@[simp] theorem State.mapping_setCore (s : State) (k : Nat) (x : Core) (c a : Nat) : (s.setCore k x).mapping c a = s.mapping c a := rfl

/-! ## setPart -/

@[simp] theorem State.setPart_agenda (s : State) (k : Nat) (x : Partition) : (s.setPart k x).agenda = s.agenda := rfl
@[simp] theorem State.setPart_offered (s : State) (k : Nat) (x : Partition) : (s.setPart k x).offered = s.offered := rfl
@[simp] theorem State.setPart_free (s : State) (k : Nat) (x : Partition) : (s.setPart k x).free = s.free := rfl
@[simp] theorem State.setPart_cur (s : State) (k : Nat) (x : Partition) : (s.setPart k x).cur = s.cur := rfl
@[simp] theorem State.setPart_hop (s : State) (k : Nat) (x : Partition) : (s.setPart k x).hop = s.hop := rfl
@[simp] theorem State.setPart_cleared (s : State) (k : Nat) (x : Partition) : (s.setPart k x).cleared = s.cleared := rfl
@[simp] theorem State.setPart_judged (s : State) (k : Nat) (x : Partition) : (s.setPart k x).judged = s.judged := rfl
@[simp] theorem State.setPart_tickRegs (s : State) (k : Nat) (x : Partition) : (s.setPart k x).tickRegs = s.tickRegs := rfl
@[simp] theorem State.setPart_roundRegs (s : State) (k : Nat) (x : Partition) : (s.setPart k x).roundRegs = s.roundRegs := rfl
@[simp] theorem State.setPart_mem (s : State) (k : Nat) (x : Partition) : (s.setPart k x).mem = s.mem := rfl
@[simp] theorem State.setPart_poison (s : State) (k : Nat) (x : Partition) : (s.setPart k x).poison = s.poison := rfl
@[simp] theorem State.setPart_ext (s : State) (k : Nat) (x : Partition) : (s.setPart k x).ext = s.ext := rfl
@[simp] theorem State.setPart_groups (s : State) (k : Nat) (x : Partition) : (s.setPart k x).groups = s.groups := rfl
@[simp] theorem State.setPart_wgs (s : State) (k : Nat) (x : Partition) : (s.setPart k x).wgs = s.wgs := rfl
@[simp] theorem State.setPart_nextWg (s : State) (k : Nat) (x : Partition) : (s.setPart k x).nextWg = s.nextWg := rfl
@[simp] theorem State.setPart_cores (s : State) (k : Nat) (x : Partition) : (s.setPart k x).cores = s.cores := rfl
@[simp] theorem State.setPart_clusters (s : State) (k : Nat) (x : Partition) : (s.setPart k x).clusters = s.clusters := rfl
@[simp] theorem State.setPart_diesT (s : State) (k : Nat) (x : Partition) : (s.setPart k x).diesT = s.diesT := rfl
@[simp] theorem State.setPart_cmds (s : State) (k : Nat) (x : Partition) : (s.setPart k x).cmds = s.cmds := rfl
@[simp] theorem State.setPart_nextCmd (s : State) (k : Nat) (x : Partition) : (s.setPart k x).nextCmd = s.nextCmd := rfl
@[simp] theorem State.setPart_colls (s : State) (k : Nat) (x : Partition) : (s.setPart k x).colls = s.colls := rfl
@[simp] theorem State.setPart_bank (s : State) (k : Nat) (x : Partition) : (s.setPart k x).bank = s.bank := rfl
@[simp] theorem State.setPart_queueOps (s : State) (k : Nat) (x : Partition) : (s.setPart k x).queueOps = s.queueOps := rfl
@[simp] theorem State.setPart_dsr (s : State) (k : Nat) (x : Partition) : (s.setPart k x).dsr = s.dsr := rfl
@[simp] theorem State.setPart_ast (s : State) (k : Nat) (x : Partition) : (s.setPart k x).ast = s.ast := rfl
@[simp] theorem State.setPart_stage (s : State) (k : Nat) (x : Partition) : (s.setPart k x).stage = s.stage := rfl
@[simp] theorem State.setPart_accepted (s : State) (k : Nat) (x : Partition) : (s.setPart k x).accepted = s.accepted := rfl
@[simp] theorem State.setPart_lastTick (s : State) (k : Nat) (x : Partition) : (s.setPart k x).lastTick = s.lastTick := rfl
@[simp] theorem State.setPart_ctxs (s : State) (k : Nat) (x : Partition) : (s.setPart k x).ctxs = s.ctxs := rfl
@[simp] theorem State.setPart_maps (s : State) (k : Nat) (x : Partition) : (s.setPart k x).maps = s.maps := rfl
@[simp] theorem State.setPart_launches (s : State) (k : Nat) (x : Partition) : (s.setPart k x).launches = s.launches := rfl
@[simp] theorem State.setPart_queues (s : State) (k : Nat) (x : Partition) : (s.setPart k x).queues = s.queues := rfl
@[simp] theorem State.setPart_allocated (s : State) (k : Nat) (x : Partition) : (s.setPart k x).allocated = s.allocated := rfl
@[simp] theorem State.setPart_retiredMem (s : State) (k : Nat) (x : Partition) : (s.setPart k x).retiredMem = s.retiredMem := rfl
@[simp] theorem State.setPart_port (s : State) (k : Nat) (x : Partition) : (s.setPart k x).port = s.port := rfl
@[simp] theorem State.setPart_notices (s : State) (k : Nat) (x : Partition) : (s.setPart k x).notices = s.notices := rfl
@[simp] theorem State.setPart_dumping (s : State) (k : Nat) (x : Partition) : (s.setPart k x).dumping = s.dumping := rfl
@[simp] theorem State.setPart_hits (s : State) (k : Nat) (x : Partition) : (s.setPart k x).hits = s.hits := rfl
@[simp] theorem State.setPart_samples (s : State) (k : Nat) (x : Partition) : (s.setPart k x).samples = s.samples := rfl
@[simp] theorem State.setPart_boot (s : State) (k : Nat) (x : Partition) : (s.setPart k x).boot = s.boot := rfl
@[simp] theorem State.group_setPart (s : State) (k : Nat) (x : Partition) (j : Nat) : (s.setPart k x).group j = s.group j := rfl
@[simp] theorem State.wgOf_setPart (s : State) (k : Nat) (x : Partition) (j : Nat) : (s.setPart k x).wgOf j = s.wgOf j := rfl
@[simp] theorem State.core_setPart (s : State) (k : Nat) (x : Partition) (j : Nat) : (s.setPart k x).core j = s.core j := rfl
@[simp] theorem State.cluster_setPart (s : State) (k : Nat) (x : Partition) (j : Nat) : (s.setPart k x).cluster j = s.cluster j := rfl
@[simp] theorem State.die_setPart (s : State) (k : Nat) (x : Partition) (j : Nat) : (s.setPart k x).die j = s.die j := rfl
@[simp] theorem State.ctxOf_setPart (s : State) (k : Nat) (x : Partition) (j : Nat) : (s.setPart k x).ctxOf j = s.ctxOf j := rfl
@[simp] theorem State.launch_setPart (s : State) (k : Nat) (x : Partition) (j : Nat) : (s.setPart k x).launch j = s.launch j := rfl
@[simp] theorem State.cmd_setPart (s : State) (k : Nat) (x : Partition) (j : Nat) : (s.setPart k x).cmd j = s.cmd j := rfl
@[simp] theorem State.record_setPart (s : State) (k : Nat) (x : Partition) (j : Nat) : (s.setPart k x).record j = s.record j := rfl
@[simp] theorem State.astOf_setPart (s : State) (k : Nat) (x : Partition) (j : Nat) : (s.setPart k x).astOf j = s.astOf j := rfl
@[simp] theorem State.me_setPart (s : State) (k : Nat) (x : Partition) : (s.setPart k x).me = s.me := rfl
@[simp] theorem State.mySplit_setPart (s : State) (k : Nat) (x : Partition) : (s.setPart k x).mySplit = s.mySplit := rfl
@[simp] theorem State.reg_setPart (s : State) (k : Nat) (x : Partition) (j : Nat) : (s.setPart k x).reg j = s.reg j := rfl
@[simp] theorem State.tick_setPart (s : State) (k : Nat) (x : Partition) : (s.setPart k x).tick = s.tick := rfl
@[simp] theorem State.body_setPart (s : State) (k : Nat) (x : Partition) (j : Nat) : (s.setPart k x).body j = s.body j := rfl
@[simp] theorem State.mapping_setPart (s : State) (k : Nat) (x : Partition) (c a : Nat) : (s.setPart k x).mapping c a = s.mapping c a := rfl
@[simp] theorem State.l1_setPart (s : State) (k : Nat) (x : Partition) (c j : Nat) : (s.setPart k x).l1 c j = s.l1 c j := rfl

/-! ## setCluster -/

@[simp] theorem State.setCluster_agenda (s : State) (k : Nat) (x : Cluster) : (s.setCluster k x).agenda = s.agenda := rfl
@[simp] theorem State.setCluster_offered (s : State) (k : Nat) (x : Cluster) : (s.setCluster k x).offered = s.offered := rfl
@[simp] theorem State.setCluster_free (s : State) (k : Nat) (x : Cluster) : (s.setCluster k x).free = s.free := rfl
@[simp] theorem State.setCluster_cur (s : State) (k : Nat) (x : Cluster) : (s.setCluster k x).cur = s.cur := rfl
@[simp] theorem State.setCluster_hop (s : State) (k : Nat) (x : Cluster) : (s.setCluster k x).hop = s.hop := rfl
@[simp] theorem State.setCluster_cleared (s : State) (k : Nat) (x : Cluster) : (s.setCluster k x).cleared = s.cleared := rfl
@[simp] theorem State.setCluster_judged (s : State) (k : Nat) (x : Cluster) : (s.setCluster k x).judged = s.judged := rfl
@[simp] theorem State.setCluster_tickRegs (s : State) (k : Nat) (x : Cluster) : (s.setCluster k x).tickRegs = s.tickRegs := rfl
@[simp] theorem State.setCluster_roundRegs (s : State) (k : Nat) (x : Cluster) : (s.setCluster k x).roundRegs = s.roundRegs := rfl
@[simp] theorem State.setCluster_mem (s : State) (k : Nat) (x : Cluster) : (s.setCluster k x).mem = s.mem := rfl
@[simp] theorem State.setCluster_poison (s : State) (k : Nat) (x : Cluster) : (s.setCluster k x).poison = s.poison := rfl
@[simp] theorem State.setCluster_ext (s : State) (k : Nat) (x : Cluster) : (s.setCluster k x).ext = s.ext := rfl
@[simp] theorem State.setCluster_groups (s : State) (k : Nat) (x : Cluster) : (s.setCluster k x).groups = s.groups := rfl
@[simp] theorem State.setCluster_wgs (s : State) (k : Nat) (x : Cluster) : (s.setCluster k x).wgs = s.wgs := rfl
@[simp] theorem State.setCluster_nextWg (s : State) (k : Nat) (x : Cluster) : (s.setCluster k x).nextWg = s.nextWg := rfl
@[simp] theorem State.setCluster_cores (s : State) (k : Nat) (x : Cluster) : (s.setCluster k x).cores = s.cores := rfl
@[simp] theorem State.setCluster_parts (s : State) (k : Nat) (x : Cluster) : (s.setCluster k x).parts = s.parts := rfl
@[simp] theorem State.setCluster_diesT (s : State) (k : Nat) (x : Cluster) : (s.setCluster k x).diesT = s.diesT := rfl
@[simp] theorem State.setCluster_cmds (s : State) (k : Nat) (x : Cluster) : (s.setCluster k x).cmds = s.cmds := rfl
@[simp] theorem State.setCluster_nextCmd (s : State) (k : Nat) (x : Cluster) : (s.setCluster k x).nextCmd = s.nextCmd := rfl
@[simp] theorem State.setCluster_colls (s : State) (k : Nat) (x : Cluster) : (s.setCluster k x).colls = s.colls := rfl
@[simp] theorem State.setCluster_bank (s : State) (k : Nat) (x : Cluster) : (s.setCluster k x).bank = s.bank := rfl
@[simp] theorem State.setCluster_queueOps (s : State) (k : Nat) (x : Cluster) : (s.setCluster k x).queueOps = s.queueOps := rfl
@[simp] theorem State.setCluster_dsr (s : State) (k : Nat) (x : Cluster) : (s.setCluster k x).dsr = s.dsr := rfl
@[simp] theorem State.setCluster_ast (s : State) (k : Nat) (x : Cluster) : (s.setCluster k x).ast = s.ast := rfl
@[simp] theorem State.setCluster_stage (s : State) (k : Nat) (x : Cluster) : (s.setCluster k x).stage = s.stage := rfl
@[simp] theorem State.setCluster_accepted (s : State) (k : Nat) (x : Cluster) : (s.setCluster k x).accepted = s.accepted := rfl
@[simp] theorem State.setCluster_lastTick (s : State) (k : Nat) (x : Cluster) : (s.setCluster k x).lastTick = s.lastTick := rfl
@[simp] theorem State.setCluster_ctxs (s : State) (k : Nat) (x : Cluster) : (s.setCluster k x).ctxs = s.ctxs := rfl
@[simp] theorem State.setCluster_maps (s : State) (k : Nat) (x : Cluster) : (s.setCluster k x).maps = s.maps := rfl
@[simp] theorem State.setCluster_launches (s : State) (k : Nat) (x : Cluster) : (s.setCluster k x).launches = s.launches := rfl
@[simp] theorem State.setCluster_queues (s : State) (k : Nat) (x : Cluster) : (s.setCluster k x).queues = s.queues := rfl
@[simp] theorem State.setCluster_allocated (s : State) (k : Nat) (x : Cluster) : (s.setCluster k x).allocated = s.allocated := rfl
@[simp] theorem State.setCluster_retiredMem (s : State) (k : Nat) (x : Cluster) : (s.setCluster k x).retiredMem = s.retiredMem := rfl
@[simp] theorem State.setCluster_port (s : State) (k : Nat) (x : Cluster) : (s.setCluster k x).port = s.port := rfl
@[simp] theorem State.setCluster_notices (s : State) (k : Nat) (x : Cluster) : (s.setCluster k x).notices = s.notices := rfl
@[simp] theorem State.setCluster_dumping (s : State) (k : Nat) (x : Cluster) : (s.setCluster k x).dumping = s.dumping := rfl
@[simp] theorem State.setCluster_hits (s : State) (k : Nat) (x : Cluster) : (s.setCluster k x).hits = s.hits := rfl
@[simp] theorem State.setCluster_samples (s : State) (k : Nat) (x : Cluster) : (s.setCluster k x).samples = s.samples := rfl
@[simp] theorem State.setCluster_boot (s : State) (k : Nat) (x : Cluster) : (s.setCluster k x).boot = s.boot := rfl
@[simp] theorem State.group_setCluster (s : State) (k : Nat) (x : Cluster) (j : Nat) : (s.setCluster k x).group j = s.group j := rfl
@[simp] theorem State.wgOf_setCluster (s : State) (k : Nat) (x : Cluster) (j : Nat) : (s.setCluster k x).wgOf j = s.wgOf j := rfl
@[simp] theorem State.core_setCluster (s : State) (k : Nat) (x : Cluster) (j : Nat) : (s.setCluster k x).core j = s.core j := rfl
@[simp] theorem State.part_setCluster (s : State) (k : Nat) (x : Cluster) (j : Nat) : (s.setCluster k x).part j = s.part j := rfl
@[simp] theorem State.die_setCluster (s : State) (k : Nat) (x : Cluster) (j : Nat) : (s.setCluster k x).die j = s.die j := rfl
@[simp] theorem State.ctxOf_setCluster (s : State) (k : Nat) (x : Cluster) (j : Nat) : (s.setCluster k x).ctxOf j = s.ctxOf j := rfl
@[simp] theorem State.launch_setCluster (s : State) (k : Nat) (x : Cluster) (j : Nat) : (s.setCluster k x).launch j = s.launch j := rfl
@[simp] theorem State.cmd_setCluster (s : State) (k : Nat) (x : Cluster) (j : Nat) : (s.setCluster k x).cmd j = s.cmd j := rfl
@[simp] theorem State.record_setCluster (s : State) (k : Nat) (x : Cluster) (j : Nat) : (s.setCluster k x).record j = s.record j := rfl
@[simp] theorem State.astOf_setCluster (s : State) (k : Nat) (x : Cluster) (j : Nat) : (s.setCluster k x).astOf j = s.astOf j := rfl
@[simp] theorem State.me_setCluster (s : State) (k : Nat) (x : Cluster) : (s.setCluster k x).me = s.me := rfl
@[simp] theorem State.mySplit_setCluster (s : State) (k : Nat) (x : Cluster) : (s.setCluster k x).mySplit = s.mySplit := rfl
@[simp] theorem State.reg_setCluster (s : State) (k : Nat) (x : Cluster) (j : Nat) : (s.setCluster k x).reg j = s.reg j := rfl
@[simp] theorem State.tick_setCluster (s : State) (k : Nat) (x : Cluster) : (s.setCluster k x).tick = s.tick := rfl
@[simp] theorem State.body_setCluster (s : State) (k : Nat) (x : Cluster) (j : Nat) : (s.setCluster k x).body j = s.body j := rfl
@[simp] theorem State.mapping_setCluster (s : State) (k : Nat) (x : Cluster) (c a : Nat) : (s.setCluster k x).mapping c a = s.mapping c a := rfl
@[simp] theorem State.l1_setCluster (s : State) (k : Nat) (x : Cluster) (c j : Nat) : (s.setCluster k x).l1 c j = s.l1 c j := rfl

/-! ## setDie -/

@[simp] theorem State.setDie_agenda (s : State) (k : Nat) (x : Die) : (s.setDie k x).agenda = s.agenda := rfl
@[simp] theorem State.setDie_offered (s : State) (k : Nat) (x : Die) : (s.setDie k x).offered = s.offered := rfl
@[simp] theorem State.setDie_free (s : State) (k : Nat) (x : Die) : (s.setDie k x).free = s.free := rfl
@[simp] theorem State.setDie_cur (s : State) (k : Nat) (x : Die) : (s.setDie k x).cur = s.cur := rfl
@[simp] theorem State.setDie_hop (s : State) (k : Nat) (x : Die) : (s.setDie k x).hop = s.hop := rfl
@[simp] theorem State.setDie_cleared (s : State) (k : Nat) (x : Die) : (s.setDie k x).cleared = s.cleared := rfl
@[simp] theorem State.setDie_judged (s : State) (k : Nat) (x : Die) : (s.setDie k x).judged = s.judged := rfl
@[simp] theorem State.setDie_tickRegs (s : State) (k : Nat) (x : Die) : (s.setDie k x).tickRegs = s.tickRegs := rfl
@[simp] theorem State.setDie_roundRegs (s : State) (k : Nat) (x : Die) : (s.setDie k x).roundRegs = s.roundRegs := rfl
@[simp] theorem State.setDie_mem (s : State) (k : Nat) (x : Die) : (s.setDie k x).mem = s.mem := rfl
@[simp] theorem State.setDie_poison (s : State) (k : Nat) (x : Die) : (s.setDie k x).poison = s.poison := rfl
@[simp] theorem State.setDie_ext (s : State) (k : Nat) (x : Die) : (s.setDie k x).ext = s.ext := rfl
@[simp] theorem State.setDie_groups (s : State) (k : Nat) (x : Die) : (s.setDie k x).groups = s.groups := rfl
@[simp] theorem State.setDie_wgs (s : State) (k : Nat) (x : Die) : (s.setDie k x).wgs = s.wgs := rfl
@[simp] theorem State.setDie_nextWg (s : State) (k : Nat) (x : Die) : (s.setDie k x).nextWg = s.nextWg := rfl
@[simp] theorem State.setDie_cores (s : State) (k : Nat) (x : Die) : (s.setDie k x).cores = s.cores := rfl
@[simp] theorem State.setDie_parts (s : State) (k : Nat) (x : Die) : (s.setDie k x).parts = s.parts := rfl
@[simp] theorem State.setDie_clusters (s : State) (k : Nat) (x : Die) : (s.setDie k x).clusters = s.clusters := rfl
@[simp] theorem State.setDie_cmds (s : State) (k : Nat) (x : Die) : (s.setDie k x).cmds = s.cmds := rfl
@[simp] theorem State.setDie_nextCmd (s : State) (k : Nat) (x : Die) : (s.setDie k x).nextCmd = s.nextCmd := rfl
@[simp] theorem State.setDie_colls (s : State) (k : Nat) (x : Die) : (s.setDie k x).colls = s.colls := rfl
@[simp] theorem State.setDie_bank (s : State) (k : Nat) (x : Die) : (s.setDie k x).bank = s.bank := rfl
@[simp] theorem State.setDie_queueOps (s : State) (k : Nat) (x : Die) : (s.setDie k x).queueOps = s.queueOps := rfl
@[simp] theorem State.setDie_dsr (s : State) (k : Nat) (x : Die) : (s.setDie k x).dsr = s.dsr := rfl
@[simp] theorem State.setDie_ast (s : State) (k : Nat) (x : Die) : (s.setDie k x).ast = s.ast := rfl
@[simp] theorem State.setDie_stage (s : State) (k : Nat) (x : Die) : (s.setDie k x).stage = s.stage := rfl
@[simp] theorem State.setDie_accepted (s : State) (k : Nat) (x : Die) : (s.setDie k x).accepted = s.accepted := rfl
@[simp] theorem State.setDie_lastTick (s : State) (k : Nat) (x : Die) : (s.setDie k x).lastTick = s.lastTick := rfl
@[simp] theorem State.setDie_ctxs (s : State) (k : Nat) (x : Die) : (s.setDie k x).ctxs = s.ctxs := rfl
@[simp] theorem State.setDie_maps (s : State) (k : Nat) (x : Die) : (s.setDie k x).maps = s.maps := rfl
@[simp] theorem State.setDie_launches (s : State) (k : Nat) (x : Die) : (s.setDie k x).launches = s.launches := rfl
@[simp] theorem State.setDie_queues (s : State) (k : Nat) (x : Die) : (s.setDie k x).queues = s.queues := rfl
@[simp] theorem State.setDie_allocated (s : State) (k : Nat) (x : Die) : (s.setDie k x).allocated = s.allocated := rfl
@[simp] theorem State.setDie_retiredMem (s : State) (k : Nat) (x : Die) : (s.setDie k x).retiredMem = s.retiredMem := rfl
@[simp] theorem State.setDie_port (s : State) (k : Nat) (x : Die) : (s.setDie k x).port = s.port := rfl
@[simp] theorem State.setDie_notices (s : State) (k : Nat) (x : Die) : (s.setDie k x).notices = s.notices := rfl
@[simp] theorem State.setDie_dumping (s : State) (k : Nat) (x : Die) : (s.setDie k x).dumping = s.dumping := rfl
@[simp] theorem State.setDie_hits (s : State) (k : Nat) (x : Die) : (s.setDie k x).hits = s.hits := rfl
@[simp] theorem State.setDie_samples (s : State) (k : Nat) (x : Die) : (s.setDie k x).samples = s.samples := rfl
@[simp] theorem State.setDie_boot (s : State) (k : Nat) (x : Die) : (s.setDie k x).boot = s.boot := rfl
@[simp] theorem State.group_setDie (s : State) (k : Nat) (x : Die) (j : Nat) : (s.setDie k x).group j = s.group j := rfl
@[simp] theorem State.wgOf_setDie (s : State) (k : Nat) (x : Die) (j : Nat) : (s.setDie k x).wgOf j = s.wgOf j := rfl
@[simp] theorem State.core_setDie (s : State) (k : Nat) (x : Die) (j : Nat) : (s.setDie k x).core j = s.core j := rfl
@[simp] theorem State.part_setDie (s : State) (k : Nat) (x : Die) (j : Nat) : (s.setDie k x).part j = s.part j := rfl
@[simp] theorem State.cluster_setDie (s : State) (k : Nat) (x : Die) (j : Nat) : (s.setDie k x).cluster j = s.cluster j := rfl
@[simp] theorem State.ctxOf_setDie (s : State) (k : Nat) (x : Die) (j : Nat) : (s.setDie k x).ctxOf j = s.ctxOf j := rfl
@[simp] theorem State.launch_setDie (s : State) (k : Nat) (x : Die) (j : Nat) : (s.setDie k x).launch j = s.launch j := rfl
@[simp] theorem State.cmd_setDie (s : State) (k : Nat) (x : Die) (j : Nat) : (s.setDie k x).cmd j = s.cmd j := rfl
@[simp] theorem State.record_setDie (s : State) (k : Nat) (x : Die) (j : Nat) : (s.setDie k x).record j = s.record j := rfl
@[simp] theorem State.astOf_setDie (s : State) (k : Nat) (x : Die) (j : Nat) : (s.setDie k x).astOf j = s.astOf j := rfl
@[simp] theorem State.me_setDie (s : State) (k : Nat) (x : Die) : (s.setDie k x).me = s.me := rfl
@[simp] theorem State.mySplit_setDie (s : State) (k : Nat) (x : Die) : (s.setDie k x).mySplit = s.mySplit := rfl
@[simp] theorem State.reg_setDie (s : State) (k : Nat) (x : Die) (j : Nat) : (s.setDie k x).reg j = s.reg j := rfl
@[simp] theorem State.tick_setDie (s : State) (k : Nat) (x : Die) : (s.setDie k x).tick = s.tick := rfl
@[simp] theorem State.body_setDie (s : State) (k : Nat) (x : Die) (j : Nat) : (s.setDie k x).body j = s.body j := rfl
@[simp] theorem State.mapping_setDie (s : State) (k : Nat) (x : Die) (c a : Nat) : (s.setDie k x).mapping c a = s.mapping c a := rfl
@[simp] theorem State.l1_setDie (s : State) (k : Nat) (x : Die) (c j : Nat) : (s.setDie k x).l1 c j = s.l1 c j := rfl

/-! ## setCtx -/

@[simp] theorem State.setCtx_agenda (s : State) (k : Nat) (x : Context) : (s.setCtx k x).agenda = s.agenda := rfl
@[simp] theorem State.setCtx_offered (s : State) (k : Nat) (x : Context) : (s.setCtx k x).offered = s.offered := rfl
@[simp] theorem State.setCtx_free (s : State) (k : Nat) (x : Context) : (s.setCtx k x).free = s.free := rfl
@[simp] theorem State.setCtx_cur (s : State) (k : Nat) (x : Context) : (s.setCtx k x).cur = s.cur := rfl
@[simp] theorem State.setCtx_hop (s : State) (k : Nat) (x : Context) : (s.setCtx k x).hop = s.hop := rfl
@[simp] theorem State.setCtx_cleared (s : State) (k : Nat) (x : Context) : (s.setCtx k x).cleared = s.cleared := rfl
@[simp] theorem State.setCtx_judged (s : State) (k : Nat) (x : Context) : (s.setCtx k x).judged = s.judged := rfl
@[simp] theorem State.setCtx_tickRegs (s : State) (k : Nat) (x : Context) : (s.setCtx k x).tickRegs = s.tickRegs := rfl
@[simp] theorem State.setCtx_roundRegs (s : State) (k : Nat) (x : Context) : (s.setCtx k x).roundRegs = s.roundRegs := rfl
@[simp] theorem State.setCtx_mem (s : State) (k : Nat) (x : Context) : (s.setCtx k x).mem = s.mem := rfl
@[simp] theorem State.setCtx_poison (s : State) (k : Nat) (x : Context) : (s.setCtx k x).poison = s.poison := rfl
@[simp] theorem State.setCtx_ext (s : State) (k : Nat) (x : Context) : (s.setCtx k x).ext = s.ext := rfl
@[simp] theorem State.setCtx_groups (s : State) (k : Nat) (x : Context) : (s.setCtx k x).groups = s.groups := rfl
@[simp] theorem State.setCtx_wgs (s : State) (k : Nat) (x : Context) : (s.setCtx k x).wgs = s.wgs := rfl
@[simp] theorem State.setCtx_nextWg (s : State) (k : Nat) (x : Context) : (s.setCtx k x).nextWg = s.nextWg := rfl
@[simp] theorem State.setCtx_cores (s : State) (k : Nat) (x : Context) : (s.setCtx k x).cores = s.cores := rfl
@[simp] theorem State.setCtx_parts (s : State) (k : Nat) (x : Context) : (s.setCtx k x).parts = s.parts := rfl
@[simp] theorem State.setCtx_clusters (s : State) (k : Nat) (x : Context) : (s.setCtx k x).clusters = s.clusters := rfl
@[simp] theorem State.setCtx_diesT (s : State) (k : Nat) (x : Context) : (s.setCtx k x).diesT = s.diesT := rfl
@[simp] theorem State.setCtx_cmds (s : State) (k : Nat) (x : Context) : (s.setCtx k x).cmds = s.cmds := rfl
@[simp] theorem State.setCtx_nextCmd (s : State) (k : Nat) (x : Context) : (s.setCtx k x).nextCmd = s.nextCmd := rfl
@[simp] theorem State.setCtx_colls (s : State) (k : Nat) (x : Context) : (s.setCtx k x).colls = s.colls := rfl
@[simp] theorem State.setCtx_bank (s : State) (k : Nat) (x : Context) : (s.setCtx k x).bank = s.bank := rfl
@[simp] theorem State.setCtx_queueOps (s : State) (k : Nat) (x : Context) : (s.setCtx k x).queueOps = s.queueOps := rfl
@[simp] theorem State.setCtx_dsr (s : State) (k : Nat) (x : Context) : (s.setCtx k x).dsr = s.dsr := rfl
@[simp] theorem State.setCtx_ast (s : State) (k : Nat) (x : Context) : (s.setCtx k x).ast = s.ast := rfl
@[simp] theorem State.setCtx_stage (s : State) (k : Nat) (x : Context) : (s.setCtx k x).stage = s.stage := rfl
@[simp] theorem State.setCtx_accepted (s : State) (k : Nat) (x : Context) : (s.setCtx k x).accepted = s.accepted := rfl
@[simp] theorem State.setCtx_lastTick (s : State) (k : Nat) (x : Context) : (s.setCtx k x).lastTick = s.lastTick := rfl
@[simp] theorem State.setCtx_maps (s : State) (k : Nat) (x : Context) : (s.setCtx k x).maps = s.maps := rfl
@[simp] theorem State.setCtx_launches (s : State) (k : Nat) (x : Context) : (s.setCtx k x).launches = s.launches := rfl
@[simp] theorem State.setCtx_queues (s : State) (k : Nat) (x : Context) : (s.setCtx k x).queues = s.queues := rfl
@[simp] theorem State.setCtx_allocated (s : State) (k : Nat) (x : Context) : (s.setCtx k x).allocated = s.allocated := rfl
@[simp] theorem State.setCtx_retiredMem (s : State) (k : Nat) (x : Context) : (s.setCtx k x).retiredMem = s.retiredMem := rfl
@[simp] theorem State.setCtx_port (s : State) (k : Nat) (x : Context) : (s.setCtx k x).port = s.port := rfl
@[simp] theorem State.setCtx_notices (s : State) (k : Nat) (x : Context) : (s.setCtx k x).notices = s.notices := rfl
@[simp] theorem State.setCtx_dumping (s : State) (k : Nat) (x : Context) : (s.setCtx k x).dumping = s.dumping := rfl
@[simp] theorem State.setCtx_hits (s : State) (k : Nat) (x : Context) : (s.setCtx k x).hits = s.hits := rfl
@[simp] theorem State.setCtx_samples (s : State) (k : Nat) (x : Context) : (s.setCtx k x).samples = s.samples := rfl
@[simp] theorem State.setCtx_boot (s : State) (k : Nat) (x : Context) : (s.setCtx k x).boot = s.boot := rfl
@[simp] theorem State.group_setCtx (s : State) (k : Nat) (x : Context) (j : Nat) : (s.setCtx k x).group j = s.group j := rfl
@[simp] theorem State.wgOf_setCtx (s : State) (k : Nat) (x : Context) (j : Nat) : (s.setCtx k x).wgOf j = s.wgOf j := rfl
@[simp] theorem State.core_setCtx (s : State) (k : Nat) (x : Context) (j : Nat) : (s.setCtx k x).core j = s.core j := rfl
@[simp] theorem State.part_setCtx (s : State) (k : Nat) (x : Context) (j : Nat) : (s.setCtx k x).part j = s.part j := rfl
@[simp] theorem State.cluster_setCtx (s : State) (k : Nat) (x : Context) (j : Nat) : (s.setCtx k x).cluster j = s.cluster j := rfl
@[simp] theorem State.die_setCtx (s : State) (k : Nat) (x : Context) (j : Nat) : (s.setCtx k x).die j = s.die j := rfl
@[simp] theorem State.launch_setCtx (s : State) (k : Nat) (x : Context) (j : Nat) : (s.setCtx k x).launch j = s.launch j := rfl
@[simp] theorem State.cmd_setCtx (s : State) (k : Nat) (x : Context) (j : Nat) : (s.setCtx k x).cmd j = s.cmd j := rfl
@[simp] theorem State.record_setCtx (s : State) (k : Nat) (x : Context) (j : Nat) : (s.setCtx k x).record j = s.record j := rfl
@[simp] theorem State.astOf_setCtx (s : State) (k : Nat) (x : Context) (j : Nat) : (s.setCtx k x).astOf j = s.astOf j := rfl
@[simp] theorem State.me_setCtx (s : State) (k : Nat) (x : Context) : (s.setCtx k x).me = s.me := rfl
@[simp] theorem State.mySplit_setCtx (s : State) (k : Nat) (x : Context) : (s.setCtx k x).mySplit = s.mySplit := rfl
@[simp] theorem State.reg_setCtx (s : State) (k : Nat) (x : Context) (j : Nat) : (s.setCtx k x).reg j = s.reg j := rfl
@[simp] theorem State.tick_setCtx (s : State) (k : Nat) (x : Context) : (s.setCtx k x).tick = s.tick := rfl
@[simp] theorem State.body_setCtx (s : State) (k : Nat) (x : Context) (j : Nat) : (s.setCtx k x).body j = s.body j := rfl
@[simp] theorem State.mapping_setCtx (s : State) (k : Nat) (x : Context) (c a : Nat) : (s.setCtx k x).mapping c a = s.mapping c a := rfl
@[simp] theorem State.l1_setCtx (s : State) (k : Nat) (x : Context) (c j : Nat) : (s.setCtx k x).l1 c j = s.l1 c j := rfl

/-! ## setLaunch -/

@[simp] theorem State.setLaunch_agenda (s : State) (k : Nat) (x : Launch) : (s.setLaunch k x).agenda = s.agenda := rfl
@[simp] theorem State.setLaunch_offered (s : State) (k : Nat) (x : Launch) : (s.setLaunch k x).offered = s.offered := rfl
@[simp] theorem State.setLaunch_free (s : State) (k : Nat) (x : Launch) : (s.setLaunch k x).free = s.free := rfl
@[simp] theorem State.setLaunch_cur (s : State) (k : Nat) (x : Launch) : (s.setLaunch k x).cur = s.cur := rfl
@[simp] theorem State.setLaunch_hop (s : State) (k : Nat) (x : Launch) : (s.setLaunch k x).hop = s.hop := rfl
@[simp] theorem State.setLaunch_cleared (s : State) (k : Nat) (x : Launch) : (s.setLaunch k x).cleared = s.cleared := rfl
@[simp] theorem State.setLaunch_judged (s : State) (k : Nat) (x : Launch) : (s.setLaunch k x).judged = s.judged := rfl
@[simp] theorem State.setLaunch_tickRegs (s : State) (k : Nat) (x : Launch) : (s.setLaunch k x).tickRegs = s.tickRegs := rfl
@[simp] theorem State.setLaunch_roundRegs (s : State) (k : Nat) (x : Launch) : (s.setLaunch k x).roundRegs = s.roundRegs := rfl
@[simp] theorem State.setLaunch_mem (s : State) (k : Nat) (x : Launch) : (s.setLaunch k x).mem = s.mem := rfl
@[simp] theorem State.setLaunch_poison (s : State) (k : Nat) (x : Launch) : (s.setLaunch k x).poison = s.poison := rfl
@[simp] theorem State.setLaunch_ext (s : State) (k : Nat) (x : Launch) : (s.setLaunch k x).ext = s.ext := rfl
@[simp] theorem State.setLaunch_groups (s : State) (k : Nat) (x : Launch) : (s.setLaunch k x).groups = s.groups := rfl
@[simp] theorem State.setLaunch_wgs (s : State) (k : Nat) (x : Launch) : (s.setLaunch k x).wgs = s.wgs := rfl
@[simp] theorem State.setLaunch_nextWg (s : State) (k : Nat) (x : Launch) : (s.setLaunch k x).nextWg = s.nextWg := rfl
@[simp] theorem State.setLaunch_cores (s : State) (k : Nat) (x : Launch) : (s.setLaunch k x).cores = s.cores := rfl
@[simp] theorem State.setLaunch_parts (s : State) (k : Nat) (x : Launch) : (s.setLaunch k x).parts = s.parts := rfl
@[simp] theorem State.setLaunch_clusters (s : State) (k : Nat) (x : Launch) : (s.setLaunch k x).clusters = s.clusters := rfl
@[simp] theorem State.setLaunch_diesT (s : State) (k : Nat) (x : Launch) : (s.setLaunch k x).diesT = s.diesT := rfl
@[simp] theorem State.setLaunch_cmds (s : State) (k : Nat) (x : Launch) : (s.setLaunch k x).cmds = s.cmds := rfl
@[simp] theorem State.setLaunch_nextCmd (s : State) (k : Nat) (x : Launch) : (s.setLaunch k x).nextCmd = s.nextCmd := rfl
@[simp] theorem State.setLaunch_colls (s : State) (k : Nat) (x : Launch) : (s.setLaunch k x).colls = s.colls := rfl
@[simp] theorem State.setLaunch_bank (s : State) (k : Nat) (x : Launch) : (s.setLaunch k x).bank = s.bank := rfl
@[simp] theorem State.setLaunch_queueOps (s : State) (k : Nat) (x : Launch) : (s.setLaunch k x).queueOps = s.queueOps := rfl
@[simp] theorem State.setLaunch_dsr (s : State) (k : Nat) (x : Launch) : (s.setLaunch k x).dsr = s.dsr := rfl
@[simp] theorem State.setLaunch_ast (s : State) (k : Nat) (x : Launch) : (s.setLaunch k x).ast = s.ast := rfl
@[simp] theorem State.setLaunch_stage (s : State) (k : Nat) (x : Launch) : (s.setLaunch k x).stage = s.stage := rfl
@[simp] theorem State.setLaunch_accepted (s : State) (k : Nat) (x : Launch) : (s.setLaunch k x).accepted = s.accepted := rfl
@[simp] theorem State.setLaunch_lastTick (s : State) (k : Nat) (x : Launch) : (s.setLaunch k x).lastTick = s.lastTick := rfl
@[simp] theorem State.setLaunch_ctxs (s : State) (k : Nat) (x : Launch) : (s.setLaunch k x).ctxs = s.ctxs := rfl
@[simp] theorem State.setLaunch_maps (s : State) (k : Nat) (x : Launch) : (s.setLaunch k x).maps = s.maps := rfl
@[simp] theorem State.setLaunch_queues (s : State) (k : Nat) (x : Launch) : (s.setLaunch k x).queues = s.queues := rfl
@[simp] theorem State.setLaunch_allocated (s : State) (k : Nat) (x : Launch) : (s.setLaunch k x).allocated = s.allocated := rfl
@[simp] theorem State.setLaunch_retiredMem (s : State) (k : Nat) (x : Launch) : (s.setLaunch k x).retiredMem = s.retiredMem := rfl
@[simp] theorem State.setLaunch_port (s : State) (k : Nat) (x : Launch) : (s.setLaunch k x).port = s.port := rfl
@[simp] theorem State.setLaunch_notices (s : State) (k : Nat) (x : Launch) : (s.setLaunch k x).notices = s.notices := rfl
@[simp] theorem State.setLaunch_dumping (s : State) (k : Nat) (x : Launch) : (s.setLaunch k x).dumping = s.dumping := rfl
@[simp] theorem State.setLaunch_hits (s : State) (k : Nat) (x : Launch) : (s.setLaunch k x).hits = s.hits := rfl
@[simp] theorem State.setLaunch_samples (s : State) (k : Nat) (x : Launch) : (s.setLaunch k x).samples = s.samples := rfl
@[simp] theorem State.setLaunch_boot (s : State) (k : Nat) (x : Launch) : (s.setLaunch k x).boot = s.boot := rfl
@[simp] theorem State.group_setLaunch (s : State) (k : Nat) (x : Launch) (j : Nat) : (s.setLaunch k x).group j = s.group j := rfl
@[simp] theorem State.wgOf_setLaunch (s : State) (k : Nat) (x : Launch) (j : Nat) : (s.setLaunch k x).wgOf j = s.wgOf j := rfl
@[simp] theorem State.core_setLaunch (s : State) (k : Nat) (x : Launch) (j : Nat) : (s.setLaunch k x).core j = s.core j := rfl
@[simp] theorem State.part_setLaunch (s : State) (k : Nat) (x : Launch) (j : Nat) : (s.setLaunch k x).part j = s.part j := rfl
@[simp] theorem State.cluster_setLaunch (s : State) (k : Nat) (x : Launch) (j : Nat) : (s.setLaunch k x).cluster j = s.cluster j := rfl
@[simp] theorem State.die_setLaunch (s : State) (k : Nat) (x : Launch) (j : Nat) : (s.setLaunch k x).die j = s.die j := rfl
@[simp] theorem State.ctxOf_setLaunch (s : State) (k : Nat) (x : Launch) (j : Nat) : (s.setLaunch k x).ctxOf j = s.ctxOf j := rfl
@[simp] theorem State.cmd_setLaunch (s : State) (k : Nat) (x : Launch) (j : Nat) : (s.setLaunch k x).cmd j = s.cmd j := rfl
@[simp] theorem State.record_setLaunch (s : State) (k : Nat) (x : Launch) (j : Nat) : (s.setLaunch k x).record j = s.record j := rfl
@[simp] theorem State.astOf_setLaunch (s : State) (k : Nat) (x : Launch) (j : Nat) : (s.setLaunch k x).astOf j = s.astOf j := rfl
@[simp] theorem State.me_setLaunch (s : State) (k : Nat) (x : Launch) : (s.setLaunch k x).me = s.me := rfl
@[simp] theorem State.mySplit_setLaunch (s : State) (k : Nat) (x : Launch) : (s.setLaunch k x).mySplit = s.mySplit := rfl
@[simp] theorem State.reg_setLaunch (s : State) (k : Nat) (x : Launch) (j : Nat) : (s.setLaunch k x).reg j = s.reg j := rfl
@[simp] theorem State.tick_setLaunch (s : State) (k : Nat) (x : Launch) : (s.setLaunch k x).tick = s.tick := rfl
@[simp] theorem State.body_setLaunch (s : State) (k : Nat) (x : Launch) (j : Nat) : (s.setLaunch k x).body j = s.body j := rfl
@[simp] theorem State.mapping_setLaunch (s : State) (k : Nat) (x : Launch) (c a : Nat) : (s.setLaunch k x).mapping c a = s.mapping c a := rfl
@[simp] theorem State.l1_setLaunch (s : State) (k : Nat) (x : Launch) (c j : Nat) : (s.setLaunch k x).l1 c j = s.l1 c j := rfl

/-! ## setAst -/

@[simp] theorem State.setAst_agenda (s : State) (k : Nat) (x : Ast) : (s.setAst k x).agenda = s.agenda := rfl
@[simp] theorem State.setAst_offered (s : State) (k : Nat) (x : Ast) : (s.setAst k x).offered = s.offered := rfl
@[simp] theorem State.setAst_free (s : State) (k : Nat) (x : Ast) : (s.setAst k x).free = s.free := rfl
@[simp] theorem State.setAst_cur (s : State) (k : Nat) (x : Ast) : (s.setAst k x).cur = s.cur := rfl
@[simp] theorem State.setAst_hop (s : State) (k : Nat) (x : Ast) : (s.setAst k x).hop = s.hop := rfl
@[simp] theorem State.setAst_cleared (s : State) (k : Nat) (x : Ast) : (s.setAst k x).cleared = s.cleared := rfl
@[simp] theorem State.setAst_judged (s : State) (k : Nat) (x : Ast) : (s.setAst k x).judged = s.judged := rfl
@[simp] theorem State.setAst_tickRegs (s : State) (k : Nat) (x : Ast) : (s.setAst k x).tickRegs = s.tickRegs := rfl
@[simp] theorem State.setAst_roundRegs (s : State) (k : Nat) (x : Ast) : (s.setAst k x).roundRegs = s.roundRegs := rfl
@[simp] theorem State.setAst_mem (s : State) (k : Nat) (x : Ast) : (s.setAst k x).mem = s.mem := rfl
@[simp] theorem State.setAst_poison (s : State) (k : Nat) (x : Ast) : (s.setAst k x).poison = s.poison := rfl
@[simp] theorem State.setAst_ext (s : State) (k : Nat) (x : Ast) : (s.setAst k x).ext = s.ext := rfl
@[simp] theorem State.setAst_groups (s : State) (k : Nat) (x : Ast) : (s.setAst k x).groups = s.groups := rfl
@[simp] theorem State.setAst_wgs (s : State) (k : Nat) (x : Ast) : (s.setAst k x).wgs = s.wgs := rfl
@[simp] theorem State.setAst_nextWg (s : State) (k : Nat) (x : Ast) : (s.setAst k x).nextWg = s.nextWg := rfl
@[simp] theorem State.setAst_cores (s : State) (k : Nat) (x : Ast) : (s.setAst k x).cores = s.cores := rfl
@[simp] theorem State.setAst_parts (s : State) (k : Nat) (x : Ast) : (s.setAst k x).parts = s.parts := rfl
@[simp] theorem State.setAst_clusters (s : State) (k : Nat) (x : Ast) : (s.setAst k x).clusters = s.clusters := rfl
@[simp] theorem State.setAst_diesT (s : State) (k : Nat) (x : Ast) : (s.setAst k x).diesT = s.diesT := rfl
@[simp] theorem State.setAst_cmds (s : State) (k : Nat) (x : Ast) : (s.setAst k x).cmds = s.cmds := rfl
@[simp] theorem State.setAst_nextCmd (s : State) (k : Nat) (x : Ast) : (s.setAst k x).nextCmd = s.nextCmd := rfl
@[simp] theorem State.setAst_colls (s : State) (k : Nat) (x : Ast) : (s.setAst k x).colls = s.colls := rfl
@[simp] theorem State.setAst_bank (s : State) (k : Nat) (x : Ast) : (s.setAst k x).bank = s.bank := rfl
@[simp] theorem State.setAst_queueOps (s : State) (k : Nat) (x : Ast) : (s.setAst k x).queueOps = s.queueOps := rfl
@[simp] theorem State.setAst_dsr (s : State) (k : Nat) (x : Ast) : (s.setAst k x).dsr = s.dsr := rfl
@[simp] theorem State.setAst_stage (s : State) (k : Nat) (x : Ast) : (s.setAst k x).stage = s.stage := rfl
@[simp] theorem State.setAst_accepted (s : State) (k : Nat) (x : Ast) : (s.setAst k x).accepted = s.accepted := rfl
@[simp] theorem State.setAst_lastTick (s : State) (k : Nat) (x : Ast) : (s.setAst k x).lastTick = s.lastTick := rfl
@[simp] theorem State.setAst_ctxs (s : State) (k : Nat) (x : Ast) : (s.setAst k x).ctxs = s.ctxs := rfl
@[simp] theorem State.setAst_maps (s : State) (k : Nat) (x : Ast) : (s.setAst k x).maps = s.maps := rfl
@[simp] theorem State.setAst_launches (s : State) (k : Nat) (x : Ast) : (s.setAst k x).launches = s.launches := rfl
@[simp] theorem State.setAst_queues (s : State) (k : Nat) (x : Ast) : (s.setAst k x).queues = s.queues := rfl
@[simp] theorem State.setAst_allocated (s : State) (k : Nat) (x : Ast) : (s.setAst k x).allocated = s.allocated := rfl
@[simp] theorem State.setAst_retiredMem (s : State) (k : Nat) (x : Ast) : (s.setAst k x).retiredMem = s.retiredMem := rfl
@[simp] theorem State.setAst_port (s : State) (k : Nat) (x : Ast) : (s.setAst k x).port = s.port := rfl
@[simp] theorem State.setAst_notices (s : State) (k : Nat) (x : Ast) : (s.setAst k x).notices = s.notices := rfl
@[simp] theorem State.setAst_dumping (s : State) (k : Nat) (x : Ast) : (s.setAst k x).dumping = s.dumping := rfl
@[simp] theorem State.setAst_hits (s : State) (k : Nat) (x : Ast) : (s.setAst k x).hits = s.hits := rfl
@[simp] theorem State.setAst_samples (s : State) (k : Nat) (x : Ast) : (s.setAst k x).samples = s.samples := rfl
@[simp] theorem State.setAst_boot (s : State) (k : Nat) (x : Ast) : (s.setAst k x).boot = s.boot := rfl
@[simp] theorem State.group_setAst (s : State) (k : Nat) (x : Ast) (j : Nat) : (s.setAst k x).group j = s.group j := rfl
@[simp] theorem State.wgOf_setAst (s : State) (k : Nat) (x : Ast) (j : Nat) : (s.setAst k x).wgOf j = s.wgOf j := rfl
@[simp] theorem State.core_setAst (s : State) (k : Nat) (x : Ast) (j : Nat) : (s.setAst k x).core j = s.core j := rfl
@[simp] theorem State.part_setAst (s : State) (k : Nat) (x : Ast) (j : Nat) : (s.setAst k x).part j = s.part j := rfl
@[simp] theorem State.cluster_setAst (s : State) (k : Nat) (x : Ast) (j : Nat) : (s.setAst k x).cluster j = s.cluster j := rfl
@[simp] theorem State.die_setAst (s : State) (k : Nat) (x : Ast) (j : Nat) : (s.setAst k x).die j = s.die j := rfl
@[simp] theorem State.ctxOf_setAst (s : State) (k : Nat) (x : Ast) (j : Nat) : (s.setAst k x).ctxOf j = s.ctxOf j := rfl
@[simp] theorem State.launch_setAst (s : State) (k : Nat) (x : Ast) (j : Nat) : (s.setAst k x).launch j = s.launch j := rfl
@[simp] theorem State.cmd_setAst (s : State) (k : Nat) (x : Ast) (j : Nat) : (s.setAst k x).cmd j = s.cmd j := rfl
@[simp] theorem State.record_setAst (s : State) (k : Nat) (x : Ast) (j : Nat) : (s.setAst k x).record j = s.record j := rfl
@[simp] theorem State.me_setAst (s : State) (k : Nat) (x : Ast) : (s.setAst k x).me = s.me := rfl
@[simp] theorem State.mySplit_setAst (s : State) (k : Nat) (x : Ast) : (s.setAst k x).mySplit = s.mySplit := rfl
@[simp] theorem State.reg_setAst (s : State) (k : Nat) (x : Ast) (j : Nat) : (s.setAst k x).reg j = s.reg j := rfl
@[simp] theorem State.tick_setAst (s : State) (k : Nat) (x : Ast) : (s.setAst k x).tick = s.tick := rfl
@[simp] theorem State.mapping_setAst (s : State) (k : Nat) (x : Ast) (c a : Nat) : (s.setAst k x).mapping c a = s.mapping c a := rfl
@[simp] theorem State.l1_setAst (s : State) (k : Nat) (x : Ast) (c j : Nat) : (s.setAst k x).l1 c j = s.l1 c j := rfl

/-! ## setMe -/

@[simp] theorem State.setMe_agenda (s : State) (g : Group) : (s.setMe g).agenda = s.agenda := rfl
@[simp] theorem State.setMe_offered (s : State) (g : Group) : (s.setMe g).offered = s.offered := rfl
@[simp] theorem State.setMe_free (s : State) (g : Group) : (s.setMe g).free = s.free := rfl
@[simp] theorem State.setMe_cur (s : State) (g : Group) : (s.setMe g).cur = s.cur := rfl
@[simp] theorem State.setMe_hop (s : State) (g : Group) : (s.setMe g).hop = s.hop := rfl
@[simp] theorem State.setMe_cleared (s : State) (g : Group) : (s.setMe g).cleared = s.cleared := rfl
@[simp] theorem State.setMe_judged (s : State) (g : Group) : (s.setMe g).judged = s.judged := rfl
@[simp] theorem State.setMe_tickRegs (s : State) (g : Group) : (s.setMe g).tickRegs = s.tickRegs := rfl
@[simp] theorem State.setMe_roundRegs (s : State) (g : Group) : (s.setMe g).roundRegs = s.roundRegs := rfl
@[simp] theorem State.setMe_mem (s : State) (g : Group) : (s.setMe g).mem = s.mem := rfl
@[simp] theorem State.setMe_poison (s : State) (g : Group) : (s.setMe g).poison = s.poison := rfl
@[simp] theorem State.setMe_ext (s : State) (g : Group) : (s.setMe g).ext = s.ext := rfl
@[simp] theorem State.setMe_wgs (s : State) (g : Group) : (s.setMe g).wgs = s.wgs := rfl
@[simp] theorem State.setMe_nextWg (s : State) (g : Group) : (s.setMe g).nextWg = s.nextWg := rfl
@[simp] theorem State.setMe_cores (s : State) (g : Group) : (s.setMe g).cores = s.cores := rfl
@[simp] theorem State.setMe_parts (s : State) (g : Group) : (s.setMe g).parts = s.parts := rfl
@[simp] theorem State.setMe_clusters (s : State) (g : Group) : (s.setMe g).clusters = s.clusters := rfl
@[simp] theorem State.setMe_diesT (s : State) (g : Group) : (s.setMe g).diesT = s.diesT := rfl
@[simp] theorem State.setMe_cmds (s : State) (g : Group) : (s.setMe g).cmds = s.cmds := rfl
@[simp] theorem State.setMe_nextCmd (s : State) (g : Group) : (s.setMe g).nextCmd = s.nextCmd := rfl
@[simp] theorem State.setMe_colls (s : State) (g : Group) : (s.setMe g).colls = s.colls := rfl
@[simp] theorem State.setMe_bank (s : State) (g : Group) : (s.setMe g).bank = s.bank := rfl
@[simp] theorem State.setMe_queueOps (s : State) (g : Group) : (s.setMe g).queueOps = s.queueOps := rfl
@[simp] theorem State.setMe_dsr (s : State) (g : Group) : (s.setMe g).dsr = s.dsr := rfl
@[simp] theorem State.setMe_ast (s : State) (g : Group) : (s.setMe g).ast = s.ast := rfl
@[simp] theorem State.setMe_stage (s : State) (g : Group) : (s.setMe g).stage = s.stage := rfl
@[simp] theorem State.setMe_accepted (s : State) (g : Group) : (s.setMe g).accepted = s.accepted := rfl
@[simp] theorem State.setMe_lastTick (s : State) (g : Group) : (s.setMe g).lastTick = s.lastTick := rfl
@[simp] theorem State.setMe_ctxs (s : State) (g : Group) : (s.setMe g).ctxs = s.ctxs := rfl
@[simp] theorem State.setMe_maps (s : State) (g : Group) : (s.setMe g).maps = s.maps := rfl
@[simp] theorem State.setMe_launches (s : State) (g : Group) : (s.setMe g).launches = s.launches := rfl
@[simp] theorem State.setMe_queues (s : State) (g : Group) : (s.setMe g).queues = s.queues := rfl
@[simp] theorem State.setMe_allocated (s : State) (g : Group) : (s.setMe g).allocated = s.allocated := rfl
@[simp] theorem State.setMe_retiredMem (s : State) (g : Group) : (s.setMe g).retiredMem = s.retiredMem := rfl
@[simp] theorem State.setMe_port (s : State) (g : Group) : (s.setMe g).port = s.port := rfl
@[simp] theorem State.setMe_notices (s : State) (g : Group) : (s.setMe g).notices = s.notices := rfl
@[simp] theorem State.setMe_dumping (s : State) (g : Group) : (s.setMe g).dumping = s.dumping := rfl
@[simp] theorem State.setMe_hits (s : State) (g : Group) : (s.setMe g).hits = s.hits := rfl
@[simp] theorem State.setMe_samples (s : State) (g : Group) : (s.setMe g).samples = s.samples := rfl
@[simp] theorem State.setMe_boot (s : State) (g : Group) : (s.setMe g).boot = s.boot := rfl
@[simp] theorem State.wgOf_setMe (s : State) (g : Group) (j : Nat) : (s.setMe g).wgOf j = s.wgOf j := rfl
@[simp] theorem State.core_setMe (s : State) (g : Group) (j : Nat) : (s.setMe g).core j = s.core j := rfl
@[simp] theorem State.part_setMe (s : State) (g : Group) (j : Nat) : (s.setMe g).part j = s.part j := rfl
@[simp] theorem State.cluster_setMe (s : State) (g : Group) (j : Nat) : (s.setMe g).cluster j = s.cluster j := rfl
@[simp] theorem State.die_setMe (s : State) (g : Group) (j : Nat) : (s.setMe g).die j = s.die j := rfl
@[simp] theorem State.ctxOf_setMe (s : State) (g : Group) (j : Nat) : (s.setMe g).ctxOf j = s.ctxOf j := rfl
@[simp] theorem State.launch_setMe (s : State) (g : Group) (j : Nat) : (s.setMe g).launch j = s.launch j := rfl
@[simp] theorem State.cmd_setMe (s : State) (g : Group) (j : Nat) : (s.setMe g).cmd j = s.cmd j := rfl
@[simp] theorem State.record_setMe (s : State) (g : Group) (j : Nat) : (s.setMe g).record j = s.record j := rfl
@[simp] theorem State.astOf_setMe (s : State) (g : Group) (j : Nat) : (s.setMe g).astOf j = s.astOf j := rfl
@[simp] theorem State.reg_setMe (s : State) (g : Group) (j : Nat) : (s.setMe g).reg j = s.reg j := rfl
@[simp] theorem State.tick_setMe (s : State) (g : Group) : (s.setMe g).tick = s.tick := rfl
@[simp] theorem State.body_setMe (s : State) (g : Group) (j : Nat) : (s.setMe g).body j = s.body j := rfl
@[simp] theorem State.mapping_setMe (s : State) (g : Group) (c a : Nat) : (s.setMe g).mapping c a = s.mapping c a := rfl
@[simp] theorem State.l1_setMe (s : State) (g : Group) (c j : Nat) : (s.setMe g).l1 c j = s.l1 c j := rfl

/-! ## setReg -/

@[simp] theorem State.setReg_agenda (s : State) (k : Nat) (x : DWord) : (s.setReg k x).agenda = s.agenda := rfl
@[simp] theorem State.setReg_offered (s : State) (k : Nat) (x : DWord) : (s.setReg k x).offered = s.offered := rfl
@[simp] theorem State.setReg_free (s : State) (k : Nat) (x : DWord) : (s.setReg k x).free = s.free := rfl
@[simp] theorem State.setReg_cur (s : State) (k : Nat) (x : DWord) : (s.setReg k x).cur = s.cur := rfl
@[simp] theorem State.setReg_hop (s : State) (k : Nat) (x : DWord) : (s.setReg k x).hop = s.hop := rfl
@[simp] theorem State.setReg_cleared (s : State) (k : Nat) (x : DWord) : (s.setReg k x).cleared = s.cleared := rfl
@[simp] theorem State.setReg_judged (s : State) (k : Nat) (x : DWord) : (s.setReg k x).judged = s.judged := rfl
@[simp] theorem State.setReg_tickRegs (s : State) (k : Nat) (x : DWord) : (s.setReg k x).tickRegs = s.tickRegs := rfl
@[simp] theorem State.setReg_roundRegs (s : State) (k : Nat) (x : DWord) : (s.setReg k x).roundRegs = s.roundRegs := rfl
@[simp] theorem State.setReg_mem (s : State) (k : Nat) (x : DWord) : (s.setReg k x).mem = s.mem := rfl
@[simp] theorem State.setReg_poison (s : State) (k : Nat) (x : DWord) : (s.setReg k x).poison = s.poison := rfl
@[simp] theorem State.setReg_ext (s : State) (k : Nat) (x : DWord) : (s.setReg k x).ext = s.ext := rfl
@[simp] theorem State.setReg_groups (s : State) (k : Nat) (x : DWord) : (s.setReg k x).groups = s.groups := rfl
@[simp] theorem State.setReg_wgs (s : State) (k : Nat) (x : DWord) : (s.setReg k x).wgs = s.wgs := rfl
@[simp] theorem State.setReg_nextWg (s : State) (k : Nat) (x : DWord) : (s.setReg k x).nextWg = s.nextWg := rfl
@[simp] theorem State.setReg_cores (s : State) (k : Nat) (x : DWord) : (s.setReg k x).cores = s.cores := rfl
@[simp] theorem State.setReg_parts (s : State) (k : Nat) (x : DWord) : (s.setReg k x).parts = s.parts := rfl
@[simp] theorem State.setReg_clusters (s : State) (k : Nat) (x : DWord) : (s.setReg k x).clusters = s.clusters := rfl
@[simp] theorem State.setReg_diesT (s : State) (k : Nat) (x : DWord) : (s.setReg k x).diesT = s.diesT := rfl
@[simp] theorem State.setReg_cmds (s : State) (k : Nat) (x : DWord) : (s.setReg k x).cmds = s.cmds := rfl
@[simp] theorem State.setReg_nextCmd (s : State) (k : Nat) (x : DWord) : (s.setReg k x).nextCmd = s.nextCmd := rfl
@[simp] theorem State.setReg_colls (s : State) (k : Nat) (x : DWord) : (s.setReg k x).colls = s.colls := rfl
@[simp] theorem State.setReg_bank (s : State) (k : Nat) (x : DWord) : (s.setReg k x).bank = s.bank := rfl
@[simp] theorem State.setReg_queueOps (s : State) (k : Nat) (x : DWord) : (s.setReg k x).queueOps = s.queueOps := rfl
@[simp] theorem State.setReg_dsr (s : State) (k : Nat) (x : DWord) : (s.setReg k x).dsr = s.dsr := rfl
@[simp] theorem State.setReg_ast (s : State) (k : Nat) (x : DWord) : (s.setReg k x).ast = s.ast := rfl
@[simp] theorem State.setReg_stage (s : State) (k : Nat) (x : DWord) : (s.setReg k x).stage = s.stage := rfl
@[simp] theorem State.setReg_accepted (s : State) (k : Nat) (x : DWord) : (s.setReg k x).accepted = s.accepted := rfl
@[simp] theorem State.setReg_lastTick (s : State) (k : Nat) (x : DWord) : (s.setReg k x).lastTick = s.lastTick := rfl
@[simp] theorem State.setReg_ctxs (s : State) (k : Nat) (x : DWord) : (s.setReg k x).ctxs = s.ctxs := rfl
@[simp] theorem State.setReg_maps (s : State) (k : Nat) (x : DWord) : (s.setReg k x).maps = s.maps := rfl
@[simp] theorem State.setReg_launches (s : State) (k : Nat) (x : DWord) : (s.setReg k x).launches = s.launches := rfl
@[simp] theorem State.setReg_queues (s : State) (k : Nat) (x : DWord) : (s.setReg k x).queues = s.queues := rfl
@[simp] theorem State.setReg_allocated (s : State) (k : Nat) (x : DWord) : (s.setReg k x).allocated = s.allocated := rfl
@[simp] theorem State.setReg_retiredMem (s : State) (k : Nat) (x : DWord) : (s.setReg k x).retiredMem = s.retiredMem := rfl
@[simp] theorem State.setReg_notices (s : State) (k : Nat) (x : DWord) : (s.setReg k x).notices = s.notices := rfl
@[simp] theorem State.setReg_dumping (s : State) (k : Nat) (x : DWord) : (s.setReg k x).dumping = s.dumping := rfl
@[simp] theorem State.setReg_hits (s : State) (k : Nat) (x : DWord) : (s.setReg k x).hits = s.hits := rfl
@[simp] theorem State.setReg_samples (s : State) (k : Nat) (x : DWord) : (s.setReg k x).samples = s.samples := rfl
@[simp] theorem State.setReg_boot (s : State) (k : Nat) (x : DWord) : (s.setReg k x).boot = s.boot := rfl
@[simp] theorem State.group_setReg (s : State) (k : Nat) (x : DWord) (j : Nat) : (s.setReg k x).group j = s.group j := rfl
@[simp] theorem State.wgOf_setReg (s : State) (k : Nat) (x : DWord) (j : Nat) : (s.setReg k x).wgOf j = s.wgOf j := rfl
@[simp] theorem State.core_setReg (s : State) (k : Nat) (x : DWord) (j : Nat) : (s.setReg k x).core j = s.core j := rfl
@[simp] theorem State.part_setReg (s : State) (k : Nat) (x : DWord) (j : Nat) : (s.setReg k x).part j = s.part j := rfl
@[simp] theorem State.cluster_setReg (s : State) (k : Nat) (x : DWord) (j : Nat) : (s.setReg k x).cluster j = s.cluster j := rfl
@[simp] theorem State.die_setReg (s : State) (k : Nat) (x : DWord) (j : Nat) : (s.setReg k x).die j = s.die j := rfl
@[simp] theorem State.ctxOf_setReg (s : State) (k : Nat) (x : DWord) (j : Nat) : (s.setReg k x).ctxOf j = s.ctxOf j := rfl
@[simp] theorem State.launch_setReg (s : State) (k : Nat) (x : DWord) (j : Nat) : (s.setReg k x).launch j = s.launch j := rfl
@[simp] theorem State.cmd_setReg (s : State) (k : Nat) (x : DWord) (j : Nat) : (s.setReg k x).cmd j = s.cmd j := rfl
@[simp] theorem State.record_setReg (s : State) (k : Nat) (x : DWord) (j : Nat) : (s.setReg k x).record j = s.record j := rfl
@[simp] theorem State.astOf_setReg (s : State) (k : Nat) (x : DWord) (j : Nat) : (s.setReg k x).astOf j = s.astOf j := rfl
@[simp] theorem State.me_setReg (s : State) (k : Nat) (x : DWord) : (s.setReg k x).me = s.me := rfl
@[simp] theorem State.mySplit_setReg (s : State) (k : Nat) (x : DWord) : (s.setReg k x).mySplit = s.mySplit := rfl
@[simp] theorem State.tick_setReg (s : State) (k : Nat) (x : DWord) : (s.setReg k x).tick = s.tick := rfl
@[simp] theorem State.body_setReg (s : State) (k : Nat) (x : DWord) (j : Nat) : (s.setReg k x).body j = s.body j := rfl
@[simp] theorem State.mapping_setReg (s : State) (k : Nat) (x : DWord) (c a : Nat) : (s.setReg k x).mapping c a = s.mapping c a := rfl
@[simp] theorem State.l1_setReg (s : State) (k : Nat) (x : DWord) (c j : Nat) : (s.setReg k x).l1 c j = s.l1 c j := rfl

/-! ## bumpAst -/

@[simp] theorem State.bumpAst_agenda (s : State) (k w n : Nat) : (s.bumpAst k w n).agenda = s.agenda := rfl
@[simp] theorem State.bumpAst_offered (s : State) (k w n : Nat) : (s.bumpAst k w n).offered = s.offered := rfl
@[simp] theorem State.bumpAst_free (s : State) (k w n : Nat) : (s.bumpAst k w n).free = s.free := rfl
@[simp] theorem State.bumpAst_cur (s : State) (k w n : Nat) : (s.bumpAst k w n).cur = s.cur := rfl
@[simp] theorem State.bumpAst_hop (s : State) (k w n : Nat) : (s.bumpAst k w n).hop = s.hop := rfl
@[simp] theorem State.bumpAst_cleared (s : State) (k w n : Nat) : (s.bumpAst k w n).cleared = s.cleared := rfl
@[simp] theorem State.bumpAst_judged (s : State) (k w n : Nat) : (s.bumpAst k w n).judged = s.judged := rfl
@[simp] theorem State.bumpAst_tickRegs (s : State) (k w n : Nat) : (s.bumpAst k w n).tickRegs = s.tickRegs := rfl
@[simp] theorem State.bumpAst_roundRegs (s : State) (k w n : Nat) : (s.bumpAst k w n).roundRegs = s.roundRegs := rfl
@[simp] theorem State.bumpAst_mem (s : State) (k w n : Nat) : (s.bumpAst k w n).mem = s.mem := rfl
@[simp] theorem State.bumpAst_poison (s : State) (k w n : Nat) : (s.bumpAst k w n).poison = s.poison := rfl
@[simp] theorem State.bumpAst_ext (s : State) (k w n : Nat) : (s.bumpAst k w n).ext = s.ext := rfl
@[simp] theorem State.bumpAst_groups (s : State) (k w n : Nat) : (s.bumpAst k w n).groups = s.groups := rfl
@[simp] theorem State.bumpAst_wgs (s : State) (k w n : Nat) : (s.bumpAst k w n).wgs = s.wgs := rfl
@[simp] theorem State.bumpAst_nextWg (s : State) (k w n : Nat) : (s.bumpAst k w n).nextWg = s.nextWg := rfl
@[simp] theorem State.bumpAst_cores (s : State) (k w n : Nat) : (s.bumpAst k w n).cores = s.cores := rfl
@[simp] theorem State.bumpAst_parts (s : State) (k w n : Nat) : (s.bumpAst k w n).parts = s.parts := rfl
@[simp] theorem State.bumpAst_clusters (s : State) (k w n : Nat) : (s.bumpAst k w n).clusters = s.clusters := rfl
@[simp] theorem State.bumpAst_diesT (s : State) (k w n : Nat) : (s.bumpAst k w n).diesT = s.diesT := rfl
@[simp] theorem State.bumpAst_cmds (s : State) (k w n : Nat) : (s.bumpAst k w n).cmds = s.cmds := rfl
@[simp] theorem State.bumpAst_nextCmd (s : State) (k w n : Nat) : (s.bumpAst k w n).nextCmd = s.nextCmd := rfl
@[simp] theorem State.bumpAst_colls (s : State) (k w n : Nat) : (s.bumpAst k w n).colls = s.colls := rfl
@[simp] theorem State.bumpAst_bank (s : State) (k w n : Nat) : (s.bumpAst k w n).bank = s.bank := rfl
@[simp] theorem State.bumpAst_queueOps (s : State) (k w n : Nat) : (s.bumpAst k w n).queueOps = s.queueOps := rfl
@[simp] theorem State.bumpAst_dsr (s : State) (k w n : Nat) : (s.bumpAst k w n).dsr = s.dsr := rfl
@[simp] theorem State.bumpAst_stage (s : State) (k w n : Nat) : (s.bumpAst k w n).stage = s.stage := rfl
@[simp] theorem State.bumpAst_accepted (s : State) (k w n : Nat) : (s.bumpAst k w n).accepted = s.accepted := rfl
@[simp] theorem State.bumpAst_lastTick (s : State) (k w n : Nat) : (s.bumpAst k w n).lastTick = s.tick := rfl
@[simp] theorem State.bumpAst_ctxs (s : State) (k w n : Nat) : (s.bumpAst k w n).ctxs = s.ctxs := rfl
@[simp] theorem State.bumpAst_maps (s : State) (k w n : Nat) : (s.bumpAst k w n).maps = s.maps := rfl
@[simp] theorem State.bumpAst_launches (s : State) (k w n : Nat) : (s.bumpAst k w n).launches = s.launches := rfl
@[simp] theorem State.bumpAst_queues (s : State) (k w n : Nat) : (s.bumpAst k w n).queues = s.queues := rfl
@[simp] theorem State.bumpAst_allocated (s : State) (k w n : Nat) : (s.bumpAst k w n).allocated = s.allocated := rfl
@[simp] theorem State.bumpAst_retiredMem (s : State) (k w n : Nat) : (s.bumpAst k w n).retiredMem = s.retiredMem := rfl
@[simp] theorem State.bumpAst_port (s : State) (k w n : Nat) : (s.bumpAst k w n).port = s.port := rfl
@[simp] theorem State.bumpAst_notices (s : State) (k w n : Nat) : (s.bumpAst k w n).notices = s.notices := rfl
@[simp] theorem State.bumpAst_dumping (s : State) (k w n : Nat) : (s.bumpAst k w n).dumping = s.dumping := rfl
@[simp] theorem State.bumpAst_hits (s : State) (k w n : Nat) : (s.bumpAst k w n).hits = s.hits := rfl
@[simp] theorem State.bumpAst_samples (s : State) (k w n : Nat) : (s.bumpAst k w n).samples = s.samples := rfl
@[simp] theorem State.bumpAst_boot (s : State) (k w n : Nat) : (s.bumpAst k w n).boot = s.boot := rfl
@[simp] theorem State.group_bumpAst (s : State) (k w n : Nat) (j : Nat) : (s.bumpAst k w n).group j = s.group j := rfl
@[simp] theorem State.wgOf_bumpAst (s : State) (k w n : Nat) (j : Nat) : (s.bumpAst k w n).wgOf j = s.wgOf j := rfl
@[simp] theorem State.core_bumpAst (s : State) (k w n : Nat) (j : Nat) : (s.bumpAst k w n).core j = s.core j := rfl
@[simp] theorem State.part_bumpAst (s : State) (k w n : Nat) (j : Nat) : (s.bumpAst k w n).part j = s.part j := rfl
@[simp] theorem State.cluster_bumpAst (s : State) (k w n : Nat) (j : Nat) : (s.bumpAst k w n).cluster j = s.cluster j := rfl
@[simp] theorem State.die_bumpAst (s : State) (k w n : Nat) (j : Nat) : (s.bumpAst k w n).die j = s.die j := rfl
@[simp] theorem State.ctxOf_bumpAst (s : State) (k w n : Nat) (j : Nat) : (s.bumpAst k w n).ctxOf j = s.ctxOf j := rfl
@[simp] theorem State.launch_bumpAst (s : State) (k w n : Nat) (j : Nat) : (s.bumpAst k w n).launch j = s.launch j := rfl
@[simp] theorem State.cmd_bumpAst (s : State) (k w n : Nat) (j : Nat) : (s.bumpAst k w n).cmd j = s.cmd j := rfl
@[simp] theorem State.record_bumpAst (s : State) (k w n : Nat) (j : Nat) : (s.bumpAst k w n).record j = s.record j := rfl
@[simp] theorem State.me_bumpAst (s : State) (k w n : Nat) : (s.bumpAst k w n).me = s.me := rfl
@[simp] theorem State.mySplit_bumpAst (s : State) (k w n : Nat) : (s.bumpAst k w n).mySplit = s.mySplit := rfl
@[simp] theorem State.reg_bumpAst (s : State) (k w n : Nat) (j : Nat) : (s.bumpAst k w n).reg j = s.reg j := rfl
@[simp] theorem State.tick_bumpAst (s : State) (k w n : Nat) : (s.bumpAst k w n).tick = s.tick := rfl
@[simp] theorem State.mapping_bumpAst (s : State) (k w n : Nat) (c a : Nat) : (s.bumpAst k w n).mapping c a = s.mapping c a := rfl
@[simp] theorem State.l1_bumpAst (s : State) (k w n : Nat) (c j : Nat) : (s.bumpAst k w n).l1 c j = s.l1 c j := rfl

/-! ## bumpReg -/

@[simp] theorem State.bumpReg_agenda (s : State) (k n : Nat) : (s.bumpReg k n).agenda = s.agenda := rfl
@[simp] theorem State.bumpReg_offered (s : State) (k n : Nat) : (s.bumpReg k n).offered = s.offered := rfl
@[simp] theorem State.bumpReg_free (s : State) (k n : Nat) : (s.bumpReg k n).free = s.free := rfl
@[simp] theorem State.bumpReg_cur (s : State) (k n : Nat) : (s.bumpReg k n).cur = s.cur := rfl
@[simp] theorem State.bumpReg_hop (s : State) (k n : Nat) : (s.bumpReg k n).hop = s.hop := rfl
@[simp] theorem State.bumpReg_cleared (s : State) (k n : Nat) : (s.bumpReg k n).cleared = s.cleared := rfl
@[simp] theorem State.bumpReg_judged (s : State) (k n : Nat) : (s.bumpReg k n).judged = s.judged := rfl
@[simp] theorem State.bumpReg_tickRegs (s : State) (k n : Nat) : (s.bumpReg k n).tickRegs = s.tickRegs := rfl
@[simp] theorem State.bumpReg_roundRegs (s : State) (k n : Nat) : (s.bumpReg k n).roundRegs = s.roundRegs := rfl
@[simp] theorem State.bumpReg_mem (s : State) (k n : Nat) : (s.bumpReg k n).mem = s.mem := rfl
@[simp] theorem State.bumpReg_poison (s : State) (k n : Nat) : (s.bumpReg k n).poison = s.poison := rfl
@[simp] theorem State.bumpReg_ext (s : State) (k n : Nat) : (s.bumpReg k n).ext = s.ext := rfl
@[simp] theorem State.bumpReg_groups (s : State) (k n : Nat) : (s.bumpReg k n).groups = s.groups := rfl
@[simp] theorem State.bumpReg_wgs (s : State) (k n : Nat) : (s.bumpReg k n).wgs = s.wgs := rfl
@[simp] theorem State.bumpReg_nextWg (s : State) (k n : Nat) : (s.bumpReg k n).nextWg = s.nextWg := rfl
@[simp] theorem State.bumpReg_cores (s : State) (k n : Nat) : (s.bumpReg k n).cores = s.cores := rfl
@[simp] theorem State.bumpReg_parts (s : State) (k n : Nat) : (s.bumpReg k n).parts = s.parts := rfl
@[simp] theorem State.bumpReg_clusters (s : State) (k n : Nat) : (s.bumpReg k n).clusters = s.clusters := rfl
@[simp] theorem State.bumpReg_diesT (s : State) (k n : Nat) : (s.bumpReg k n).diesT = s.diesT := rfl
@[simp] theorem State.bumpReg_cmds (s : State) (k n : Nat) : (s.bumpReg k n).cmds = s.cmds := rfl
@[simp] theorem State.bumpReg_nextCmd (s : State) (k n : Nat) : (s.bumpReg k n).nextCmd = s.nextCmd := rfl
@[simp] theorem State.bumpReg_colls (s : State) (k n : Nat) : (s.bumpReg k n).colls = s.colls := rfl
@[simp] theorem State.bumpReg_bank (s : State) (k n : Nat) : (s.bumpReg k n).bank = s.bank := rfl
@[simp] theorem State.bumpReg_queueOps (s : State) (k n : Nat) : (s.bumpReg k n).queueOps = s.queueOps := rfl
@[simp] theorem State.bumpReg_dsr (s : State) (k n : Nat) : (s.bumpReg k n).dsr = s.dsr := rfl
@[simp] theorem State.bumpReg_ast (s : State) (k n : Nat) : (s.bumpReg k n).ast = s.ast := rfl
@[simp] theorem State.bumpReg_stage (s : State) (k n : Nat) : (s.bumpReg k n).stage = s.stage := rfl
@[simp] theorem State.bumpReg_accepted (s : State) (k n : Nat) : (s.bumpReg k n).accepted = s.accepted := rfl
@[simp] theorem State.bumpReg_lastTick (s : State) (k n : Nat) : (s.bumpReg k n).lastTick = s.lastTick := rfl
@[simp] theorem State.bumpReg_ctxs (s : State) (k n : Nat) : (s.bumpReg k n).ctxs = s.ctxs := rfl
@[simp] theorem State.bumpReg_maps (s : State) (k n : Nat) : (s.bumpReg k n).maps = s.maps := rfl
@[simp] theorem State.bumpReg_launches (s : State) (k n : Nat) : (s.bumpReg k n).launches = s.launches := rfl
@[simp] theorem State.bumpReg_queues (s : State) (k n : Nat) : (s.bumpReg k n).queues = s.queues := rfl
@[simp] theorem State.bumpReg_allocated (s : State) (k n : Nat) : (s.bumpReg k n).allocated = s.allocated := rfl
@[simp] theorem State.bumpReg_retiredMem (s : State) (k n : Nat) : (s.bumpReg k n).retiredMem = s.retiredMem := rfl
@[simp] theorem State.bumpReg_notices (s : State) (k n : Nat) : (s.bumpReg k n).notices = s.notices := rfl
@[simp] theorem State.bumpReg_dumping (s : State) (k n : Nat) : (s.bumpReg k n).dumping = s.dumping := rfl
@[simp] theorem State.bumpReg_hits (s : State) (k n : Nat) : (s.bumpReg k n).hits = s.hits := rfl
@[simp] theorem State.bumpReg_samples (s : State) (k n : Nat) : (s.bumpReg k n).samples = s.samples := rfl
@[simp] theorem State.bumpReg_boot (s : State) (k n : Nat) : (s.bumpReg k n).boot = s.boot := rfl
@[simp] theorem State.group_bumpReg (s : State) (k n : Nat) (j : Nat) : (s.bumpReg k n).group j = s.group j := rfl
@[simp] theorem State.wgOf_bumpReg (s : State) (k n : Nat) (j : Nat) : (s.bumpReg k n).wgOf j = s.wgOf j := rfl
@[simp] theorem State.core_bumpReg (s : State) (k n : Nat) (j : Nat) : (s.bumpReg k n).core j = s.core j := rfl
@[simp] theorem State.part_bumpReg (s : State) (k n : Nat) (j : Nat) : (s.bumpReg k n).part j = s.part j := rfl
@[simp] theorem State.cluster_bumpReg (s : State) (k n : Nat) (j : Nat) : (s.bumpReg k n).cluster j = s.cluster j := rfl
@[simp] theorem State.die_bumpReg (s : State) (k n : Nat) (j : Nat) : (s.bumpReg k n).die j = s.die j := rfl
@[simp] theorem State.ctxOf_bumpReg (s : State) (k n : Nat) (j : Nat) : (s.bumpReg k n).ctxOf j = s.ctxOf j := rfl
@[simp] theorem State.launch_bumpReg (s : State) (k n : Nat) (j : Nat) : (s.bumpReg k n).launch j = s.launch j := rfl
@[simp] theorem State.cmd_bumpReg (s : State) (k n : Nat) (j : Nat) : (s.bumpReg k n).cmd j = s.cmd j := rfl
@[simp] theorem State.record_bumpReg (s : State) (k n : Nat) (j : Nat) : (s.bumpReg k n).record j = s.record j := rfl
@[simp] theorem State.astOf_bumpReg (s : State) (k n : Nat) (j : Nat) : (s.bumpReg k n).astOf j = s.astOf j := rfl
@[simp] theorem State.me_bumpReg (s : State) (k n : Nat) : (s.bumpReg k n).me = s.me := rfl
@[simp] theorem State.mySplit_bumpReg (s : State) (k n : Nat) : (s.bumpReg k n).mySplit = s.mySplit := rfl
@[simp] theorem State.tick_bumpReg (s : State) (k n : Nat) : (s.bumpReg k n).tick = s.tick := rfl
@[simp] theorem State.body_bumpReg (s : State) (k n : Nat) (j : Nat) : (s.bumpReg k n).body j = s.body j := rfl
@[simp] theorem State.mapping_bumpReg (s : State) (k n : Nat) (c a : Nat) : (s.bumpReg k n).mapping c a = s.mapping c a := rfl
@[simp] theorem State.l1_bumpReg (s : State) (k n : Nat) (c j : Nat) : (s.bumpReg k n).l1 c j = s.l1 c j := rfl

/-! ## send -/

@[simp] theorem State.send_agenda (s : State) (r : Ring) (x : List Byte) : (s.send r x).agenda = s.agenda := rfl
@[simp] theorem State.send_offered (s : State) (r : Ring) (x : List Byte) : (s.send r x).offered = s.offered := rfl
@[simp] theorem State.send_free (s : State) (r : Ring) (x : List Byte) : (s.send r x).free = s.free := rfl
@[simp] theorem State.send_cur (s : State) (r : Ring) (x : List Byte) : (s.send r x).cur = s.cur := rfl
@[simp] theorem State.send_hop (s : State) (r : Ring) (x : List Byte) : (s.send r x).hop = s.hop := rfl
@[simp] theorem State.send_cleared (s : State) (r : Ring) (x : List Byte) : (s.send r x).cleared = s.cleared := rfl
@[simp] theorem State.send_judged (s : State) (r : Ring) (x : List Byte) : (s.send r x).judged = s.judged := rfl
@[simp] theorem State.send_tickRegs (s : State) (r : Ring) (x : List Byte) : (s.send r x).tickRegs = s.tickRegs := rfl
@[simp] theorem State.send_roundRegs (s : State) (r : Ring) (x : List Byte) : (s.send r x).roundRegs = s.roundRegs := rfl
@[simp] theorem State.send_mem (s : State) (r : Ring) (x : List Byte) : (s.send r x).mem = s.mem := rfl
@[simp] theorem State.send_poison (s : State) (r : Ring) (x : List Byte) : (s.send r x).poison = s.poison := rfl
@[simp] theorem State.send_ext (s : State) (r : Ring) (x : List Byte) : (s.send r x).ext = s.ext := rfl
@[simp] theorem State.send_groups (s : State) (r : Ring) (x : List Byte) : (s.send r x).groups = s.groups := rfl
@[simp] theorem State.send_wgs (s : State) (r : Ring) (x : List Byte) : (s.send r x).wgs = s.wgs := rfl
@[simp] theorem State.send_nextWg (s : State) (r : Ring) (x : List Byte) : (s.send r x).nextWg = s.nextWg := rfl
@[simp] theorem State.send_cores (s : State) (r : Ring) (x : List Byte) : (s.send r x).cores = s.cores := rfl
@[simp] theorem State.send_parts (s : State) (r : Ring) (x : List Byte) : (s.send r x).parts = s.parts := rfl
@[simp] theorem State.send_clusters (s : State) (r : Ring) (x : List Byte) : (s.send r x).clusters = s.clusters := rfl
@[simp] theorem State.send_diesT (s : State) (r : Ring) (x : List Byte) : (s.send r x).diesT = s.diesT := rfl
@[simp] theorem State.send_cmds (s : State) (r : Ring) (x : List Byte) : (s.send r x).cmds = s.cmds := rfl
@[simp] theorem State.send_nextCmd (s : State) (r : Ring) (x : List Byte) : (s.send r x).nextCmd = s.nextCmd := rfl
@[simp] theorem State.send_colls (s : State) (r : Ring) (x : List Byte) : (s.send r x).colls = s.colls := rfl
@[simp] theorem State.send_bank (s : State) (r : Ring) (x : List Byte) : (s.send r x).bank = s.bank := rfl
@[simp] theorem State.send_queueOps (s : State) (r : Ring) (x : List Byte) : (s.send r x).queueOps = s.queueOps := rfl
@[simp] theorem State.send_dsr (s : State) (r : Ring) (x : List Byte) : (s.send r x).dsr = s.dsr := rfl
@[simp] theorem State.send_ast (s : State) (r : Ring) (x : List Byte) : (s.send r x).ast = s.ast := rfl
@[simp] theorem State.send_stage (s : State) (r : Ring) (x : List Byte) : (s.send r x).stage = s.stage := rfl
@[simp] theorem State.send_accepted (s : State) (r : Ring) (x : List Byte) : (s.send r x).accepted = s.accepted := rfl
@[simp] theorem State.send_lastTick (s : State) (r : Ring) (x : List Byte) : (s.send r x).lastTick = s.lastTick := rfl
@[simp] theorem State.send_ctxs (s : State) (r : Ring) (x : List Byte) : (s.send r x).ctxs = s.ctxs := rfl
@[simp] theorem State.send_maps (s : State) (r : Ring) (x : List Byte) : (s.send r x).maps = s.maps := rfl
@[simp] theorem State.send_launches (s : State) (r : Ring) (x : List Byte) : (s.send r x).launches = s.launches := rfl
@[simp] theorem State.send_queues (s : State) (r : Ring) (x : List Byte) : (s.send r x).queues = s.queues := rfl
@[simp] theorem State.send_allocated (s : State) (r : Ring) (x : List Byte) : (s.send r x).allocated = s.allocated := rfl
@[simp] theorem State.send_retiredMem (s : State) (r : Ring) (x : List Byte) : (s.send r x).retiredMem = s.retiredMem := rfl
@[simp] theorem State.send_port (s : State) (r : Ring) (x : List Byte) : (s.send r x).port = s.port := rfl
@[simp] theorem State.send_dumping (s : State) (r : Ring) (x : List Byte) : (s.send r x).dumping = s.dumping := rfl
@[simp] theorem State.send_hits (s : State) (r : Ring) (x : List Byte) : (s.send r x).hits = s.hits := rfl
@[simp] theorem State.send_samples (s : State) (r : Ring) (x : List Byte) : (s.send r x).samples = s.samples := rfl
@[simp] theorem State.send_boot (s : State) (r : Ring) (x : List Byte) : (s.send r x).boot = s.boot := rfl
@[simp] theorem State.group_send (s : State) (r : Ring) (x : List Byte) (j : Nat) : (s.send r x).group j = s.group j := rfl
@[simp] theorem State.wgOf_send (s : State) (r : Ring) (x : List Byte) (j : Nat) : (s.send r x).wgOf j = s.wgOf j := rfl
@[simp] theorem State.core_send (s : State) (r : Ring) (x : List Byte) (j : Nat) : (s.send r x).core j = s.core j := rfl
@[simp] theorem State.part_send (s : State) (r : Ring) (x : List Byte) (j : Nat) : (s.send r x).part j = s.part j := rfl
@[simp] theorem State.cluster_send (s : State) (r : Ring) (x : List Byte) (j : Nat) : (s.send r x).cluster j = s.cluster j := rfl
@[simp] theorem State.die_send (s : State) (r : Ring) (x : List Byte) (j : Nat) : (s.send r x).die j = s.die j := rfl
@[simp] theorem State.ctxOf_send (s : State) (r : Ring) (x : List Byte) (j : Nat) : (s.send r x).ctxOf j = s.ctxOf j := rfl
@[simp] theorem State.launch_send (s : State) (r : Ring) (x : List Byte) (j : Nat) : (s.send r x).launch j = s.launch j := rfl
@[simp] theorem State.cmd_send (s : State) (r : Ring) (x : List Byte) (j : Nat) : (s.send r x).cmd j = s.cmd j := rfl
@[simp] theorem State.record_send (s : State) (r : Ring) (x : List Byte) (j : Nat) : (s.send r x).record j = s.record j := rfl
@[simp] theorem State.astOf_send (s : State) (r : Ring) (x : List Byte) (j : Nat) : (s.send r x).astOf j = s.astOf j := rfl
@[simp] theorem State.me_send (s : State) (r : Ring) (x : List Byte) : (s.send r x).me = s.me := rfl
@[simp] theorem State.mySplit_send (s : State) (r : Ring) (x : List Byte) : (s.send r x).mySplit = s.mySplit := rfl
@[simp] theorem State.reg_send (s : State) (r : Ring) (x : List Byte) (j : Nat) : (s.send r x).reg j = s.reg j := rfl
@[simp] theorem State.tick_send (s : State) (r : Ring) (x : List Byte) : (s.send r x).tick = s.tick := rfl
@[simp] theorem State.body_send (s : State) (r : Ring) (x : List Byte) (j : Nat) : (s.send r x).body j = s.body j := rfl
@[simp] theorem State.mapping_send (s : State) (r : Ring) (x : List Byte) (c a : Nat) : (s.send r x).mapping c a = s.mapping c a := rfl
@[simp] theorem State.l1_send (s : State) (r : Ring) (x : List Byte) (c j : Nat) : (s.send r x).l1 c j = s.l1 c j := rfl

/-! ## Reading a record back -/

@[simp] theorem State.group_setGroup_self (s : State) (k : Nat) (x : Group) : (s.setGroup k x).group k = x := by
  simp [State.setGroup, State.group, get_set]
theorem State.group_setGroup (s : State) (k : Nat) (x : Group) (j : Nat) :
    (s.setGroup k x).group j = if j = k then x else s.group j := by
  simp [State.setGroup, State.group, get_set]
theorem State.group_setGroup_ne (s : State) (k : Nat) (x : Group) {j : Nat} (h : j ≠ k) :
    (s.setGroup k x).group j = s.group j := by
  simp [State.setGroup, State.group, get_set, h]
theorem State.look_setGroup (s : State) (k : Nat) (x : Group) (j : Nat) :
    look none (s.setGroup k x).groups j = if j = k then some x else look none s.groups j := look_set _ _ _ _
@[simp] theorem State.wgOf_setWg_self (s : State) (k : Nat) (x : Workgroup) : (s.setWg k x).wgOf k = x := by
  simp [State.setWg, State.wgOf, get_set]
theorem State.wgOf_setWg (s : State) (k : Nat) (x : Workgroup) (j : Nat) :
    (s.setWg k x).wgOf j = if j = k then x else s.wgOf j := by
  simp [State.setWg, State.wgOf, get_set]
theorem State.wgOf_setWg_ne (s : State) (k : Nat) (x : Workgroup) {j : Nat} (h : j ≠ k) :
    (s.setWg k x).wgOf j = s.wgOf j := by
  simp [State.setWg, State.wgOf, get_set, h]
theorem State.look_setWg (s : State) (k : Nat) (x : Workgroup) (j : Nat) :
    look none (s.setWg k x).wgs j = if j = k then some x else look none s.wgs j := look_set _ _ _ _
@[simp] theorem State.core_setCore_self (s : State) (k : Nat) (x : Core) : (s.setCore k x).core k = x := by
  simp [State.setCore, State.core, get_set]
theorem State.core_setCore (s : State) (k : Nat) (x : Core) (j : Nat) :
    (s.setCore k x).core j = if j = k then x else s.core j := by
  simp [State.setCore, State.core, get_set]
theorem State.core_setCore_ne (s : State) (k : Nat) (x : Core) {j : Nat} (h : j ≠ k) :
    (s.setCore k x).core j = s.core j := by
  simp [State.setCore, State.core, get_set, h]
theorem State.look_setCore (s : State) (k : Nat) (x : Core) (j : Nat) :
    look none (s.setCore k x).cores j = if j = k then some x else look none s.cores j := look_set _ _ _ _
@[simp] theorem State.part_setPart_self (s : State) (k : Nat) (x : Partition) : (s.setPart k x).part k = x := by
  simp [State.setPart, State.part, get_set]
theorem State.part_setPart (s : State) (k : Nat) (x : Partition) (j : Nat) :
    (s.setPart k x).part j = if j = k then x else s.part j := by
  simp [State.setPart, State.part, get_set]
theorem State.part_setPart_ne (s : State) (k : Nat) (x : Partition) {j : Nat} (h : j ≠ k) :
    (s.setPart k x).part j = s.part j := by
  simp [State.setPart, State.part, get_set, h]
theorem State.look_setPart (s : State) (k : Nat) (x : Partition) (j : Nat) :
    look none (s.setPart k x).parts j = if j = k then some x else look none s.parts j := look_set _ _ _ _
@[simp] theorem State.cluster_setCluster_self (s : State) (k : Nat) (x : Cluster) : (s.setCluster k x).cluster k = x := by
  simp [State.setCluster, State.cluster, get_set]
theorem State.cluster_setCluster (s : State) (k : Nat) (x : Cluster) (j : Nat) :
    (s.setCluster k x).cluster j = if j = k then x else s.cluster j := by
  simp [State.setCluster, State.cluster, get_set]
theorem State.cluster_setCluster_ne (s : State) (k : Nat) (x : Cluster) {j : Nat} (h : j ≠ k) :
    (s.setCluster k x).cluster j = s.cluster j := by
  simp [State.setCluster, State.cluster, get_set, h]
theorem State.look_setCluster (s : State) (k : Nat) (x : Cluster) (j : Nat) :
    look none (s.setCluster k x).clusters j = if j = k then some x else look none s.clusters j := look_set _ _ _ _
@[simp] theorem State.die_setDie_self (s : State) (k : Nat) (x : Die) : (s.setDie k x).die k = x := by
  simp [State.setDie, State.die, get_set]
theorem State.die_setDie (s : State) (k : Nat) (x : Die) (j : Nat) :
    (s.setDie k x).die j = if j = k then x else s.die j := by
  simp [State.setDie, State.die, get_set]
theorem State.die_setDie_ne (s : State) (k : Nat) (x : Die) {j : Nat} (h : j ≠ k) :
    (s.setDie k x).die j = s.die j := by
  simp [State.setDie, State.die, get_set, h]
theorem State.look_setDie (s : State) (k : Nat) (x : Die) (j : Nat) :
    look none (s.setDie k x).diesT j = if j = k then some x else look none s.diesT j := look_set _ _ _ _
@[simp] theorem State.ctxOf_setCtx_self (s : State) (k : Nat) (x : Context) : (s.setCtx k x).ctxOf k = x := by
  simp [State.setCtx, State.ctxOf, get_set]
theorem State.ctxOf_setCtx (s : State) (k : Nat) (x : Context) (j : Nat) :
    (s.setCtx k x).ctxOf j = if j = k then x else s.ctxOf j := by
  simp [State.setCtx, State.ctxOf, get_set]
theorem State.ctxOf_setCtx_ne (s : State) (k : Nat) (x : Context) {j : Nat} (h : j ≠ k) :
    (s.setCtx k x).ctxOf j = s.ctxOf j := by
  simp [State.setCtx, State.ctxOf, get_set, h]
theorem State.look_setCtx (s : State) (k : Nat) (x : Context) (j : Nat) :
    look none (s.setCtx k x).ctxs j = if j = k then some x else look none s.ctxs j := look_set _ _ _ _
@[simp] theorem State.launch_setLaunch_self (s : State) (k : Nat) (x : Launch) : (s.setLaunch k x).launch k = x := by
  simp [State.setLaunch, State.launch, get_set]
theorem State.launch_setLaunch (s : State) (k : Nat) (x : Launch) (j : Nat) :
    (s.setLaunch k x).launch j = if j = k then x else s.launch j := by
  simp [State.setLaunch, State.launch, get_set]
theorem State.launch_setLaunch_ne (s : State) (k : Nat) (x : Launch) {j : Nat} (h : j ≠ k) :
    (s.setLaunch k x).launch j = s.launch j := by
  simp [State.setLaunch, State.launch, get_set, h]
theorem State.look_setLaunch (s : State) (k : Nat) (x : Launch) (j : Nat) :
    look none (s.setLaunch k x).launches j = if j = k then some x else look none s.launches j := look_set _ _ _ _
@[simp] theorem State.astOf_setAst_self (s : State) (k : Nat) (x : Ast) : (s.setAst k x).astOf k = x := by
  simp [State.setAst, State.astOf, get_set]
theorem State.astOf_setAst (s : State) (k : Nat) (x : Ast) (j : Nat) :
    (s.setAst k x).astOf j = if j = k then x else s.astOf j := by
  simp [State.setAst, State.astOf, get_set]
theorem State.astOf_setAst_ne (s : State) (k : Nat) (x : Ast) {j : Nat} (h : j ≠ k) :
    (s.setAst k x).astOf j = s.astOf j := by
  simp [State.setAst, State.astOf, get_set, h]
theorem State.look_setAst (s : State) (k : Nat) (x : Ast) (j : Nat) :
    look none (s.setAst k x).ast j = if j = k then some x else look none s.ast j := look_set _ _ _ _
@[simp] theorem State.me_setMe (s : State) (g : Group) : (s.setMe g).me = g := by
  simp [State.setMe, State.me]
theorem State.group_setMe (s : State) (g : Group) (j : Nat) :
    (s.setMe g).group j = if j = s.cur.group then g else s.group j := State.group_setGroup ..
theorem State.look_setMe (s : State) (g : Group) (j : Nat) :
    look none (s.setMe g).groups j = if j = s.cur.group then some g else look none s.groups j :=
  State.look_setGroup ..
theorem State.reg_setReg (s : State) (k : Nat) (x : DWord) (j : Nat) :
    (s.setReg k x).reg j = if j = k then x else s.reg j := look_put ..
@[simp] theorem State.setMe_setMe_me (s : State) (g h : Group) : ((s.setMe g).setMe h).me = h := by simp

end Sys2Proof.Machine
end

