-- ==== Sys2Proof/Laws/Group.lean ====
section
/-! SUPPORT. What each operation on a group changes, and that it changes nothing else. -/

namespace Sys2Proof.Machine

/-! ## Register writes -/

theorem Group.write_eq (g : Group) (w : Write) :
    ∃ v s p t x, g.write w = { g with v := v, s := s, p := p, tags := t, lost := x } := by
  cases w with
  | p r l x => unfold Group.write; dsimp only; split <;> exact ⟨_, _, _, _, _, rfl⟩
  | _ => exact ⟨_, _, _, _, _, rfl⟩

/-- Register writes change registers, their losses and tags alone. -/
theorem Group.writes_eq (g : Group) (ws : List Write) :
    ∃ v s p t x, g.writes ws = { g with v := v, s := s, p := p, tags := t, lost := x } := by
  induction ws generalizing g with
  | nil => exact ⟨_, _, _, _, _, rfl⟩
  | cons w ws ih =>
    obtain ⟨_, _, _, _, _, h⟩ := g.write_eq w
    obtain ⟨_, _, _, _, _, k⟩ := ih (g.write w)
    exact ⟨_, _, _, _, _, k.trans (by rw [h])⟩

@[simp] theorem Group.writes_nil (g : Group) : g.writes [] = g := rfl
@[simp] theorem Group.writes_cons (g : Group) (w : Write) (ws : List Write) :
    g.writes (w :: ws) = (g.write w).writes ws := rfl
theorem Group.writes_append (g : Group) (ws xs : List Write) :
    g.writes (ws ++ xs) = (g.writes ws).writes xs := List.foldl_append

@[simp] theorem Group.writes_ctx (g : Group) (ws : List Write) : (g.writes ws).ctx = g.ctx := by
  obtain ⟨_, _, _, _, _, h⟩ := g.writes_eq ws; rw [h]
@[simp] theorem Group.writes_launch (g : Group) (ws : List Write) : (g.writes ws).launch = g.launch := by
  obtain ⟨_, _, _, _, _, h⟩ := g.writes_eq ws; rw [h]
@[simp] theorem Group.writes_wg (g : Group) (ws : List Write) : (g.writes ws).wg = g.wg := by
  obtain ⟨_, _, _, _, _, h⟩ := g.writes_eq ws; rw [h]
@[simp] theorem Group.writes_index (g : Group) (ws : List Write) : (g.writes ws).index = g.index := by
  obtain ⟨_, _, _, _, _, h⟩ := g.writes_eq ws; rw [h]
@[simp] theorem Group.writes_width (g : Group) (ws : List Write) : (g.writes ws).width = g.width := by
  obtain ⟨_, _, _, _, _, h⟩ := g.writes_eq ws; rw [h]
@[simp] theorem Group.writes_regs (g : Group) (ws : List Write) : (g.writes ws).regs = g.regs := by
  obtain ⟨_, _, _, _, _, h⟩ := g.writes_eq ws; rw [h]
@[simp] theorem Group.writes_real (g : Group) (ws : List Write) : (g.writes ws).real = g.real := by
  obtain ⟨_, _, _, _, _, h⟩ := g.writes_eq ws; rw [h]
@[simp] theorem Group.writes_helper (g : Group) (ws : List Write) : (g.writes ws).helper = g.helper := by
  obtain ⟨_, _, _, _, _, h⟩ := g.writes_eq ws; rw [h]
@[simp] theorem Group.writes_exited (g : Group) (ws : List Write) : (g.writes ws).exited = g.exited := by
  obtain ⟨_, _, _, _, _, h⟩ := g.writes_eq ws; rw [h]
@[simp] theorem Group.writes_splits (g : Group) (ws : List Write) : (g.writes ws).splits = g.splits := by
  obtain ⟨_, _, _, _, _, h⟩ := g.writes_eq ws; rw [h]
@[simp] theorem Group.writes_stack (g : Group) (ws : List Write) : (g.writes ws).stack = g.stack := by
  obtain ⟨_, _, _, _, _, h⟩ := g.writes_eq ws; rw [h]
@[simp] theorem Group.writes_budget (g : Group) (ws : List Write) : (g.writes ws).budget = g.budget := by
  obtain ⟨_, _, _, _, _, h⟩ := g.writes_eq ws; rw [h]
@[simp] theorem Group.writes_planes (g : Group) (ws : List Write) : (g.writes ws).planes = g.planes := by
  obtain ⟨_, _, _, _, _, h⟩ := g.writes_eq ws; rw [h]
@[simp] theorem Group.writes_flags (g : Group) (ws : List Write) : (g.writes ws).flags = g.flags := by
  obtain ⟨_, _, _, _, _, h⟩ := g.writes_eq ws; rw [h]
@[simp] theorem Group.writes_links (g : Group) (ws : List Write) : (g.writes ws).links = g.links := by
  obtain ⟨_, _, _, _, _, h⟩ := g.writes_eq ws; rw [h]
@[simp] theorem Group.writes_fpx (g : Group) (ws : List Write) : (g.writes ws).fpx = g.fpx := by
  obtain ⟨_, _, _, _, _, h⟩ := g.writes_eq ws; rw [h]
@[simp] theorem Group.writes_gang (g : Group) (ws : List Write) : (g.writes ws).gang = g.gang := by
  obtain ⟨_, _, _, _, _, h⟩ := g.writes_eq ws; rw [h]
@[simp] theorem Group.writes_hint (g : Group) (ws : List Write) : (g.writes ws).hint = g.hint := by
  obtain ⟨_, _, _, _, _, h⟩ := g.writes_eq ws; rw [h]
@[simp] theorem Group.writes_nextSeq (g : Group) (ws : List Write) : (g.writes ws).nextSeq = g.nextSeq := by
  obtain ⟨_, _, _, _, _, h⟩ := g.writes_eq ws; rw [h]
@[simp] theorem Group.writes_stackMem (g : Group) (ws : List Write) : (g.writes ws).stackMem = g.stackMem := by
  obtain ⟨_, _, _, _, _, h⟩ := g.writes_eq ws; rw [h]
@[simp] theorem Group.writes_stackPoison (g : Group) (ws : List Write) : (g.writes ws).stackPoison = g.stackPoison := by
  obtain ⟨_, _, _, _, _, h⟩ := g.writes_eq ws; rw [h]
@[simp] theorem Group.writes_stackLim (g : Group) (ws : List Write) : (g.writes ws).stackLim = g.stackLim := by
  obtain ⟨_, _, _, _, _, h⟩ := g.writes_eq ws; rw [h]
@[simp] theorem Group.writes_backing (g : Group) (ws : List Write) : (g.writes ws).backing = g.backing := by
  obtain ⟨_, _, _, _, _, h⟩ := g.writes_eq ws; rw [h]
@[simp] theorem Group.writes_handling (g : Group) (ws : List Write) : (g.writes ws).handling = g.handling := by
  obtain ⟨_, _, _, _, _, h⟩ := g.writes_eq ws; rw [h]
@[simp] theorem Group.writes_inflight (g : Group) (ws : List Write) : (g.writes ws).inflight = g.inflight := by
  obtain ⟨_, _, _, _, _, h⟩ := g.writes_eq ws; rw [h]
@[simp] theorem Group.writes_ageBase (g : Group) (ws : List Write) : (g.writes ws).ageBase = g.ageBase := by
  obtain ⟨_, _, _, _, _, h⟩ := g.writes_eq ws; rw [h]
@[simp] theorem Group.writes_drawn (g : Group) (ws : List Write) : (g.writes ws).drawn = g.drawn := by
  obtain ⟨_, _, _, _, _, h⟩ := g.writes_eq ws; rw [h]
@[simp] theorem Group.writes_refused (g : Group) (ws : List Write) : (g.writes ws).refused = g.refused := by
  obtain ⟨_, _, _, _, _, h⟩ := g.writes_eq ws; rw [h]
@[simp] theorem Group.writes_fence (g : Group) (ws : List Write) : (g.writes ws).fence = g.fence := by
  obtain ⟨_, _, _, _, _, h⟩ := g.writes_eq ws; rw [h]
@[simp] theorem Group.writes_nextResult (g : Group) (ws : List Write) : (g.writes ws).nextResult = g.nextResult := by
  obtain ⟨_, _, _, _, _, h⟩ := g.writes_eq ws; rw [h]
@[simp] theorem Group.writes_yieldUntil (g : Group) (ws : List Write) : (g.writes ws).yieldUntil = g.yieldUntil := by
  obtain ⟨_, _, _, _, _, h⟩ := g.writes_eq ws; rw [h]
@[simp] theorem Group.writes_held (g : Group) (ws : List Write) : (g.writes ws).held = g.held := by
  obtain ⟨_, _, _, _, _, h⟩ := g.writes_eq ws; rw [h]
@[simp] theorem Group.writes_released (g : Group) (ws : List Write) : (g.writes ws).released = g.released := by
  obtain ⟨_, _, _, _, _, h⟩ := g.writes_eq ws; rw [h]
@[simp] theorem Group.writes_joined (g : Group) (ws : List Write) : (g.writes ws).joined = g.joined := by
  obtain ⟨_, _, _, _, _, h⟩ := g.writes_eq ws; rw [h]

/-! ## Completion flags -/

theorem Group.raise_eq (g : Group) (f : Nat) : ∃ x, g.raise f = { g with flags := x } := by
  unfold Group.raise; split <;> exact ⟨_, rfl⟩
theorem Group.lower_eq (g : Group) (f : Nat) : ∃ x, g.lower f = { g with flags := x } := by
  unfold Group.lower; split <;> exact ⟨_, rfl⟩

theorem Group.raise_flags (g : Group) (f k : Nat) :
    look 0 (g.raise f).flags k = look 0 g.flags k + if k ≠ 0 ∧ k = f then 1 else 0 := by
  unfold Group.raise
  split
  · next h => subst h; by_cases hk : k = 0 <;> simp [hk]
  · next h =>
    simp only [look_put]
    by_cases hk : k = f
    · subst hk; simp [h]
    · simp [hk]

theorem Group.lower_flags (g : Group) (f k : Nat) :
    look 0 (g.lower f).flags k = look 0 g.flags k - if k ≠ 0 ∧ k = f then 1 else 0 := by
  unfold Group.lower
  split
  · next h => subst h; by_cases hk : k = 0 <;> simp [hk]
  · next h =>
    simp only [look_put]
    by_cases hk : k = f
    · subst hk; simp [h]
    · simp [hk]

@[simp] theorem Group.raise_ctx (g : Group) (f : Nat) : (g.raise f).ctx = g.ctx := by
  obtain ⟨_, h⟩ := g.raise_eq f; rw [h]
@[simp] theorem Group.raise_launch (g : Group) (f : Nat) : (g.raise f).launch = g.launch := by
  obtain ⟨_, h⟩ := g.raise_eq f; rw [h]
@[simp] theorem Group.raise_wg (g : Group) (f : Nat) : (g.raise f).wg = g.wg := by
  obtain ⟨_, h⟩ := g.raise_eq f; rw [h]
@[simp] theorem Group.raise_index (g : Group) (f : Nat) : (g.raise f).index = g.index := by
  obtain ⟨_, h⟩ := g.raise_eq f; rw [h]
@[simp] theorem Group.raise_width (g : Group) (f : Nat) : (g.raise f).width = g.width := by
  obtain ⟨_, h⟩ := g.raise_eq f; rw [h]
@[simp] theorem Group.raise_regs (g : Group) (f : Nat) : (g.raise f).regs = g.regs := by
  obtain ⟨_, h⟩ := g.raise_eq f; rw [h]
@[simp] theorem Group.raise_real (g : Group) (f : Nat) : (g.raise f).real = g.real := by
  obtain ⟨_, h⟩ := g.raise_eq f; rw [h]
@[simp] theorem Group.raise_helper (g : Group) (f : Nat) : (g.raise f).helper = g.helper := by
  obtain ⟨_, h⟩ := g.raise_eq f; rw [h]
@[simp] theorem Group.raise_exited (g : Group) (f : Nat) : (g.raise f).exited = g.exited := by
  obtain ⟨_, h⟩ := g.raise_eq f; rw [h]
@[simp] theorem Group.raise_splits (g : Group) (f : Nat) : (g.raise f).splits = g.splits := by
  obtain ⟨_, h⟩ := g.raise_eq f; rw [h]
@[simp] theorem Group.raise_stack (g : Group) (f : Nat) : (g.raise f).stack = g.stack := by
  obtain ⟨_, h⟩ := g.raise_eq f; rw [h]
@[simp] theorem Group.raise_budget (g : Group) (f : Nat) : (g.raise f).budget = g.budget := by
  obtain ⟨_, h⟩ := g.raise_eq f; rw [h]
@[simp] theorem Group.raise_planes (g : Group) (f : Nat) : (g.raise f).planes = g.planes := by
  obtain ⟨_, h⟩ := g.raise_eq f; rw [h]
@[simp] theorem Group.raise_v (g : Group) (f : Nat) : (g.raise f).v = g.v := by
  obtain ⟨_, h⟩ := g.raise_eq f; rw [h]
@[simp] theorem Group.raise_s (g : Group) (f : Nat) : (g.raise f).s = g.s := by
  obtain ⟨_, h⟩ := g.raise_eq f; rw [h]
@[simp] theorem Group.raise_p (g : Group) (f : Nat) : (g.raise f).p = g.p := by
  obtain ⟨_, h⟩ := g.raise_eq f; rw [h]
@[simp] theorem Group.raise_links (g : Group) (f : Nat) : (g.raise f).links = g.links := by
  obtain ⟨_, h⟩ := g.raise_eq f; rw [h]
@[simp] theorem Group.raise_fpx (g : Group) (f : Nat) : (g.raise f).fpx = g.fpx := by
  obtain ⟨_, h⟩ := g.raise_eq f; rw [h]
@[simp] theorem Group.raise_gang (g : Group) (f : Nat) : (g.raise f).gang = g.gang := by
  obtain ⟨_, h⟩ := g.raise_eq f; rw [h]
@[simp] theorem Group.raise_hint (g : Group) (f : Nat) : (g.raise f).hint = g.hint := by
  obtain ⟨_, h⟩ := g.raise_eq f; rw [h]
@[simp] theorem Group.raise_tags (g : Group) (f : Nat) : (g.raise f).tags = g.tags := by
  obtain ⟨_, h⟩ := g.raise_eq f; rw [h]
@[simp] theorem Group.raise_nextSeq (g : Group) (f : Nat) : (g.raise f).nextSeq = g.nextSeq := by
  obtain ⟨_, h⟩ := g.raise_eq f; rw [h]
@[simp] theorem Group.raise_stackMem (g : Group) (f : Nat) : (g.raise f).stackMem = g.stackMem := by
  obtain ⟨_, h⟩ := g.raise_eq f; rw [h]
@[simp] theorem Group.raise_stackPoison (g : Group) (f : Nat) : (g.raise f).stackPoison = g.stackPoison := by
  obtain ⟨_, h⟩ := g.raise_eq f; rw [h]
@[simp] theorem Group.raise_stackLim (g : Group) (f : Nat) : (g.raise f).stackLim = g.stackLim := by
  obtain ⟨_, h⟩ := g.raise_eq f; rw [h]
@[simp] theorem Group.raise_backing (g : Group) (f : Nat) : (g.raise f).backing = g.backing := by
  obtain ⟨_, h⟩ := g.raise_eq f; rw [h]
@[simp] theorem Group.raise_handling (g : Group) (f : Nat) : (g.raise f).handling = g.handling := by
  obtain ⟨_, h⟩ := g.raise_eq f; rw [h]
@[simp] theorem Group.raise_inflight (g : Group) (f : Nat) : (g.raise f).inflight = g.inflight := by
  obtain ⟨_, h⟩ := g.raise_eq f; rw [h]
@[simp] theorem Group.raise_ageBase (g : Group) (f : Nat) : (g.raise f).ageBase = g.ageBase := by
  obtain ⟨_, h⟩ := g.raise_eq f; rw [h]
@[simp] theorem Group.raise_drawn (g : Group) (f : Nat) : (g.raise f).drawn = g.drawn := by
  obtain ⟨_, h⟩ := g.raise_eq f; rw [h]
@[simp] theorem Group.raise_refused (g : Group) (f : Nat) : (g.raise f).refused = g.refused := by
  obtain ⟨_, h⟩ := g.raise_eq f; rw [h]
@[simp] theorem Group.raise_lost (g : Group) (f : Nat) : (g.raise f).lost = g.lost := by
  obtain ⟨_, h⟩ := g.raise_eq f; rw [h]
@[simp] theorem Group.raise_fence (g : Group) (f : Nat) : (g.raise f).fence = g.fence := by
  obtain ⟨_, h⟩ := g.raise_eq f; rw [h]
@[simp] theorem Group.raise_nextResult (g : Group) (f : Nat) : (g.raise f).nextResult = g.nextResult := by
  obtain ⟨_, h⟩ := g.raise_eq f; rw [h]
@[simp] theorem Group.raise_yieldUntil (g : Group) (f : Nat) : (g.raise f).yieldUntil = g.yieldUntil := by
  obtain ⟨_, h⟩ := g.raise_eq f; rw [h]
@[simp] theorem Group.raise_held (g : Group) (f : Nat) : (g.raise f).held = g.held := by
  obtain ⟨_, h⟩ := g.raise_eq f; rw [h]
@[simp] theorem Group.raise_released (g : Group) (f : Nat) : (g.raise f).released = g.released := by
  obtain ⟨_, h⟩ := g.raise_eq f; rw [h]
@[simp] theorem Group.raise_joined (g : Group) (f : Nat) : (g.raise f).joined = g.joined := by
  obtain ⟨_, h⟩ := g.raise_eq f; rw [h]
@[simp] theorem Group.lower_ctx (g : Group) (f : Nat) : (g.lower f).ctx = g.ctx := by
  obtain ⟨_, h⟩ := g.lower_eq f; rw [h]
@[simp] theorem Group.lower_launch (g : Group) (f : Nat) : (g.lower f).launch = g.launch := by
  obtain ⟨_, h⟩ := g.lower_eq f; rw [h]
@[simp] theorem Group.lower_wg (g : Group) (f : Nat) : (g.lower f).wg = g.wg := by
  obtain ⟨_, h⟩ := g.lower_eq f; rw [h]
@[simp] theorem Group.lower_index (g : Group) (f : Nat) : (g.lower f).index = g.index := by
  obtain ⟨_, h⟩ := g.lower_eq f; rw [h]
@[simp] theorem Group.lower_width (g : Group) (f : Nat) : (g.lower f).width = g.width := by
  obtain ⟨_, h⟩ := g.lower_eq f; rw [h]
@[simp] theorem Group.lower_regs (g : Group) (f : Nat) : (g.lower f).regs = g.regs := by
  obtain ⟨_, h⟩ := g.lower_eq f; rw [h]
@[simp] theorem Group.lower_real (g : Group) (f : Nat) : (g.lower f).real = g.real := by
  obtain ⟨_, h⟩ := g.lower_eq f; rw [h]
@[simp] theorem Group.lower_helper (g : Group) (f : Nat) : (g.lower f).helper = g.helper := by
  obtain ⟨_, h⟩ := g.lower_eq f; rw [h]
@[simp] theorem Group.lower_exited (g : Group) (f : Nat) : (g.lower f).exited = g.exited := by
  obtain ⟨_, h⟩ := g.lower_eq f; rw [h]
@[simp] theorem Group.lower_splits (g : Group) (f : Nat) : (g.lower f).splits = g.splits := by
  obtain ⟨_, h⟩ := g.lower_eq f; rw [h]
@[simp] theorem Group.lower_stack (g : Group) (f : Nat) : (g.lower f).stack = g.stack := by
  obtain ⟨_, h⟩ := g.lower_eq f; rw [h]
@[simp] theorem Group.lower_budget (g : Group) (f : Nat) : (g.lower f).budget = g.budget := by
  obtain ⟨_, h⟩ := g.lower_eq f; rw [h]
@[simp] theorem Group.lower_planes (g : Group) (f : Nat) : (g.lower f).planes = g.planes := by
  obtain ⟨_, h⟩ := g.lower_eq f; rw [h]
@[simp] theorem Group.lower_v (g : Group) (f : Nat) : (g.lower f).v = g.v := by
  obtain ⟨_, h⟩ := g.lower_eq f; rw [h]
@[simp] theorem Group.lower_s (g : Group) (f : Nat) : (g.lower f).s = g.s := by
  obtain ⟨_, h⟩ := g.lower_eq f; rw [h]
@[simp] theorem Group.lower_p (g : Group) (f : Nat) : (g.lower f).p = g.p := by
  obtain ⟨_, h⟩ := g.lower_eq f; rw [h]
@[simp] theorem Group.lower_links (g : Group) (f : Nat) : (g.lower f).links = g.links := by
  obtain ⟨_, h⟩ := g.lower_eq f; rw [h]
@[simp] theorem Group.lower_fpx (g : Group) (f : Nat) : (g.lower f).fpx = g.fpx := by
  obtain ⟨_, h⟩ := g.lower_eq f; rw [h]
@[simp] theorem Group.lower_gang (g : Group) (f : Nat) : (g.lower f).gang = g.gang := by
  obtain ⟨_, h⟩ := g.lower_eq f; rw [h]
@[simp] theorem Group.lower_hint (g : Group) (f : Nat) : (g.lower f).hint = g.hint := by
  obtain ⟨_, h⟩ := g.lower_eq f; rw [h]
@[simp] theorem Group.lower_tags (g : Group) (f : Nat) : (g.lower f).tags = g.tags := by
  obtain ⟨_, h⟩ := g.lower_eq f; rw [h]
@[simp] theorem Group.lower_nextSeq (g : Group) (f : Nat) : (g.lower f).nextSeq = g.nextSeq := by
  obtain ⟨_, h⟩ := g.lower_eq f; rw [h]
@[simp] theorem Group.lower_stackMem (g : Group) (f : Nat) : (g.lower f).stackMem = g.stackMem := by
  obtain ⟨_, h⟩ := g.lower_eq f; rw [h]
@[simp] theorem Group.lower_stackPoison (g : Group) (f : Nat) : (g.lower f).stackPoison = g.stackPoison := by
  obtain ⟨_, h⟩ := g.lower_eq f; rw [h]
@[simp] theorem Group.lower_stackLim (g : Group) (f : Nat) : (g.lower f).stackLim = g.stackLim := by
  obtain ⟨_, h⟩ := g.lower_eq f; rw [h]
@[simp] theorem Group.lower_backing (g : Group) (f : Nat) : (g.lower f).backing = g.backing := by
  obtain ⟨_, h⟩ := g.lower_eq f; rw [h]
@[simp] theorem Group.lower_handling (g : Group) (f : Nat) : (g.lower f).handling = g.handling := by
  obtain ⟨_, h⟩ := g.lower_eq f; rw [h]
@[simp] theorem Group.lower_inflight (g : Group) (f : Nat) : (g.lower f).inflight = g.inflight := by
  obtain ⟨_, h⟩ := g.lower_eq f; rw [h]
@[simp] theorem Group.lower_ageBase (g : Group) (f : Nat) : (g.lower f).ageBase = g.ageBase := by
  obtain ⟨_, h⟩ := g.lower_eq f; rw [h]
@[simp] theorem Group.lower_drawn (g : Group) (f : Nat) : (g.lower f).drawn = g.drawn := by
  obtain ⟨_, h⟩ := g.lower_eq f; rw [h]
@[simp] theorem Group.lower_refused (g : Group) (f : Nat) : (g.lower f).refused = g.refused := by
  obtain ⟨_, h⟩ := g.lower_eq f; rw [h]
@[simp] theorem Group.lower_lost (g : Group) (f : Nat) : (g.lower f).lost = g.lost := by
  obtain ⟨_, h⟩ := g.lower_eq f; rw [h]
@[simp] theorem Group.lower_fence (g : Group) (f : Nat) : (g.lower f).fence = g.fence := by
  obtain ⟨_, h⟩ := g.lower_eq f; rw [h]
@[simp] theorem Group.lower_nextResult (g : Group) (f : Nat) : (g.lower f).nextResult = g.nextResult := by
  obtain ⟨_, h⟩ := g.lower_eq f; rw [h]
@[simp] theorem Group.lower_yieldUntil (g : Group) (f : Nat) : (g.lower f).yieldUntil = g.yieldUntil := by
  obtain ⟨_, h⟩ := g.lower_eq f; rw [h]
@[simp] theorem Group.lower_held (g : Group) (f : Nat) : (g.lower f).held = g.held := by
  obtain ⟨_, h⟩ := g.lower_eq f; rw [h]
@[simp] theorem Group.lower_released (g : Group) (f : Nat) : (g.lower f).released = g.released := by
  obtain ⟨_, h⟩ := g.lower_eq f; rw [h]
@[simp] theorem Group.lower_joined (g : Group) (f : Nat) : (g.lower f).joined = g.joined := by
  obtain ⟨_, h⟩ := g.lower_eq f; rw [h]

/-! ## Where lanes stand -/

@[simp] theorem Group.setSplit_ctx (g : Group) (k : Nat) (x : Option Split) : (g.setSplit k x).ctx = g.ctx := rfl
@[simp] theorem Group.setSplit_launch (g : Group) (k : Nat) (x : Option Split) : (g.setSplit k x).launch = g.launch := rfl
@[simp] theorem Group.setSplit_wg (g : Group) (k : Nat) (x : Option Split) : (g.setSplit k x).wg = g.wg := rfl
@[simp] theorem Group.setSplit_index (g : Group) (k : Nat) (x : Option Split) : (g.setSplit k x).index = g.index := rfl
@[simp] theorem Group.setSplit_width (g : Group) (k : Nat) (x : Option Split) : (g.setSplit k x).width = g.width := rfl
@[simp] theorem Group.setSplit_regs (g : Group) (k : Nat) (x : Option Split) : (g.setSplit k x).regs = g.regs := rfl
@[simp] theorem Group.setSplit_real (g : Group) (k : Nat) (x : Option Split) : (g.setSplit k x).real = g.real := rfl
@[simp] theorem Group.setSplit_helper (g : Group) (k : Nat) (x : Option Split) : (g.setSplit k x).helper = g.helper := rfl
@[simp] theorem Group.setSplit_exited (g : Group) (k : Nat) (x : Option Split) : (g.setSplit k x).exited = g.exited := rfl
@[simp] theorem Group.setSplit_stack (g : Group) (k : Nat) (x : Option Split) : (g.setSplit k x).stack = g.stack := rfl
@[simp] theorem Group.setSplit_budget (g : Group) (k : Nat) (x : Option Split) : (g.setSplit k x).budget = g.budget := rfl
@[simp] theorem Group.setSplit_planes (g : Group) (k : Nat) (x : Option Split) : (g.setSplit k x).planes = g.planes := rfl
@[simp] theorem Group.setSplit_v (g : Group) (k : Nat) (x : Option Split) : (g.setSplit k x).v = g.v := rfl
@[simp] theorem Group.setSplit_s (g : Group) (k : Nat) (x : Option Split) : (g.setSplit k x).s = g.s := rfl
@[simp] theorem Group.setSplit_p (g : Group) (k : Nat) (x : Option Split) : (g.setSplit k x).p = g.p := rfl
@[simp] theorem Group.setSplit_flags (g : Group) (k : Nat) (x : Option Split) : (g.setSplit k x).flags = g.flags := rfl
@[simp] theorem Group.setSplit_links (g : Group) (k : Nat) (x : Option Split) : (g.setSplit k x).links = g.links := rfl
@[simp] theorem Group.setSplit_fpx (g : Group) (k : Nat) (x : Option Split) : (g.setSplit k x).fpx = g.fpx := rfl
@[simp] theorem Group.setSplit_gang (g : Group) (k : Nat) (x : Option Split) : (g.setSplit k x).gang = g.gang := rfl
@[simp] theorem Group.setSplit_hint (g : Group) (k : Nat) (x : Option Split) : (g.setSplit k x).hint = g.hint := rfl
@[simp] theorem Group.setSplit_tags (g : Group) (k : Nat) (x : Option Split) : (g.setSplit k x).tags = g.tags := rfl
@[simp] theorem Group.setSplit_nextSeq (g : Group) (k : Nat) (x : Option Split) : (g.setSplit k x).nextSeq = g.nextSeq := rfl
@[simp] theorem Group.setSplit_stackMem (g : Group) (k : Nat) (x : Option Split) : (g.setSplit k x).stackMem = g.stackMem := rfl
@[simp] theorem Group.setSplit_stackPoison (g : Group) (k : Nat) (x : Option Split) : (g.setSplit k x).stackPoison = g.stackPoison := rfl
@[simp] theorem Group.setSplit_stackLim (g : Group) (k : Nat) (x : Option Split) : (g.setSplit k x).stackLim = g.stackLim := rfl
@[simp] theorem Group.setSplit_backing (g : Group) (k : Nat) (x : Option Split) : (g.setSplit k x).backing = g.backing := rfl
@[simp] theorem Group.setSplit_handling (g : Group) (k : Nat) (x : Option Split) : (g.setSplit k x).handling = g.handling := rfl
@[simp] theorem Group.setSplit_inflight (g : Group) (k : Nat) (x : Option Split) : (g.setSplit k x).inflight = g.inflight := rfl
@[simp] theorem Group.setSplit_ageBase (g : Group) (k : Nat) (x : Option Split) : (g.setSplit k x).ageBase = g.ageBase := rfl
@[simp] theorem Group.setSplit_drawn (g : Group) (k : Nat) (x : Option Split) : (g.setSplit k x).drawn = g.drawn := rfl
@[simp] theorem Group.setSplit_refused (g : Group) (k : Nat) (x : Option Split) : (g.setSplit k x).refused = g.refused := rfl
@[simp] theorem Group.setSplit_lost (g : Group) (k : Nat) (x : Option Split) : (g.setSplit k x).lost = g.lost := rfl
@[simp] theorem Group.setSplit_fence (g : Group) (k : Nat) (x : Option Split) : (g.setSplit k x).fence = g.fence := rfl
@[simp] theorem Group.setSplit_nextResult (g : Group) (k : Nat) (x : Option Split) : (g.setSplit k x).nextResult = g.nextResult := rfl
@[simp] theorem Group.setSplit_yieldUntil (g : Group) (k : Nat) (x : Option Split) : (g.setSplit k x).yieldUntil = g.yieldUntil := rfl
@[simp] theorem Group.setSplit_held (g : Group) (k : Nat) (x : Option Split) : (g.setSplit k x).held = g.held := rfl
@[simp] theorem Group.setSplit_released (g : Group) (k : Nat) (x : Option Split) : (g.setSplit k x).released = g.released := rfl
@[simp] theorem Group.setSplit_joined (g : Group) (k : Nat) (x : Option Split) : (g.setSplit k x).joined = g.joined := rfl

theorem Group.look_setSplit (g : Group) (k : Nat) (x : Option Split) (j : Nat) :
    look none (g.setSplit k x).splits j = if j = k then x else look none g.splits j := look_put ..

@[simp] theorem Group.split_setSplit (g : Group) (k : Nat) (x : Split) : (g.setSplit k (some x)).split k = x := by
  simp [Group.split, Group.look_setSplit]

/-- Merging and popping change splits and stack alone. -/
theorem Group.settle_eq (g : Group) (n : Nat) :
    ∃ a b, g.settle n = { g with splits := a, stack := b } := by
  induction n generalizing g with
  | zero => exact ⟨_, _, rfl⟩
  | succ n ih =>
    unfold Group.settle
    split
    · obtain ⟨_, _, h⟩ := ih _
      exact ⟨_, _, h⟩
    · split
      · obtain ⟨_, _, h⟩ := ih _
        exact ⟨_, _, h⟩
      · exact ⟨_, _, rfl⟩

theorem Group.spread_eq (g : Group) (b : Bool) (ps : List (Dest × LaneMask)) :
    ∃ x y, g.spread b ps = { g with splits := x, stack := y } := by
  induction ps generalizing g with
  | nil => exact ⟨_, _, rfl⟩
  | cons p ps ih =>
    obtain ⟨d, m⟩ := p
    rcases d with ⟨r, o⟩ | _
    · unfold Group.spread
      split
      · obtain ⟨_, _, h⟩ := ih (g.setSplit _ _)
        exact ⟨_, _, h⟩
      · obtain ⟨_, _, h⟩ := ih g
        dsimp only
        rw [h]
        exact ⟨_, _, rfl⟩
    · exact ih g

theorem Group.endHandler_eq (g : Group) : ∃ x, g.endHandler = { g with handling := x } := by
  unfold Group.endHandler; split <;> exact ⟨_, rfl⟩

/-- Leaving an offset changes where lanes stand, their planes and link stacks, and the age (R29, R33, R230). -/
theorem Group.leave_eq (g : Group) (slot : Nat) (mid : Mid) (wait : Option Waiting) (clock : Nat) :
    ∃ a b c d e f x, g.leave slot mid wait clock =
      { g with splits := a, stack := b, exited := c, links := d, planes := e, ageBase := f, handling := x } := by
  unfold Group.leave
  dsimp only
  split
  · obtain ⟨_, _, h⟩ := Group.settle_eq _ 128
    rw [h]
    obtain ⟨_, _, k⟩ := Group.spread_eq (Group.setSplit _ _ _) _ _
    rw [k]
    exact ⟨_, _, _, _, _, _, _, rfl⟩
  · obtain ⟨_, _, h⟩ := Group.settle_eq _ 128
    rw [h]
    obtain ⟨_, k⟩ := Group.endHandler_eq (Group.setSplit _ _ _)
    rw [k]
    exact ⟨_, _, _, _, _, _, _, rfl⟩

@[simp] theorem Group.settle_ctx (g : Group) (n : Nat) : (g.settle n).ctx = g.ctx := by
  obtain ⟨_, _, h⟩ := g.settle_eq n; rw [h]
@[simp] theorem Group.settle_launch (g : Group) (n : Nat) : (g.settle n).launch = g.launch := by
  obtain ⟨_, _, h⟩ := g.settle_eq n; rw [h]
@[simp] theorem Group.settle_wg (g : Group) (n : Nat) : (g.settle n).wg = g.wg := by
  obtain ⟨_, _, h⟩ := g.settle_eq n; rw [h]
@[simp] theorem Group.settle_index (g : Group) (n : Nat) : (g.settle n).index = g.index := by
  obtain ⟨_, _, h⟩ := g.settle_eq n; rw [h]
@[simp] theorem Group.settle_width (g : Group) (n : Nat) : (g.settle n).width = g.width := by
  obtain ⟨_, _, h⟩ := g.settle_eq n; rw [h]
@[simp] theorem Group.settle_regs (g : Group) (n : Nat) : (g.settle n).regs = g.regs := by
  obtain ⟨_, _, h⟩ := g.settle_eq n; rw [h]
@[simp] theorem Group.settle_real (g : Group) (n : Nat) : (g.settle n).real = g.real := by
  obtain ⟨_, _, h⟩ := g.settle_eq n; rw [h]
@[simp] theorem Group.settle_helper (g : Group) (n : Nat) : (g.settle n).helper = g.helper := by
  obtain ⟨_, _, h⟩ := g.settle_eq n; rw [h]
@[simp] theorem Group.settle_exited (g : Group) (n : Nat) : (g.settle n).exited = g.exited := by
  obtain ⟨_, _, h⟩ := g.settle_eq n; rw [h]
@[simp] theorem Group.settle_budget (g : Group) (n : Nat) : (g.settle n).budget = g.budget := by
  obtain ⟨_, _, h⟩ := g.settle_eq n; rw [h]
@[simp] theorem Group.settle_planes (g : Group) (n : Nat) : (g.settle n).planes = g.planes := by
  obtain ⟨_, _, h⟩ := g.settle_eq n; rw [h]
@[simp] theorem Group.settle_v (g : Group) (n : Nat) : (g.settle n).v = g.v := by
  obtain ⟨_, _, h⟩ := g.settle_eq n; rw [h]
@[simp] theorem Group.settle_s (g : Group) (n : Nat) : (g.settle n).s = g.s := by
  obtain ⟨_, _, h⟩ := g.settle_eq n; rw [h]
@[simp] theorem Group.settle_p (g : Group) (n : Nat) : (g.settle n).p = g.p := by
  obtain ⟨_, _, h⟩ := g.settle_eq n; rw [h]
@[simp] theorem Group.settle_flags (g : Group) (n : Nat) : (g.settle n).flags = g.flags := by
  obtain ⟨_, _, h⟩ := g.settle_eq n; rw [h]
@[simp] theorem Group.settle_links (g : Group) (n : Nat) : (g.settle n).links = g.links := by
  obtain ⟨_, _, h⟩ := g.settle_eq n; rw [h]
@[simp] theorem Group.settle_fpx (g : Group) (n : Nat) : (g.settle n).fpx = g.fpx := by
  obtain ⟨_, _, h⟩ := g.settle_eq n; rw [h]
@[simp] theorem Group.settle_gang (g : Group) (n : Nat) : (g.settle n).gang = g.gang := by
  obtain ⟨_, _, h⟩ := g.settle_eq n; rw [h]
@[simp] theorem Group.settle_hint (g : Group) (n : Nat) : (g.settle n).hint = g.hint := by
  obtain ⟨_, _, h⟩ := g.settle_eq n; rw [h]
@[simp] theorem Group.settle_tags (g : Group) (n : Nat) : (g.settle n).tags = g.tags := by
  obtain ⟨_, _, h⟩ := g.settle_eq n; rw [h]
@[simp] theorem Group.settle_nextSeq (g : Group) (n : Nat) : (g.settle n).nextSeq = g.nextSeq := by
  obtain ⟨_, _, h⟩ := g.settle_eq n; rw [h]
@[simp] theorem Group.settle_stackMem (g : Group) (n : Nat) : (g.settle n).stackMem = g.stackMem := by
  obtain ⟨_, _, h⟩ := g.settle_eq n; rw [h]
@[simp] theorem Group.settle_stackPoison (g : Group) (n : Nat) : (g.settle n).stackPoison = g.stackPoison := by
  obtain ⟨_, _, h⟩ := g.settle_eq n; rw [h]
@[simp] theorem Group.settle_stackLim (g : Group) (n : Nat) : (g.settle n).stackLim = g.stackLim := by
  obtain ⟨_, _, h⟩ := g.settle_eq n; rw [h]
@[simp] theorem Group.settle_backing (g : Group) (n : Nat) : (g.settle n).backing = g.backing := by
  obtain ⟨_, _, h⟩ := g.settle_eq n; rw [h]
@[simp] theorem Group.settle_handling (g : Group) (n : Nat) : (g.settle n).handling = g.handling := by
  obtain ⟨_, _, h⟩ := g.settle_eq n; rw [h]
@[simp] theorem Group.settle_inflight (g : Group) (n : Nat) : (g.settle n).inflight = g.inflight := by
  obtain ⟨_, _, h⟩ := g.settle_eq n; rw [h]
@[simp] theorem Group.settle_ageBase (g : Group) (n : Nat) : (g.settle n).ageBase = g.ageBase := by
  obtain ⟨_, _, h⟩ := g.settle_eq n; rw [h]
@[simp] theorem Group.settle_drawn (g : Group) (n : Nat) : (g.settle n).drawn = g.drawn := by
  obtain ⟨_, _, h⟩ := g.settle_eq n; rw [h]
@[simp] theorem Group.settle_refused (g : Group) (n : Nat) : (g.settle n).refused = g.refused := by
  obtain ⟨_, _, h⟩ := g.settle_eq n; rw [h]
@[simp] theorem Group.settle_lost (g : Group) (n : Nat) : (g.settle n).lost = g.lost := by
  obtain ⟨_, _, h⟩ := g.settle_eq n; rw [h]
@[simp] theorem Group.settle_fence (g : Group) (n : Nat) : (g.settle n).fence = g.fence := by
  obtain ⟨_, _, h⟩ := g.settle_eq n; rw [h]
@[simp] theorem Group.settle_nextResult (g : Group) (n : Nat) : (g.settle n).nextResult = g.nextResult := by
  obtain ⟨_, _, h⟩ := g.settle_eq n; rw [h]
@[simp] theorem Group.settle_yieldUntil (g : Group) (n : Nat) : (g.settle n).yieldUntil = g.yieldUntil := by
  obtain ⟨_, _, h⟩ := g.settle_eq n; rw [h]
@[simp] theorem Group.settle_held (g : Group) (n : Nat) : (g.settle n).held = g.held := by
  obtain ⟨_, _, h⟩ := g.settle_eq n; rw [h]
@[simp] theorem Group.settle_released (g : Group) (n : Nat) : (g.settle n).released = g.released := by
  obtain ⟨_, _, h⟩ := g.settle_eq n; rw [h]
@[simp] theorem Group.settle_joined (g : Group) (n : Nat) : (g.settle n).joined = g.joined := by
  obtain ⟨_, _, h⟩ := g.settle_eq n; rw [h]
@[simp] theorem Group.leave_ctx (g : Group) (k : Nat) (m : Mid) (w : Option Waiting) (c : Nat) : (g.leave k m w c).ctx = g.ctx := by
  obtain ⟨_, _, _, _, _, _, _, h⟩ := g.leave_eq k m w c; rw [h]
@[simp] theorem Group.leave_launch (g : Group) (k : Nat) (m : Mid) (w : Option Waiting) (c : Nat) : (g.leave k m w c).launch = g.launch := by
  obtain ⟨_, _, _, _, _, _, _, h⟩ := g.leave_eq k m w c; rw [h]
@[simp] theorem Group.leave_wg (g : Group) (k : Nat) (m : Mid) (w : Option Waiting) (c : Nat) : (g.leave k m w c).wg = g.wg := by
  obtain ⟨_, _, _, _, _, _, _, h⟩ := g.leave_eq k m w c; rw [h]
@[simp] theorem Group.leave_index (g : Group) (k : Nat) (m : Mid) (w : Option Waiting) (c : Nat) : (g.leave k m w c).index = g.index := by
  obtain ⟨_, _, _, _, _, _, _, h⟩ := g.leave_eq k m w c; rw [h]
@[simp] theorem Group.leave_width (g : Group) (k : Nat) (m : Mid) (w : Option Waiting) (c : Nat) : (g.leave k m w c).width = g.width := by
  obtain ⟨_, _, _, _, _, _, _, h⟩ := g.leave_eq k m w c; rw [h]
@[simp] theorem Group.leave_regs (g : Group) (k : Nat) (m : Mid) (w : Option Waiting) (c : Nat) : (g.leave k m w c).regs = g.regs := by
  obtain ⟨_, _, _, _, _, _, _, h⟩ := g.leave_eq k m w c; rw [h]
@[simp] theorem Group.leave_real (g : Group) (k : Nat) (m : Mid) (w : Option Waiting) (c : Nat) : (g.leave k m w c).real = g.real := by
  obtain ⟨_, _, _, _, _, _, _, h⟩ := g.leave_eq k m w c; rw [h]
@[simp] theorem Group.leave_helper (g : Group) (k : Nat) (m : Mid) (w : Option Waiting) (c : Nat) : (g.leave k m w c).helper = g.helper := by
  obtain ⟨_, _, _, _, _, _, _, h⟩ := g.leave_eq k m w c; rw [h]
@[simp] theorem Group.leave_budget (g : Group) (k : Nat) (m : Mid) (w : Option Waiting) (c : Nat) : (g.leave k m w c).budget = g.budget := by
  obtain ⟨_, _, _, _, _, _, _, h⟩ := g.leave_eq k m w c; rw [h]
@[simp] theorem Group.leave_v (g : Group) (k : Nat) (m : Mid) (w : Option Waiting) (c : Nat) : (g.leave k m w c).v = g.v := by
  obtain ⟨_, _, _, _, _, _, _, h⟩ := g.leave_eq k m w c; rw [h]
@[simp] theorem Group.leave_s (g : Group) (k : Nat) (m : Mid) (w : Option Waiting) (c : Nat) : (g.leave k m w c).s = g.s := by
  obtain ⟨_, _, _, _, _, _, _, h⟩ := g.leave_eq k m w c; rw [h]
@[simp] theorem Group.leave_p (g : Group) (k : Nat) (m : Mid) (w : Option Waiting) (c : Nat) : (g.leave k m w c).p = g.p := by
  obtain ⟨_, _, _, _, _, _, _, h⟩ := g.leave_eq k m w c; rw [h]
@[simp] theorem Group.leave_flags (g : Group) (k : Nat) (m : Mid) (w : Option Waiting) (c : Nat) : (g.leave k m w c).flags = g.flags := by
  obtain ⟨_, _, _, _, _, _, _, h⟩ := g.leave_eq k m w c; rw [h]
@[simp] theorem Group.leave_fpx (g : Group) (k : Nat) (m : Mid) (w : Option Waiting) (c : Nat) : (g.leave k m w c).fpx = g.fpx := by
  obtain ⟨_, _, _, _, _, _, _, h⟩ := g.leave_eq k m w c; rw [h]
@[simp] theorem Group.leave_gang (g : Group) (k : Nat) (m : Mid) (w : Option Waiting) (c : Nat) : (g.leave k m w c).gang = g.gang := by
  obtain ⟨_, _, _, _, _, _, _, h⟩ := g.leave_eq k m w c; rw [h]
@[simp] theorem Group.leave_hint (g : Group) (k : Nat) (m : Mid) (w : Option Waiting) (c : Nat) : (g.leave k m w c).hint = g.hint := by
  obtain ⟨_, _, _, _, _, _, _, h⟩ := g.leave_eq k m w c; rw [h]
@[simp] theorem Group.leave_tags (g : Group) (k : Nat) (m : Mid) (w : Option Waiting) (c : Nat) : (g.leave k m w c).tags = g.tags := by
  obtain ⟨_, _, _, _, _, _, _, h⟩ := g.leave_eq k m w c; rw [h]
@[simp] theorem Group.leave_nextSeq (g : Group) (k : Nat) (m : Mid) (w : Option Waiting) (c : Nat) : (g.leave k m w c).nextSeq = g.nextSeq := by
  obtain ⟨_, _, _, _, _, _, _, h⟩ := g.leave_eq k m w c; rw [h]
@[simp] theorem Group.leave_stackMem (g : Group) (k : Nat) (m : Mid) (w : Option Waiting) (c : Nat) : (g.leave k m w c).stackMem = g.stackMem := by
  obtain ⟨_, _, _, _, _, _, _, h⟩ := g.leave_eq k m w c; rw [h]
@[simp] theorem Group.leave_stackPoison (g : Group) (k : Nat) (m : Mid) (w : Option Waiting) (c : Nat) : (g.leave k m w c).stackPoison = g.stackPoison := by
  obtain ⟨_, _, _, _, _, _, _, h⟩ := g.leave_eq k m w c; rw [h]
@[simp] theorem Group.leave_stackLim (g : Group) (k : Nat) (m : Mid) (w : Option Waiting) (c : Nat) : (g.leave k m w c).stackLim = g.stackLim := by
  obtain ⟨_, _, _, _, _, _, _, h⟩ := g.leave_eq k m w c; rw [h]
@[simp] theorem Group.leave_backing (g : Group) (k : Nat) (m : Mid) (w : Option Waiting) (c : Nat) : (g.leave k m w c).backing = g.backing := by
  obtain ⟨_, _, _, _, _, _, _, h⟩ := g.leave_eq k m w c; rw [h]
@[simp] theorem Group.leave_inflight (g : Group) (k : Nat) (m : Mid) (w : Option Waiting) (c : Nat) : (g.leave k m w c).inflight = g.inflight := by
  obtain ⟨_, _, _, _, _, _, _, h⟩ := g.leave_eq k m w c; rw [h]
@[simp] theorem Group.leave_drawn (g : Group) (k : Nat) (m : Mid) (w : Option Waiting) (c : Nat) : (g.leave k m w c).drawn = g.drawn := by
  obtain ⟨_, _, _, _, _, _, _, h⟩ := g.leave_eq k m w c; rw [h]
@[simp] theorem Group.leave_refused (g : Group) (k : Nat) (m : Mid) (w : Option Waiting) (c : Nat) : (g.leave k m w c).refused = g.refused := by
  obtain ⟨_, _, _, _, _, _, _, h⟩ := g.leave_eq k m w c; rw [h]
@[simp] theorem Group.leave_lost (g : Group) (k : Nat) (m : Mid) (w : Option Waiting) (c : Nat) : (g.leave k m w c).lost = g.lost := by
  obtain ⟨_, _, _, _, _, _, _, h⟩ := g.leave_eq k m w c; rw [h]
@[simp] theorem Group.leave_fence (g : Group) (k : Nat) (m : Mid) (w : Option Waiting) (c : Nat) : (g.leave k m w c).fence = g.fence := by
  obtain ⟨_, _, _, _, _, _, _, h⟩ := g.leave_eq k m w c; rw [h]
@[simp] theorem Group.leave_nextResult (g : Group) (k : Nat) (m : Mid) (w : Option Waiting) (c : Nat) : (g.leave k m w c).nextResult = g.nextResult := by
  obtain ⟨_, _, _, _, _, _, _, h⟩ := g.leave_eq k m w c; rw [h]
@[simp] theorem Group.leave_yieldUntil (g : Group) (k : Nat) (m : Mid) (w : Option Waiting) (c : Nat) : (g.leave k m w c).yieldUntil = g.yieldUntil := by
  obtain ⟨_, _, _, _, _, _, _, h⟩ := g.leave_eq k m w c; rw [h]
@[simp] theorem Group.leave_held (g : Group) (k : Nat) (m : Mid) (w : Option Waiting) (c : Nat) : (g.leave k m w c).held = g.held := by
  obtain ⟨_, _, _, _, _, _, _, h⟩ := g.leave_eq k m w c; rw [h]
@[simp] theorem Group.leave_released (g : Group) (k : Nat) (m : Mid) (w : Option Waiting) (c : Nat) : (g.leave k m w c).released = g.released := by
  obtain ⟨_, _, _, _, _, _, _, h⟩ := g.leave_eq k m w c; rw [h]
@[simp] theorem Group.leave_joined (g : Group) (k : Nat) (m : Mid) (w : Option Waiting) (c : Nat) : (g.leave k m w c).joined = g.joined := by
  obtain ⟨_, _, _, _, _, _, _, h⟩ := g.leave_eq k m w c; rw [h]

end Sys2Proof.Machine
end

