-- ==== Sys2Proof/Laws/Lanes.lean ====
section
/-! SUPPORT. Where lanes stand when a split leaves its offset: dividing, merging and popping send each lane where its
next offset says (R29 to R31). -/

namespace Sys2Proof

open Machine

/-! ## Entries of a table after a write -/

theorem mem_put {α : Type} [DecidableEq α] {d : α} {m : Sparse α} {k : Nat} {x : α} {e : Nat × α}
    (h : e ∈ put d m k x) : e = (k, x) ∨ (e ∈ m ∧ e.1 ≠ k) := by
  unfold put at h
  have dropped : e ∈ drop m k → e ∈ m ∧ e.1 ≠ k := fun h =>
    ⟨(List.mem_filter.mp h).1, drop_ne m k e h⟩
  split at h
  · exact .inr (dropped h)
  · rcases insertAt_mem h with h | h
    · exact .inl h
    · exact .inr (dropped h)

theorem mem_insertAt {α : Type} [DecidableEq α] (m : Sparse α) (k : Nat) (x : α) (e : Nat × α) :
    e = (k, x) ∨ e ∈ m → e ∈ insertAt m k x := by
  induction m with
  | nil => simp [insertAt]
  | cons f m ih =>
    intro h
    unfold insertAt
    split
    · simpa using h
    · rcases h with h | h
      · exact List.mem_cons_of_mem _ (ih (.inl h))
      · rcases List.mem_cons.mp h with h | h
        · rw [h]; exact List.mem_cons_self ..
        · exact List.mem_cons_of_mem _ (ih (.inr h))

theorem mem_drop {α : Type} [DecidableEq α] {m : Sparse α} {k : Nat} {e : Nat × α} (h : e ∈ m) (hk : e.1 ≠ k) :
    e ∈ drop m k := by
  unfold drop
  exact List.mem_filter.mpr ⟨h, by simpa using hk⟩

theorem mem_put_self {α : Type} [DecidableEq α] {d : α} (m : Sparse α) (k : Nat) {x : α} (h : x ≠ d) :
    (k, x) ∈ put d m k x := by
  unfold put
  rw [if_neg h]
  exact mem_insertAt _ _ _ _ (.inl rfl)

theorem mem_put_of_ne {α : Type} [DecidableEq α] {d : α} {m : Sparse α} {k : Nat} (x : α) {e : Nat × α} (h : e ∈ m)
    (hk : e.1 ≠ k) : e ∈ put d m k x := by
  unfold put
  split
  · exact mem_drop h hk
  · exact mem_insertAt _ _ _ _ (.inr (mem_drop h hk))

theorem nodup_insertAt {α : Type} [DecidableEq α] (m : Sparse α) (k : Nat) (x : α) (h : (m.map (·.1)).Nodup)
    (hk : ∀ e ∈ m, e.1 ≠ k) : ((insertAt m k x).map (·.1)).Nodup := by
  induction m with
  | nil => simp [insertAt]
  | cons f m ih =>
    unfold insertAt
    have hm := List.nodup_cons.mp h
    split
    · refine List.nodup_cons.mpr ⟨?_, h⟩
      intro hin
      obtain ⟨e, he, hke⟩ := List.mem_map.mp hin
      exact hk e he hke
    · refine List.nodup_cons.mpr ⟨?_, ih hm.2 fun e he => hk e (List.mem_cons_of_mem _ he)⟩
      intro hin
      obtain ⟨e, he, hke⟩ := List.mem_map.mp hin
      rcases insertAt_mem he with h' | h'
      · rw [h'] at hke
        exact hk f (List.mem_cons_self ..) hke.symm
      · exact hm.1 (List.mem_map.mpr ⟨e, h', hke⟩)

theorem nodup_put {α : Type} [DecidableEq α] (d : α) (m : Sparse α) (k : Nat) (x : α) (h : (m.map (·.1)).Nodup) :
    ((put d m k x).map (·.1)).Nodup := by
  have hd : ((drop m k).map (·.1)).Nodup := by
    unfold drop
    exact h.sublist (List.Sublist.map _ List.filter_sublist)
  unfold put
  split
  · exact hd
  · exact nodup_insertAt _ _ _ hd (drop_ne m k)

/-- With one entry for each key, the entry is what a look finds. -/
theorem look_of_mem {α : Type} [DecidableEq α] {d : α} {m : Sparse α} (h : (m.map (·.1)).Nodup) {k : Nat} {x : α}
    (hm : (k, x) ∈ m) : look d m k = x := by
  induction m with
  | nil => cases hm
  | cons f m ih =>
    obtain ⟨j, y⟩ := f
    have hn := List.nodup_cons.mp h
    unfold look
    rcases List.mem_cons.mp hm with e | e
    · obtain ⟨rfl, rfl⟩ := Prod.mk.inj e
      simp
    · split
      · next he =>
        subst he
        exact absurd (List.mem_map.mpr ⟨(k, x), e, rfl⟩) hn.1
      · exact ih hn.2 e

theorem mem_of_look {α : Type} [DecidableEq α] {d : α} {m : Sparse α} {k : Nat} {x : α} (h : look d m k = x)
    (hx : x ≠ d) : (k, x) ∈ m := by
  induction m with
  | nil => exact absurd h.symm hx
  | cons f m ih =>
    obtain ⟨j, y⟩ := f
    unfold look at h
    split at h
    · next he => subst he; subst h; exact List.mem_cons_self ..
    · exact List.mem_cons_of_mem _ (ih h)

/-! ## Splits after a slot is set -/

theorem mem_setSplit {g : Group} {k : Nat} {x : Option Split} {e : Nat × Option Split}
    (h : e ∈ (g.setSplit k x).splits) : e = (k, x) ∨ (e ∈ g.splits ∧ e.1 ≠ k) := by
  unfold Group.setSplit at h; exact mem_put h

theorem setSplit_self (g : Group) (k : Nat) (sp : Split) : (k, some sp) ∈ (g.setSplit k (some sp)).splits := by
  exact mem_put_self (d := none) _ _ (Option.some_ne_none sp)

theorem setSplit_of_ne {g : Group} {k : Nat} (x : Option Split) {e : Nat × Option Split} (h : e ∈ g.splits)
    (hk : e.1 ≠ k) : e ∈ (g.setSplit k x).splits := by
  unfold Group.setSplit; exact mem_put_of_ne _ h hk

theorem setSplit_keys {g : Group} (k : Nat) (x : Option Split) (h : (g.splits.map (·.1)).Nodup) :
    ((g.setSplit k x).splits.map (·.1)).Nodup := by
  unfold Group.setSplit; exact nodup_put _ _ _ _ h

/-! ## Lanes -/

/-- A lane stands at one place, or nowhere: every split and stack entry that has it stands there, and one has it. -/
structure Stands (g : Group) (l : Nat) (p : Option (Nat × Nat)) : Prop where
  splits : ∀ k sp, (k, some sp) ∈ g.splits → sp.mask.getLsbD l = true → p = some (sp.region, sp.offset)
  stack : ∀ e ∈ g.stack, e.mask.getLsbD l = true → p = some (e.region, e.offset)
  held : p ≠ none →
    (∃ k sp, (k, some sp) ∈ g.splits ∧ sp.mask.getLsbD l = true) ∨ ∃ e ∈ g.stack, e.mask.getLsbD l = true
  keys : (g.splits.map (·.1)).Nodup

theorem Stands.laneAt {g : Group} {l : Nat} {p : Option (Nat × Nat)} (h : Stands g l p) : laneAt g l = p := by
  unfold Sys2Proof.laneAt
  split
  · next e he =>
    obtain ⟨k, x⟩ := e
    have hm := List.mem_of_find?_eq_some he
    have hp := List.find?_some he
    cases x with
    | none => simp at hp
    | some sp => exact (h.splits k sp hm (by simpa using hp)).symm
  · next hn =>
    have none' := List.find?_eq_none.mp hn
    cases hs : g.stack.find? fun e => e.mask.getLsbD l with
    | some e =>
      have hm := List.mem_of_find?_eq_some hs
      have hp := List.find?_some hs
      exact (h.stack e hm (by simpa using hp)).symm
    | none =>
      have none2 := List.find?_eq_none.mp hs
      cases hp : p with
      | none => rfl
      | some q =>
        rcases h.held (by simp [hp]) with ⟨k, sp, hm, hb⟩ | ⟨e, hm, hb⟩
        · exact absurd (by simpa using hb) (none' _ hm)
        · exact absurd (by simpa using hb) (none2 _ hm)

/-- An entry of a slot's split, or no lane. -/
theorem split_lane {g : Group} {k l : Nat} (h : (g.split k).mask.getLsbD l = true) :
    (k, some (g.split k)) ∈ g.splits := by
  unfold Group.split at *
  cases hk : look none g.splits k with
  | none => rw [hk] at h; exact absurd h (by simp [default, instInhabitedSplit.default])
  | some sp => exact mem_of_look hk (by simp)

theorem Stands.setSplit_pop {g : Group} {l k : Nat} {p : Option (Nat × Nat)} {e : StackEntry} {es : List StackEntry}
    (h : Stands g l p) (hs : g.stack = e :: es) (hk : look none g.splits k = none) (sp : Split)
    (hp : sp.region = e.region ∧ sp.offset = e.offset ∧ sp.mask = e.mask) :
    Stands (Group.setSplit { g with stack := es } k (some sp)) l p := by
  obtain ⟨h1, h2, h3⟩ := hp
  constructor
  · intro j x hx hb
    rcases mem_setSplit hx with he | ⟨he, _⟩
    · obtain ⟨_, e2⟩ := Prod.mk.inj he
      obtain rfl := Option.some.inj e2
      rw [h1, h2]
      exact h.stack e (by rw [hs]; exact List.mem_cons_self ..) (by rw [← h3]; exact hb)
    · exact h.splits j x he hb
  · intro f hf hb
    exact h.stack f (by rw [hs]; exact List.mem_cons_of_mem _ hf) hb
  · intro hne
    rcases h.held hne with ⟨j, x, hx, hb⟩ | ⟨f, hf, hb⟩
    · refine .inl ⟨j, x, setSplit_of_ne _ hx ?_, hb⟩
      intro (hj : j = k)
      subst hj
      rw [look_of_mem h.keys hx] at hk
      cases hk
    · rw [hs] at hf
      rcases List.mem_cons.mp hf with hf | hf
      · subst hf
        exact .inl ⟨k, sp, setSplit_self .., by rw [h3]; exact hb⟩
      · exact .inr ⟨f, hf, hb⟩
  · exact setSplit_keys _ _ h.keys

theorem Stands.merge {g : Group} {l i j : Nat} {p : Option (Nat × Nat)} (h : Stands g l p) (hij : i < j)
    (hm : mergeable (g.split i) (g.split j) = true) :
    Stands ((g.setSplit i (some { g.split i with mask := (g.split i).mask ||| (g.split j).mask })).setSplit j none)
      l p := by
  have hreg : (g.split i).region = (g.split j).region ∧ (g.split i).offset = (g.split j).offset := by
    simp [mergeable] at hm
    exact ⟨hm.1.1.1.1.1.1, hm.1.1.1.1.1.2⟩
  constructor
  · intro k x hx hb
    rcases mem_setSplit hx with he | ⟨he, hk⟩
    · simp at he
    · rcases mem_setSplit he with he | ⟨he, _⟩
      · obtain ⟨_, e2⟩ := Prod.mk.inj he
        obtain rfl := Option.some.inj e2
        simp only [BitVec.getLsbD_or, Bool.or_eq_true] at hb
        rcases hb with hb | hb
        · exact h.splits i (g.split i) (split_lane hb) hb
        · have := h.splits j (g.split j) (split_lane hb) hb
          rw [this, hreg.1, hreg.2]
      · exact h.splits k x he hb
  · intro e he hb; exact h.stack e he hb
  · intro hne
    rcases h.held hne with ⟨k, x, hx, hb⟩ | ⟨e, he, hb⟩
    · refine .inl ?_
      have here : ((g.split i).mask ||| (g.split j).mask).getLsbD l = true →
          ∃ k sp, (k, some sp) ∈ ((g.setSplit i (some { g.split i with
            mask := (g.split i).mask ||| (g.split j).mask })).setSplit j none).splits ∧ sp.mask.getLsbD l = true :=
        fun hb => ⟨i, _, setSplit_of_ne _ (setSplit_self ..) (by show i ≠ j; omega), hb⟩
      by_cases hki : k = i
      · subst hki
        refine here ?_
        have : g.split k = x := by unfold Group.split; rw [look_of_mem h.keys hx]; rfl
        simp [this, hb]
      · by_cases hkj : k = j
        · subst hkj
          refine here ?_
          have : g.split k = x := by unfold Group.split; rw [look_of_mem h.keys hx]; rfl
          simp [this, hb]
        · exact ⟨k, x, setSplit_of_ne _ (setSplit_of_ne _ hx hki) hkj, hb⟩
    · exact .inr ⟨e, he, hb⟩
  · exact setSplit_keys _ _ (setSplit_keys _ _ h.keys)

/-- Merging and popping leave every lane where it stands (R30, R31). -/
theorem Stands.settle {g : Group} {l : Nat} {p : Option (Nat × Nat)} (h : Stands g l p) (n : Nat) :
    Stands (g.settle n) l p := by
  induction n generalizing g with
  | zero => exact h
  | succ n ih =>
    unfold Group.settle
    split
    · next e es k hs hf =>
      refine ih (h.setSplit_pop hs ?_ _ ⟨rfl, rfl, rfl⟩)
      have := List.find?_some hf
      simpa using this
    · split
      · next i j hm =>
        unfold Group.mergePair at hm
        obtain ⟨i', _, hi⟩ := List.exists_of_findSome?_eq_some hm
        cases hf : g.live.find? fun j => decide (i' < j) && mergeable (g.split i') (g.split j) with
        | none => rw [hf] at hi; simp at hi
        | some j' =>
          rw [hf] at hi
          obtain ⟨rfl, rfl⟩ := Prod.mk.inj (Option.some.inj hi)
          have hp := List.find?_some hf
          simp only [Bool.and_eq_true, decide_eq_true_eq] at hp
          exact ih (h.merge hp.1 hp.2)
      · exact h

/-! ## Dividing (R29) -/

theorem partsOf_keys (dest : Nat → Dest) (ls : List Nat) : ((partsOf dest ls).map (·.1)).Nodup := by
  induction ls with
  | nil => simp [partsOf]
  | cons l ls ih =>
    unfold partsOf
    dsimp only
    refine List.nodup_cons.mpr ⟨?_, ih.sublist (List.Sublist.map _ List.filter_sublist)⟩
    intro h
    obtain ⟨e, he, hk⟩ := List.mem_map.mp h
    have := (List.mem_filter.mp he).2
    simp [hk] at this

theorem getLsbD_one (l k : Nat) (hk : k < 64) : (1#64 <<< l).getLsbD k = decide (k = l) := by
  rw [BitVec.getLsbD_shiftLeft]
  by_cases h : k = l
  · subst h; simp [hk]
  · by_cases h' : k < l
    · simp [h', h]
    · have : k - l ≠ 0 := by omega
      simp [h', h, this]

/-- A part holds lanes of its destination alone. -/
theorem partsOf_sound (dest : Nat → Dest) (ls : List Nat) (d : Dest) (m : LaneMask) (h : (d, m) ∈ partsOf dest ls)
    (l : Nat) (hl : l < 64) (hb : m.getLsbD l = true) : dest l = d ∧ l ∈ ls := by
  induction ls generalizing d m with
  | nil => cases h
  | cons x ls ih =>
    unfold partsOf at h
    dsimp only at h
    rcases List.mem_cons.mp h with e | e
    · obtain ⟨rfl, rfl⟩ := Prod.mk.inj e
      simp only [BitVec.getLsbD_or, Bool.or_eq_true, getLsbD_one x l hl, decide_eq_true_eq] at hb
      rcases hb with hb | hb
      · cases hf : (partsOf dest ls).find? fun e => e.1 == dest x with
        | none => rw [hf] at hb; simp at hb
        | some e =>
          rw [hf] at hb
          have hk := List.find?_some hf
          obtain ⟨h1, h2⟩ := ih e.1 e.2 (List.mem_of_find?_eq_some hf) (by simpa using hb)
          exact ⟨h1.trans (by simpa using hk), List.mem_cons_of_mem _ h2⟩
      · subst hb; exact ⟨rfl, List.mem_cons_self ..⟩
    · obtain ⟨h1, h2⟩ := ih d m (List.mem_filter.mp e).1 hb
      exact ⟨h1, List.mem_cons_of_mem _ h2⟩

/-- Every lane is in the part of its destination. -/
theorem partsOf_complete (dest : Nat → Dest) (ls : List Nat) (l : Nat) (hl : l < 64) (h : l ∈ ls) :
    ∃ m, (dest l, m) ∈ partsOf dest ls ∧ m.getLsbD l = true := by
  induction ls with
  | nil => cases h
  | cons x ls ih =>
    unfold partsOf
    dsimp only
    rcases List.mem_cons.mp h with e | e
    · subst e
      exact ⟨_, List.mem_cons_self .., by simp [getLsbD_one l l hl]⟩
    · obtain ⟨m, hm, hb⟩ := ih e
      by_cases hd : dest l = dest x
      · refine ⟨_, by rw [hd]; exact List.mem_cons_self .., ?_⟩
        cases hf : (partsOf dest ls).find? fun e => e.1 == dest x with
        | none =>
          have := List.find?_eq_none.mp hf (dest l, m) hm
          simp [hd] at this
        | some e' =>
          have hk : e'.1 = dest x := by simpa using List.find?_some hf
          have hme : e' ∈ partsOf dest ls := List.mem_of_find?_eq_some hf
          have : e'.2 = m := by
            have inj := List.inj_on_of_nodup_map (partsOf_keys dest ls) hme hm (hk.trans hd.symm)
            rw [inj]
          simp [this, hb]
      · exact ⟨m, List.mem_cons_of_mem _ (List.mem_filter.mpr ⟨hm, by simpa using hd⟩), hb⟩

/-- Where a group's lanes stand once the further parts of a division are put in: each lane is as it was, or in a part
that goes to its place. -/
theorem Stands.spread {g : Group} {l : Nat} {p : Option (Nat × Nat)} (handler : Bool) (ps : List (Dest × LaneMask))
    (keys : (g.splits.map (·.1)).Nodup)
    (splits : ∀ k sp, (k, some sp) ∈ g.splits → sp.mask.getLsbD l = true → p = some (sp.region, sp.offset))
    (stack : ∀ e ∈ g.stack, e.mask.getLsbD l = true → p = some (e.region, e.offset))
    (parts : ∀ e ∈ ps, e.1 ≠ .gone → e.2.getLsbD l = true → p = destPlace e.1)
    (held : p ≠ none →
      (∃ k sp, (k, some sp) ∈ g.splits ∧ sp.mask.getLsbD l = true) ∨ (∃ e ∈ g.stack, e.mask.getLsbD l = true)
      ∨ ∃ e ∈ ps, e.1 ≠ .gone ∧ e.2.getLsbD l = true) :
    Stands (g.spread handler ps) l p := by
  induction ps generalizing g p with
  | nil =>
    refine ⟨splits, stack, fun h => ?_, keys⟩
    rcases held h with h | h | ⟨e, he, _⟩
    · exact .inl h
    · exact .inr h
    · cases he
  | cons e ps ih =>
    obtain ⟨d, m⟩ := e
    rcases d with ⟨r, o⟩ | _
    case gone =>
      refine ih keys splits stack (fun e he => parts e (List.mem_cons_of_mem _ he)) fun h => ?_
      rcases held h with h | h | ⟨e, he, hg, hb⟩
      · exact .inl h
      · exact .inr (.inl h)
      · rcases List.mem_cons.mp he with he | he
        · subst he; exact absurd rfl hg
        · exact .inr (.inr ⟨e, he, hg, hb⟩)
    · unfold Group.spread
      have mine : m.getLsbD l = true → p = some (r, o) :=
        parts (.to r o, m) (List.mem_cons_self ..) (by simp)
      split
      · next k hf =>
        have hk : look none g.splits k = none := by
          have := List.find?_some hf
          simpa using this
        refine ih (setSplit_keys _ _ keys) ?_ stack (fun e he => parts e (List.mem_cons_of_mem _ he)) fun h => ?_
        · intro j x hx hb
          rcases mem_setSplit hx with he | ⟨he, _⟩
          · obtain ⟨_, e2⟩ := Prod.mk.inj he
            obtain rfl := Option.some.inj e2
            exact mine hb
          · exact splits j x he hb
        · rcases held h with ⟨j, x, hx, hb⟩ | h | ⟨e, he, hg, hb⟩
          · refine .inl ⟨j, x, setSplit_of_ne _ hx ?_, hb⟩
            intro (hj : j = k)
            subst hj
            rw [look_of_mem keys hx] at hk
            cases hk
          · exact .inr (.inl h)
          · rcases List.mem_cons.mp he with he | he
            · subst he
              exact .inl ⟨k, _, setSplit_self .., hb⟩
            · exact .inr (.inr ⟨e, he, hg, hb⟩)
      · have empty (h1 : ∀ k sp, (k, some sp) ∈ g.splits → sp.mask.getLsbD l = true → False)
            (h2 : ∀ e ∈ g.stack, e.mask.getLsbD l = true → False)
            (h3 : ∀ e ∈ ps, e.1 ≠ .gone → e.2.getLsbD l = true → False) : Stands (g.spread handler ps) l none :=
          ih (p := none) keys (fun j x hx hb => (h1 j x hx hb).elim) (fun e he hb => (h2 e he hb).elim)
            (fun e he hg hb => (h3 e he hg hb).elim) (fun h => absurd rfl h)
        by_cases hm : m.getLsbD l = true
        · -- the lane's own part: p is settled whatever else holds it
          have hp := mine hm
          have key := ih (g := g) keys splits stack (fun e he => parts e (List.mem_cons_of_mem _ he))
          by_cases hq : (∃ k sp, (k, some sp) ∈ g.splits ∧ sp.mask.getLsbD l = true)
              ∨ (∃ e ∈ g.stack, e.mask.getLsbD l = true) ∨ ∃ e ∈ ps, e.1 ≠ .gone ∧ e.2.getLsbD l = true
          · have st := key fun _ => hq
            refine ⟨st.splits, ?_, fun _ => ?_, st.keys⟩
            · intro e he hb
              rcases List.mem_cons.mp he with he | he
              · subst he; exact hp
              · exact st.stack e he hb
            · exact .inr ⟨_, List.mem_cons_self .., hm⟩
          · -- nobody else holds it: the rest of the spread gives it to nobody
            have st : Stands (g.spread handler ps) l none := empty
              (fun j x hx hb => hq (.inl ⟨j, x, hx, hb⟩)) (fun e he hb => hq (.inr (.inl ⟨e, he, hb⟩)))
              (fun e he hg hb => hq (.inr (.inr ⟨e, he, hg, hb⟩)))
            refine ⟨?_, ?_, fun _ => ?_, st.keys⟩
            · intro j x hx hb; exact absurd (st.splits j x hx hb) (by simp)
            · intro e he hb
              rcases List.mem_cons.mp he with he | he
              · subst he; exact hp
              · exact absurd (st.stack e he hb) (by simp)
            · exact .inr ⟨_, List.mem_cons_self .., hm⟩
        · have st := ih (g := g) keys splits stack (fun e he => parts e (List.mem_cons_of_mem _ he)) fun h => by
            rcases held h with h | h | ⟨e, he, hg, hb⟩
            · exact .inl h
            · exact .inr (.inl h)
            · rcases List.mem_cons.mp he with he | he
              · subst he; exact absurd hb hm
              · exact .inr (.inr ⟨e, he, hg, hb⟩)
          refine ⟨st.splits, ?_, fun h => ?_, st.keys⟩
          · intro e he hb
            rcases List.mem_cons.mp he with he | he
            · subst he; exact absurd hb hm
            · exact st.stack e he hb
          · rcases st.held h with h | ⟨e, he, hb⟩
            · exact .inl h
            · exact .inr ⟨e, List.mem_cons_of_mem _ he, hb⟩

/-- A split that leaves its offset sends each of its lanes where the offset's plane issues said. -/
theorem leave_laneAt (g : Group) (slot : Nat) (mid : Mid) (wait : Option Waiting) (clock : Nat) (ha : Alone g slot)
    (l : Nat) (hl : l < 64) (hb : (g.split slot).mask.getLsbD l = true) :
    laneAt (g.leave slot mid wait clock) l =
      destPlace (look (Dest.to (g.split slot).region ((g.split slot).offset + 12)) mid.dests l) := by
  obtain ⟨hkeys, hothers, hstack⟩ := ha
  obtain ⟨dest, hd⟩ : ∃ dest : Nat → Dest,
      ∀ l, look (Dest.to (g.split slot).region ((g.split slot).offset + 12)) mid.dests l = dest l := ⟨_, fun _ => rfl⟩
  rw [hd]
  have none_of_and {x y : LaneMask} (h : x &&& y = 0) (hy : y.getLsbD l = true) : x.getLsbD l = false := by
    have := congrArg (fun z => z.getLsbD l) h
    simpa [hy] using this
  have mine : l ∈ lanesOf (g.split slot).mask := (mem_lanesOf ..).mpr ⟨hl, hb⟩
  obtain ⟨m0, hm0, hb0⟩ := partsOf_complete dest _ l hl mine
  have sound (e : Dest × LaneMask)
      (he : e ∈ (partsOf dest (lanesOf (g.split slot).mask)).filter fun e => e.1 != .gone)
      (hbe : e.2.getLsbD l = true) : dest l = e.1 :=
    (partsOf_sound dest _ e.1 e.2 (List.mem_filter.mp he).1 l hl hbe).1
  have complete : dest l ≠ .gone → ∃ e ∈ (partsOf dest (lanesOf (g.split slot).mask)).filter (fun e => e.1 != .gone),
      e.2.getLsbD l = true :=
    fun h => ⟨_, List.mem_filter.mpr ⟨hm0, by simpa using h⟩, hb0⟩
  unfold Group.leave
  simp only [hd]
  obtain ⟨g0, hg0⟩ : ∃ g0 : Group, g0 =
      { (g.exitLanes (List.filter (fun l => dest l == Dest.gone) (lanesOf (g.split slot).mask))).setPlanes
        (lanesOf (g.split slot).mask) mid with ageBase := clock } := ⟨_, rfl⟩
  have e1 : g0.splits = g.splits := by rw [hg0]; rfl
  have e2 : g0.stack = g.stack := by rw [hg0]; rfl
  rw [← hg0]
  rw [← e1] at hkeys hothers
  rw [← e2] at hstack
  generalize hps : (partsOf dest (lanesOf (g.split slot).mask)).filter (fun e => e.1 != .gone) = parts
  rw [hps] at sound complete
  have hgone : ∀ e ∈ parts, e.1 ≠ .gone := by
    intro e he
    rw [← hps] at he
    simpa using (List.mem_filter.mp he).2
  split
  · next r o m rest =>
    refine (Stands.settle (Stands.spread _ _ (setSplit_keys _ _ hkeys) ?_ ?_ ?_ ?_) 128).laneAt
    · intro k x hx hbx
      rcases mem_setSplit hx with he | ⟨he, hk⟩
      · obtain ⟨_, e2⟩ := Prod.mk.inj he
        obtain rfl := Option.some.inj e2
        rw [sound (.to r o, m) (List.mem_cons_self ..) hbx]
        rfl
      · exact absurd hbx (by rw [none_of_and (hothers (k, some x) he hk x rfl) hb]; simp)
    · intro e he hbe
      exact absurd hbe (by rw [none_of_and (hstack e he) hb]; simp)
    · intro e he _ hbe
      rw [sound e (List.mem_cons_of_mem _ he) hbe]
    · intro hp
      obtain ⟨e, he, hbe⟩ := complete (by intro h; rw [h] at hp; exact hp rfl)
      rcases List.mem_cons.mp he with he' | he'
      · subst he'
        exact .inl ⟨slot, _, setSplit_self .., hbe⟩
      · exact .inr (.inr ⟨e, he', hgone e he, hbe⟩)
  · next hne =>
    have hp : destPlace (dest l) = none := by
      rcases hdest : dest l with ⟨r, o⟩ | _
      case gone => rfl
      · exfalso
        obtain ⟨e, he, hbe⟩ := complete (by rw [hdest]; simp)
        cases parts with
        | nil => cases he
        | cons f fs =>
          obtain ⟨⟨r', o'⟩ | _, m⟩ := f
          · exact hne r' o' m fs rfl
          · exact hgone _ (List.mem_cons_self ..) rfl
    rw [hp]
    obtain ⟨x, hx⟩ := Group.endHandler_eq (g0.setSplit slot none)
    refine (Stands.settle ?_ 128).laneAt
    rw [hx]
    refine ⟨?_, ?_, fun h => absurd rfl h, setSplit_keys slot none hkeys⟩
    · intro k sp hs hbs
      rcases mem_setSplit (g := g0) (x := none) hs with he | ⟨he, hk⟩
      · simp at he
      · exact absurd hbs (by rw [none_of_and (hothers (k, some sp) he hk sp rfl) hb]; simp)
    · intro e he hbe
      exact absurd hbe (by rw [none_of_and (hstack e he) hb]; simp)

/-! ## The end of a plane issue that sends no lane elsewhere -/

theorem partsOf_const (d : Dest) (a : Nat) (ls : List Nat) : ∃ m, partsOf (fun _ => d) (a :: ls) = [(d, m)] := by
  induction ls generalizing a with
  | nil => exact ⟨_, rfl⟩
  | cons b ls ih =>
    obtain ⟨m, hm⟩ := ih b
    unfold partsOf
    dsimp only
    rw [hm]
    exact ⟨m ||| 1#64 <<< a, by simp⟩

theorem lanesOf_ne_nil {m : LaneMask} (h : m ≠ 0) : lanesOf m ≠ [] := by
  intro he
  apply h
  refine BitVec.eq_of_getLsbD_eq fun i hi => ?_
  cases hb : m.getLsbD i with
  | false => simp
  | true =>
    have : i ∈ lanesOf m := (mem_lanesOf ..).mpr ⟨hi, hb⟩
    rw [he] at this
    cases this

@[simp] theorem Group.exitLanes_nil (g : Group) : g.exitLanes [] = g := by
  simp [Group.exitLanes, maskOf]

theorem look_setPlanes (g : Group) (ls : List Nat) (mid : Mid) (h : mid.planes = []) (l : Nat) :
    look 0 (g.setPlanes ls mid).planes l = look 0 g.planes l := by
  unfold Group.setPlanes
  rw [h]
  have key (ls : List Nat) (t : Sparse Nat) (ht : ∀ l, look 0 t l = look 0 g.planes l) :
      ∀ l, look 0 (ls.foldl (fun t l => put 0 t l (look (look 0 g.planes l) [] l)) t) l = look 0 g.planes l := by
    induction ls generalizing t with
    | nil => exact ht
    | cons a ls ih =>
      refine ih _ fun l => ?_
      rw [look_put]
      split
      · next e => subst e; rfl
      · exact ht l
  exact key ls g.planes (fun _ => rfl) l

/-- Where an offset's plane issues have said nothing, leaving it moves the split on to the next word: no lane exits,
calls, returns or changes its plane, and the handler goes on. -/
theorem leave_fresh (g : Group) (slot : Nat) (mid : Mid) (clock : Nat) (hd : mid.dests = []) (hp : mid.planes = []) :
    (∀ l, look 0 (g.leave slot mid none clock).planes l = look 0 g.planes l)
    ∧ (g.leave slot mid none clock).links = g.links ∧ (g.leave slot mid none clock).exited = g.exited
    ∧ ((g.split slot).mask ≠ 0 → (g.leave slot mid none clock).handling = g.handling) := by
  have hfilter (ls : List Nat) (d : Dest) (h : d ≠ .gone) : ls.filter (fun _ => d == Dest.gone) = [] := by
    simp [h]
  unfold Group.leave
  rw [hd]
  simp only [look]
  rw [hfilter _ _ (by simp), Group.exitLanes_nil]
  cases hl : lanesOf (g.split slot).mask with
  | nil =>
    have hm : (g.split slot).mask = 0 := by
      by_contra h; exact lanesOf_ne_nil h hl
    simp only [partsOf, List.filter_nil]
    obtain ⟨_, hx⟩ := Group.endHandler_eq (Group.setSplit { g.setPlanes [] mid with ageBase := clock } slot none)
    obtain ⟨_, _, h⟩ := Group.settle_eq (Group.setSplit { g.setPlanes [] mid with ageBase := clock } slot none).endHandler 128
    rw [h, hx]
    exact ⟨fun l => look_setPlanes g [] mid hp l, rfl, rfl, fun h => absurd hm h⟩
  | cons a ls =>
    obtain ⟨m, hm⟩ := partsOf_const (.to (g.split slot).region ((g.split slot).offset + 12)) a ls
    rw [hm]
    simp only [List.filter_cons, List.filter_nil, bne_iff_ne, ne_eq, reduceCtorEq, not_false_eq_true, if_true,
      Group.spread]
    obtain ⟨_, _, h⟩ := Group.settle_eq (Group.setSplit { g.setPlanes (a :: ls) mid with ageBase := clock } slot
      (some { g.split slot with region := (g.split slot).region, offset := (g.split slot).offset + 12, mask := m,
                                mid := none, wait := none })) 128
    rw [h]
    exact ⟨fun l => look_setPlanes g (a :: ls) mid hp l, rfl, rfl, fun _ => rfl⟩

theorem Group.leave_ageBase (g : Group) (slot : Nat) (mid : Mid) (wait : Option Waiting) (clock : Nat) :
    (g.leave slot mid wait clock).ageBase = clock := by
  unfold Group.leave
  dsimp only
  have settled (x : Group) (n : Nat) (h : x.ageBase = clock) : (x.settle n).ageBase = clock := by
    obtain ⟨_, _, e⟩ := Group.settle_eq x n; rw [e]; exact h
  split
  · refine settled _ _ ?_
    obtain ⟨_, _, e⟩ := Group.spread_eq (Group.setSplit _ slot _) (g.split slot).handler _
    rw [e]; rfl
  · refine settled _ _ ?_
    obtain ⟨_, e⟩ := Group.endHandler_eq (Group.setSplit _ slot none)
    rw [e]; rfl

/-- What ending a plane issue does to the place of its lanes, where it sends none elsewhere. -/
theorem retire_onward (s : State) (y : Bool) : Onward s (s.retire y [] [] none) y := by
  generalize ht : s.retire y [] [] none = t
  unfold State.retire at ht
  dsimp only [List.foldl_nil] at ht
  set g : Group := if y = true then { s.me with yieldUntil := (s.cluster (clusterOf s.cur.group)).yieldTo } else s.me
    with hg
  have gs : g.splits = s.me.splits ∧ g.stack = s.me.stack ∧ g.planes = s.me.planes ∧ g.links = s.me.links
      ∧ g.exited = s.me.exited ∧ g.handling = s.me.handling
      ∧ g.yieldUntil = if y then (s.cluster (clusterOf s.cur.group)).yieldTo else s.me.yieldUntil := by
    rw [hg]; cases y <;> exact ⟨rfl, rfl, rfl, rfl, rfl, rfl, rfl⟩
  obtain ⟨g1, g2, g3, g4, g5, g6, g7⟩ := gs
  have hsplit : ∀ k, g.split k = s.me.split k := fun k => by unfold Group.split; rw [g1]
  have halone (h : Alone s.me s.cur.slot) : Alone g s.cur.slot := by
    unfold Alone at *; rw [g1, g2, hsplit]; exact h
  have last (mid : Mid)
      (hdest : ∀ l, look (Dest.to s.mySplit.region (s.mySplit.offset + 12)) mid.dests l = otherwise s l)
      (hfresh : Fresh s → mid.dests = [] ∧ mid.planes = [])
      (hl : ∀ m, s.mySplit.mid = some m → m.todo.tail = [])
      (h : s.setMe (g.leave s.cur.slot mid none (s.cluster (clusterOf s.cur.group)).clock) = t) : Onward s t y := by
    have hme : t.me = g.leave s.cur.slot mid none (s.cluster (clusterOf s.cur.group)).clock := by
      rw [← h, State.me_setMe]
    refine ⟨fun hlast l h64 hb => ?_, fun hf => ?_, fun m hm hne => absurd (hl m hm) hne, fun _ => ?_, ?_⟩
    · rw [hme, leave_laneAt g s.cur.slot mid none _ (halone hlast.2.1) l h64 (by rw [hsplit]; exact hb), hsplit]
      exact congrArg destPlace (hdest l)
    · obtain ⟨h1, h2⟩ := hfresh hf
      obtain ⟨k1, k2, k3, k4⟩ :=
        leave_fresh g s.cur.slot mid (s.cluster (clusterOf s.cur.group)).clock h1 h2
      rw [hme, ← g3, ← g4, ← g5, ← g6]
      exact ⟨k1, k2, k3, fun hn => k4 (by rw [hsplit]; exact hn)⟩
    · rw [hme, Group.leave_ageBase]
    · rw [hme, Group.leave_yieldUntil, g7]
  cases hm : s.mySplit.mid with
  | none =>
    have hm' : (s.me.split s.cur.slot).mid = none := hm
    rw [hm'] at ht
    simp only [Option.getD_none, List.tail_cons, List.isEmpty_nil, Option.isNone_none, Bool.true_or, Bool.and_self,
      if_true] at ht
    refine last _ (fun l => ?_) (fun _ => ⟨rfl, rfl⟩) (fun m h => ?_) ht
    · unfold otherwise; rw [hm]; rfl
    · rw [hm] at h; cases h
  | some m =>
    have hm' : (s.me.split s.cur.slot).mid = some m := hm
    rw [hm'] at ht
    simp only [Option.getD_some, Option.isNone_none, Bool.true_or, Bool.and_true] at ht
    by_cases hl : m.todo.tail = []
    · rw [if_pos (by rw [hl]; rfl)] at ht
      refine last _ (fun l => ?_) (fun hf => hf m hm) (fun m' h => ?_) ht
      · unfold otherwise; rw [hm]
      · rw [hm] at h; cases h; exact hl
    · rw [if_neg (by simpa using hl)] at ht
      have hme : t.me = g.pause s.cur.slot { todo := m.todo.tail, dests := m.dests, planes := m.planes, begun := true }
          none := by rw [← ht, State.me_setMe]
      have hcur : t.cur = s.cur := by rw [← ht]; rfl
      have hsp (mid : Mid) (wait : Option Waiting) : (g.pause s.cur.slot mid wait).split s.cur.slot =
          { g.split s.cur.slot with
            mask := (g.split s.cur.slot).mask &&& ~~~(maskOf ((lanesOf (g.split s.cur.slot).mask).filter fun l =>
              look (Dest.to (g.split s.cur.slot).region ((g.split s.cur.slot).offset + 12)) mid.dests l == .gone)),
            mid := some mid, wait } := by
        unfold Group.pause Group.split Group.setSplit
        simp only [look_put, if_true, Option.getD_some]
      have hmy : t.mySplit = t.me.split s.cur.slot := by unfold State.mySplit; rw [hcur]
      refine ⟨fun hlast => absurd (hlast.2.2 m hm) hl, fun hf => ?_, fun m' h _ => ?_, fun h => absurd (h m hm) hl, ?_⟩
      · obtain ⟨h1, h2⟩ := hf m hm
        rw [hme]
        unfold Group.pause
        simp only [h1, look]
        rw [show (lanesOf (g.split s.cur.slot).mask).filter (fun _ => Dest.to (g.split s.cur.slot).region
          ((g.split s.cur.slot).offset + 12) == Dest.gone) = [] by simp, Group.exitLanes_nil]
        exact ⟨fun l => by rw [← g3]; rfl, g4, g5, fun _ => g6⟩
      · rw [hm] at h
        cases h
        rw [hmy, hme, hsp]
        refine ⟨⟨_, rfl, rfl, rfl, rfl⟩, by rw [hsplit]; rfl, by rw [hsplit]; rfl, rfl, g2, fun k hk => ?_⟩
        unfold Group.pause Group.setSplit
        dsimp only [Group.exitLanes]
        rw [look_put, if_neg hk, g1]
      · rw [hme]; exact g7

/-- The place of lanes after a step reads only where they stood, what their planes said and the cluster's clock. -/
theorem Onward.of {s u t : State} {y : Bool} (h : Onward u t y) (hc : u.cur = s.cur)
    (hk : (u.cluster (clusterOf s.cur.group)).clock = (s.cluster (clusterOf s.cur.group)).clock)
    (hr : (u.cluster (clusterOf s.cur.group)).cursor = (s.cluster (clusterOf s.cur.group)).cursor)
    (h1 : u.me.splits = s.me.splits) (h2 : u.me.stack = s.me.stack) (h3 : u.me.planes = s.me.planes)
    (h4 : u.me.links = s.me.links) (h5 : u.me.exited = s.me.exited) (h6 : u.me.handling = s.me.handling)
    (h7 : u.me.yieldUntil = s.me.yieldUntil) : Onward s t y := by
  have hsp : ∀ k, u.me.split k = s.me.split k := fun k => by unfold Group.split; rw [h1]
  have hmy : u.mySplit = s.mySplit := by unfold State.mySplit; rw [hc, hsp]
  have hlast : LastPlane s → LastPlane u := by
    unfold LastPlane Alone
    rw [h1, h2, hc, hsp, hmy]
    exact id
  have hother : otherwise u = otherwise s := by funext l; unfold otherwise; rw [hmy]
  have hy : (u.cluster (clusterOf s.cur.group)).yieldTo = (s.cluster (clusterOf s.cur.group)).yieldTo := by
    unfold Cluster.yieldTo; rw [hk, hr]
  obtain ⟨a, b, c, d, e⟩ := h
  unfold LanesGo Fresh at *
  rw [hmy] at a b c d
  rw [hc] at c d e
  rw [h1, h2] at c
  rw [h3, h4, h5, h6] at b
  rw [hother] at a
  rw [h7, hy] at e
  rw [hk] at d
  exact ⟨fun h => a (hlast h), b, c, d, e⟩

end Sys2Proof
end

