-- ==== Sys2Proof/Laws/Memory.lean ====
section
/-! SUPPORT. Laws of the memories: reads after writes, what each memory operation leaves alone, and the canonical
form that all of them keep. -/

namespace Sys2Proof

open Machine

theorem MemoryOk.reset : MemoryOk State.reset := ⟨rfl, rfl⟩

/-- Only the memories may differ. -/
def MemoryOnly (s t : State) : Prop := { t with mem := s.mem, ext := s.ext } = s

theorem MemoryOnly.refl (s : State) : MemoryOnly s s := rfl

theorem MemoryOnly.trans {s t u : State} (h : MemoryOnly s t) (k : MemoryOnly t u) : MemoryOnly s u := by
  unfold MemoryOnly at *
  calc { u with mem := s.mem, ext := s.ext }
      = (fun x : State => { x with mem := s.mem, ext := s.ext }) { u with mem := t.mem, ext := t.ext } := rfl
    _ = (fun x : State => { x with mem := s.mem, ext := s.ext }) t := by rw [k]
    _ = s := h

/-- The state after such an operation, written out. -/
theorem MemoryOnly.eq {s t : State} (h : MemoryOnly s t) : t = { s with mem := t.mem, ext := t.ext } := by
  unfold MemoryOnly at h
  calc t = (fun x : State => { x with mem := t.mem, ext := t.ext }) { t with mem := s.mem, ext := s.ext } := rfl
    _ = (fun x : State => { x with mem := t.mem, ext := t.ext }) s := by rw [h]

/-! ## One byte -/

/-- A place whose byte stands in device memory or outside the device. -/
def Global : Loc → Prop
  | .dev _ | .ext _ | .mmio _ => True
  | _ => False

theorem global_loc (m : Mapping) (a : Nat) : Global (m.loc a) := by
  unfold Mapping.loc
  split <;> trivial

theorem global_ofKey (k : Nat) : Global (Loc.ofKey k) := by
  unfold Loc.ofKey
  split <;> trivial

theorem global_key {l : Loc} {k : Nat} (h : l.key = some k) : Global l := by
  cases l <;> simp [Loc.key] at h <;> trivial

theorem key_ofKey (k : Nat) : (Loc.ofKey k).key = some k := by
  unfold Loc.ofKey
  split
  · show some (2 * (k / 2)) = some k; congr 1; omega
  · show some (2 * (k / 2) + 1) = some k; congr 1; omega

theorem poke_only {l : Loc} (g : Global l) (s : State) (b : Byte) : MemoryOnly s (s.poke l b) := by
  cases l <;> first | rfl | exact g.elim

theorem poke_ok (s : State) (l : Loc) (b : Byte) (h : MemoryOk s) : MemoryOk (s.poke l b) := by
  cases l with
  | dev k => exact ⟨canonical_put _ _ _ _ h.1, h.2⟩
  | ext k => exact ⟨h.1, canonical_put _ _ _ _ h.2⟩
  | mmio k => exact ⟨h.1, canonical_put _ _ _ _ h.2⟩
  | _ => exact h

/-- A byte read after a write of a byte. -/
theorem peek_poke (s : State) (l x : Loc) (b : Byte) :
    (s.poke l b).peek x = if cellOf x = cellOf l then b else s.peek x := by
  cases l <;> cases x <;>
    simp [State.poke, State.peek, cellOf, look_put, State.wgOf_setWg, State.group_setGroup]
  all_goals first
    | rfl
    | (next a b c d => by_cases h : c = a <;> by_cases h' : d = b <;> simp_all [look_put])

theorem peek_poke_ne {l x : Loc} (s : State) (b : Byte) (h : cellOf x ≠ cellOf l) :
    (s.poke l b).peek x = s.peek x := by simp [peek_poke, h]

/-! ## Runs of bytes -/

theorem Loc.plus_plus (l : Loc) (i j : Nat) : (l.plus i).plus j = l.plus (i + j) := by
  cases l <;> simp [Loc.plus, Nat.add_assoc]

theorem global_plus {l : Loc} (h : Global l) (i : Nat) : Global (l.plus i) := by
  cases l <;> trivial

theorem pokes_ok (s : State) (l : Loc) (bs : List Byte) (h : MemoryOk s) : MemoryOk (s.pokes l bs) := by
  induction bs generalizing s l with
  | nil => exact h
  | cons b bs ih => exact ih _ _ (poke_ok s l b h)

theorem pokes_only {l : Loc} (g : Global l) (s : State) (bs : List Byte) : MemoryOnly s (s.pokes l bs) := by
  induction bs generalizing s l with
  | nil => exact MemoryOnly.refl s
  | cons b bs ih => exact (poke_only g s b).trans (ih (global_plus g 1) _)

/-- A byte read after a write of consecutive bytes. -/
theorem peek_pokes_ne (s : State) (l x : Loc) (bs : List Byte)
    (h : ∀ i, i < bs.length → cellOf x ≠ cellOf (l.plus i)) : (s.pokes l bs).peek x = s.peek x := by
  induction bs generalizing s l with
  | nil => rfl
  | cons b bs ih =>
    have h0 : cellOf x ≠ cellOf l := by
      have := h 0 (by simp)
      cases l <;> simpa [Loc.plus] using this
    rw [State.pokes, ih, peek_poke_ne s b h0]
    intro i hi
    rw [Loc.plus_plus, Nat.add_comm]
    exact h (i + 1) (by simp; omega)

/-- Consecutive bytes of one memory are different places. -/
theorem cellOf_plus_inj (l : Loc) {i j : Nat} (h : cellOf (l.plus i) = cellOf (l.plus j)) : i = j := by
  cases l <;> simp [Loc.plus, cellOf] at h <;> omega

theorem peek_pokes (s : State) (l : Loc) (bs : List Byte) (i : Nat) (hi : i < bs.length) :
    (s.pokes l bs).peek (l.plus i) = bs.getD i 0 := by
  induction bs generalizing s l i with
  | nil => simp at hi
  | cons b bs ih =>
    rw [State.pokes]
    cases i with
    | zero =>
      have h0 : l.plus 0 = l := by cases l <;> rfl
      rw [peek_pokes_ne, h0, peek_poke]
      · simp
      · intro j _ he
        rw [Loc.plus_plus] at he
        have := cellOf_plus_inj l he
        omega
    | succ n =>
      have : l.plus (n + 1) = (l.plus 1).plus n := by rw [Loc.plus_plus, Nat.add_comm]
      rw [this, ih _ _ _ (by simpa using hi)]
      simp

/-! ## Requests outside the device -/

/-- Only the memories, the port's requests and the counter of free values may differ. -/
def WritesOnly (s t : State) : Prop :=
  { t with mem := s.mem, ext := s.ext, port := s.port, free := s.free } = s

theorem WritesOnly.refl (s : State) : WritesOnly s s := rfl

theorem WritesOnly.trans {s t u : State} (h : WritesOnly s t) (k : WritesOnly t u) : WritesOnly s u := by
  unfold WritesOnly at *
  calc { u with mem := s.mem, ext := s.ext, port := s.port, free := s.free }
      = (fun x : State => { x with mem := s.mem, ext := s.ext, port := s.port, free := s.free })
          { u with mem := t.mem, ext := t.ext, port := t.port, free := t.free } := rfl
    _ = (fun x : State => { x with mem := s.mem, ext := s.ext, port := s.port, free := s.free }) t := by rw [k]
    _ = s := h

/-- The state after such an operation, written out. -/
theorem WritesOnly.eq {s t : State} (h : WritesOnly s t) :
    t = { s with mem := t.mem, ext := t.ext, port := t.port, free := t.free } := by
  unfold WritesOnly at h
  calc t = (fun x : State => { x with mem := t.mem, ext := t.ext, port := t.port, free := t.free })
          { t with mem := s.mem, ext := s.ext, port := s.port, free := s.free } := rfl
    _ = (fun x : State => { x with mem := t.mem, ext := t.ext, port := t.port, free := t.free }) s := by rw [h]

theorem MemoryOnly.writes {s t : State} (h : MemoryOnly s t) : WritesOnly s t := by rw [h.eq]; rfl

theorem WritesOnly.maps {s t : State} (h : WritesOnly s t) : t.maps = s.maps := by rw [h.eq]
theorem WritesOnly.groups {s t : State} (h : WritesOnly s t) : t.groups = s.groups := by rw [h.eq]
theorem WritesOnly.cur {s t : State} (h : WritesOnly s t) : t.cur = s.cur := by rw [h.eq]
theorem WritesOnly.mapping {s t : State} (h : WritesOnly s t) (c a : Nat) : t.mapping c a = s.mapping c a := by
  unfold State.mapping; rw [h.maps]

/-- A request leaves the memories as they are. -/
theorem ask_eq (s : State) (k n : Nat) (kind : OutKind) (ws : List Write) (lost : Bool) (o : Origin) (p : Bool) :
    ∃ q f, (s.ask k n kind ws lost o p).1 = { s with port := q, free := f } := ⟨_, _, rfl⟩

theorem flushPosted_eq (s : State) (g : Bool) (o : Origin) :
    ∃ q f, s.flushPosted g o = { s with port := q, free := f } := by
  unfold State.flushPosted
  split
  · exact ask_eq ..
  · exact ⟨_, _, rfl⟩

theorem askRuns_eq (s : State) (kind : OutKind) (o : Origin) (runs : List (Nat × Nat)) :
    ∃ q f, (s.askRuns kind o runs).1 = { s with port := q, free := f } := by
  unfold State.askRuns
  suffices h : ∀ (rs : List (Nat × Nat)) (t : State) (ts : List Nat), (∃ q f, t = { s with port := q, free := f }) →
      ∃ q f, (rs.foldl (fun (x : State × List Nat) r =>
        let (u, k) := x.1.ask r.1 r.2 kind [] (kind == .unit && !Config.reached x.1.free) o
        (u, x.2 ++ [k])) (t, ts)).1 = { s with port := q, free := f } from h runs s [] ⟨_, _, rfl⟩
  intro rs
  induction rs with
  | nil => intro t ts h; exact h
  | cons r rs ih =>
    rintro t ts ⟨q, f, rfl⟩
    exact ih _ _ (ask_eq ..)

/-- A write outside the device changes its bytes there, unless it is lost. -/
theorem sendOut_eq (s : State) (k : Nat) (kind : OutKind) (bs : List Byte) (o : Origin) (p : Bool) :
    ∃ q f, (s.sendOut k kind bs o p).1 =
      { s with port := q, free := f, ext := if s.lostNow k then s.ext else putList 0 s.ext k bs } := by
  unfold State.sendOut
  dsimp only
  generalize (if viaHevis k then kind else OutKind.posted) = kd
  generalize hu : (s.ask k bs.length kd [] (s.lostNow k) o p).1 = u
  have asked : ∃ q f, u = { s with port := q, free := f } := by rw [← hu]; exact ask_eq ..
  have sent : ∃ q f, (if o.gen == (u.ctxOf o.ctx).gen then u else u.flushPosted false o) =
      { s with port := q, free := f } := by
    obtain ⟨q, f, rfl⟩ := asked
    split
    · exact ⟨_, _, rfl⟩
    · exact flushPosted_eq ..
  obtain ⟨q, f, h⟩ := sent
  rw [h]
  refine ⟨q, f, ?_⟩
  split <;> rfl

theorem sendOut_only (s : State) (k : Nat) (kind : OutKind) (bs : List Byte) (o : Origin) (p : Bool) :
    WritesOnly s (s.sendOut k kind bs o p).1 := by
  obtain ⟨q, f, h⟩ := sendOut_eq s k kind bs o p
  rw [h]; rfl

theorem sendOut_ok (s : State) (k : Nat) (kind : OutKind) (bs : List Byte) (o : Origin) (p : Bool) (h : MemoryOk s) :
    MemoryOk (s.sendOut k kind bs o p).1 := by
  obtain ⟨q, f, e⟩ := sendOut_eq s k kind bs o p
  rw [e]
  refine ⟨h.1, ?_⟩
  show Memory.wf (if s.lostNow k then s.ext else putList 0 s.ext k bs) = true
  split
  · exact h.2
  · exact canonical_putList _ _ _ _ h.2

theorem peek_sendOut_ne (s : State) (k : Nat) (kind : OutKind) (bs : List Byte) (o : Origin) (p : Bool) (x : Loc)
    (h : ∀ i, i < bs.length → cellOf (.ext (k + i)) ≠ cellOf x) : (s.sendOut k kind bs o p).1.peek x = s.peek x := by
  obtain ⟨q, f, e⟩ := sendOut_eq s k kind bs o p
  rw [e]
  have far : ∀ j, cellOf x = (1, j, 0) → look 0 (if s.lostNow k then s.ext else putList 0 s.ext k bs) j = look 0 s.ext j := by
    intro j hj
    split
    · rfl
    · rw [look_putList]
      split
      · next hb =>
        exfalso
        refine h (j - k) (by omega) ?_
        rw [hj]
        show (1, k + (j - k), 0) = (1, j, 0)
        congr 2; omega
      · rfl
  cases x with
  | ext j => exact far j rfl
  | mmio j => exact far j rfl
  | _ => rfl

/-- The runs of some places are places among them. -/
theorem outRuns_mem (ls : List Loc) : ∀ r ∈ outRuns ls, ∀ i, i < r.2 → Loc.ext (r.1 + i) ∈ ls := by
  induction ls with
  | nil => simp [outRuns]
  | cons l ls ih =>
    intro r hr i hi
    unfold outRuns at hr
    split at hr
    · next k j n more heq =>
      split at hr
      · next hj =>
        rcases List.mem_cons.mp hr with h | h
        · subst h
          dsimp only at hi ⊢
          cases i with
          | zero => simp
          | succ m =>
            have hm := ih (j, n) (by rw [heq]; simp) m (by omega)
            dsimp only at hm
            rw [hj] at hm
            have e : k + 1 + m = k + (m + 1) := by omega
            rw [e] at hm
            exact List.mem_cons_of_mem _ hm
        · exact List.mem_cons_of_mem _ (ih r (by rw [heq]; exact List.mem_cons_of_mem _ h) i hi)
      · rcases List.mem_cons.mp hr with h | h
        · subst h
          dsimp only at hi ⊢
          obtain rfl : i = 0 := by omega
          simp
        · exact List.mem_cons_of_mem _ (ih r (by rw [heq]; exact h) i hi)
    · next k heq =>
      obtain rfl : r = (k, 1) := by simpa using hr
      dsimp only at hi ⊢
      obtain rfl : i = 0 := by omega
      simp
    · exact List.mem_cons_of_mem _ (ih r hr i hi)

/-! ## The device's own accesses -/

/-- Places within the device among some places, each written. -/
theorem putPlaces_spec (s : State) (kind : OutKind) (o : Origin) (ps : List (Loc × Byte)) :
    (∀ p ∈ ps, Global p.1) →
    WritesOnly s (s.putPlaces kind o ps) ∧ (MemoryOk s → MemoryOk (s.putPlaces kind o ps))
    ∧ ∀ x, (∀ p ∈ ps, cellOf p.1 ≠ cellOf x) → (s.putPlaces kind o ps).peek x = s.peek x := by
  intro hg
  have inner : ∀ (qs : List (Loc × Byte)) (t : State), (∀ p ∈ qs, Global p.1) →
      WritesOnly t (qs.foldl (fun s p => s.poke p.1 p.2) t)
      ∧ (MemoryOk t → MemoryOk (qs.foldl (fun s p => s.poke p.1 p.2) t))
      ∧ ∀ x, (∀ p ∈ qs, cellOf p.1 ≠ cellOf x) → (qs.foldl (fun s p => s.poke p.1 p.2) t).peek x = t.peek x := by
    intro qs
    induction qs with
    | nil => intro t _; exact ⟨rfl, id, fun _ _ => rfl⟩
    | cons p qs ih =>
      intro t h
      obtain ⟨h1, h2, h3⟩ := ih (t.poke p.1 p.2) fun q hq => h q (List.mem_cons_of_mem _ hq)
      refine ⟨(poke_only (h p (by simp)) t p.2).writes.trans h1, fun hk => h2 (poke_ok _ _ _ hk), fun x hx => ?_⟩
      refine (h3 x fun q hq => hx q (List.mem_cons_of_mem _ hq)).trans ?_
      exact peek_poke_ne t p.2 fun e => hx p (by simp) e.symm
  have outer : ∀ (rs : List (Nat × Nat)) (f : Nat → Nat → List Byte) (t : State), (∀ k n, (f k n).length = n) →
      WritesOnly t (rs.foldl (fun s r => (s.sendOut r.1 kind (f r.1 r.2) o).1) t)
      ∧ (MemoryOk t → MemoryOk (rs.foldl (fun s r => (s.sendOut r.1 kind (f r.1 r.2) o).1) t))
      ∧ ∀ x, (∀ r ∈ rs, ∀ i, i < r.2 → cellOf (.ext (r.1 + i)) ≠ cellOf x) →
        (rs.foldl (fun s r => (s.sendOut r.1 kind (f r.1 r.2) o).1) t).peek x = t.peek x := by
    intro rs f
    induction rs with
    | nil => intro t _; exact ⟨rfl, id, fun _ _ => rfl⟩
    | cons r rs ih =>
      intro t hf
      obtain ⟨h1, h2, h3⟩ := ih (t.sendOut r.1 kind (f r.1 r.2) o).1 hf
      refine ⟨(sendOut_only ..).trans h1, fun hk => h2 (sendOut_ok _ _ _ _ _ _ hk), fun x hx => ?_⟩
      refine (h3 x fun q hq => hx q (List.mem_cons_of_mem _ hq)).trans ?_
      refine peek_sendOut_ne _ _ _ _ _ _ _ fun i hi => hx r (by simp) i ?_
      rwa [hf] at hi
  obtain ⟨a1, a2, a3⟩ := inner (ps.filter fun p => !p.1.outside) s fun p hp => hg p (List.mem_filter.mp hp).1
  obtain ⟨b1, b2, b3⟩ := outer (outRuns (ps.map (·.1)))
    (fun k n => (List.range n).map fun i => ((ps.find? fun p => p.1 == .ext (k + i)).map (·.2)).getD 0)
    ((ps.filter fun p => !p.1.outside).foldl (fun s p => s.poke p.1 p.2) s) (by simp)
  refine ⟨a1.trans b1, fun h => b2 (a2 h), fun x hx => ?_⟩
  refine (b3 x fun r hr i hi => ?_).trans (a3 x fun p hp => hx p (List.mem_filter.mp hp).1)
  obtain ⟨p, hp, he⟩ := List.mem_map.mp (outRuns_mem _ r hr i hi)
  rw [← he]
  exact hx p hp

/-- The places of a write into a context's memory. -/
theorem ctxPlaces_mem (s : State) (ctx a : Nat) (bs : List Byte) :
    ∀ p ∈ s.ctxPlaces ctx a bs, ∃ i e, i < bs.length ∧ s.mapping ctx (a + i) = some e ∧ p.1 = e.2.loc (a + i) := by
  induction bs generalizing a with
  | nil => intro p hp; cases hp
  | cons b bs ih =>
    intro p hp
    have rest : p ∈ s.ctxPlaces ctx (a + 1) bs →
        ∃ i e, i < (b :: bs).length ∧ s.mapping ctx (a + i) = some e ∧ p.1 = e.2.loc (a + i) := by
      intro h
      obtain ⟨i, e, h1, h2, h3⟩ := ih (a + 1) p h
      have : a + 1 + i = a + (i + 1) := by omega
      rw [this] at h2 h3
      exact ⟨i + 1, e, by simp; omega, h2, h3⟩
    unfold State.ctxPlaces at hp
    split at hp
    · next id m hm =>
      rcases List.mem_cons.mp hp with h | h
      · exact ⟨0, (id, m), by simp, hm, by rw [h]; rfl⟩
      · exact rest h
    · exact rest hp

theorem ctxPlaces_global (s : State) (ctx a : Nat) (bs : List Byte) : ∀ p ∈ s.ctxPlaces ctx a bs, Global p.1 := by
  intro p hp
  obtain ⟨_, _, _, _, h⟩ := ctxPlaces_mem s ctx a bs p hp
  rw [h]
  exact global_loc _ _

theorem ctxWrite_only (s : State) (ctx a : Nat) (bs : List Byte) : WritesOnly s (s.ctxWrite ctx a bs) :=
  (putPlaces_spec s _ _ _ (ctxPlaces_global s ctx a bs)).1

theorem ctxWrite_ok (s : State) (ctx a : Nat) (bs : List Byte) (h : MemoryOk s) :
    MemoryOk (s.ctxWrite ctx a bs) :=
  (putPlaces_spec s _ _ _ (ctxPlaces_global s ctx a bs)).2.1 h

/-- A byte that a write into a context's memory does not reach is as before. -/
theorem peek_ctxWrite_ne (s : State) (ctx a : Nat) (bs : List Byte) (x : Loc)
    (h : ∀ i, i < bs.length → ∀ e, s.mapping ctx (a + i) = some e → cellOf (e.2.loc (a + i)) ≠ cellOf x) :
    (s.ctxWrite ctx a bs).peek x = s.peek x := by
  refine (putPlaces_spec s _ _ _ (ctxPlaces_global s ctx a bs)).2.2 x fun p hp => ?_
  obtain ⟨i, e, h1, h2, h3⟩ := ctxPlaces_mem s ctx a bs p hp
  rw [h3]
  exact h i h1 e h2

/-- A read by a unit of the device leaves the memories as they are. -/
theorem unitRead_eq (s : State) (ctx a n : Nat) :
    ∃ q f, (s.unitRead ctx a n).1 = { s with port := q, free := f } := askRuns_eq ..

theorem unitRead_only (s : State) (ctx a n : Nat) : WritesOnly s (s.unitRead ctx a n).1 := by
  obtain ⟨q, f, h⟩ := unitRead_eq s ctx a n
  rw [h]; rfl

theorem unitRead_ok (s : State) (ctx a n : Nat) (h : MemoryOk s) : MemoryOk (s.unitRead ctx a n).1 := by
  obtain ⟨q, f, e⟩ := unitRead_eq s ctx a n
  rw [e]; exact h

theorem peek_unitRead (s : State) (ctx a n : Nat) (x : Loc) : (s.unitRead ctx a n).1.peek x = s.peek x := by
  obtain ⟨q, f, e⟩ := unitRead_eq s ctx a n
  rw [e]
  cases x <;> rfl

theorem physWrite_ok (s : State) (a : Nat) (bs : List Byte) (h : MemoryOk s) : MemoryOk (s.physWrite a bs) := by
  induction bs generalizing s a with
  | nil => exact h
  | cons b bs ih =>
    unfold State.physWrite
    split
    · exact ih _ _ h
    · exact ih _ _ (poke_ok _ _ _ h)

theorem physWrite_only (s : State) (a : Nat) (bs : List Byte) : MemoryOnly s (s.physWrite a bs) := by
  induction bs generalizing s a with
  | nil => exact MemoryOnly.refl s
  | cons b bs ih =>
    unfold State.physWrite
    split
    · exact ih _ _
    · exact (poke_only (l := .dev (canonicalDev a)) trivial s b).trans (ih _ _)

/-! ## The phase cache -/

theorem setL1_ok (s : State) (core k : Nat) (x : Option L1Byte) (h : MemoryOk s) :
    MemoryOk (s.setL1 core k x) := h

@[simp] theorem peek_setL1 (s : State) (core k : Nat) (x : Option L1Byte) (l : Loc) :
    (s.setL1 core k x).peek l = s.peek l := rfl

theorem l1_setL1 (s : State) (core k : Nat) (x : Option L1Byte) (c j : Nat) :
    (s.setL1 core k x).l1 c j = if c = core ∧ j = k then x else s.l1 c j := by
  unfold State.setL1 State.l1
  rw [State.core_setCore]
  by_cases hc : c = core
  · subst hc
    by_cases hj : j = k
    · subst hj; simp
    · simp [hj, look_put]
  · simp [hc]

theorem setPoison_ok (s : State) (l : Loc) (on : Bool) (h : MemoryOk s) : MemoryOk (s.setPoison l on) := by
  cases l <;> exact h

theorem countReq_ok (s : State) (die : Nat) (l : Loc) (h : MemoryOk s) : MemoryOk (s.countReq die l) := by
  unfold State.countReq
  split
  · split
    · exact h
    · split <;> exact h
  · exact h

theorem publishByte_ok (s : State) (core : Nat) (l : Loc) (x : L1Byte) (h : MemoryOk s) :
    MemoryOk (s.publishByte core l x) := by
  unfold State.publishByte
  split
  · exact sendOut_ok _ _ _ _ _ _ h
  · next j =>
    have k := poke_ok _ (.dev j) x.val (countReq_ok s (coreDie core) (.dev j) h)
    dsimp only
    split
    · exact setPoison_ok _ _ _ k
    · exact k
  · exact poke_ok _ _ _ h

theorem unstrike_ok (s : State) (core key : Nat) (h : MemoryOk s) : MemoryOk (s.unstrike core key) := by
  unfold State.unstrike
  dsimp only
  split <;> exact h

theorem evictByte_ok (s : State) (core : Nat) (l : Loc) (h : MemoryOk s) : MemoryOk (s.evictByte core l) := by
  unfold State.evictByte
  split
  · exact h
  · split
    · exact h
    · refine unstrike_ok _ _ _ (setL1_ok _ _ _ _ ?_)
      split
      · exact publishByte_ok _ _ _ _ h
      · exact h

theorem readByte_ok (s : State) (how : How) (core : Nat) (l : Loc) (h : MemoryOk s) :
    MemoryOk (s.readByte how core l).1 := by
  unfold State.readByte
  split
  · exact h
  · cases how
    · dsimp only
      split <;> exact h
    · exact evictByte_ok _ _ _ h

theorem readBytes_ok (s : State) (how : How) (core : Nat) (l : Loc) (n : Nat) (h : MemoryOk s) :
    MemoryOk (s.readBytes how core l n).1 := by
  induction n generalizing s l with
  | zero => exact h
  | succ n ih => exact ih _ _ (readByte_ok s how core l h)

theorem writeByte_ok (s : State) (how : How) (core ctx : Nat) (gen : Bool) (l : Loc) (b : Byte) (h : MemoryOk s) :
    MemoryOk (s.writeByte how core ctx gen l b) := by
  unfold State.writeByte
  split
  · exact poke_ok _ _ _ h
  · cases how
    · exact h
    · exact poke_ok _ _ _ (evictByte_ok _ _ _ h)

theorem writeBytes_ok (s : State) (how : How) (core ctx : Nat) (gen : Bool) (l : Loc) (bs : List Byte)
    (h : MemoryOk s) : MemoryOk (s.writeBytes how core ctx gen l bs) := by
  induction bs generalizing s l with
  | nil => exact h
  | cons b bs ih => exact ih _ _ (writeByte_ok s how core ctx gen l b h)

theorem publish_ok (s : State) (es : List (Nat × Option L1Byte)) (h : MemoryOk s) : MemoryOk (publish s es) := by
  induction es generalizing s with
  | nil => exact h
  | cons e es ih =>
    obtain ⟨k, x⟩ := e
    cases x with
    | none => exact ih s h
    | some x =>
      refine ih _ ?_
      split
      · split
        · exact poke_ok _ _ _ h
        · exact h
      · exact h

theorem publishDev_ok (s : State) (core : Nat) (runs : List StoreRun) (h : MemoryOk s) :
    MemoryOk (s.publishDev core runs) := by
  unfold State.publishDev
  induction runs generalizing s with
  | nil => exact h
  | cons r runs ih =>
    refine ih _ ?_
    have k := countReq_ok s (coreDie core) (.dev r.first) h
    dsimp only
    split
    · generalize sectors r.first r.bytes.length = ps
      generalize s.countReq (coreDie core) (.dev r.first) = t at k
      induction ps generalizing t with
      | nil => exact k
      | cons p ps ih' => exact ih' _ (setPoison_ok _ _ _ k)
    · exact k

theorem publishOut_ok (s : State) (core : Nat) (runs : List StoreRun) (h : MemoryOk s) :
    MemoryOk (s.publishOut core runs) := by
  unfold State.publishOut
  induction runs generalizing s with
  | nil => exact h
  | cons r runs ih => exact ih _ (sendOut_ok _ _ _ _ _ _ h)

/-- A phase boundary (R121). -/
theorem boundary_ok (s : State) (core : Nat) (h : MemoryOk s) : MemoryOk (s.boundary core) := by
  unfold State.boundary
  exact publishOut_ok _ _ _ (publishDev_ok _ _ _ (publish_ok _ _ h))

end Sys2Proof
end

