-- ==== Sys2Proof/Laws/Regs.lean ====
section
/-! SUPPORT. What the writes of each destination form leave in the registers of a group. -/

namespace Sys2Proof

open Machine

/-! ## One write -/

theorem readV_write_v (g : Group) (r l : Nat) (x : Word) (hl : l < 64) (r' l' : Nat) (hl' : l' < 64) :
    (g.write (.v r l x)).readV r' l' = if r' = r ∧ l' = l then x else g.readV r' l' := by
  simp only [Group.write, Group.readV, look_put]
  have : (64 * r' + l' = 64 * r + l) ↔ (r' = r ∧ l' = l) := by omega
  simp only [this]

@[simp] theorem readS_write_v (g : Group) (r l : Nat) (x : Word) (k : Nat) :
    (g.write (.v r l x)).readS k = g.readS k := rfl
@[simp] theorem readP_write_v (g : Group) (r l : Nat) (x : Word) (p k : Nat) :
    (g.write (.v r l x)).readP p k = g.readP p k := rfl
@[simp] theorem tags_write_v (g : Group) (r l : Nat) (x : Word) : (g.write (.v r l x)).tags = g.tags := rfl

theorem readS_write_s (g : Group) (r : Nat) (x : Word) (k : Nat) :
    (g.write (.s r x)).readS k = if k = r then x else g.readS k := look_put ..
theorem tags_write_s (g : Group) (r : Nat) (x : Word) (k : Nat) :
    look none (g.write (.s r x)).tags k = if k = r then none else look none g.tags k := by
  simp only [Group.write, look_put]
@[simp] theorem readV_write_s (g : Group) (r : Nat) (x : Word) (a b : Nat) :
    (g.write (.s r x)).readV a b = g.readV a b := rfl
@[simp] theorem readP_write_s (g : Group) (r : Nat) (x : Word) (a b : Nat) :
    (g.write (.s r x)).readP a b = g.readP a b := rfl

@[simp] theorem readV_write_p (g : Group) (r l : Nat) (x : Bool) (a b : Nat) :
    (g.write (.p r l x)).readV a b = g.readV a b := by
  unfold Group.write; dsimp only; split <;> rfl
@[simp] theorem readS_write_p (g : Group) (r l : Nat) (x : Bool) (k : Nat) :
    (g.write (.p r l x)).readS k = g.readS k := by
  unfold Group.write; dsimp only; split <;> rfl
@[simp] theorem tags_write_p (g : Group) (r l : Nat) (x : Bool) : (g.write (.p r l x)).tags = g.tags := by
  unfold Group.write; dsimp only; split <;> rfl

theorem readP_write_p (g : Group) (r l : Nat) (x : Bool) (hl : l < 64) (p k : Nat) :
    (g.write (.p r l x)).readP p k = if p = r ∧ p ≠ 15 ∧ k = l then x else g.readP p k := by
  unfold Group.write Group.readP
  dsimp only
  by_cases hr : r = 15
  · subst hr; simp; intro h h'; exact absurd h h'
  · simp only [hr, if_false, look_put]
    by_cases hp : p = 15
    · subst hp; simp [Ne.symm hr]
    · simp only [hp, if_false]
      by_cases hpr : p = r
      · subst hpr
        by_cases hk : k = l
        · subst hk; cases x <;> simp [hp, hl]
        · have h1 : ∀ m : LaneMask, (m ||| 1#64 <<< l).getLsbD k = m.getLsbD k := by
            intro m
            simp only [BitVec.getLsbD_or, BitVec.getLsbD_shiftLeft]
            by_cases hkl : k < l
            · simp [hkl]
            · simp [hkl]; intro _ h; omega
          have h2 : ∀ m : LaneMask, (m &&& ~~~(1#64 <<< l)).getLsbD k = m.getLsbD k := by
            intro m
            simp only [BitVec.getLsbD_and, BitVec.getLsbD_not, BitVec.getLsbD_shiftLeft]
            by_cases h64 : k < 64
            · by_cases hkl : k < l
              · simp [h64, hkl]
              · have : k - l ≠ 0 := by omega
                simp [h64, hkl, this]
            · simp [h64, BitVec.getLsbD_of_ge _ _ (by omega : 64 ≤ k)]
          simp only [if_true]
          cases x <;> simp [hp, hk, h1, h2]
      · simp [hpr]

/-! ## The writes of a destination -/

theorem regs_writes_v (g : Group) (n : Nat) (f : Nat → Word) (ls : List Nat) (hl : ∀ l ∈ ls, l < 64) :
    (∀ r l, l < 64 → (g.writes (ls.map fun l => Write.v n l (f l))).readV r l =
      if r = n ∧ l ∈ ls then f l else g.readV r l)
    ∧ (g.writes (ls.map fun l => Write.v n l (f l))).s = g.s
    ∧ (g.writes (ls.map fun l => Write.v n l (f l))).p = g.p
    ∧ (g.writes (ls.map fun l => Write.v n l (f l))).tags = g.tags := by
  induction ls generalizing g with
  | nil => simp
  | cons a ls ih =>
    obtain ⟨h1, h2, h3, h4⟩ := ih (g.write (.v n a (f a))) fun l h => hl l (by simp [h])
    simp only [List.map_cons, Group.writes_cons]
    refine ⟨fun r l hl' => ?_, h2, h3, h4⟩
    rw [h1 r l hl', readV_write_v _ _ _ _ (hl a (by simp)) _ _ hl']
    by_cases hr : r = n <;> by_cases ha : l = a <;> by_cases hm : l ∈ ls <;> simp_all

theorem regs_writes_p (g : Group) (n : Nat) (f : Nat → Bool) (ls : List Nat) (hl : ∀ l ∈ ls, l < 64) :
    (∀ p l, (g.writes (ls.map fun l => Write.p n l (f l))).readP p l =
      if p = n ∧ p ≠ 15 ∧ l ∈ ls then f l else g.readP p l)
    ∧ SameV g (g.writes (ls.map fun l => Write.p n l (f l)))
    ∧ SameS g (g.writes (ls.map fun l => Write.p n l (f l))) := by
  induction ls generalizing g with
  | nil => simp [SameV, SameS]
  | cons a ls ih =>
    obtain ⟨h1, h2, h3⟩ := ih (g.write (.p n a (f a))) fun l h => hl l (by simp [h])
    simp only [List.map_cons, Group.writes_cons]
    refine ⟨fun p l => ?_, fun r l h => ?_, fun r => ?_⟩
    · rw [h1 p l, readP_write_p _ _ _ _ (hl a (by simp))]
      by_cases hp : p = n <;> by_cases h15 : p = 15 <;> by_cases ha : l = a <;> by_cases hm : l ∈ ls <;> simp_all
    · rw [h2 r l h, readV_write_p]
    · rw [(h3 r).1, (h3 r).2, readS_write_p, tags_write_p]; exact ⟨rfl, rfl⟩

theorem lanesOf_lt (m : LaneMask) : ∀ l ∈ lanesOf m, l < 64 := fun l h => ((mem_lanesOf m l).mp h).1

/-- A 32-bit destination (R177, R186). -/
theorem wrote32_dest (g : Group) (d : Operand) (m : LaneMask) (f : Nat → Word) :
    Wrote32 g (g.writes (destWrites d (lanesOf m) f)) d m f := by
  cases d with
  | v n =>
    obtain ⟨h1, h2, h3, h4⟩ := regs_writes_v g n.toNat f (lanesOf m) (lanesOf_lt m)
    refine ⟨fun p l => ?_, fun r l hl => ?_, fun r => ?_⟩
    · simp only [destWrites, Group.readP, h3]
    · simp only [destWrites]
      rw [h1 r l hl]
      simp only [mem_lanesOf, hl, true_and]
    · simp only [destWrites, Group.readS, h2, h4]; exact ⟨trivial, trivial⟩
  | s n =>
    simp only [destWrites]
    cases hd : lanesOf m with
    | nil =>
      simp [Wrote32, WroteS, SameP, SameV, SameS, hd]
    | cons a ls =>
      simp [Wrote32, WroteS, SameP, SameV, hd, readS_write_s, tags_write_s]
  | _ => simp [destWrites, Wrote32, SameP, SameV, SameS]

/-- A predicate destination (R186). -/
theorem wroteP_dest (g : Group) (d : Operand) (m : LaneMask) (f : Nat → Bool) :
    WroteP g (g.writes (destPreds d (lanesOf m) f)) d m f := by
  cases d with
  | p n =>
    obtain ⟨h1, h2, h3⟩ := regs_writes_p g n.toNat f (lanesOf m) (lanesOf_lt m)
    refine ⟨h2, h3, fun p l => ?_⟩
    simp only [destPreds]
    rw [h1]
    by_cases hl : l < 64
    · simp only [mem_lanesOf, hl, true_and]
    · simp [mem_lanesOf, hl, BitVec.getLsbD_of_ge _ _ (by omega : 64 ≤ l)]
  | _ => simp [destPreds, WroteP, SameP, SameV, SameS]

theorem regs_writes_v64 (g : Group) (n : Nat) (f : Nat → DWord) (ls : List Nat) (hl : ∀ l ∈ ls, l < 64) :
    (∀ r l, l < 64 → (g.writes (ls.flatMap fun l => writeV64 n l (f l))).readV r l =
      if l ∈ ls then (if r = n then (f l).setWidth 32 else if r = n + 1 then (f l).extractLsb' 32 32 else g.readV r l)
      else g.readV r l)
    ∧ (g.writes (ls.flatMap fun l => writeV64 n l (f l))).s = g.s
    ∧ (g.writes (ls.flatMap fun l => writeV64 n l (f l))).p = g.p
    ∧ (g.writes (ls.flatMap fun l => writeV64 n l (f l))).tags = g.tags := by
  induction ls generalizing g with
  | nil => simp
  | cons a ls ih =>
    obtain ⟨h1, h2, h3, h4⟩ := ih ((g.write (.v n a ((f a).setWidth 32))).write
      (.v (n + 1) a ((f a).extractLsb' 32 32))) fun l h => hl l (by simp [h])
    have hsplit : ((a :: ls).flatMap fun l => writeV64 n l (f l)) =
        Write.v n a ((f a).setWidth 32) :: Write.v (n + 1) a ((f a).extractLsb' 32 32)
          :: ls.flatMap fun l => writeV64 n l (f l) := rfl
    rw [hsplit, Group.writes_cons, Group.writes_cons]
    refine ⟨fun r l hl' => ?_, h2, h3, h4⟩
    have ha := hl a (by simp)
    rw [h1 r l hl', readV_write_v _ _ _ _ ha _ _ hl', readV_write_v _ _ _ _ ha _ _ hl']
    by_cases hr : r = n
    · subst hr
      by_cases hla : l = a <;> by_cases hm : l ∈ ls <;> simp_all
    · by_cases hla : l = a <;> by_cases hm : l ∈ ls <;> by_cases hr' : r = n + 1 <;> simp_all

/-- A 64-bit destination (R5, R186). -/
theorem wrote64_dest (g : Group) (d : Operand) (m : LaneMask) (f : Nat → DWord) :
    Wrote64 g (g.writes (destWrites64 d (lanesOf m) f)) d m f := by
  cases d with
  | v n =>
    obtain ⟨h1, h2, h3, h4⟩ := regs_writes_v64 g n.toNat f (lanesOf m) (lanesOf_lt m)
    refine ⟨fun p l => ?_, fun r l hl => ?_, fun r => ?_⟩
    · simp only [destWrites64, Group.readP, h3]
    · simp only [destWrites64]
      rw [h1 r l hl]
      simp only [mem_lanesOf, hl, true_and]
    · simp only [destWrites64, Group.readS, h2, h4]; exact ⟨trivial, trivial⟩
  | s n =>
    simp only [destWrites64]
    cases hd : lanesOf m with
    | nil => simp [Wrote64, SameP, SameV, SameS, hd]
    | cons a ls =>
      simp only [Wrote64, SameP, SameV, hd, List.take_succ_cons, List.take_zero, List.flatMap_cons, List.flatMap_nil,
        List.append_nil, writeS64, Group.writes_cons, Group.writes_nil, List.head?_cons, readS_write_s, tags_write_s,
        readV_write_s, readP_write_s, implies_true, true_and]
      refine ⟨fun r => ?_, fun r => ?_⟩
      · by_cases h : r = n.toNat
        · subst h; simp
        · simp [h]
      · by_cases h : r = n.toNat <;> by_cases h' : r = n.toNat + 1 <;> simp [h, h']
  | _ => simp [destWrites64, Wrote64, SameP, SameV, SameS]

/-! ## Results depend on the registers alone -/

/-- Two groups with the same registers. -/
def EqRegs (h k : Group) : Prop := h.v = k.v ∧ h.s = k.s ∧ h.p = k.p ∧ h.tags = k.tags

theorem EqRegs.readV {h k : Group} (e : EqRegs h k) (r l : Nat) : h.readV r l = k.readV r l := by
  simp [Group.readV, e.1]
theorem EqRegs.readS {h k : Group} (e : EqRegs h k) (r : Nat) : h.readS r = k.readS r := by
  simp [Group.readS, e.2.1]
theorem EqRegs.readP {h k : Group} (e : EqRegs h k) (p l : Nat) : h.readP p l = k.readP p l := by
  simp [Group.readP, e.2.2.1]

theorem Wrote32.of_eq {g h k : Group} {d m f} (e : EqRegs h k) (w : Wrote32 g k d m f) : Wrote32 g h d m f := by
  unfold Wrote32 WroteV WroteS SameP SameV SameS at *
  simp only [e.readV, e.readS, e.readP, e.2.2.2]
  exact w
theorem Wrote64.of_eq {g h k : Group} {d m f} (e : EqRegs h k) (w : Wrote64 g k d m f) : Wrote64 g h d m f := by
  unfold Wrote64 SameP SameV SameS at *
  simp only [e.readV, e.readS, e.readP, e.2.2.2]
  exact w
theorem WroteP.of_eq {g h k : Group} {d m f} (e : EqRegs h k) (w : WroteP g k d m f) : WroteP g h d m f := by
  unfold WroteP SameP SameV SameS at *
  simp only [e.readV, e.readS, e.readP, e.2.2.2]
  exact w
theorem KeptRegs.of_eq {g h : Group} (e : EqRegs h g) : KeptRegs g h :=
  ⟨fun r l _ => e.readV r l, fun r => ⟨e.readS r, by rw [e.2.2.2]⟩, fun p l => e.readP p l⟩

theorem EqRegs.write {g h : Group} (e : EqRegs g h) (w : Write) : EqRegs (g.write w) (h.write w) := by
  obtain ⟨h1, h2, h3, h4⟩ := e
  cases w with
  | p r l x =>
    unfold Group.write
    dsimp only
    split
    · exact ⟨h1, h2, h3, h4⟩
    · exact ⟨h1, h2, by simp only [h3], h4⟩
  | v r l x => exact ⟨by simp only [Group.write, h1], h2, h3, h4⟩
  | s r x => exact ⟨h1, by simp only [Group.write, h2], h3, by simp only [Group.write, h4]⟩
  | m k x => exact ⟨h1, h2, h3, h4⟩

theorem EqRegs.writes {g h : Group} (e : EqRegs g h) (ws : List Write) : EqRegs (g.writes ws) (h.writes ws) := by
  induction ws generalizing g h with
  | nil => exact e
  | cons w ws ih => exact ih (e.write w)

theorem EqRegs.refl (g : Group) : EqRegs g g := ⟨rfl, rfl, rfl, rfl⟩
theorem EqRegs.trans {g h k : Group} (e : EqRegs g h) (f : EqRegs h k) : EqRegs g k :=
  ⟨e.1.trans f.1, e.2.1.trans f.2.1, e.2.2.1.trans f.2.2.1, e.2.2.2.trans f.2.2.2⟩

/-- The flags of some lanes, bit by bit (R137). -/
theorem raised_orFlags (g h : Group) (real : LaneMask) (e : Nat → Fpx)
    (hf : h.fpx = g.fpx ||| orFlags (lanesOf real) e) : Raised g h real e := by
  intro b hb
  rw [hf, BitVec.getLsbD_or]
  congr 1
  unfold orFlags
  suffices ∀ (ls : List Nat) (x : Fpx), (ls.foldl (fun x l => x ||| e l) x).getLsbD b
      = (x.getLsbD b || ls.any fun l => (e l).getLsbD b) by
    simpa using this (lanesOf real) 0
  intro ls
  induction ls with
  | nil => simp
  | cons a ls ih =>
    intro x
    rw [List.foldl_cons, ih, BitVec.getLsbD_or, List.any_cons, Bool.or_assoc]

end Sys2Proof
end

