-- ==== Sys2Proof/Laws/Issue.lean ====
section
/-! SUPPORT. What every plane issue does beside its effect: the charge, the pass, the replay log, the end of the
issue; and the shape that every lane form shares. -/

namespace Sys2Proof

open Machine

/-! ## The replay log (R421, R422) -/

theorem writeUnits_only (s : State) (ctx i n : Nat) (bs : List Byte) : WritesOnly s (s.writeUnits ctx i n bs) := by
  induction n generalizing s i bs with
  | zero => exact WritesOnly.refl s
  | succ n ih => exact (ctxWrite_only ..).trans (ih ..)

theorem writeUnits_ok (s : State) (ctx i n : Nat) (bs : List Byte) (h : MemoryOk s) :
    MemoryOk (s.writeUnits ctx i n bs) := by
  induction n generalizing s i bs with
  | zero => exact h
  | succ n ih => exact ih _ _ _ (ctxWrite_ok _ _ _ _ h)

theorem logValue_only (s : State) (key kind plane region offset : Nat) (mask : LaneMask) (payload : List Byte) :
    WritesOnly s (s.logValue key kind plane region offset mask payload) := by
  unfold State.logValue
  dsimp only
  split
  · exact WritesOnly.refl s
  · have read := unitRead_only s (s.group key).ctx (s.logAddr (s.group key).ctx) 32
    split
    · split
      · exact read.trans ((ctxWrite_only ..).trans (ctxWrite_only ..))
      · exact read.trans (ctxWrite_only ..)
    · exact read.trans (((ctxWrite_only ..).trans (writeUnits_only ..)).trans (ctxWrite_only ..))

theorem logValue_ok (s : State) (key kind plane region offset : Nat) (mask : LaneMask) (payload : List Byte)
    (h : MemoryOk s) : MemoryOk (s.logValue key kind plane region offset mask payload) := by
  unfold State.logValue
  dsimp only
  split
  · exact h
  · have read := unitRead_ok s (s.group key).ctx (s.logAddr (s.group key).ctx) 32 h
    split
    · split
      · exact ctxWrite_ok _ _ _ _ (ctxWrite_ok _ _ _ _ read)
      · exact ctxWrite_ok _ _ _ _ read
    · exact ctxWrite_ok _ _ _ _ (writeUnits_ok _ _ _ _ _ (ctxWrite_ok _ _ _ _ read))

theorem logValue_off {s : State} {key : Nat} (h : s.recording (s.group key).ctx = false) (kind plane region offset : Nat)
    (mask : LaneMask) (payload : List Byte) : s.logValue key kind plane region offset mask payload = s := by
  unfold State.logValue
  simp [h]

@[simp] theorem leBytes_length (n x : Nat) : (leBytes n x).length = n := by
  induction n generalizing x with
  | zero => rfl
  | succ n ih => simp [leBytes, ih]

theorem WritesOnly.logAddr {s t : State} (h : WritesOnly s t) (c : Nat) : t.logAddr c = s.logAddr c := by
  rw [h.eq]; rfl
theorem WritesOnly.logUnits {s t : State} (h : WritesOnly s t) (c : Nat) : t.logUnits c = s.logUnits c := by
  rw [h.eq]; rfl

/-- No address of a context's log leads to the cell of `x`. -/
def OffLog (s : State) (ctx : Nat) (x : Loc) : Prop :=
  ∀ a id m, s.logAddr ctx ≤ a → a < s.logAddr ctx + 64 + 32 * s.logUnits ctx →
    s.mapping ctx a = some (id, m) → cellOf (m.loc a) ≠ cellOf x

theorem OffLog.of_only {s t : State} {c : Nat} {x : Loc} (h : WritesOnly s t) (k : OffLog s c x) : OffLog t c x := by
  intro a id m h1 h2 h3
  rw [h.logAddr] at h1
  rw [h.logAddr, h.logUnits] at h2
  rw [h.mapping] at h3
  exact k a id m h1 h2 h3

/-- A write within the log leaves other cells alone. -/
theorem peek_logWrite {s : State} {ctx a : Nat} {bs : List Byte} {x : Loc} (k : OffLog s ctx x)
    (h1 : s.logAddr ctx ≤ a) (h2 : a + bs.length ≤ s.logAddr ctx + 64 + 32 * s.logUnits ctx) :
    (s.ctxWrite ctx a bs).peek x = s.peek x := by
  refine peek_ctxWrite_ne s ctx a bs x fun i hi e he => ?_
  exact k (a + i) e.1 e.2 (by omega) (by omega) he

theorem peek_writeUnits {s : State} {ctx i n : Nat} {bs : List Byte} {x : Loc} (k : OffLog s ctx x)
    (hu : 0 < s.logUnits ctx) : (s.writeUnits ctx i n bs).peek x = s.peek x := by
  induction n generalizing s i bs with
  | zero => rfl
  | succ n ih =>
    unfold State.writeUnits
    dsimp only
    have only := ctxWrite_only s ctx (s.logAddr ctx + 64 + 32 * (i % s.logUnits ctx)) (bs.take 32)
    rw [ih (k.of_only only) (by rw [only.logUnits]; exact hu)]
    refine peek_logWrite k (by omega) ?_
    have hm := Nat.mod_lt i hu
    have hl : (bs.take 32).length ≤ 32 := by simp
    omega

/-- What a replay record leaves alone (R422). -/
theorem peek_logValue {s : State} {key kind plane region offset : Nat} {mask : LaneMask} {payload : List Byte}
    {x : Loc} (k : OffLog s (s.group key).ctx x) :
    (s.logValue key kind plane region offset mask payload).peek x = s.peek x := by
  unfold State.logValue
  dsimp only
  generalize hc : (s.group key).ctx = ctx at *
  split
  · rfl
  · have hr := unitRead_only s ctx (s.logAddr ctx) 32
    have hp := peek_unitRead s ctx (s.logAddr ctx) 32 x
    generalize s.unitRead ctx (s.logAddr ctx) 32 = u at hr hp ⊢
    obtain ⟨u, h⟩ := u
    dsimp only at hr hp ⊢
    have small (t : State) (ht : WritesOnly s t) (off v : Nat) (ho : off + 8 ≤ 64) :
        (t.ctxWrite ctx (s.logAddr ctx + off) (leBytes 8 v)).peek x = t.peek x := by
      refine peek_logWrite (k.of_only ht) (by rw [ht.logAddr]; omega) ?_
      rw [ht.logAddr, leBytes_length]; omega
    have only := hr.trans (ctxWrite_only u ctx (s.logAddr ctx + 24) (leBytes 8 (max 1 (field h 24 8) + 1)))
    split
    · split
      · rw [small _ only 16 _ (by omega), small u hr 24 _ (by omega), hp]
      · rw [small u hr 24 _ (by omega), hp]
    · next hf =>
      have hu : 0 < s.logUnits ctx := by
        rw [hr.logUnits] at hf
        omega
      have zero (t : State) (ht : WritesOnly s t) (v : Nat) :
          (t.ctxWrite ctx (s.logAddr ctx) (leBytes 8 v)).peek x = t.peek x := small t ht 0 v (by omega)
      rw [zero _ (only.trans (writeUnits_only ..)), peek_writeUnits (k.of_only only) (by rw [only.logUnits]; exact hu),
        small u hr 24 _ (by omega), hp]

/-! ## The charge and the pass (R20, R22, R60 to R63) -/

/-- Everything but the pouch and the group's drawn tokens is as before. -/
theorem draw_eq (s : State) (n : Nat) :
    s.draw n = (s.setCluster (clusterOf s.cur.group)
      { s.cluster (clusterOf s.cur.group) with pouch := (s.cluster (clusterOf s.cur.group)).pouch - n }).setMe
        { s.me with drawn := s.me.drawn + n } := rfl

/-- A pass changes the times at which the lane units are free, and nothing else. -/
theorem passes_eq (s : State) (sfu : Bool) (m : LaneMask) :
    ∃ p : Sparse (Option Partition), s.passes sfu m = { s with parts := p }
      ∧ ∀ k, ({ get p k with bankFree := (s.part k).bankFree, sfuFree := (s.part k).sfuFree } : Partition) = s.part k := by
  unfold State.passes
  dsimp only
  split
  · refine ⟨_, rfl, fun k => ?_⟩
    rw [get_set]
    split
    · next h => subst h; rfl
    · rfl
  · split
    · exact ⟨s.parts, rfl, fun k => rfl⟩
    · refine ⟨_, rfl, fun k => ?_⟩
      rw [get_set]
      split
      · next h => subst h; rfl
      · rfl

theorem logClock_only (s : State) (i : Instr) (sl : Slot) (x : Operand) : WritesOnly s (s.logClock i sl x) := by
  unfold State.logClock
  split
  · dsimp only
    split
    · exact WritesOnly.refl s
    · split
      · exact logValue_only ..
      · exact logValue_only ..
      · exact logValue_only ..
      · exact WritesOnly.refl s
  · exact WritesOnly.refl s

theorem logClock_ok (s : State) (i : Instr) (sl : Slot) (x : Operand) (h : MemoryOk s) : MemoryOk (s.logClock i sl x) := by
  unfold State.logClock
  split
  · dsimp only
    split
    · exact h
    · split
      · exact logValue_ok _ _ _ _ _ _ _ _ h
      · exact logValue_ok _ _ _ _ _ _ _ _ h
      · exact logValue_ok _ _ _ _ _ _ _ _ h
      · exact h
  · exact h

theorem peek_logClock {s : State} {i : Instr} {sl : Slot} {x : Operand} {l : Loc} (k : OffLog s s.me.ctx l) :
    (s.logClock i sl x).peek l = s.peek l := by
  unfold State.logClock
  split
  · dsimp only
    split
    · rfl
    · split
      · exact peek_logValue k
      · exact peek_logValue k
      · exact peek_logValue k
      · rfl
  · rfl

/-- Where no clock is read, or the context does not record, nothing is logged. -/
theorem logClock_off {s : State} {i : Instr} {o : Op} (hi : i.op = some o)
    (h : clockSource o = false ∨ s.recording s.me.ctx = false) (sa sb : Slot) :
    s.logClock i sa o.a = s ∧ s.logClock i sb o.b = s := by
  constructor
  all_goals
    unfold State.logClock
    split
    · next o' r h1 h2 =>
      rw [hi] at h1
      obtain rfl : o = o' := by simpa using h1
      dsimp only
      split
      · rfl
      · rcases h with h | h
        · split
          all_goals first
            | rfl
            | (exfalso; simp [clockSource, h2] at h)
        · split
          all_goals first
            | rfl
            | exact logValue_off h ..
    · rfl

/-- The plane issue is paid for: what that leaves as it was, field by field. -/
structure Paid (s u : State) (i : Instr) (o : Op) : Prop where
  me : u.me = { s.me with drawn := s.me.drawn + s.due i }
  here : look none u.groups s.cur.group = some u.me
  others : ∀ k, k ≠ s.cur.group → look none u.groups k = look none s.groups k
  rest : { u with groups := s.groups, clusters := s.clusters, parts := s.parts, mem := s.mem, ext := s.ext,
                  port := s.port, free := s.free } = s
  pouch : ∀ k, u.cluster k =
    if k = clusterOf s.cur.group then { s.cluster k with pouch := (s.cluster k).pouch - s.due i }
    else s.cluster k
  units : ∀ k, { u.part k with bankFree := (s.part k).bankFree, sfuFree := (s.part k).sfuFree } = s.part k
  memory : MemoryKept s u o

theorem Paid.cur {s u : State} {i : Instr} {o : Op} (p : Paid s u i o) : u.cur = s.cur := by
  have h := congrArg State.cur p.rest
  exact h

theorem offLog_of_notInLog {s : State} {l : Loc} (h : ¬ InLog s l) : OffLog s s.me.ctx l :=
  fun a id m h1 h2 h3 h4 => h ⟨a, id, m, h1, h2, h3, h4⟩

theorem peek_draw (s : State) (n : Nat) (l : Loc) : (s.draw n).peek l = s.peek l := by
  rw [draw_eq]
  cases l with
  | stack g o =>
    by_cases h : g = s.cur.group
    · subst h; simp only [State.peek, State.group_setMe, State.setCluster_cur, if_true]; rfl
    · simp only [State.peek, State.group_setMe, State.setCluster_cur, h, if_false]; rfl
  | _ => rfl

/-- The charge, the log and the pass of a plane issue. -/
theorem pay_paid {i : Instr} {o : Op} (s : State) (hi : i.op = some o) : Paid s (s.pay i) i o := by
  -- the state once the charge is drawn
  have d1 : (s.draw (s.due i)).me = { s.me with drawn := s.me.drawn + s.due i } := by
    rw [draw_eq, State.me_setMe]
  -- the log
  have l1 := logClock_only (s.draw (s.due i)) i i.shape.a o.a
  have l2 := logClock_only ((s.draw (s.due i)).logClock i i.shape.a o.a) i i.shape.b o.b
  have only := l1.trans l2
  have hme : ∀ t, WritesOnly (s.draw (s.due i)) t → t.me = (s.draw (s.due i)).me := by
    intro t ht; rw [ht.eq]; rfl
  have mem : MemoryKept s (((s.draw (s.due i)).logClock i i.shape.a o.a).logClock i i.shape.b o.b) o := by
    constructor
    · intro l hl
      have hctx : (s.draw (s.due i)).me.ctx = s.me.ctx := by rw [d1]
      have k0 : OffLog (s.draw (s.due i)) (s.draw (s.due i)).me.ctx l := by
        rw [hctx]; exact offLog_of_notInLog hl
      have k1 : OffLog ((s.draw (s.due i)).logClock i i.shape.a o.a) ((s.draw (s.due i)).logClock i i.shape.a o.a).me.ctx l := by
        rw [hme _ l1]; exact k0.of_only l1
      rw [peek_logClock k1, peek_logClock k0, peek_draw]
    · intro h
      have h' : clockSource o = false
          ∨ (s.draw (s.due i)).recording (s.draw (s.due i)).me.ctx = false := by
        rw [d1]; exact h
      obtain ⟨e1, e2⟩ := logClock_off hi h' i.shape.a i.shape.b
      rw [e1, e2]
      exact ⟨rfl, rfl, rfl, rfl⟩
  have kept : MemoryKept s (s.draw (s.due i)) o :=
    ⟨fun l _ => peek_draw s _ l, fun _ => ⟨rfl, rfl, rfl, rfl⟩⟩
  -- the pass
  have pass : ∃ (u : State) (p : Sparse (Option Partition)), s.pay i = { u with parts := p }
      ∧ WritesOnly (s.draw (s.due i)) u ∧ MemoryKept s u o
      ∧ ∀ k, ({ get p k with bankFree := (s.part k).bankFree, sfuFree := (s.part k).sfuFree } : Partition) = s.part k := by
    have hp : (((s.draw (s.due i)).logClock i i.shape.a o.a).logClock i i.shape.b o.b).parts = s.parts := by
      rw [only.eq]; rfl
    unfold State.pay
    rw [hi]
    dsimp only
    split
    · exact ⟨_, s.parts, rfl, WritesOnly.refl _, kept, fun k => rfl⟩
    · split
      · split
        · exact ⟨_, s.parts, by rw [← hp], only, mem, fun k => rfl⟩
        · next sfu _ _ =>
          obtain ⟨p, h1, h2⟩ := passes_eq (((s.draw (s.due i)).logClock i i.shape.a o.a).logClock i i.shape.b o.b) sfu (s.act o)
          refine ⟨_, p, h1, only, mem, fun k => ?_⟩
          have := h2 k
          simp only [State.part, hp] at this
          exact this
      · exact ⟨_, s.parts, by rw [← hp], only, mem, fun k => rfl⟩
  obtain ⟨u, p, hpay, honly, hmem, hp⟩ := pass
  have hu : s.pay i = { s.draw (s.due i) with
      mem := (s.pay i).mem, ext := (s.pay i).ext, parts := p, port := (s.pay i).port, free := (s.pay i).free } := by
    rw [hpay, honly.eq]
  have hme' : (s.pay i).me = { s.me with drawn := s.me.drawn + s.due i } := by
    rw [hu]; exact d1
  refine ⟨hme', ?_, ?_, ?_, ?_, ?_, ?_⟩
  · rw [hme', hu]
    show look none (s.draw (s.due i)).groups s.cur.group = _
    rw [draw_eq, State.look_setMe]
    simp
  · intro k hk
    rw [hu]
    show look none (s.draw (s.due i)).groups k = _
    rw [draw_eq, State.look_setMe]
    simp [hk]
  · rw [hu]; rfl
  · intro k
    rw [hu]
    show (s.draw (s.due i)).cluster k = _
    rw [draw_eq, State.cluster_setMe, State.cluster_setCluster]
    split
    · next h => subst h; rfl
    · rfl
  · intro k
    rw [hu]
    exact hp k
  · rw [hpay]
    exact hmem

/-! ## The end of an issue (R29, R34) -/

theorem GroupKept.refl (g : Group) : GroupKept g g := rfl

/-- Ending the issue changes where the group's lanes stand, and nothing else. -/
theorem retire_eq (s : State) (y : Bool) (dests : List (Nat × Dest)) (planes : List (Nat × Nat))
    (wait : Option Waiting) :
    ∃ a b c d e f x z, s.retire y dests planes wait =
      s.setMe { s.me with splits := a, stack := b, exited := c, links := d, planes := e, ageBase := f, handling := x,
                          yieldUntil := z } := by
  unfold State.retire
  dsimp only
  split
  · cases y
    · obtain ⟨_, _, _, _, _, _, _, h⟩ := Group.leave_eq s.me s.cur.slot _ wait _
      simp only [Bool.false_eq_true, if_false]
      rw [h]
      exact ⟨_, _, _, _, _, _, _, s.me.yieldUntil, rfl⟩
    · simp only [if_true]
      obtain ⟨_, _, _, _, _, _, _, h⟩ := Group.leave_eq
        { s.me with yieldUntil := (s.cluster (clusterOf s.cur.group)).yieldTo } s.cur.slot _ wait _
      rw [h]
      exact ⟨_, _, _, _, _, _, _, _, rfl⟩
  · cases y
    · exact ⟨_, _, _, _, _, _, _, s.me.yieldUntil, rfl⟩
    · exact ⟨_, _, _, _, _, _, _, _, rfl⟩

/-- The lanes of a group stand as in another, and its planes, calls and handler too. -/
structure Standing (g h : Group) : Prop where
  splits : h.splits = g.splits
  stack : h.stack = g.stack
  planes : h.planes = g.planes
  links : h.links = g.links
  exited : h.exited = g.exited
  handling : h.handling = g.handling
  yieldUntil : h.yieldUntil = g.yieldUntil

/-- The shape of every lane form: pay, change the group's registers, flags and results, end the issue. -/
theorem Paid.laneFrame {s u : State} {i : Instr} {o : Op} (p : Paid s u i o) (h : Group)
    (k : GroupKept s.me h) (hd : h.drawn = s.me.drawn + s.due i) (hl : ∀ e ∈ h.lost, e ∈ s.me.lost)
    (hs : Standing s.me h) (y : Bool) :
    let t := (u.setMe h).retire y [] [] none
    LaneFrame s t i o ∧ EqRegs t.me h ∧ t.me.fpx = h.fpx ∧ t.me.inflight = h.inflight ∧ t.me.flags = h.flags
    ∧ t.me.nextResult = h.nextResult ∧ Onward s t y := by
  have on := retire_onward (u.setMe h) y
  obtain ⟨_, _, _, _, _, _, _, _, e⟩ := retire_eq (u.setMe h) y [] [] none
  have hc : u.cur.group = s.cur.group := by rw [p.cur]
  have hclock : ∀ c, (u.cluster c).clock = (s.cluster c).clock ∧ (u.cluster c).cursor = (s.cluster c).cursor := by
    intro c
    rw [p.pouch c]
    split <;> exact ⟨rfl, rfl⟩
  have on' : Onward s ((u.setMe h).retire y [] [] none) y := by
    have hm := State.me_setMe u h
    refine on.of p.cur (hclock _).1 (hclock _).2 ?_ ?_ ?_ ?_ ?_ ?_ ?_ <;> rw [hm]
    exacts [hs.splits, hs.stack, hs.planes, hs.links, hs.exited, hs.handling, hs.yieldUntil]
  dsimp only
  refine ⟨?_, ?_, ?_, ?_, ?_, ?_, on'⟩
  all_goals rw [e]
  all_goals simp only [State.me_setMe]
  swap
  · exact ⟨rfl, rfl, rfl, rfl⟩
  refine ⟨?_, ?_, ?_, ?_, ?_, ?_, ?_, ?_⟩
  · rw [State.me_setMe]; exact k
  · intro j hj
    rw [State.look_setMe, State.look_setMe]
    simp only [State.setMe_cur, hc, hj, if_false]
    exact p.others j hj
  · exact p.rest
  · rw [State.me_setMe]; exact hl
  · intro j; exact p.pouch j
  · rw [State.me_setMe]; exact hd
  · intro j; exact p.units j
  · constructor
    · intro l hl
      rw [← p.memory.1 l hl]
      cases l with
      | stack g off =>
        by_cases hg : g = u.cur.group
        · subst hg
          have e1 : h.stackMem = s.me.stackMem := by have := congrArg Group.stackMem k; exact this
          have e2 : (u.group u.cur.group).stackMem = s.me.stackMem := by
            have := congrArg Group.stackMem p.me; exact this
          simp only [State.peek, State.group_setMe, State.setMe_cur, if_true, e1, e2]
        · simp only [State.peek, State.group_setMe, State.setMe_cur, hg, if_false]
      | _ => rfl
    · intro hh; exact p.memory.2 hh

/-- Writing registers clears marks of lost values, and sets none. -/
theorem Group.writes_lost (g : Group) (ws : List Write) : ∀ e ∈ (g.writes ws).lost, e ∈ g.lost := by
  induction ws generalizing g with
  | nil => exact fun _ h => h
  | cons w ws ih =>
    intro e he
    have := ih _ e he
    cases w with
    | v r l x => exact (List.mem_filter.mp this).1
    | s r x => exact (List.mem_filter.mp this).1
    | m k x => exact this
    | p r l x =>
      unfold Group.write at this
      dsimp only at this
      split at this <;> exact this

/-- What a lane form does (R137, R174): its writes, its flags, its frame. -/
theorem lanes_spec {s : State} {i : Instr} {o : Op} (hi : i.op = some o) (ws : List Write) (fx : Nat → Fpx) :
    let t := s.lanes i o ws fx
    LaneFrame s t i o ∧ EqRegs t.me (s.me.writes ws)
    ∧ t.me.fpx = s.me.fpx ||| orFlags (lanesOf (s.realAct o)) fx
    ∧ t.me.inflight = s.me.inflight ∧ t.me.flags = s.me.flags ∧ t.me.nextResult = s.me.nextResult
    ∧ Onward s t o.hints.y := by
  have p := pay_paid s hi
  obtain ⟨_, _, _, _, _, e⟩ := Group.writes_eq (s.pay i).me ws
  have k : GroupKept s.me (((s.pay i).me.writes ws).orFpx (orFlags (lanesOf (s.realAct o)) fx)) := by
    unfold GroupKept Group.orFpx
    rw [e, p.me]
  have st : Standing s.me (((s.pay i).me.writes ws).orFpx (orFlags (lanesOf (s.realAct o)) fx)) := by
    unfold Group.orFpx
    rw [e, p.me]
    exact ⟨rfl, rfl, rfl, rfl, rfl, rfl, rfl⟩
  have r : EqRegs (((s.pay i).me.writes ws).orFpx (orFlags (lanesOf (s.realAct o)) fx)) (s.me.writes ws) := by
    have : EqRegs (s.pay i).me s.me := by rw [p.me]; exact ⟨rfl, rfl, rfl, rfl⟩
    exact this.writes ws
  have lost : ∀ e ∈ (((s.pay i).me.writes ws).orFpx (orFlags (lanesOf (s.realAct o)) fx)).lost, e ∈ s.me.lost := by
    intro e he
    have := Group.writes_lost (s.pay i).me ws e he
    rw [p.me] at this
    exact this
  obtain ⟨h1, h2, h3, h4, h5, h6, h7⟩ := p.laneFrame _ k (by simp [Group.orFpx, p.me]) lost st o.hints.y
  refine ⟨h1, h2.trans r, h3.trans ?_, h4.trans ?_, h5.trans ?_, h6.trans ?_, h7⟩
  all_goals simp [Group.orFpx, p.me]

/-- A form whose results are written at once completes. -/
theorem completes_of {s : State} {i : Instr} {o : Op} (hi : i.op = some o) {ws : List Write} {fx : Nat → Fpx}
    (he : Machine.exec i s = .next (s.lanes i o ws fx)) {w : Group → Group → Prop}
    (hw : w s.me (s.me.writes ws)) (hc : ∀ h k, EqRegs h k → w s.me k → w s.me h) : Completes s i o w fx := by
  obtain ⟨h1, h2, h3, h4, h5, h6, h7⟩ := lanes_spec hi ws fx
  exact ⟨_, he, hc _ _ h2 hw, raised_orFlags _ _ _ _ h3, h4, h5, h6, h7, h1⟩

theorem completes32 {s : State} {i : Instr} {o : Op} (hi : i.op = some o) {f : Nat → Word}
    (he : Machine.exec i s = .next (s.alu32 i o f)) : Completes32 s i o f :=
  completes_of hi he (wrote32_dest ..) fun _ _ e w => w.of_eq e

theorem completes64 {s : State} {i : Instr} {o : Op} (hi : i.op = some o) {f : Nat → DWord}
    (he : Machine.exec i s = .next (s.alu64 i o f)) : Completes64 s i o f :=
  completes_of hi he (wrote64_dest ..) fun _ _ e w => w.of_eq e

theorem completesP {s : State} {i : Instr} {o : Op} (hi : i.op = some o) {f : Nat → Bool}
    (he : Machine.exec i s = .next (s.aluP i o f)) : CompletesP s i o f :=
  completes_of hi he (wroteP_dest ..) fun _ _ e w => w.of_eq e

theorem completesF {s : State} {i : Instr} {o : Op} (hi : i.op = some o) {f : Nat → Word × Fpx}
    (he : Machine.exec i s = .next (s.aluF i o f)) :
    Completes s i o (fun g h => Wrote32 g h o.d (s.act o) fun l => (f l).1) fun l => (f l).2 :=
  completes_of hi he (wrote32_dest ..) fun _ _ e w => w.of_eq e

/-! ## Results that land later (R174, R175) -/

/-- What putting a result in flight does to the group. -/
theorem post_eq (s : State) (h : Hints) (ws : List Write) (f : Fpx) (await : List Nat) (held : Bool) (d : Operand)
    (log : Option Pending) (due : Option Nat) :
    ∃ r : Result, s.post h ws f await held d log due =
        s.setMe { ((s.me.raise h.set1.toNat).raise h.set2.toNat) with
          inflight := s.me.inflight ++ [r], nextResult := s.me.nextResult + 1 }
      ∧ r.id = s.me.nextResult ∧ r.writes = ws ∧ r.fpx = f ∧ r.await = await ∧ r.held = held
      ∧ r.set1 = h.set1.toNat ∧ r.set2 = h.set2.toNat ∧ r.dest = destCode d ∧ r.log = log ∧ r.due = due :=
  ⟨_, rfl, rfl, rfl, rfl, rfl, rfl, rfl, rfl, rfl, rfl, rfl⟩

theorem flagsRaised_post (g : Group) (x : Hints) (l : List Result) :
    FlagsRaised g { ((g.raise x.set1.toNat).raise x.set2.toNat) with inflight := l } x := by
  intro f
  show look 0 ((g.raise x.set1.toNat).raise x.set2.toNat).flags f = _
  rw [Group.raise_flags, Group.raise_flags]

/-- A form whose result lands later goes on with its result in flight. -/
theorem posts_of {s : State} {i : Instr} {o : Op} (hi : i.op = some o) {ws : List Write} {fx : Nat → Fpx}
    (he : Machine.exec i s = .next (s.lanesLong i o ws fx)) {w : Group → Group → Prop}
    (hw : ∀ g : Group, w g (g.writes ws)) : Posts s i o w fx := by
  have p := pay_paid s hi
  obtain ⟨r, hr, r0, r1, r2, r3, r4, r5, r6, _⟩ := post_eq (s.pay i) o.hints ws
    (orFlags (lanesOf (s.realAct o)) fx) [] false o.d none none
  obtain ⟨_, e1⟩ := Group.raise_eq (s.pay i).me o.hints.set1.toNat
  obtain ⟨_, e2⟩ := Group.raise_eq ((s.pay i).me.raise o.hints.set1.toNat) o.hints.set2.toNat
  have k : GroupKept s.me { (((s.pay i).me.raise o.hints.set1.toNat).raise o.hints.set2.toNat) with
      inflight := (s.pay i).me.inflight ++ [r], nextResult := (s.pay i).me.nextResult + 1 } := by
    unfold GroupKept
    rw [e2, e1, p.me]
  have st : Standing s.me { (((s.pay i).me.raise o.hints.set1.toNat).raise o.hints.set2.toNat) with
      inflight := (s.pay i).me.inflight ++ [r], nextResult := (s.pay i).me.nextResult + 1 } := by
    rw [e2, e1, p.me]
    exact ⟨rfl, rfl, rfl, rfl, rfl, rfl, rfl⟩
  have lost : ∀ e ∈ ((((s.pay i).me.raise o.hints.set1.toNat).raise o.hints.set2.toNat)).lost, e ∈ s.me.lost := by
    rw [e2, e1, p.me]
    exact fun _ h => h
  obtain ⟨h1, h2, h3, h4, h5, h6, h7⟩ := p.laneFrame _ k (by simp [p.me]) lost st o.hints.y
  refine ⟨_, he, ?_⟩
  have ht : s.lanesLong i o ws fx = ((s.pay i).setMe { (((s.pay i).me.raise o.hints.set1.toNat).raise
      o.hints.set2.toNat) with inflight := (s.pay i).me.inflight ++ [r],
                               nextResult := (s.pay i).me.nextResult + 1 }).retire o.hints.y [] [] none := by
    rw [← hr]; rfl
  rw [ht]
  refine ⟨?_, ?_, ?_, ⟨r, ?_, r0.trans (by rw [p.me]), r4, r3, r5, r6, ?_, ?_⟩, ?_, h7, h1⟩
  · exact KeptRegs.of_eq (h2.trans (by rw [p.me]; exact ⟨by simp, by simp, by simp, by simp⟩))
  · exact h3.trans (by simp [p.me])
  · intro f
    rw [h5]
    have := flagsRaised_post (s.pay i).me o.hints ((s.pay i).me.inflight ++ [r]) f
    rw [p.me] at this ⊢
    exact this
  · rw [h4, p.me]
  · rw [r1]; exact hw
  · intro b hb
    rw [r2]
    have := raised_orFlags (g := { (default : Group) with fpx := 0 })
      (h := { (default : Group) with fpx := orFlags (lanesOf (s.realAct o)) fx }) (real := s.realAct o) (e := fx)
      (by simp) b hb
    simpa using this
  · rw [h6, p.me]

end Sys2Proof
end

