-- ==== Sys2Proof/Tests/Slice0.lean ====
section
/-! SUPPORT. The model's own tests: words written out from the spec's encodings, ill-formed terms that each check
refuses, small results worked in the spec, and for every statement with hypotheses a witness that meets them. -/

namespace Sys2Proof.Tests

-- One test at a time: each waiting on the kernel holds a thread.
set_option Elab.async false

open Machine

/-! ## Words (R162, R164, R169 and the encoding tables) -/

/-- A word with no hints and the guard "always". -/
def word (op mod : BitVec 10) (d a b : BitVec 12) (x : BitVec 11) : BitVec 96 :=
  op ++ mod ++ 0b01111#5 ++ d ++ a ++ b ++ x ++ 0#24

/-- MOD of TYPE, SUB, MODE and FTZ. -/
def md (ty sub mode ftz : Nat) : BitVec 10 := BitVec.ofNat 10 (64 * ty + 8 * sub + 2 * mode + ftz)

/-- Operands without guard and hints. -/
def ops (d a b : Operand) : Op := { guard := ⟨false, 15⟩, d, a, b, hints := Hints.ofField 0 }

/-- The word decodes to the instruction, for 256 declared registers. -/
def reads (w : BitVec 96) (i : Instr) : Bool := decodeWord 256 w == .ok i

def fails (w : BitVec 96) (e : Reject) : Bool := decodeWord 256 w == .error e

theorem test_decode_group0 :
    reads (word 0x000 0 0x123 0xFFF 0xC00 0x7FF) (.nop (Hints.ofField 0))
    ∧ reads (word 0x001 0 0xE00 0xBFF 0xE00 0x7FF) (.bra (ops .none (.imm 0xFFFFF) .none))
    ∧ reads (word 0x002 0 0xE00 0x004 0xE00 0) (.brx (ops .none (.v 4) .none))
    ∧ reads (word 0x003 0 0xE00 0xA05 0xE00 1) (.call (ops .none (.imm 0x205) .none))
    ∧ reads (word 0x004 0 0xE00 0x206 0xE00 0) (.callx (ops .none (.s 6) .none))
    ∧ reads (word 0x005 0 0xE00 0xE00 0xE00 0) (.ret (ops .none .none .none))
    ∧ reads (word 0x006 0 0xE00 0xE00 0xE00 0) (.exit (ops .none .none .none))
    ∧ reads (word 0x007 0 0xE00 0xE00 0xE00 0) (.yield (ops .none .none .none))
    ∧ reads (word 0x008 0 0xE00 0x003 0xE00 0) (.pset (ops .none (.v 3) .none))
    ∧ reads (word 0x009 0 0xE00 0xA03 0xE00 0) (.pseti (ops .none (.imm 3) .none))
    ∧ reads (word 0x00A 0 0x009 0xE00 0xE00 0) (.pget (ops (.v 9) .none .none)) := by decide

theorem test_decode_group1 :
    reads (word 0x040 (md 2 1 0 0) 0x002 0x004 0xBFF 0x7FF) (.iadd (ops (.v 2) (.v 4) (.imm 0xFFFFF)) .i64 true)
    ∧ reads (word 0x041 (md 1 0 0 0) 0xE00 0x821 0x27F 0) (.isub (ops .none (.sr .tick) (.s 127)) .n32 false)
    ∧ reads (word 0x042 (md 3 0 0 0) 0x202 0x204 0x206 0) (.imul (ops (.s 2) (.s 4) (.s 6)) .n64)
    ∧ reads (word 0x043 (md 1 0 0 0) 0x0FF 0x001 0x002 0) (.imulh (ops (.v 255) (.v 1) (.v 2)) .n32)
    ∧ reads (word 0x044 (md 0 0 0 0) 0x003 0x001 0x002 0) (.imad (ops (.v 3) (.v 1) (.v 2)) .i32)
    ∧ reads (word 0x045 (md 1 0 0 0) 0x003 0x001 0xA01 1) (.imin (ops (.v 3) (.v 1) (.imm 0x201)) .n32)
    ∧ reads (word 0x046 (md 0 0 0 0) 0x003 0x001 0x002 0) (.imax (ops (.v 3) (.v 1) (.v 2)) .i32)
    ∧ reads (word 0x047 (md 2 0 0 0) 0x004 0x006 0xE00 0) (.iabs (ops (.v 4) (.v 6) .none) .i64)
    ∧ reads (word 0x048 (md 0 0 0 0) 0x004 0x006 0xE00 0) (.ineg (ops (.v 4) (.v 6) .none) .i32)
    ∧ reads (word 0x049 0 0x004 0x206 0x001 31) (.lea (ops (.v 4) (.s 6) (.v 1)) 31)
    ∧ reads (word 0x04A (md 2 3 0 0) 0xE00 0x006 0x008 0) (.iset (ops .none (.v 6) (.v 8)) .i64 .le) := by decide

theorem test_decode_group2 :
    reads (word 0x080 0 0x001 0x002 0x003 0) (.and (ops (.v 1) (.v 2) (.v 3)))
    ∧ reads (word 0x081 0 0x201 0x202 0x203 0) (.or (ops (.s 1) (.s 2) (.s 3)))
    ∧ reads (word 0x082 0 0xE00 0xB00 0x003 0) (.xor (ops .none (.imm 0x00100) (.v 3)))
    ∧ reads (word 0x083 0 0x001 0x830 0xE00 0) (.not (ops (.v 1) (.sr .fpx) .none))
    ∧ reads (word 0x084 (md 0 6 0 0) 0x001 0x002 0x003 0x15) (.tribit (ops (.v 1) (.v 2) (.v 3)) 0xD5)
    ∧ reads (word 0x085 0 0x001 0x002 0xA08 0) (.shl (ops (.v 1) (.v 2) (.imm 8)))
    ∧ reads (word 0x086 0 0x001 0x002 0x003 0) (.shr (ops (.v 1) (.v 2) (.v 3)))
    ∧ reads (word 0x087 0 0x001 0x002 0x003 0) (.sar (ops (.v 1) (.v 2) (.v 3)))
    ∧ reads (word 0x088 0 0x001 0x002 0x003 0) (.rotl (ops (.v 1) (.v 2) (.v 3)))
    ∧ reads (word 0x089 0 0x001 0x002 0xE00 0) (.popc (ops (.v 1) (.v 2) .none))
    ∧ reads (word 0x08A 0 0x001 0x002 0xE00 0) (.clz (ops (.v 1) (.v 2) .none))
    ∧ reads (word 0x08B 0 0x001 0x002 0xE00 0) (.brev (ops (.v 1) (.v 2) .none))
    ∧ reads (word 0x08C (md 1 0 0 0) 0x001 0x002 0x003 0) (.bfe (ops (.v 1) (.v 2) (.v 3)) .n32)
    ∧ reads (word 0x08D 0 0x001 0x002 0x003 0) (.bfi (ops (.v 1) (.v 2) (.v 3)))
    ∧ reads (word 0x08E 0 0x001 0x002 0x003 0) (.bysel (ops (.v 1) (.v 2) (.v 3))) := by decide

theorem test_decode_group3 :
    reads (word 0x0C0 (md 0 3 0 0) 0x002 0x815 0xE00 0) (.mov (ops (.v 2) (.sr .helper) .none) true)
    ∧ reads (word 0x0C1 0 0x20A 0x123 0x456 0x078) (.movi (ops (.s 10) .none .none) 0x12345678)
    ∧ reads (word 0x0C2 0 0x001 0x002 0x003 15) (.sel (ops (.v 1) (.v 2) (.v 3)) 15)
    ∧ reads (word 0x0C3 0 0x40E 0x40F 0x401 0xE) (.plop (ops (.p 14) (.p 15) (.p 1)) 0xE)
    ∧ reads (word 0x0C4 0 0x001 0x40F 0xE00 0) (.p2v (ops (.v 1) (.p 15) .none))
    ∧ reads (word 0x0C5 0 0x400 0x001 0xE00 0) (.v2p (ops (.p 0) (.v 1) .none))
    ∧ reads (word 0x0C6 0 0x202 0x820 0xE00 0) (.srd (ops (.s 2) (.sr .clock) .none))
    ∧ reads (word 0x0C7 0 0x830 0xA3F 0xE00 0) (.swr (ops (.sr .fpx) (.imm 0x3F) .none))
    ∧ reads (word 0x0C8 0 0x001 0x817 0xE00 0) (.bcast (ops (.v 1) (.sr .ctx) .none))
    ∧ reads (word 0x0C9 0 0x201 0x002 0xA3F 0) (.laneget (ops (.s 1) (.v 2) (.imm 0x3F))) := by decide

theorem test_decode_group4 :
    reads (word 0x100 (md 8 1 1 1) 0x001 0x002 0x003 0) (.fadd (ops (.v 1) (.v 2) (.v 3)) .rz true true)
    ∧ reads (word 0x101 (md 8 0 2 0) 0x001 0x002 0x003 0) (.fsub (ops (.v 1) (.v 2) (.v 3)) .rd false false)
    ∧ reads (word 0x102 (md 8 0 3 0) 0x001 0x002 0x003 0) (.fmul (ops (.v 1) (.v 2) (.v 3)) .ru false false)
    ∧ reads (word 0x103 (md 8 0 0 1) 0x001 0x002 0x003 0) (.ffma (ops (.v 1) (.v 2) (.v 3)) .rn true false)
    ∧ reads (word 0x104 (md 8 0 0 0) 0x001 0x002 0x003 0) (.fmin (ops (.v 1) (.v 2) (.v 3)) false)
    ∧ reads (word 0x105 (md 8 0 0 1) 0x001 0x002 0x003 0) (.fmax (ops (.v 1) (.v 2) (.v 3)) true)
    ∧ reads (word 0x106 (md 8 7 0 0) 0x401 0x002 0x003 0) (.fset (ops (.p 1) (.v 2) (.v 3)) .nan false)
    ∧ reads (word 0x107 (md 8 0 0 0) 0x001 0x002 0xE00 0) (.fclass (ops (.v 1) (.v 2) .none) false)
    ∧ reads (word 0x108 (md 8 0 1 0) 0x001 0x002 0xE00 0) (.frnd (ops (.v 1) (.v 2) .none) .rz false) := by decide

theorem test_decode_group5 :
    reads (word 0x140 (md 9 1 0 0) 0x001 0x002 0x003 0) (.hadd2 (ops (.v 1) (.v 2) (.v 3)) .h .rn false true)
    ∧ reads (word 0x141 (md 10 0 1 1) 0x001 0x002 0x003 0) (.hmul2 (ops (.v 1) (.v 2) (.v 3)) .bf .rz true false)
    ∧ reads (word 0x142 (md 9 0 3 0) 0x001 0x002 0x003 0) (.hfma2 (ops (.v 1) (.v 2) (.v 3)) .h .ru false false)
    ∧ reads (word 0x143 (md 10 0 0 0) 0x001 0x002 0x003 0) (.hmin2 (ops (.v 1) (.v 2) (.v 3)) .bf false)
    ∧ reads (word 0x144 (md 9 0 0 1) 0x001 0x002 0x003 0) (.hmax2 (ops (.v 1) (.v 2) (.v 3)) .h true)
    ∧ reads (word 0x145 (md 10 6 0 0) 0xE00 0x002 0x003 0) (.hset2 (ops .none (.v 2) (.v 3)) .bf .num false) := by
  decide

theorem test_decode_groups6_7 :
    reads (word 0x180 (md 9 1 1 1) 0x003 0x002 0xE00 8) (.cvt (ops (.v 3) (.v 2) .none) .h .f32 .rz true true)
    ∧ reads (word 0x181 (md 11 0 0 0) 0x003 0x002 0x001 0) (.tpack (ops (.v 3) (.v 2) (.v 1)) .t8)
    ∧ reads (word 0x182 (md 12 0 0 0) 0x003 0x002 0xA03 0) (.tunpk (ops (.v 3) (.v 2) (.imm 3)) .t6)
    ∧ reads (word 0x1C0 (md 8 0 0 0) 0x003 0x002 0xE00 0) (.rcp (ops (.v 3) (.v 2) .none) false)
    ∧ reads (word 0x1C1 (md 8 0 0 1) 0x003 0x002 0xE00 0) (.rsq (ops (.v 3) (.v 2) .none) true)
    ∧ reads (word 0x1C2 (md 8 0 0 0) 0x003 0x002 0xE00 0) (.sqrt (ops (.v 3) (.v 2) .none) false)
    ∧ reads (word 0x1C3 (md 8 0 0 0) 0x203 0x202 0xE00 0) (.log2 (ops (.s 3) (.s 2) .none) false)
    ∧ reads (word 0x1C4 (md 8 0 0 0) 0x003 0x002 0xE00 0) (.exp2 (ops (.v 3) (.v 2) .none) false)
    ∧ reads (word 0x1C5 (md 8 0 0 0) 0x003 0x002 0xE00 0) (.sinpi (ops (.v 3) (.v 2) .none) false)
    ∧ reads (word 0x1C6 (md 8 0 0 1) 0x003 0x002 0xE00 0) (.cospi (ops (.v 3) (.v 2) .none) true)
    ∧ reads (word 0x1C7 (md 8 0 0 0) 0xE00 0x002 0xE00 0) (.tanh (ops .none (.v 2) .none) false) := by decide

theorem test_decode_group8 :
    reads (word 0x200 (md 0 2 0 0) 0x001 0x002 0xE00 0) (.qswap (ops (.v 1) (.v 2) .none) .xy)
    ∧ reads (word 0x201 0 0x001 0x002 0xA03 0) (.qbcast (ops (.v 1) (.v 2) (.imm 3)))
    ∧ reads (word 0x202 (md 0 1 0 0) 0x001 0x002 0x003 0) (.shfl (ops (.v 1) (.v 2) (.v 3)) .up)
    ∧ reads (word 0x203 (md 0 2 0 0) 0x401 0x40F 0xE00 0) (.vote (ops (.p 1) (.p 15) .none) .eq)
    ∧ reads (word 0x204 0 0x202 0x401 0xE00 0) (.ballot (ops (.s 2) (.p 1) .none))
    ∧ reads (word 0x205 (md 8 4 0 0) 0x202 0x001 0xE00 0) (.redgrp (ops (.s 2) (.v 1) .none) .maxix .f32)
    ∧ reads (word 0x206 (md 1 6 0 0) 0x002 0x001 0xE00 0) (.scangrp (ops (.v 2) (.v 1) .none) .max true .n32)
    ∧ reads (word 0x207 0 0x002 0x001 0xE00 0) (.matchLanes (ops (.v 2) (.v 1) .none)) := by decide

theorem test_decode_groups9_A :
    reads (word 0x240 (md 5 1 0 0) 0x001 0x002 0xBFF 0x7FF) (.ld (ops (.v 1) (.v 2) (.imm 0xFFFFF)) .i16)
    ∧ reads (word 0x240 (md 0 4 0 0) 0x004 0x002 0x205 0) (.ld (ops (.v 4) (.v 2) (.s 5)) (.plain .b128))
    ∧ reads (word 0x241 (md 0 3 0 0) 0x002 0x204 0xE00 0) (.st (ops (.v 2) (.s 4) .none) .b64)
    ∧ reads (word 0x242 (md 0 2 0 0) 0x001 0x002 0xB00 7) (.ldnr (ops (.v 1) (.v 2) (.imm 0xFFF00)) (.plain .b32) 7)
    ∧ reads (word 0x243 (md 0 2 1 0) 0x001 0x002 0xA04 0x7FE) (.lds (ops (.v 1) (.v 2) (.imm 0xFFE04)) .b32 .acq .sys)
    ∧ reads (word 0x244 (md 0 0 2 0) 0x001 0x002 0x203 3) (.sts (ops (.v 1) (.v 2) (.s 3)) .b8 .rel .cl)
    ∧ reads (word 0x245 0 0xE00 0x002 0xA00 1) (.pref (ops .none (.v 2) (.imm 0x200)))
    ∧ reads (word 0x246 (md 0 2 0 0) 0x001 0x204 0x006 0) (.tld (ops (.v 1) (.s 4) (.v 6)) .b32)
    ∧ reads (word 0x247 (md 0 1 0 0) 0x201 0x204 0x006 0) (.tst (ops (.s 1) (.s 4) (.v 6)) .b16)
    ∧ reads (word 0x280 (md 3 6 3 0) 0x002 0x004 0x006 0x7FD) (.atom (ops (.v 2) (.v 4) (.v 6)) .exch .n64 .ar .dev 0xFF)
    ∧ reads (word 0x281 (md 0 3 1 0) 0x002 0x004 0x008 0x014) (.atomcas (ops (.v 2) (.v 4) (.v 8)) true .acq .die 2)
    ∧ reads (word 0x282 (md 10 1 0 0) 0xE00 0x004 0x006 0x002) (.atomf (ops .none (.v 4) (.v 6)) .min .bf .rlx .wg 0) := by
  decide

theorem test_decode_groupB :
    reads (word 0x2C0 (md 0 0 3 0) 0xE00 0xE00 0xE00 6) (.fence (ops .none .none .none) .ar .sys)
    ∧ reads (word 0x2C1 0 0xE00 0xE00 0xE00 0) (.phase (ops .none .none .none))
    ∧ reads (word 0x2C2 0 0xE00 0x204 0xA20 2) (.barinit (ops .none (.s 4) (.imm 0x20)) .wg)
    ∧ reads (word 0x2C3 0 0xE00 0x204 0xE00 3) (.bararr (ops .none (.s 4) .none) .cl)
    ∧ reads (word 0x2C4 0 0xE00 0x204 0xE00 5) (.bardrop (ops .none (.s 4) .none) .dev)
    ∧ reads (word 0x2C5 0 0xE00 0x204 0x201 2) (.barexp (ops .none (.s 4) (.s 1)) .wg)
    ∧ reads (word 0x2C6 (md 0 1 0 0) 0x401 0x208 0xA00 2) (.wait (ops (.p 1) (.s 8) (.imm 0x400)) true)
    ∧ reads (word 0x2C7 0 0x203 0xE00 0xE00 0) (.batch (ops (.s 3) .none .none))
    ∧ reads (word 0x2C8 0 0x402 0x203 0xE00 0) (.htest (ops (.p 2) (.s 3) .none))
    ∧ reads (word 0x2C9 0 0xE00 0x203 0xE00 0) (.cancel (ops .none (.s 3) .none)) := by decide

theorem test_decode_groupC :
    reads (word 0x300 0 0x201 0x202 0x004 0) (.enq (ops (.s 1) (.s 2) (.v 4)))
    ∧ reads (word 0x301 0 0x201 0x004 0x202 0) (.deq (ops (.s 1) (.v 4) (.s 2)))
    ∧ reads (word 0x302 (md 0 1 0 0) 0x202 0x204 0xA40 0x006) (.copy (ops (.s 2) (.s 4) (.imm 0x40)) (some 6))
    ∧ reads (word 0x303 0 0x204 0x208 0x201 0) (.copyt (ops (.s 4) (.s 8) (.s 1)) none)
    ∧ reads (word 0x304 0 0x202 0x004 0xA08 0) (.gather (ops (.s 2) (.v 4) (.imm 8)) none)
    ∧ reads (word 0x305 (md 0 1 0 0) 0x004 0x202 0xA08 0x07E) (.scatter (ops (.v 4) (.s 2) (.imm 8)) (some 126))
    ∧ reads (word 0x306 (md 10 2 0 0) 0x202 0x204 0x208 0) (.coll (ops (.s 2) (.s 4) (.s 8)) .max .bf) := by decide

theorem test_decode_groupD :
    reads (word 0x340 0 0xE00 0x201 0xE00 0) (.gang (ops .none (.s 1) .none))
    ∧ reads (word 0x341 (md 0 1 0 0) 0x63F 0x008 0x010 0x004) (.mma (ops (.t 31 true) (.v 8) (.v 16)) true 4)
    ∧ reads (word 0x342 0 0x601 0xE00 0xE00 0) (.mzero (ops (.t 1 false) .none .none) false)
    ∧ reads (word 0x343 (md 0 1 0 0) 0x621 0x202 0x204 0) (.mldt (ops (.t 1 true) (.s 2) (.s 4)) true)
    ∧ reads (word 0x344 0 0x601 0x202 0xE00 0) (.msto (ops (.t 1 false) (.s 2) .none) false)
    ∧ reads (word 0x345 0 0x601 0x202 0x204 8) (.msta (ops (.t 1 false) (.s 2) (.s 4)) false 8)
    ∧ reads (word 0x346 0 0x601 0x020 0xE00 0) (.mmov (ops (.t 1 false) (.v 32) .none) false)
    ∧ reads (word 0x347 0 0x601 0xBFF 0xE00 0x7FF) (.mpois (ops (.t 1 false) (.imm 0xFFFFF) .none)) := by decide

theorem test_decode_groupE :
    reads (word 0x380 0 0x002 0x204 0xA01 0) (.syscall (ops (.v 2) (.s 4) (.imm 1)))
    ∧ reads (word 0x381 0 0xE00 0xA07 0xE00 0x01) (.trap (ops .none (.imm 0x207) .none))
    ∧ reads (word 0x382 0 0xE00 0xE00 0xE00 0) (.tret (ops .none .none .none))
    ∧ reads (word 0x383 0 0xE00 0x201 0xE00 0) (.setperf (ops .none (.s 1) .none))
    ∧ reads (word 0x384 (md 0 0 0 1) 0x202 0x204 0xE00 0) (.edit (ops (.s 2) (.s 4) .none) true)
    ∧ reads (word 0x385 0 0xE00 0x208 0xA01 0) (.notify (ops .none (.s 8) (.imm 1)))
    ∧ reads (word 0x386 0 0xE00 0xA09 0xE00 0) (.brk (ops .none (.imm 9) .none))
    ∧ reads (word 0x387 0 0xE00 0x201 0xE00 0) (.dbgmark (ops .none (.s 1) .none))
    ∧ reads (word 0x388 0 0x204 0xE00 0xE00 0) (.tokrd (ops (.s 4) .none .none))
    ∧ reads (0x00B#10 ++ 0#86) (.unassignedOpcode 0x00B) ∧ reads (0x389#10 ++ 0#86) (.unassignedOpcode 0x389)
    ∧ reads (0x3C0#10 ++ 0#86) (.unassignedOpcode 0x3C0) := by decide

/-- The guard and the hints, bit by bit (R168, R173): F1 and F12 waited for, SET1 F2, SET2 F12, Y, PC, LAND, RE. -/
theorem test_decode_guard_hints :
    reads (0x240#10 ++ md 0 2 0 0 ++ 0b10011#5 ++ 0x001#12 ++ 0x002#12 ++ 0xE00#12 ++ 0#11 ++ 0x8012CF#24)
      (.ld { guard := { neg := true, p := 3 }, d := .v 1, a := .v 2, b := .none,
             hints := { wait := 0x801, set1 := 2, set2 := 12, y := true, pc := true, land := true, re := true } }
        (.plain .b32)) := by decide

/-! ## Refused words and ill-formed terms: every check of R181 by its name -/

theorem test_refuses_words :
    -- check 2: a reserved TYPE, an unused FTZ, a CVT of two tapered types, a code of 13 in CVT's X
    fails (word 0x040 (md 4 0 0 0) 0x001 0x002 0x003 0) .modField
    ∧ fails (word 0x040 (md 0 0 0 1) 0x001 0x002 0x003 0) .modField
    ∧ fails (word 0x180 (md 11 0 0 0) 0x001 0x002 0xE00 12) .modField
    ∧ fails (word 0x180 (md 0 0 0 0) 0x001 0x002 0xE00 13) .modField
    ∧ fails (word 0x2C0 0 0xE00 0xE00 0xE00 6) .modField
    -- check 3: the all-ones guard, a guard on MMA
    ∧ fails (0x080#10 ++ 0#10 ++ 0b11111#5 ++ 0x001#12 ++ 0x002#12 ++ 0x003#12 ++ 0#35) .guard
    ∧ fails (0x341#10 ++ 0#10 ++ 0b00001#5 ++ 0x601#12 ++ 0x008#12 ++ 0x010#12 ++ 0x004#11 ++ 0#24) .guard
    -- check 4: an immediate in D, the reserved class, an unused field not none, PT in D
    ∧ fails (word 0x080 0 0xA01 0x002 0x003 0) .operandClass
    ∧ fails (word 0x080 0 0x001 0xC02 0x003 0) .operandClass
    ∧ fails (word 0x083 0 0x001 0x002 0x003 0) .operandClass
    ∧ fails (word 0x0C5 0 0x40F 0x001 0xE00 0) .operandClass
    ∧ fails (word 0x080 0 0x201 0x002 0x203 0) .operandClass
    -- check 5: bit 8 of a V field, an odd pair, a tuple base, PSETI of 4, a per-lane register into S
    ∧ fails (word 0x080 0 0x101 0x002 0x003 0) .operandBits
    ∧ fails (word 0x040 (md 2 0 0 0) 0x001 0x002 0x004 0) .operandBits
    ∧ fails (word 0x303 0 0x206 0x208 0x201 0) .operandBits
    ∧ fails (word 0x009 0 0xE00 0xA04 0xE00 0) .operandBits
    ∧ fails (word 0x0C6 0 0x202 0x800 0xE00 0) .operandBits
    ∧ fails (word 0x0C6 0 0x202 0x803 0xE00 0) .operandBits
    ∧ fails (word 0x341 0 0x601 0x008 0x010 0x005) .operandBits
    -- check 6: a bit of X that must be 0, two wide immediates, a scope of 7
    ∧ fails (word 0x080 0 0x001 0x002 0x003 1) .xLayout
    ∧ fails (word 0x080 0 0x001 0xA01 0xA01 0) .xLayout
    ∧ fails (word 0x2C0 (md 0 0 1 0) 0xE00 0xE00 0xE00 7) .xLayout
    -- check 7: SET1 on a form that produces no long-latency result, SET1 of 13, SET2 without SET1
    ∧ fails (word 0x080 0 0x001 0x002 0x003 0 ||| 0x100) .hint
    ∧ fails (word 0x240 (md 0 2 0 0) 0x001 0x002 0xE00 0 ||| 0xD00) .hint
    ∧ fails (word 0x240 (md 0 2 0 0) 0x001 0x002 0xE00 0 ||| 0x010) .hint := by decide

/-- A register at the declared count, and the pair that reaches it (R165). -/
theorem test_register_count :
    decodeWord 16 (word 0x080 0 0x00F 0x00F 0x00F 0) = .ok (.and (ops (.v 15) (.v 15) (.v 15)))
    ∧ decodeWord 16 (word 0x080 0 0x010 0x00F 0x00F 0) = .error .operandBits
    ∧ decodeWord 15 (word 0x040 (md 2 0 0 0) 0x00E 0x002 0x004 0) = .error .operandBits := by decide

theorem test_truncated : decodeBytes 256 (List.replicate 11 0) = .error .truncated := by decide

/-- Ill-formed terms, one for each part of `Instr.wf`. -/
theorem smoke_ill_formed :
    -- modifiers
    Instr.wf 256 (.iadd (ops (.v 1) (.v 2) (.v 3)) .f32 false) = false
    ∧ Instr.wf 256 (.cvt (ops (.v 1) (.v 2) .none) .t8 .i32 .rn false false) = false
    -- guard
    ∧ Instr.wf 256 (.and { ops (.v 1) (.v 2) (.v 3) with guard := ⟨true, 15⟩ }) = false
    ∧ Instr.wf 256 (.tret { ops .none .none .none with guard := ⟨false, 2⟩ }) = false
    -- classes, and the rules across fields
    ∧ Instr.wf 256 (.and (ops (.p 1) (.v 2) (.v 3))) = false
    ∧ Instr.wf 256 (.and (ops (.s 1) (.v 2) (.s 3))) = false
    ∧ Instr.wf 256 (.ld (ops (.s 1) (.v 2) .none) (.plain .b32)) = false
    ∧ Instr.wf 256 (.atom (ops (.s 1) (.s 2) (.v 3)) .add .i32 .rlx .dev 0) = false
    ∧ Instr.wf 256 (.mmov (ops (.t 1 false) (.t 2 false) .none) false) = false
    -- register count, pair, tuple, half bit, special register, PSETI, the tuple in X
    ∧ Instr.wf 8 (.and (ops (.v 8) (.v 2) (.v 3))) = false
    ∧ Instr.wf 256 (.imul (ops (.v 1) (.v 2) (.v 4)) .i64) = false
    ∧ Instr.wf 256 (.tokrd (ops (.s 126) .none .none)) = false
    ∧ Instr.wf 256 (.mzero (ops (.t 1 true) .none .none) false) = false
    ∧ Instr.wf 256 (.swr (ops (.sr .gang) (.s 1) .none)) = false
    ∧ Instr.wf 256 (.bcast (ops (.v 1) (.sr .lane) .none)) = false
    ∧ Instr.wf 256 (.pseti (ops .none (.imm 4) .none)) = false
    ∧ Instr.wf 256 (.copy (ops (.s 2) (.s 4) (.s 1)) (some 7)) = false
    -- X: an immediate too wide for its layout, two of them
    ∧ Instr.wf 256 (.sel (ops (.v 1) (.v 2) (.imm 0x100)) 0) = false
    ∧ Instr.wf 256 (.and (ops (.v 1) (.imm 1) (.imm 1))) = false
    -- hints, NOP's hints, an assigned OP
    ∧ Instr.wf 256 (.and { ops (.v 1) (.v 2) (.v 3) with hints := { Hints.ofField 0 with set1 := 1 } }) = false
    ∧ Instr.wf 256 (.nop { Hints.ofField 0 with set2 := 1 }) = false
    ∧ Instr.wf 256 (.unassignedOpcode 0x00A) = false := by decide

/-! ## States for tests and witnesses -/

/-- A split of lanes 0 and 2 in slot 0, at the start of the region. -/
def split0 : Split := { region := 0, offset := 0, mask := 5, mid := none, wait := none, handler := false }

/-- A group with lanes 0 and 2 real, S2:S3 and V2:V3 of both lanes at 4096. -/
def group0 : Group :=
  { placedGroup with real := 5, splits := [(0, some split0)], v := [(128, 4096), (130, 4096)] }

/-- The placed launch and page of `withFetchWord`, with the group above making a plane issue. -/
def base : State :=
  { State.reset.place1 [] with agenda := [], cur := { placedCur with mask := 5 }, groups := [(0, some group0)] }

/-- `s` with registers of its group written. -/
def withR (s : State) (ws : List Write) : State := s.setGroup 0 ((s.group 0).writes ws)

/-- The instruction answers a next state of which `p` holds. -/
def after (i : Instr) (s : State) (p : State → Bool) : Bool :=
  match exec i s with
  | .next t => p t
  | _ => false

/-- The writes of the result in flight. -/
def posted (s : State) : List Write := (s.me.inflight.headD default).writes

def checksOk (s : State) (kind n : Nat) (cs : List (Nat × Nat × Chk)) : Bool :=
  cs.all (fun e => match e.2.2 with | .fault _ | .missing _ => false | _ => true)
  && (s.watchHits kind n (cs.filterMap fun e => match e.2.2 with | .at _ => some (e.1, e.2.1) | _ => none)).isEmpty

theorem checksPass_of {s : State} {kind n : Nat} {cs : List (Nat × Nat × Chk)}
    (h : checksOk s kind n cs = true) : ChecksPass s kind n cs := by
  simp only [checksOk, Bool.and_eq_true, List.all_eq_true, List.isEmpty_iff] at h
  refine ⟨fun e he => ⟨fun c hc => ?_, fun c hc => ?_⟩, .inr (.inr h.2)⟩ <;>
    · have := h.1 e he
      rw [hc] at this
      simp at this

/-- A condition on the place of every access, decided. -/
def placesOk (cs : List (Nat × Nat × Chk)) (p : Loc → Bool) : Bool :=
  cs.all fun e => match e.2.2 with | .at l => p l | _ => true

theorem places_of {cs : List (Nat × Nat × Chk)} {p : Loc → Bool} (h : placesOk cs p = true) :
    ∀ e ∈ cs, ∀ l, e.2.2 = .at l → p l = true := by
  intro e he l hl
  have := List.all_eq_true.mp h e he
  rw [hl] at this
  exact this

def Loc.memory : Loc → Bool
  | .mmio _ => false
  | _ => true

theorem noMmio_of {cs : List (Nat × Nat × Chk)} (h : placesOk cs Loc.memory = true) :
    ∀ e ∈ cs, ∀ k, e.2.2 ≠ .at (.mmio k) := fun e he k hk => by
  have := places_of h e he _ hk
  simp [Loc.memory] at this

theorem clean_of {s : State} {core n : Nat} {cs : List (Nat × Nat × Chk)}
    (h : placesOk cs (fun l => (List.range n).all fun i => !s.readPoison core (l.plus i)) = true) :
    ∀ e ∈ cs, ∀ l, e.2.2 = .at l → ∀ i, i < n → s.readPoison core (l.plus i) = false := by
  intro e he l hl i hi
  have := List.all_eq_true.mp (places_of h e he l hl) i (List.mem_range.mpr hi)
  simpa using this

/-- Clean bytes of sectors that no error has struck. -/
theorem unstruck_of {s : State} {core n : Nat} {cs : List (Nat × Nat × Chk)}
    (h : placesOk cs (fun l => (List.range n).all fun i =>
      match (l.plus i).key with | some k => !s.struck core k | none => true) = true) : Unstruck s core n cs := by
  intro e he l hl i hi k hk
  have := List.all_eq_true.mp (places_of h e he l hl) i (List.mem_range.mpr hi)
  rw [hk] at this
  simpa using this

theorem stored_of {s : State} {core n : Nat} {cs : List (Nat × Nat × Chk)}
    (h : placesOk cs (fun l => (List.range n).all fun i => (s.stored core (l.plus i)).isNone) = true) :
    ∀ e ∈ cs, ∀ l, e.2.2 = .at l → ∀ i, i < n → overLink (l.plus i) = true → s.stored core (l.plus i) = none := by
  intro e he l hl i hi _
  have := List.all_eq_true.mp (places_of h e he l hl) i (List.mem_range.mpr hi)
  simpa using this

theorem lastPlane_of {s : State} {sp : Split} (h : s.me.splits = [(s.cur.slot, some sp)]) (hs : s.me.stack = [])
    (hm : sp.mid = none) : LastPlane s := by
  have h1 : look none s.me.splits s.cur.slot = some sp := by simp [h, look]
  have h2 : s.mySplit.mid = none := by simp [State.mySplit, Group.split, h1, hm]
  refine ⟨by simp [h1], ⟨by simp [h], fun e he hne => ?_, by simp [hs]⟩, fun m hm' => by simp [h2] at hm'⟩
  simp only [h, List.mem_singleton] at he
  exact absurd (by simp [he]) hne

theorem lastPlane_base (ws : List Write) : LastPlane (withR base ws) := by
  have hm : (withR base ws).me = group0.writes ws := rfl
  exact lastPlane_of (sp := split0) (by rw [hm, Group.writes_splits]; rfl) (by rw [hm, Group.writes_stack]; rfl) rfl

/-! ## Small results, from the rules named -/

/-- R190: IADD wraps, and a lane whose guard is false keeps its register (R88). -/
theorem test_iadd_wraps :
    after (.iadd { ops (.v 4) (.v 5) (.imm 1) with guard := ⟨false, 1⟩ } .i32 false)
      (withR base [.v 5 0 0xFFFFFFFF, .v 5 2 7, .v 4 2 9, .p 1 0 true])
      (fun t => t.me.readV 4 0 == 0 && t.me.readV 4 2 == 9) = true := by decide +kernel

/-- R190: `.sat` clamps to the type's range. -/
theorem test_isub_saturates :
    after (.isub (ops (.v 4) (.v 5) (.imm 1)) .i32 true) (withR base [.v 5 0 0x80000000])
      (fun t => t.me.readV 4 0 == 0x80000000) = true
    ∧ after (.isub (ops (.v 4) (.v 5) (.imm 1)) .n32 true) (withR base [.v 5 0 0])
      (fun t => t.me.readV 4 0 == 0) = true := by decide +kernel

/-- R191: the high word of (−1) × 2, signed and unsigned; IMAD adds the old D. -/
theorem test_imulh_imad :
    after (.imulh (ops (.v 4) (.v 5) (.imm 2)) .i32) (withR base [.v 5 0 0xFFFFFFFF])
      (fun t => t.me.readV 4 0 == 0xFFFFFFFF) = true
    ∧ after (.imulh (ops (.v 4) (.v 5) (.imm 2)) .n32) (withR base [.v 5 0 0xFFFFFFFF])
      (fun t => t.me.readV 4 0 == 1) = true
    ∧ after (.imad (ops (.v 4) (.v 5) (.imm 3)) .i32) (withR base [.v 5 0 5, .v 4 0 100])
      (fun t => t.me.readV 4 0 == 115) = true := by decide +kernel

/-- R193: LEA shifts B zero-extended and adds the pair A; the carry crosses the halves. -/
theorem test_lea :
    after (.lea (ops (.v 4) (.v 6) (.v 8)) 4) (withR base [.v 6 0 0xFFFFFFF0, .v 8 0 1])
      (fun t => t.me.readV 4 0 == 0 && t.me.readV 5 0 == 1) = true := by decide +kernel

/-- R194: a signed and an unsigned comparison of −1 and 1. -/
theorem test_iset :
    after (.iset (ops (.p 3) (.v 5) (.imm 1)) .i32 .lt) (withR base [.v 5 0 0xFFFFFFFF, .v 5 2 1])
      (fun t => t.me.readP 3 0 && !t.me.readP 3 2) = true
    ∧ after (.iset (ops (.p 3) (.v 5) (.imm 1)) .n32 .lt) (withR base [.v 5 0 0xFFFFFFFF])
      (fun t => !t.me.readP 3 0) = true := by decide +kernel

/-- R196: a shift of the full width, SAR's sign, ROTL modulo 32. -/
theorem test_shifts :
    after (.shl (ops (.v 4) (.v 5) (.imm 32))) (withR base [.v 5 0 0xFFFFFFFF]) (fun t => t.me.readV 4 0 == 0) = true
    ∧ after (.sar (ops (.v 4) (.v 5) (.imm 40))) (withR base [.v 5 0 0x80000000])
      (fun t => t.me.readV 4 0 == 0xFFFFFFFF) = true
    ∧ after (.rotl (ops (.v 4) (.v 5) (.imm 33))) (withR base [.v 5 0 0x80000001])
      (fun t => t.me.readV 4 0 == 3) = true := by decide +kernel

/-- R184, R211: an FP32 immediate is the high 20 bits: 1.0 + 1.0. -/
theorem test_fadd_immediate :
    after (.fadd (ops (.v 4) (.v 5) (.imm 0x3F800)) .rn false false) (withR base [.v 5 0 0x3F800000])
      (fun t => t.me.readV 4 0 == 0x40000000) = true := by decide +kernel

/-- R214, the worked conversions. -/
theorem test_cvt_worked :
    let f (d t : Ty) (r : Rnd) (sat : Bool) (x : DWord) : Word × Fpx :=
      let y := convert d t r false sat x
      (y.1.setWidth 32, y.2)
    f .i32 .f32 .rz false 0xC0B00000 = (0xFFFFFFFB, fpxIX) ∧ f .n8 .f32 .rn false 0x43800000 = (0xFF, fpxIV)
    ∧ f .h .f32 .rn false 0x3F801000 = (0x3C00, fpxIX) ∧ f .t8 .f32 .rn false 0x40A9999A = (0x63, fpxIX)
    ∧ f .i8 .i32 .rn true 0x190 = (0x7F, 0) := by decide +kernel

/-- R217, R175: RCP of 2.0 is in flight, not yet written. -/
theorem test_rcp_posts :
    after (.rcp (ops (.v 4) (.v 5) .none) false) (withR base [.v 5 0 0x40000000])
      (fun t => t.me.readV 4 0 == 0 && (posted t).contains (.v 4 0 0x3F000000)) = true := by decide +kernel

/-- R221: SHFL reads lane 2 in lane 0, and a lane that takes no part gives each lane its own value. -/
theorem test_shfl :
    after (.shfl (ops (.v 4) (.v 5) (.v 6)) .idx) (withR base [.v 5 0 10, .v 5 2 12, .v 6 0 2, .v 6 2 1])
      (fun t => posted t == [.v 4 0 12, .v 4 2 12]) = true := by decide +kernel

/-- R228: BRA under a guard divides the split: the part of the lowest lane keeps the slot. -/
theorem test_bra_divides :
    after (.bra { ops .none (.imm 6) .none with guard := ⟨false, 1⟩ }) (withR base [.p 1 2 true])
      (fun t => laneAt t.me 0 == some (0, 12) && laneAt t.me 2 == some (0, 24)
        && (t.me.split 0).mask == 1 && (t.me.split 1).mask == 4) = true := by decide +kernel

/-- R54: EXIT of every lane frees the slot. -/
theorem test_exit :
    after (.exit (ops .none .none .none)) base (fun t => t.me.exited == 5 && t.me.live == []) = true := by
  decide +kernel

/-- R4, R236: LD reads little-endian; `.i16` extends the sign. -/
theorem test_ld :
    let s := { base with mem := [(4096, 0x34), (4097, 0xF2)] }
    after (.ld (ops (.v 4) (.v 2) .none) (.plain .b32)) s (fun t => posted t == [.v 4 0 0xF234, .v 4 2 0xF234]) = true
    ∧ after (.ld (ops (.v 4) (.v 2) .none) .i16) s
      (fun t => posted t == [.v 4 0 0xFFFFF234, .v 4 2 0xFFFFF234]) = true := by decide +kernel

/-- R121, R241: a weak store stands in the core's L1 and not yet in memory; the later lane wins. -/
theorem test_st_is_weak :
    after (.st (ops (.v 4) (.v 2) .none) .b16) (withR base [.v 4 0 0x1111, .v 4 2 0x2222])
      (fun t => weakByte t 0 (.dev 4096) == 0x22 && t.peek (.dev 4096) == 0) = true := by decide +kernel

/-- R240, R426: a lane whose address is not aligned traps ALIGN, without a handler FATAL (R374). -/
theorem test_ld_unaligned :
    after (.ld (ops (.v 4) (.v 2) (.imm 2)) (.plain .b32)) base
      (fun t => (t.ctxOf 0).fatal && t.me.inflight == []) = true := by decide +kernel

/-- R248: ATOM.add returns the old value in lane order: each performance sees the one before. -/
theorem test_atom_add :
    after (.atom (ops (.v 4) (.v 2) (.imm 5)) .add .i32 .rlx .dev 0) base
      (fun t => posted t == [.v 4 0 0, .v 4 2 5] && t.peek (.dev 4096) == 10) = true := by decide +kernel

/-- R41, R166: SR.LANE in each lane. -/
theorem test_srd_lane :
    after (.srd (ops (.v 4) (.sr .lane) .none)) base (fun t => t.me.readV 4 0 == 0 && t.me.readV 4 2 == 2) = true := by
  decide +kernel

/-- The step fetches the word at the place of the split and runs it (R162, R371): MOVI S10, 0x3F800000 of R205. -/
theorem test_step_runs_word :
    (match step (State.reset.withFetchWord 96 0x3040079051FC000000000000) with
      | .next t => (t.group 0).readS 10 == 0x3F800000 && ((t.group 0).split 0).offset == 12
      | _ => false) = true := by decide +kernel

/-! ## Witnesses: for every statement with hypotheses, operands and a state that meet them, clause by clause -/

theorem witness_AddSub :
    Ty.i32.regs = 1 ∧ Ty.n32.regs = 1 ∧ Ty.i64.regs = 2 ∧ Ty.n64.regs = 2 := by decide

theorem witness_IntegerForms : Ty.n32.regs = 1 ∧ Ty.i64.regs = 2 := by decide

theorem witness_PredicateForms : Cmp.ge ≠ .num ∧ Cmp.ge ≠ .nan := by decide

/-- A lane's V result and a uniform S result; a 32-bit and a 64-bit special register. -/
theorem witness_MoveForms :
    isUniform (.sel (ops (.v 4) (.v 5) (.v 6)) 1) = false ∧ isUniform (.sel (ops (.s 4) (.s 5) (.imm 1)) 1) = true
    ∧ (ops (.v 4) (.sr .lane) .none).a = .sr .lane ∧ SReg.lane.wide = false
    ∧ (ops (.v 4) (.sr .clock) .none).a = .sr .clock ∧ SReg.clock.wide = true := by decide

theorem witness_ConversionForms : Ty.i8.isInt = true ∧ Ty.n64.isInt = true := by decide

theorem witness_Reductions : Ty.n32 ≠ .f32 ∧ RedOp.add = .add ∧ (Ty.n32 = .i32 ∨ Ty.n32 = .n32) := by decide

theorem witness_DirectForms :
    LastPlane (withR base []) ∧ (ops .none (.imm 0xFFFFF) .none).a = .imm 0xFFFFF
    ∧ ((withR base []).core (coreOf (withR base []).cur.group)).latch = none
    ∧ (withR base []).mySplit.mask.getLsbD 2 = true
    ∧ ((withR base []).act (ops .none (.imm 0xFFFFF) .none)).getLsbD 2 = true :=
  ⟨lastPlane_base [], by decide, by decide +kernel, by decide +kernel, by decide +kernel⟩

/-- A return place on the link stacks of both lanes, and a word with LAND at the targets of V6:V7 (offset 12). -/
def linked : State :=
  withR { base with
      mem := [(4108, 2)],
      groups := [(0, some { group0 with links := [(0, [⟨0, 24⟩]), (2, [⟨0, 36⟩])] })] }
    [.v 6 0 4108, .v 6 2 4108]

theorem lastPlane_linked : LastPlane linked :=
  lastPlane_of (sp := split0) (by decide +kernel) (by decide +kernel) rfl

theorem witness_StackForms :
    let o := ops .none (.imm 3) .none
    let p := ops .none (.v 6) .none
    LastPlane linked ∧ Fresh linked
    ∧ (o.a = .imm 3 ∧ linked.callTarget 3 = some (0, 12) ∧ linked.fullLinks (lanesOf (linked.act o)) = [])
    ∧ (∀ l, l < 64 → (linked.act o).getLsbD l → look [] linked.me.links l ≠ [])
    ∧ (∀ l ∈ lanesOf (linked.act p), linked.targetFails p l = none)
    ∧ linked.fullLinks (lanesOf (linked.act p)) = [] := by
  refine ⟨lastPlane_linked, fun m h => ?_, by decide +kernel, by decide +kernel, by decide +kernel, by decide +kernel⟩
  have h0 : linked.mySplit.mid = none := by decide +kernel
  rw [h0] at h
  exact absurd h (by simp)

/-- `linked` with the link stack of lane 2 full. -/
def fullLinked : State :=
  linked.setGroup 0 { linked.me with links := [(2, List.replicate 16 ⟨0, 36⟩)] }

/-- Transfers: a CALL before the region, full and empty link stacks, targets that are no word for an S operand and for
one lane of a V operand. -/
theorem witness_TransferTraps :
    let o := ops .none (.imm 0xFFFFF) .none
    let n := ops .none (.imm 3) .none
    let p := ops .none (.s 2) .none
    let q := ops .none (.v 6) .none
    let s := withR base [.s 2 1, .v 6 0 4096, .v 6 2 4098]
    (o.a = .imm 0xFFFFF ∧ s.act o ≠ 0 ∧ s.callTarget 0xFFFFF = none)
    ∧ (fullLinked.callTarget 3 = some (0, 12)
      ∧ ∃ l, l < 64 ∧ (fullLinked.act n).getLsbD l = true ∧ 16 ≤ (look [] fullLinked.me.links l).length)
    ∧ ((lanesOf (s.act p)).find? (fun l => (s.targetFails p l).isSome) = some 0 ∧ s.targetFails p 0 = some 1)
    ∧ ((lanesOf (s.act q)).find? (fun l => (s.targetFails q l).isSome) = some 0 ∧ s.targetFails q 0 = some 4
      ∧ s.targetFails q 2 = some 1)
    ∧ ((∀ l ∈ lanesOf (fullLinked.act q), fullLinked.targetFails q l = none)
      ∧ ∃ l, l < 64 ∧ (fullLinked.act q).getLsbD l = true ∧ 16 ≤ (look [] fullLinked.me.links l).length)
    ∧ (∃ l, l < 64 ∧ (s.act n).getLsbD l = true ∧ look [] s.me.links l = []) :=
  ⟨by decide +kernel, ⟨by decide +kernel, 2, by decide +kernel⟩, by decide +kernel, by decide +kernel,
   ⟨by decide +kernel, 2, by decide +kernel⟩, ⟨0, by decide +kernel⟩⟩

/-- The least fault code of some checks. -/
def faultsWith (c : Nat) (cs : List (Nat × Nat × Chk)) : Bool :=
  cs.any (fun x => x.2.2 == .fault c) && cs.all fun x => match x.2.2 with | .fault d => decide (c ≤ d) | _ => true

theorem faults_of {c : Nat} {cs : List (Nat × Nat × Chk)} (h : faultsWith c cs = true) :
    (∃ x ∈ cs, x.2.2 = .fault c) ∧ ∀ x ∈ cs, ∀ d, x.2.2 = .fault d → c ≤ d := by
  simp only [faultsWith, Bool.and_eq_true, List.any_eq_true, List.all_eq_true, beq_iff_eq] at h
  refine ⟨h.1, fun x hx d hd => ?_⟩
  have := h.2 x hx
  rw [hd] at this
  simpa using this

/-- Accesses of which lane 0 is misaligned (ALIGN) and lane 2 has no leaf (ADDRESS): the least code is lane 2's, of
LDNR lane 0's; a single access; a window whose base has no leaf. -/
theorem witness_AccessTraps :
    let q := ops (.v 8) (.v 6) .none
    let u := ops (.s 8) (.s 6) .none
    let w := ops (.v 8) (.s 4) (.v 10)
    let b := ops (.v 8) (.v 6) (.v 10)
    let s := withR base [.v 6 0 4098, .v 6 2 4, .s 6 4098, .s 8 4, .s 11 0x00010003]
    let at' (o : Op) (single : Bool) (a : Acc) (n : Nat) (addr : Nat → Nat) : List (Nat × Nat × Chk) :=
      s.checks a n (accessLanes single (s.act o) s.me.real) addr
    faultsWith 5 (at' q false (.load false) 4 (s.address q.a q.b)) = true
    ∧ faultsWith 6 ((at' q false (.load false) 4 (s.address q.a q.b)).map fun x =>
        (x.1, x.2.1, noResident x.2.1 4 (s.mapping s.me.ctx x.2.1).isSome x.2.2)) = true
    ∧ faultsWith 6 (at' u true (.load true) 4 (s.address u.a u.b)) = true
    ∧ faultsWith 5 (at' q false (.store false) 4 (s.address q.a q.b)) = true
    ∧ faultsWith 6 (at' u true (.store true) 4 (s.address u.a u.b)) = true
    ∧ faultsWith 5 (s.windowChecks { w with a := .s 8 } (.load false) 4) = true
    ∧ faultsWith 5 (s.windowChecks { w with a := .s 8 } (.store false) 4) = true
    ∧ faultsWith 5 (at' b (atomSingle b) (.rmw true) 4 (s.atomAddr b 0)) = true
    ∧ faultsWith 5 (at' b (atomSingle b) (.rmw false) 4 (s.atomAddr b 0)) = true := by decide +kernel

/-- Loads of both lanes from the page; LDNR of an address without a leaf too, and a uniform LD. -/
theorem witness_WeakLoads :
    let s := withR base [.v 6 0 4096, .v 6 2 65536]
    let o := ops (.v 4) (.v 2) (.imm 4092)
    let p := ops (.v 4) (.v 6) .none
    let u := ops (.s 4) (.s 2) .none
    let cs (x : Op) := s.checks (.load false) 4 (accessLanes (!x.a.isV) (s.act x) s.me.real) (s.address x.a x.b)
    let ds := (cs p).map fun e => (e.1, e.2.1, noResident e.2.1 4 (s.mapping s.me.ctx e.2.1).isSome e.2.2)
    let clean (es : List (Nat × Nat × Chk)) : Prop :=
      Unstruck s 0 4 es ∧ ∀ e ∈ es, ∀ l, e.2.2 = .at l → ∀ i, i < 4 → s.readPoison 0 (l.plus i) = false
    (Instr.wf 256 (.ld o (.plain .b32)) = true ∧ ChecksPass s 1 4 (cs o) ∧ clean (cs o))
    ∧ (Instr.wf 256 (.ld u (.plain .b32)) = true ∧ ChecksPass s 1 4 (cs u) ∧ clean (cs u))
    ∧ (Instr.wf 256 (.ldnr p (.plain .b32) 3) = true ∧ ChecksPass s 1 4 ds ∧ clean ds) :=
  ⟨⟨by decide, checksPass_of (by decide +kernel), unstruck_of (by decide +kernel), clean_of (by decide +kernel)⟩,
   ⟨by decide, checksPass_of (by decide +kernel), unstruck_of (by decide +kernel), clean_of (by decide +kernel)⟩,
   ⟨by decide, checksPass_of (by decide +kernel), unstruck_of (by decide +kernel), clean_of (by decide +kernel)⟩⟩

/-- The page of `base` in memory of another kind: 1 the host's, 2 a peer's, 3 a peer's registers. -/
def mapped (kind : Nat) : State := withR { base with maps := set base.maps 1 { placedMap with mkind := kind } } []

theorem sound_of {s : State} {core n : Nat} {sc : Scope} {cs : List (Nat × Nat × Chk)}
    (h : placesOk cs (fun l => (List.range n).all fun i =>
      !s.readPoison core (l.plus i) && !s.poisoned (l.plus i)) = true) :
    ∀ e ∈ cs, ∀ l, e.2.2 = .at l → ∀ i, i < n →
      s.readPoison core (l.plus i) = false ∧ (howOf sc = .poc → s.poisoned (l.plus i) = false) := by
  intro e he l hl i hi
  have := List.all_eq_true.mp (places_of h e he l hl) i (List.mem_range.mpr hi)
  simp only [Bool.and_eq_true, Bool.not_eq_true'] at this
  exact ⟨this.1, fun _ => this.2⟩

/-- A load from the page, from a peer's memory over Hevis Link, and from a peer's registers. -/
theorem witness_StrongLoads :
    let o := ops (.v 4) (.v 2) (.imm 8)
    let cs (s : State) (sc : Scope) :=
      s.checks (.load (peerForm .b32 sc)) 4 (accessLanes (!o.a.isV) (s.act o) s.me.real) (s.address o.a o.b)
    let meets (s : State) (ord : Ord) (sc : Scope) : Prop :=
      Instr.wf 256 (.lds o .b32 ord sc) = true ∧ ChecksPass s 1 4 (cs s sc) ∧ Unstruck s 0 4 (cs s sc)
      ∧ (∀ e ∈ cs s sc, ∀ l, e.2.2 = .at l → ∀ i, i < 4 →
        s.readPoison 0 (l.plus i) = false ∧ (howOf sc = .poc → s.poisoned (l.plus i) = false))
      ∧ ∀ e ∈ cs s sc, ∀ l, e.2.2 = .at l → ∀ i, i < 4 → overLink (l.plus i) = true → s.stored 0 (l.plus i) = none
    meets (mapped 0) .acq .dev ∧ meets (mapped 2) .rlx .sys ∧ meets (mapped 3) .rlx .sys ∧ meets (mapped 0) .rlx .wg
    ∧ (0, 4104, .at (.ext (2 ^ 64 + 4104))) ∈ cs (mapped 2) .sys ∧ overLink (.ext (2 ^ 64 + 4104)) = true
    ∧ (0, 4104, .at (.mmio 4104)) ∈ cs (mapped 3) .sys ∧ howOf .sys = .poc ∧ howOf .wg = .l1 :=
  ⟨⟨by decide, checksPass_of (by decide +kernel), unstruck_of (by decide +kernel),
     sound_of (by decide +kernel), stored_of (by decide +kernel)⟩,
   ⟨by decide, checksPass_of (by decide +kernel), unstruck_of (by decide +kernel),
     sound_of (by decide +kernel), stored_of (by decide +kernel)⟩,
   ⟨by decide, checksPass_of (by decide +kernel), unstruck_of (by decide +kernel),
     sound_of (by decide +kernel), stored_of (by decide +kernel)⟩,
   ⟨by decide, checksPass_of (by decide +kernel), unstruck_of (by decide +kernel),
     sound_of (by decide +kernel), stored_of (by decide +kernel)⟩,
   by decide +kernel, by decide, by decide +kernel, by decide, by decide⟩

/-- A tensor window of 4 columns and 2 rows at 4096, pitch 64, in S4 to S7; coordinates in V8:V9, lane 2 outside. -/
def windowed : State :=
  withR base [.s 4 4096, .s 6 64, .s 7 0x00010003, .v 8 0 3, .v 9 0 1, .v 8 2 4]

theorem witness_WeakStores :
    let s := windowed
    let o := ops (.v 4) (.v 2) (.imm 4092)
    let p := ops (.v 4) (.s 4) (.v 8)
    let cs := s.checks (.store false) 4 (accessLanes (storeSingle o) (s.act o) s.me.real) (s.address o.a o.b)
    (Instr.wf 256 (.st o .b32) = true ∧ ChecksPass s 2 4 cs ∧ ∀ e ∈ cs, ∀ k, e.2.2 ≠ .at (.mmio k))
    ∧ (Instr.wf 256 (.tst p .b32) = true ∧ ChecksPass s 2 4 (s.windowChecks p (.store false) 4)
      ∧ ∀ e ∈ s.windowChecks p (.store false) 4, ∀ k, e.2.2 ≠ .at (.mmio k)) :=
  ⟨⟨by decide, checksPass_of (by decide +kernel), noMmio_of (by decide +kernel)⟩,
   ⟨by decide, checksPass_of (by decide +kernel), noMmio_of (by decide +kernel)⟩⟩

/-- The window has one place in it: lane 0's, in its last column and row. -/
theorem windowed_place :
    windowed.windowChecks (ops (.v 4) (.s 4) (.v 8)) (.store false) 4 = [(0, 4172, .at (.dev 4172))] := by
  decide +kernel

/-- A request of `base`'s group with tag 3 that the port has sent once, at tick 0. -/
def outReq (hevis lost : Bool) (kind : OutKind) : OutReq :=
  { tag := 3, hevis, addr := if hevis then 2 ^ 64 + 4096 else 4096, size := 4, kind, regs := [.v 4 0 1], sentTick := 0,
    attempts := 1, lost, poisoned := false,
    origin := { group := 0, slot := 0, plane := 0, region := 0, offset := 0, mask := 5, va := 4096, ctx := 0, launch := 2,
                wgIndex := 0, index := 0, gen := false } }

def sending (hevis lost : Bool) (kind : OutKind) (s : State) : State :=
  { s with port := { s.port with out := [outReq hevis lost kind] } }

/-- `s` with a posted write that no zero-length read follows yet: a release at `.sys` has something to wait for. -/
def unread (s : State) : State := sending false false .posted s

theorem nothingOut_base (ws : List Write) : NothingOut (withR base ws) := by
  refine ⟨?_, ?_, ?_⟩ <;> rfl

theorem noWait_narrow {s : State} {sc : Scope} (h : sc ≠ .sys) : NoWait s sc := fun e => absurd e h

theorem waits_unread : ¬ NoWait (unread (withR base [])) .sys := by
  unfold NoWait NothingOut
  decide +kernel

/-- A relaxed STS to global memory and to the last word of a shared window; releases of both, and at `.sys` with and
without something to wait for. -/
theorem witness_StoreForms :
    let s := withR { base with wgs := [(0, some { placedWg with sharedBytes := 256 })] }
      [.v 6 0 252, .v 6 2 252, .v 7 0 0xFFFFFD00, .v 7 2 0xFFFFFD00]
    let u := unread (withR base [])
    let o := ops (.v 4) (.v 2) .none
    let p := ops (.v 4) (.v 6) .none
    let cs (s : State) (x : Op) (sc : Scope) :=
      s.checks (.store (peerForm .b32 sc)) 4 (accessLanes (storeSingle x) (s.act x) s.me.real) (s.address x.a x.b)
    (Instr.wf 256 (.sts o .b32 .rlx .dev) = true ∧ howOf .dev = .poc ∧ ChecksPass s 2 4 (cs s o .dev)
      ∧ Unstruck s 0 4 (cs s o .dev))
    ∧ (Instr.wf 256 (.sts p .b32 .rel .wg) = true ∧ howOf .wg = .l1 ∧ ChecksPass s 2 4 (cs s p .wg)
      ∧ (∀ e ∈ cs s p .wg, ∀ k, e.2.2 ≠ .at (.mmio k))
      ∧ (2, 0xFFFFFD00000000FC, Chk.at (.shared s.me.wg 252)) ∈ (cs s p .wg).getLast?.toList)
    ∧ (Ord.releases .rel = true ∧ s.realAct o ≠ 0 ∧ s.cur.acked = false ∧ NoWait s .dev ∧ L1Ok s 0
      ∧ ChecksPass (withR base []) 2 4 (cs (withR base []) o .sys) ∧ NoWait (withR base []) .sys)
    ∧ (Instr.wf 256 (.sts o .b32 .rel .sys) = true ∧ u.realAct o ≠ 0 ∧ ¬ NoWait u .sys
      ∧ ChecksPass u 2 4 (cs u o .sys))
    ∧ LastPlane (withR base []) :=
  ⟨⟨by decide, by decide, checksPass_of (by decide +kernel), unstruck_of (by decide +kernel)⟩,
   ⟨by decide, by decide, checksPass_of (by decide +kernel), noMmio_of (by decide +kernel), by decide +kernel⟩,
   ⟨by decide, by decide +kernel, rfl, noWait_narrow (by decide), by unfold L1Ok; decide +kernel,
    checksPass_of (by decide +kernel), fun _ => .inr (nothingOut_base [])⟩,
   ⟨by decide, by decide +kernel, waits_unread, checksPass_of (by decide +kernel)⟩, lastPlane_base []⟩

theorem witness_TensorForms :
    let s := windowed
    let o := ops (.v 4) (.s 4) (.v 8)
    let cs := s.windowChecks o (.load false) 4
    (Instr.wf 256 (.tld o .b32) = true ∧ ChecksPass s 1 4 cs ∧ Unstruck s 0 4 cs
      ∧ ∀ e ∈ cs, ∀ l, e.2.2 = .at l → ∀ i, i < 4 → s.readPoison 0 (l.plus i) = false)
    ∧ Instr.wf 256 (.pref (ops .none (.v 2) (.imm 128))) = true :=
  ⟨⟨by decide, checksPass_of (by decide +kernel), unstruck_of (by decide +kernel), clean_of (by decide +kernel)⟩, by decide⟩

/-- One lane's ATOM, ATOMCAS of both widths and ATOMF on the page; a release with and without something to wait for. -/
theorem witness_AtomicForms :
    let s := { withR base [] with cur := { placedCur with mask := 4 } }
    let u := unread (withR base [])
    let o := ops (.v 4) (.v 2) (.v 6)
    let p := ops (.v 4) (.v 2) (.v 8)
    let meets (i : Instr) (x : Op) (n : Nat) (host : Bool) : Prop :=
      Instr.wf 256 i = true ∧ x.a.isV = true ∧ (s.realAct x).getLsbD 2 = true ∧ s.recording s.me.ctx = false
      ∧ s.checks (.rmw host) n (lanesOf (s.act x)) (s.atomAddr x 0) = [(2, 4096, .at (.dev 4096))]
      ∧ ChecksPass s 3 n [(2, 4096, .at (.dev 4096))] ∧ (Loc.dev 4096).outside = false
      ∧ (∀ k, k < n → s.poisoned ((Loc.dev 4096).plus k) = false) ∧ Unstruck s 0 n [(2, 4096, .at (.dev 4096))]
    meets (.atom o .exch .n32 .rlx .dev 0) o 4 true ∧ meets (.atom o .min .i64 .rlx .dev 0) o 8 false
    ∧ meets (.atomcas o false .rlx .dev 0) o 4 true ∧ meets (.atomcas p true .rlx .dev 0) p 8 true
    ∧ meets (.atomf o .max .f32 .rlx .dev 0) o 4 false
    ∧ (clockSource o = false
      ∧ ChecksPass s 3 2 (s.checks (.rmw false) 2 (accessLanes (atomSingle o) (s.act o) s.me.real) (s.atomAddr o 0))
      ∧ NoWait s .dev ∧ LastPlane (withR base []))
    ∧ (ChecksPass u 3 4 (u.checks (.rmw true) 4 (accessLanes (atomSingle o) (u.act o) u.me.real) (u.atomAddr o 0))
      ∧ Ord.releases .ar = true ∧ u.realAct o ≠ 0 ∧ ¬ NoWait u .sys) := by
  refine ⟨?_, ?_, ?_, ?_, ?_,
    ⟨by decide, checksPass_of (by decide +kernel), noWait_narrow (by decide), lastPlane_base []⟩,
    checksPass_of (by decide +kernel), by decide, by decide +kernel, waits_unread⟩ <;>
    exact ⟨by decide, by decide, by decide +kernel, by decide +kernel, by decide +kernel,
      checksPass_of (by decide +kernel), by decide, by decide +kernel, unstruck_of (by decide +kernel)⟩

/-- A FENCE and a PHASE that publish, a release at `.sys`, one that no lane performs, a narrow scope. -/
theorem witness_Fences :
    let s := withR base []
    let o := ops .none .none .none
    L1Ok s 0 ∧ s.act o ≠ 0 ∧ wideScope .cl = true ∧ LastPlane s ∧ Ord.releases .rel = true
    ∧ { s with cur := { s.cur with mask := 0 } }.act o = 0 ∧ wideScope .wg = false ∧ Scope.wg ≠ .sys :=
  ⟨by unfold L1Ok; decide +kernel, by decide +kernel, by decide, lastPlane_base [], by decide, by decide +kernel,
   by decide, by decide⟩

/-- `base` with a shared window of 256 bytes for its workgroup. -/
def shared (ws : List Write) : State :=
  withR { base with wgs := [(0, some { placedWg with sharedBytes := 256 })] } ws

/-- Objects at the last place of the window, past it, and misaligned; 65,535 and 65,536 arrivals. -/
theorem witness_BarrierForms :
    let s := shared [.s 4 240, .s 5 0xFFFFFD00, .s 6 256, .s 7 0xFFFFFD00, .s 8 8, .s 9 0xFFFFFD00]
    let o := ops .none (.s 4) (.imm 0x0FFFF)
    s.act o ≠ 0 ∧ s.barPlace s.me (s.dword (.s 4) 0).toNat = .ok (.shared 0 240) ∧ (s.uword o.b).toNat ≤ 65535
    ∧ 65535 < (s.uword (.imm 0x10000)).toNat
    ∧ s.barPlace s.me (s.dword (.s 6) 0).toNat = .error faultADDRESS
    ∧ s.barPlace s.me (s.dword (.s 8) 0).toNat = .error faultALIGN := by decide +kernel

/-- An arrival that completes the phase of an object of two, and the first of the two: in shared memory, and in a
scratchpad. -/
theorem witness_BankCycle :
    let e (bank : Nat) : BankEntry :=
      { bank, addr := 4096, va := 4096, part := 0, group := 0, slot := 0, up := .arrive .dev }
    let obj (bank : Nat) (arrived : Byte) : State :=
      let cells := if arrived = 0 then [(4100, 2)] else [(4100, 2), (4102, arrived)]
      { base with bank := [e bank], mem := cells,
                  wgs := [(0, some { placedWg with sharedBytes := 8192, shared := cells })] }
    ∀ k ∈ [0, 1], ∀ a ∈ [0, 1],
      let s := obj k a
      let b := BarObj.read (bytesAt (strongByte s 0) (barLoc k 4096) 16)
      s.bank = [e k] ∧ b.arrived + 1 ≤ b.expect ∧ canonical none (s.core 0).l1 = true
      ∧ (decide (b.arrived + 1 = b.expect ∧ b.lbytes = b.xbytes) = decide (a = 1))
      ∧ s.cores = [] := by
  decide +kernel

/-- A block of a TIME condition on tick 5 in S8 to S11; one of kind 0 in S12; at its offset nothing has issued, or plane
0 has sent lane 0 elsewhere. -/
def timed (mid : Option Mid) : State :=
  (withR base [.s 8 5, .s 11 4]).setGroup 0
    { (withR base [.s 8 5, .s 11 4]).me with splits := [(0, some { split0 with mid })] }

def planed : Mid := { todo := [(1, 4)], dests := [(0, .to 0 48)], planes := [], begun := true }

theorem witness_Waits (mid : Option Mid) (h : mid = none ∨ mid = some planed) :
    let s := timed mid
    let o := ops (.p 1) (.s 8) (.imm 7)
    let c : Cond := { kind := .time, addr := 5, value := 0, ne := false, scope := .lane, acq := false, met := none, tested := 0 }
    s.act o ≠ 0 ∧ s.condBlock s.me 4 12 = none ∧ s.condBlock s.me 4 (sIndex o.a) = some [c]
    ∧ (∀ d ∈ [c], (∀ n, s.condCheck s.me d ≠ .fault n) ∧ ∀ n, s.condCheck s.me d ≠ .missing n)
    ∧ LastPlane s ∧ s.mySplit.mask ≠ 0 ∧ (∀ l, otherwise s l ≠ .gone) ∧ s.mySplit.mid = mid := by
  have hm : (timed mid).mySplit.mid = mid := rfl
  refine ⟨?_, ?_, ?_, ?_, ⟨rfl, ⟨by rw [show (timed mid).me.splits = [(0, some { split0 with mid })] from rfl]; simp,
    fun e he hne => ?_, fun e he => absurd he (by simp [show (timed mid).me.stack = [] from rfl])⟩, fun m hs => ?_⟩, ?_, fun l => ?_, hm⟩
  · rcases h with rfl | rfl <;> decide +kernel
  · rcases h with rfl | rfl <;> decide +kernel
  · rcases h with rfl | rfl <;> decide +kernel
  · intro d hd
    simp only [List.mem_singleton] at hd
    subst hd
    simp [State.condCheck]
  · rw [show (timed mid).me.splits = [(0, some { split0 with mid })] from rfl, List.mem_singleton] at he
    exact absurd (congrArg Prod.fst he) hne
  · rw [hm] at hs
    rcases h with rfl | rfl
    · exact absurd hs (by simp)
    · obtain rfl := Option.some.inj hs
      rfl
  · rcases h with rfl | rfl <;> decide +kernel
  · unfold otherwise
    rw [hm]
    rcases h with rfl | rfl
    · simp
    · simp only [planed, look]
      split <;> simp

/-- A group whose first batch, of one command, is open or closed. -/
def batched (closed : Bool) (done : Nat) : State :=
  { base with
    wgs := [(0, some { placedWg with batches :=
      [(0, { seq := 1, closed, fresh := false, count := 1, done, tags := [], whole := true, named := [] })] })] }

theorem witness_BatchForms :
    let o := ops (.s 4) .none .none
    let s := batched false 0
    let t := withR (batched true 0) [.s 5 0x100, .s 6 0x110, .s 7 0x200]
    (o.d = .s 4 ∧ base.act o ≠ 0 ∧ ((base.wgOf 0).batchesOf 0).filter (·.closed) = [])
    ∧ (s.act o ≠ 0 ∧ (((s.wgOf 0).batchesOf 0).filter (·.closed)).length < 16 ∧ ((s.wgOf 0).openBatch 0).isSome = true)
    ∧ (t.handleOk t.me (t.uword (.s 4)) = false ∧ t.handleOk t.me (t.uword (.s 6)) = false)
    ∧ (t.handleOk t.me (t.uword (.s 5)) = true ∧ t.recording t.me.ctx = false
      ∧ t.handleDone t.me (t.uword (.s 5)) = false)
    ∧ (t.handleOk t.me (t.uword (.s 7)) = true ∧ t.handleDone t.me (t.uword (.s 7)) = true) := by decide +kernel

/-- A queue of two entries of 16 bytes at 4160, its control block at 4096. -/
def queueAt (tail state : Byte) : State :=
  { base with mem := ([(4096, 0x40), (4097, 0x10), (4108, tail), (4112, 1), (4114, 16), (4116, state)] :
      List (Nat × Byte)).filter fun e => e.2 != 0 }

theorem apart_of {s : State} {ctx : Nat} {xs : List Nat}
    (h : (xs.all fun x => match s.mapping ctx x with | some e => e.2.mkind == 0 | none => false) = true)
    (hn : (xs.map fun x => (s.mapping ctx x).map fun e => cellOf (e.2.loc x)).Nodup) : Apart s ctx xs := by
  refine ⟨fun x hx => ?_, hn⟩
  have := List.all_eq_true.mp h x hx
  cases hm : s.mapping ctx x with
  | none => simp [hm] at this
  | some e => exact ⟨e, rfl, by simpa [hm] using this⟩

/-- An ENQ or a DEQ at the port of the queue: its entry in V4, its status to S8. -/
def queueOp (deq : Bool) : QueueOp :=
  { part := 0, group := 0, id := 0, cb := 4096, deq, d := .s 8, x := .v 4, data := if deq then [] else List.replicate 256 7,
    slot := 0, lanes := 5, region := 0, offset := 0, plane := 0, after := none }

/-- A control block that passes its checks, at the issue of an ENQ and of a DEQ; one in no leaf; an issue of no real
lane. -/
theorem witness_QueueIssue :
    let o := ops (.s 8) (.s 2) (.v 4)
    let p := ops (.s 8) (.v 4) (.s 2)
    clockSource o = false ∧ clockSource p = false ∧ base.recording base.me.ctx = false ∧ base.realAct o ≠ 0
    ∧ base.queueCheck base.me (base.dword o.a 0).toNat = .at (.dev 4096)
    ∧ base.queueCheck base.me (base.dword p.b 0).toNat = .at (.dev 4096)
    ∧ base.queueCheck base.me 64 = .fault 5
    ∧ { base with cur := { base.cur with mask := 2 } }.realAct o = 0 := by decide +kernel

/-- Every status of ENQ and of DEQ, an unusable slot among the causes of BAD, and the slots of the two that answer
OK. -/
theorem witness_QueueStatus :
    let core (s : State) := coreOf s.cur.group
    let q (s : State) := QueueBlock.read ((s.pocRead 0 (core s) 4096 64).1.ctxRead 0 4096 64)
    let enqSlot (s : State) := s.ringSlot s.me (q s) (q s).tail true
    let deqSlot (s : State) := s.ringSlot s.me (q s) (q s).head false
    let enqSt (s : State) : Nat :=
      if (q s).malformed || !entryFits s.me (.v 4) (q s).esize then 5 else if (q s).state = 2 then 4
      else if (q s).state = 1 then 3 else if (q s).used = (q s).cap then 1 else if (enqSlot s).isNone then 5 else 0
    let deqSt (s : State) : Nat :=
      if (q s).malformed || !entryFits s.me (.v 4) (q s).esize then 5
      else if (q s).used = 0 then (if (q s).state = 2 then 4 else 2) else if (deqSlot s).isNone then 5 else 0
    -- the ring beyond the page
    let lost (s : State) : State := { s with mem := put 0 s.mem 4098 1 }
    (∀ s ∈ [base, lost (queueAt 0 0), lost (queueAt 1 0), queueAt 0 2, queueAt 0 1, queueAt 2 0, queueAt 0 0, queueAt 1 0],
      s.recording s.me.ctx = false ∧ canonical none (s.core 0).l1 = true ∧ (look none s.groups 0).isSome = true)
    ∧ [base, lost (queueAt 0 0), queueAt 0 2, queueAt 0 1, queueAt 2 0, queueAt 0 0].map enqSt = [5, 5, 4, 3, 1, 0]
    ∧ [base, lost (queueAt 1 0), queueAt 0 2, queueAt 0 0, queueAt 1 0].map deqSt = [5, 5, 4, 2, 0]
    ∧ enqSlot (queueAt 0 0) = some 4160 ∧ deqSlot (queueAt 1 0) = some 4160 ∧ (q (queueAt 0 0)).esize = 16
    ∧ (queueOp false).data.length = 256 := by decide +kernel

theorem witness_QueueStatus_apart :
    Apart (queueAt 0 0) 0 (addrs 4096 64 ++ addrs 4160 16) ∧ Apart (queueAt 1 0) 0 (addrs 4096 64 ++ addrs 4160 16) :=
  ⟨apart_of (by decide +kernel) (by decide +kernel), apart_of (by decide +kernel) (by decide +kernel)⟩

/-- A queue in host memory that answers OK: its release still to cross its boundary with a posted write out and none,
and across it; two operations that the end of a cycle serves, one at a time. -/
theorem witness_QueueRelease :
    let m := { placedMap with mkind := 1 }
    let s := { queueAt 0 0 with mem := [], ext := (queueAt 0 0).mem, maps := set base.maps 1 m }
    let b := QueueBlock.read ((s.pocRead 0 0 4096 64).1.ctxRead 0 4096 64)
    let acks (s : State) := (((s.pocRead 0 0 4096 64).1).releaseBy (s.queueOrigin (queueOp false)) .sys).acksFor 0
    b.malformed = false ∧ b.state = 0 ∧ b.used ≠ b.cap ∧ (s.ringSlot s.me b b.tail true).isSome = true
    ∧ entryFits s.me (.v 4) b.esize = true ∧ (s.placeOf s.me 4096 64).map Loc.scope = some .sys
    ∧ acks s = [] ∧ acks (unread s) ≠ [] ∧ (queueOp false).after = none
    ∧ { queueOp false with after := some [] }.after.isSome = true
    ∧ ({ base with queueOps := [queueOp true] } : State).queuesDue 0 = [queueOp true] := by decide +kernel

/-- A collective block in S8 to S11: the object at 4096, one element, one participant of rank 0. -/
theorem witness_EngineForms :
    let s := withR windowed [.s 8 4096, .s 10 1, .s 11 0x10000]
    let g := s.me
    let o := ops (.s 2) (.s 2) (.imm 16)
    let t := ops (.s 4) (.s 4) (.imm 4)
    let ga := ops (.s 2) (.v 2) (.imm 4)
    let sc := ops (.v 2) (.s 2) (.imm 4)
    let co := ops (.s 2) (.s 2) (.s 8)
    let clear (ms : List (Nat × Nat)) (z align : Nat) : Prop :=
      ∀ m ∈ ms, s.rangeFault g m.1 z align true = none ∧ s.rangeFault g m.2 z align false = none
    let dst := windowOf (s.blockOf t.d)
    let lanes := lanesOf (s.realAct ga)
    s.act o ≠ 0 ∧ s.openCount < 256 ∧ clockSource o = false
    ∧ (clear [(4096, 4096)] 16 16 ∧ blocksIn 4096 16 ≠ [])
    ∧ (sizeOk 4 = true ∧ copytBytes 4 dst dst ≤ 262144 ∧ clear (windowMoves 4 dst dst) 4 1 ∧ dst.base % 4 = 0
      ∧ dst.pitch % 4 = 0 ∧ blocksOf (windowMoves 4 dst dst) ≠ [])
    ∧ (4 * lanes.length ≤ 262144 ∧ clear (lanes.map fun l => ((4096 + l * 4) % 2 ^ 64, (s.dword ga.a l).toNat)) 4 4
      ∧ blocksOf (lanes.map fun l => ((4096 + l * 4) % 2 ^ 64, (s.dword ga.a l).toNat)) ≠ [])
    ∧ (clear (lanes.map fun l => ((s.dword sc.d l).toNat, (4096 + l * 4) % 2 ^ 64)) 4 4
      ∧ blocksOf (lanes.map fun l => ((s.dword sc.d l).toNat, (4096 + l * 4) % 2 ^ 64)) ≠ [])
    ∧ (collParts (s.blockOf (.s 12)) = 0)
    ∧ (¬ (collParts (s.blockOf co.b) = 0 ∨ collParts (s.blockOf co.b) ≤ collRank (s.blockOf co.b)
        ∨ collCount (s.blockOf co.b) = 0 ∨ 262144 < collCount (s.blockOf co.b) * collSize .i32)
      ∧ s.rangeFault g 4096 4 16 true = none ∧ s.rangeFault g 4096 4 16 false = none
      ∧ s.collFault g (collObj (s.blockOf co.b)) = none) := by decide +kernel

/-- A byte of the one MAP, of `n` bytes, as an access of context 0 reaches it. -/
theorem page_byte {s : State} {n : Nat} (hs : s.maps = [(1, some { placedMap with length := n })]) (hn : n ≤ 2 ^ 20)
    {a : Nat} (h1 : 4096 ≤ a) (h2 : a < 4096 + n) :
    s.mapping 0 a = some (1, { placedMap with length := n }) ∧ Mapping.loc { placedMap with length := n } a = .dev a := by
  constructor
  · unfold State.mapping
    rw [hs]
    simp [placedMap, h1]
    omega
  · change Loc.dev (canonicalDev (4096 + (a - 4096))) = .dev a
    rw [show 4096 + (a - 4096) = a by omega]
    unfold canonicalDev
    split
    · rename_i h
      have := h.1
      simp only [hbmView] at this
      omega
    · rfl

theorem base_maps : base.maps = [(1, some { placedMap with length := 4096 })] := by decide +kernel

theorem apart_page {s : State} {n : Nat} (hs : s.maps = [(1, some { placedMap with length := n })]) (hn : n ≤ 2 ^ 20)
    {xs : List Nat} (h : ∀ x ∈ xs, 4096 ≤ x ∧ x < 4096 + n) (hx : xs.Nodup) : Apart s 0 xs := by
  have hb (x : Nat) (hm : x ∈ xs) := page_byte hs hn (h x hm).1 (h x hm).2
  refine ⟨fun x hm => ⟨_, (hb x hm).1, rfl⟩, ?_⟩
  have he : xs.map (fun x => (s.mapping 0 x).map fun e => cellOf (e.2.loc x)) = xs.map fun x => some (0, x, 0) :=
    List.map_congr_left fun x hm => by
      rw [(hb x hm).1]
      simp [(hb x hm).2, cellOf]
  rw [he]
  exact hx.map fun x y hxy => by simpa using hxy

theorem addrs_nodup (a n : Nat) : (addrs a n).Nodup := List.nodup_range.map fun x y h => by simpa using h

theorem mem_addrs {a n x : Nat} : x ∈ addrs a n ↔ a ≤ x ∧ x < a + n := by
  simp only [addrs, List.mem_map, List.mem_range]
  exact ⟨fun ⟨k, hk, h⟩ => by omega, fun h => ⟨x - a, by omega, by omega⟩⟩

/-- 128 bytes with some fields: offset, bytes, value. -/
def bodyOf (fs : List (Nat × Nat × Nat)) : List Byte :=
  (List.range 128).map fun i =>
    match fs.find? (fun f => f.1 ≤ i && i < f.1 + f.2.1) with
    | some f => BitVec.ofNat 8 (f.2.2 / 256 ^ (i - f.1))
    | none => 0

/-- The workgroup of `base` with a second group on partition 1, both of the gang of the two. -/
def ganged : State :=
  { base with
    wgs := [(0, some { placedWg with groups := [0, 16] })],
    launches := [(2, some { placedLaunch with lanes := 64 })],
    groups := [(0, some { group0 with gang := 0x10010, s := [(2, 4096), (8, 0x11)] }),
               (16, some { group0 with gang := 0x10010, index := 1 })] }

/-- The other member of the gang, with a format block. -/
def otherMember (fmt : BitVec 128) : LatchMember :=
  { group := 16, id := 0, slot := 0, tile := 1, half := false, aBase := 32, bBase := 64, fmt, region := 0, offset := 0,
    plane := 0, before := 0 }

def latched (gang : Word) (fmt : BitVec 128) : State :=
  ganged.setCore 0 { ganged.core 0 with latch := some (gang, 0, [otherMember fmt]) }

/-- A gang word of the group alone, and one with a reserved count; an MMA of an undefined format (S4), a solo one
with FP16 operands (S8), and the first of a gang of two. -/
theorem witness_GangForms :
    let s := withR base [.s 4 0x30000, .s 8 0x11]
    let o := ops (.t 1 false) (.v 32) (.v 64)
    let g := ganged.me
    (s.act (ops .none (.s 4) .none) ≠ 0 ∧ s.gangOk (s.uword (.s 4)) = false)
    ∧ (s.gangOk (s.uword (.s 5)) = true ∧ (s.core (coreOf s.cur.group)).latch = none)
    ∧ (s.mmaFault o false 4).isSome = true
    ∧ (s.mmaFault o false 8 = none ∧ bitsAt s.me.gang.toNat 16 2 = 0 ∧ clockSource o = false
      ∧ (s.part (partOf s.cur.group)).array = [] ∧ (s.part (partOf s.cur.group)).jobs = []
      ∧ (s.capture [s.member o 8]).length = 1)
    ∧ (ganged.mmaFault o false 8 = none ∧ bitsAt g.gang.toNat 16 2 ≠ 0
      ∧ (ganged.core (coreOf ganged.cur.group)).latch = none ∧ 1 < (gangList g.gang).length
      ∧ ((gangList g.gang).any fun i => ganged.breaksGang g.wg g.gang i) = false) := by
  decide +kernel

/-- One that finds another gang in the latch, and the last of a gang, of the same format or another. -/
theorem witness_GangForms_latch :
    let o := ops (.t 1 false) (.v 32) (.v 64)
    (latched 0x20010 0x11).mmaFault o false 8 = none ∧ (latched 0x20010 0x11).latchOpen ganged.me 0 = false
    ∧ (ganged.member o 8).fmt = 0x11 ∧ (ganged.member o 8).group = 0 := by
  decide +kernel

theorem witness_GangForms_release (f : BitVec 128) (h : f = 0x11 ∨ f = 0x12) :
    let o := ops (.t 1 false) (.v 32) (.v 64)
    let x := latched 0x10010 f
    let m := x.me
    (x.mmaFault o false 8 = none ∧ bitsAt m.gang.toNat 16 2 ≠ 0)
    ∧ (x.core 0).latch = some (m.gang, m.wg, [otherMember f])
    ∧ [otherMember f].length + 1 = (gangList m.gang).length
    ∧ ((gangList m.gang).any fun i => x.breaksGang m.wg m.gang i) = false
    ∧ (x.member o 8).fmt = 0x11 ∧ (otherMember f).fmt = f := by
  rcases h with rfl | rfl <;>
    exact ⟨by decide +kernel, by decide +kernel, by decide +kernel, by decide +kernel, by decide +kernel, rfl⟩

/-- An idle accumulator store; one with an MSTO waiting. -/
def storing : State :=
  withR (base.setPart 0 { base.part 0 with
    jobs := [{ group := 0, id := 0, slot := 1, ctx := 0, tile := 2, region := 0, offset := 0, plane := 0, gen := false,
               form := .store none 4096 128 [] }] }) [.s 8 0x11]

/-- `storing` with no real lane among those that issue. -/
def storingHelpers : State := { storing with groups := [(0, some { storing.me with real := 4, helper := 1 })], cur := { base.cur with mask := 1 } }

theorem witness_TileForms :
    let o := ops (.t 31 false) .none .none
    let m := ops (.t 1 false) (.s 2) .none
    let s := storing
    let u := storingHelpers
    (o.d = .t 31 false ∧ base.act o ≠ 0 ∧ (base.part 0).jobs = [] ∧ (base.part 0).array = [] ∧ clockSource o = false)
    ∧ (∀ x ∈ [s, u], x.act m ≠ 0 ∧ (x.part 0).jobs.length = 1
        ∧ (x.part 0).jobs.all fun j => match j.form with | .zero _ | .pois _ => false | _ => true)
    ∧ (Instr.wf 256 (.mzero o false) = true ∧ Instr.wf 256 (.mpois (ops (.t 1 false) (.imm 1) .none)) = true)
    ∧ (Instr.wf 256 (.msto m false) = true ∧ pitchOk false (s.pitch m false) = true ∧ (s.dword m.a 0).toNat = 4096
      ∧ s.pitch m false = 128 ∧ s.realAct m ≠ 0
      ∧ ChecksPass s 2 16 (s.tileChecks (.store false) true 4096 128 false))
    ∧ (pitchOk false (u.pitch m false) = true ∧ u.realAct m = 0 ∧ u.mstaFaults false 4096 128 false = []
      ∧ ChecksPass u 2 16 (u.tileChecks (.store false) false 4096 128 false))
    ∧ (Instr.wf 256 (.mldt m false) = true ∧ ChecksPass s 1 16 (s.tileChecks (.load false) true 4096 128 false))
    ∧ (Instr.wf 256 (.msta m false 8) = true ∧ blkAcc (s.fmtOf 8) ≤ 3 ∧ false = acc16 (blkAcc (s.fmtOf 8))
      ∧ blkAcc (u.fmtOf 8) ≤ 3 ∧ false = acc16 (blkAcc (u.fmtOf 8))
      ∧ s.realAct m ≠ 0 ∧ s.mstaFaults true 4096 128 false = [] ∧ s.openCount < 256)
    ∧ (Instr.wf 256 (.mmov (ops (.v 224) (.t 1 false) .none) false) = true
      ∧ Instr.wf 256 (.mmov (ops (.t 1 true) (.v 240) .none) true) = true
      ∧ s.me.width = 32 ∧ 224 + 31 < s.me.regs ∧ 240 + 15 < s.me.regs) :=
  ⟨by decide +kernel, by decide +kernel, by decide +kernel,
   ⟨by decide, by decide +kernel, by decide +kernel, by decide +kernel, by decide +kernel, checksPass_of (by decide +kernel)⟩,
   ⟨by decide +kernel, by decide +kernel, by decide +kernel, checksPass_of (by decide +kernel)⟩,
   ⟨by decide, checksPass_of (by decide +kernel)⟩, by decide +kernel, by decide +kernel⟩

/-- A handler entered by both lanes in plane 0's issue, its frame at 4160. -/
def handled : Handling :=
  { entry := 5, code := 18, detail := 0, done := false, region := 0, offset := 0, frame := 4160,
    mid := { todo := [(0, 5)], dests := [], planes := [], begun := true } }

/-- `base` whose context record has 1 ring, a handler at 4096, its fault area at 5120, its call ring at 4096 and its trap
frames at 6144. -/
def trapping : State :=
  base.setAst 0 { (default : Ast) with
    body := bodyOf [(22, 2, 1), (32, 8, 4096), (40, 8, 5120), (48, 8, 4096), (56, 8, 6144)] }

theorem witness_TrapTaking :
    (trapping.ctxField trapping.me.ctx 32 8 ≠ 0 ∧ trapping.me.handling = none
      ∧ (trapping.launch trapping.me.launch).locate (trapping.ctxField trapping.me.ctx 32 8) = some (0, 0)
      ∧ (trapping.core (coreOf trapping.cur.group)).latch = none)
    ∧ Apart trapping 0 (addrs (5120 + 64 + 64 * (leNat (trapping.unitRead 0 (trapping.ctxField 0 40 8) 8).2 % 63)) 64
        ++ addrs (trapping.ctxField 0 40 8) 8 ++ addrs (trapping.trapElement 0 0) 64)
    ∧ (base.ctxField base.me.ctx 32 8 = 0 ∧ (base.ctxOf 0).fatal = false
      ∧ base.dsr = [])
    ∧ ((base.setCtx 0 { newContext with fatal := true }).ctxOf 0).fatal = true
    ∧ (let s := trapping.setGroup 0 { group0 with handling := some handled }
       s.ctxField s.me.ctx 32 8 ≠ 0 ∧ s.me.handling ≠ none)
    ∧ (let s := { trapping with launches := set base.launches 2 { placedLaunch with regions := [] } }
       s.ctxField s.me.ctx 32 8 ≠ 0 ∧ (s.launch s.me.launch).locate (s.ctxField s.me.ctx 32 8) = none) := by
  refine ⟨by decide +kernel, ?_, by decide +kernel, by decide +kernel, by decide +kernel, by decide +kernel⟩
  rw [show leNat (trapping.unitRead 0 (trapping.ctxField 0 40 8) 8).2 = 0 by decide +kernel,
    show trapping.ctxField 0 40 8 = 5120 by decide +kernel, show trapping.trapElement 0 0 = 6144 by decide +kernel]
  refine apart_page (n := 4096) (by decide +kernel) (by decide) (fun x hx => ?_) (by decide +kernel)
  simp only [List.mem_append, mem_addrs] at hx
  omega

/-- The split of `base` in its handler, with the DONE bit and the offset of its frame. -/
def inHandler (done : Bool) (off : Byte) : State :=
  { base with
    mem := (if done then [(4160, 8)] else []) ++ (if off = 0 then [] else [(4164, off)]),
    groups := [(0, some { group0 with handling := some handled, splits := [(0, some { split0 with handler := true, offset := 48 })] })] }

/-- A TRET without a handler, with a changed mask, to its own place before and after the last plane issue, to another
word, and to no word. -/
theorem witness_TrapReturn :
    base.me.handling = none
    ∧ (let s := { inHandler false 0 with cur := { base.cur with mask := 1 } }
       s.me.handling = some handled ∧ s.mySplit.handler = true ∧ s.cur.mask ≠ handled.entry &&& ~~~s.me.exited)
    ∧ (∀ done ∈ [false, true], ∀ off ∈ [(0 : Byte), 24, 2],
      let s := inHandler done off
      let fb := ((s.pocRead 0 0 handled.frame 64).1.unitRead 0 handled.frame 64).2
      let todo := (if (field fb 0 2).testBit 3 then handled.mid.todo.tail else handled.mid.todo).filter
        fun e => e.2 &&& s.mySplit.mask != 0
      s.me.handling = some handled ∧ s.mySplit.handler = true ∧ s.cur.mask = handled.entry &&& ~~~s.me.exited
      ∧ (look none s.me.splits s.cur.slot).isSome = true ∧ canonical none (s.core 0).l1 = true
      ∧ field fb 2 2 = handled.region ∧ field fb 4 4 = off.toNat ∧ (todo = [] ↔ done = true)
      ∧ (off = 24 → field fb 2 2 < (s.launch s.me.launch).regions.length ∧ field fb 4 4 % 4 = 0
        ∧ field fb 4 4 + 12 ≤ ((s.launch s.me.launch).region (field fb 2 2)).2.1)
      ∧ (off = 2 → field fb 4 4 % 4 ≠ 0))
    ∧ Alone (inHandler false 0).me 0 ∧ Apart (inHandler false 0) 0 (addrs handled.frame 64) := by
  refine ⟨by decide +kernel, by decide +kernel, by decide +kernel, ⟨by decide +kernel, ?_, by decide +kernel⟩,
    apart_page (n := 4096) (by decide +kernel) (by decide) (fun x hx => ?_) (addrs_nodup _ _)⟩
  · intro e he hne
    rw [show (inHandler false 0).me.splits = [(0, some { split0 with handler := true, offset := 48 })] by decide +kernel,
      List.mem_singleton] at he
    exact absurd (congrArg Prod.fst he) hne
  · rw [mem_addrs] at hx
    simp only [handled] at hx
    omega

/-- Codes 65,535 and 65,536; a context held in HOLD slot 0; tracing on and off. -/
theorem witness_SystemForms :
    let s := trapping
    let h := base.setReg (holdReg 0) (BitVec.ofNat 64 (2 ^ 63))
    let traced (s : State) : Bool := ringOn (s.reg trcCtl) && (s.reg (traceEn 0)).getLsbD 0
    (s.act (ops .none (.imm 0x0FFFF) .none) ≠ 0 ∧ (s.uword (.imm 0x0FFFF)).toNat ≤ 65535
      ∧ 65535 < (s.uword (.imm 0x10000)).toNat)
    ∧ ((ops (.s 4) .none .none).d = .s 4 ∧ s.recording s.me.ctx = false)
    ∧ (s.realAct (ops .none (.s 8) (.imm 0)) ≠ 0 ∧ (s.uword (.imm 0)).toNat < s.ctxField s.me.ctx 22 2)
    ∧ (h.isHeld h.me.ctx = true ∧ (h.part (partOf h.cur.group)).stopped = none ∧ s.isHeld s.me.ctx = false)
    ∧ traced s = false ∧ traced ((s.setReg trcCtl 0x104).setReg (traceEn 0) 1) = true ∧ partOf s.cur.group = 0 := by
  decide +kernel

/-- One lane of two, both; a free slot of the call ring, and none. -/
theorem witness_Syscalls :
    let s := { base with cur := { base.cur with mask := 1 } }
    let full := base.setCtx 0 { newContext with calls := (List.range 64).map fun k => (k, false) }
    (s.cur.mask &&& s.me.real ≠ s.me.real) ∧ base.cur.mask &&& base.me.real = base.me.real
    ∧ (base.uword (.imm 0x0FFFF)).toNat ≤ 65535 ∧ 65535 < (base.uword (.imm 0x10000)).toNat
    ∧ (trapping.ctxOf trapping.me.ctx).freeCall = some 0 ∧ (full.ctxOf full.me.ctx).freeCall = none
    ∧ clockSource (ops (.v 2) (.s 4) (.imm 0x0FFFF)) = false ∧ L1Ok trapping 0
    ∧ trapping.ctxField 0 48 8 = 4096 ∧ Apart trapping 0 (addrs 4096 1024) := by
  refine ⟨by decide +kernel, by decide +kernel, by decide +kernel, by decide +kernel, by decide +kernel,
    by decide +kernel, by decide, by unfold L1Ok; decide +kernel, by decide +kernel, ?_⟩
  refine apart_page (n := 4096) (by decide +kernel) (by decide) (fun x hx => ?_) (addrs_nodup _ _)
  rw [mem_addrs] at hx
  omega

theorem witness_EditIssues :
    let o := ops (.s 8) (.s 2) .none
    base.realAct o ≠ 0 ∧ (∀ x, aperture (base.dword o.a 0).toNat ≠ .stack x)
    ∧ base.check base.cur.group base.me 64 (.load false) (base.dword o.a 0).toNat 128 = .at (.dev 4096)
    ∧ clockSource o = false ∧ L1Ok base 0 ∧ (∀ i, i < 128 → overLink ((Loc.dev 4096).plus i) = false)
    ∧ LastPlane (withR base []) ∧ { base with cur := { base.cur with mask := 2 } }.realAct o = 0 :=
  ⟨by decide +kernel, fun x => by change aperture (base.dword (.s 2) 0).toNat ≠ _; rw [show (base.dword (.s 2) 0).toNat = 4096 by decide +kernel]; simp [aperture],
   by decide +kernel, by decide, by unfold L1Ok; decide +kernel, fun _ _ => rfl, lastPlane_base [], by decide +kernel⟩

/-- A result in flight that names F1 and F2. -/
def result1 : Result :=
  { id := 0, writes := [.v 4 0 7], set1 := 1, set2 := 2, fpx := 16, await := [], held := false, dest := 4, region := 0,
    offset := 0, plane := 0, log := none, due := none }

theorem witness_ResultLands :
    look none ({ base with groups := [(0, some { group0 with inflight := [result1], flags := [(1, 1), (2, 2)] })] } : State).groups 0
        = some { group0 with inflight := [result1], flags := [(1, 1), (2, 2)] }
    ∧ [result1][0]? = some result1 ∧ result1.await = [] ∧ result1.held = false ∧ result1.due = none
    ∧ (base.cluster (clusterOf 0)).cursor = 0 := by decide +kernel

/-- An MMA on the array of partition 0, waiting for its start or over, its result held. -/
def arrayed (t : Option Tile) : State :=
  let s := base.setPart 0 { base.part 0 with
    array := [{ group := 0, id := 0, ctx := 0, tile := 1, half := false, ops := default, asked := none, start := some 0,
                before := 0, tileAtStart := t, doneAt := 0, landed := [], region := 0, offset := 0, plane := 0 }] }
  s.setGroup 0 { group0 with inflight := [{ result1 with held := true }], flags := [(1, 1), (2, 2)] }

/-- A tile form of group 0 at the head of partition 0's order, over T1 with poisoned rows, with forms behind it; its
split waits for it, its result is held. -/
def draining (form : TileForm) (poison : BitVec 32) (behind : List TileForm) : State :=
  let job (f : TileForm) : TileJob :=
    { group := 0, id := 0, slot := 0, ctx := 0, tile := 1, region := 0, offset := 0, plane := 0, gen := false, form := f }
  let s := base.setPart 0 { base.part 0 with
    jobs := job form :: behind.map job, tiles := [(tileKey 0 1, { (default : Tile) with poison })] }
  let w : Waiting := { kind := .drain, conds := [], all := true, expiry := none, lanes := 5, region := 0, offset := 0, plane := 0, yield := false }
  { s.setGroup 0 { group0 with inflight := [{ result1 with held := true, writes := [.m 3 7] }],
                               splits := [(0, some { split0 with wait := some w })] } with
    cmds := [(5, some { kind := .msta 4096 128 0 false [] 0, key := 0, wg := 0, group := 0, seq := 1, index := 0, ctx := 0,
                        launch := 2, slot := 0, plane := 0, region := 0, offset := 0, bar := none, reqs := [], waiting := none,
                        here := false, fetch := [], arrived := false })] }

/-- The units of 32 rows of 64 bytes at 4096, pitch 128, and of 32 of 128. -/
def unitsAt (n : Nat) : List Loc := (List.range (32 * n)).map fun u => .dev (4096 + 128 * (u / n) + 16 * (u % n))

/-- Each form over clean rows, alone and with a form behind it that no rows stop; over poisoned rows; a result at the
head of the order, and one of another form. -/
theorem witness_ArrayAndTileSteps :
    ((arrayed none).startDue 0 = true ∧ ((arrayed none).part 0).array ≠ [])
    ∧ ((arrayed (some default)).completeDue 0 = true ∧ ((arrayed (some default)).part 0).array ≠ []
      ∧ ((arrayed (some default)).me.inflight.find? fun x => x.held && x.id == 0).isSome = true)
    ∧ (base.ctxOn 0 0 = true ∧ 31 < 32 ∧ (base.part 0).tiles.length < 32 ∧ (base.part 0).savedTiles = [])
    ∧ (∀ form ∈ [TileForm.out none 5 32, .add none 5, .store none 4096 128 (unitsAt 8), .fill none 5 0],
      ∀ behind ∈ [[], [TileForm.zero none], [TileForm.zero (some true)], [TileForm.pois 3], [TileForm.out none 5 32]],
      let s := draining form 4 behind
      (s.part 0).jobs.length = 1 + behind.length ∧ (s.part 0).array = []
      ∧ (look none s.groups 0).isSome = true ∧ (form.drains = true → ((s.part 0).tile (tileKey 0 1)).poison &&& form.reads ≠ 0)
      ∧ s.dropOption 0 = false)
    ∧ (((draining (.out none 5 32) 0 []).part 0).tile (tileKey 0 1)).poison &&& TileForm.reads (.out none 5 32) = 0
    ∧ (∃ c, look none (draining (.add none 5) 0 []).cmds 5 = some c ∧ c.kind = .msta 4096 128 0 false [] 0)
    ∧ (rowBytes (none : Option Bool).isSome = 128 ∧ (unitsAt 8).length = 32 * 8 ∧ (draining (.store none 4096 128 (unitsAt 8)) 0 []).poison = [])
    ∧ (let s := draining (.fill none 5 0) 0 []
       s.me.inflight[0]?.isSome = true ∧ (s.me.inflight.find? fun x => x.held && x.id == 0).isSome = true
       ∧ (s.me.inflight.map fun r => (r.held, r.await, r.due, r.id)) = [(true, [], none, 0)]
       ∧ (s.cluster 0).cursor = 0) := by
  refine ⟨by decide +kernel, by decide +kernel, by decide +kernel, by decide +kernel, by decide +kernel,
    ⟨_, rfl, rfl⟩, by decide +kernel, by decide +kernel⟩

theorem units_apart {u v : Nat} {l m : Loc} (h : u < v) (hl : (unitsAt 8)[u]? = some l) (hm : (unitsAt 8)[v]? = some m)
    (i k : Nat) (hi : i < 16) (hk : k < 16) : l.plus i ≠ m.plus k := by
  simp only [unitsAt, List.getElem?_map, Option.map_eq_some_iff] at hl hm
  obtain ⟨x, hx, rfl⟩ := hl
  obtain ⟨y, hy, rfl⟩ := hm
  obtain ⟨-, rfl⟩ := List.getElem?_eq_some_iff.mp hx
  obtain ⟨-, rfl⟩ := List.getElem?_eq_some_iff.mp hy
  simp only [List.getElem_range]
  simp only [Loc.plus, ne_eq, Loc.dev.injEq]
  omega

/-- Die 0 runs and each cluster has run its cycles, at a hop of a round. -/
def upAt (hop : Nat) : State := { base with hop, diesT := [(0, some { (default : Die) with started := true })] }

theorem witness_MarketSteps :
    (upAt 0).hopReady = true ∧ base.hopReady = false
    ∧ ((upAt 13999).started ≠ [] ∧ (upAt 13999).lastHop = true ∧ (upAt 13999).hopDone = true
      ∧ (upAt 13999).cleared = false)
    ∧ (look none ((upAt 0).setCluster 3 { (default : Cluster) with halted := true }).clusters 3
        = some { (default : Cluster) with halted := true })
    ∧ ((((upAt 0).setCluster 3 { (default : Cluster) with wanting := [(768, 2)] }).cluster 3).reservation = none
      ∧ (((upAt 0).setCluster 3 { (default : Cluster) with wanting := [(768, 2)] }).cluster 3).wanting = [(768, 2)]) := by
  decide +kernel

/-- A split waiting on a monitor of a word at 4096 for a value, with P1 for the result. -/
def waitsFor (v : Word) (met expiry : Option Nat) : Waiting :=
  { kind := .explicit (.p 1),
    conds := [{ kind := .monitor, addr := 4096, value := v, ne := false, scope := .dev, acq := false, met, tested := 0 }],
    all := true, expiry, lanes := 5, region := 0, offset := 0, plane := 0, yield := false }

def waitingOn (w : Waiting) (mkind hop : Nat) : State :=
  { base with
    hop, maps := [(1, some { placedMap with mkind, target := 8192 })],
    groups := [(0, some { group0 with splits := [(0, some { split0 with wait := some w, offset := 12 })] })] }

/-- A join satisfied, an expiry passed; a poll of host memory that is due. -/
theorem witness_WakingSteps :
    (let s := waitingOn (waitsFor 0 (some 0) none) 0 0
     ((s.group 0).split 0).wait = some (waitsFor 0 (some 0) none) ∧ (waitsFor 0 (some 0) none).kind = .explicit (.p 1)
     ∧ s.recording (s.group 0).ctx = false ∧ (look none (s.group 0).splits 0).isSome = true ∧ s.wakeable 0 0 = true)
    ∧ (waitingOn (waitsFor 9 none (some 1)) 0 28).timedOut 0 0 = true
    ∧ (let w := waitsFor 0 none none
       let s := waitingOn w 1 1400
       ∃ c, (look none (s.group 0).splits 0).isSome = true ∧ ((s.group 0).split 0).wait = some w ∧ w.conds[0]? = some c
        ∧ s.pollDue (s.group 0) c = some 8192) :=
  ⟨by decide +kernel, by decide +kernel, (waitsFor 0 none none).conds.headD default, by decide +kernel⟩

/-- The completion of a poll, before and after 5,000 ticks. -/
theorem witness_WakingSteps_completion :
    ∀ tick ∈ [10, 5000, 6000],
      let w := waitsFor 0 none none
      let q := { outReq false false (.monitor 0 0) with regs := [] }
      let s := { waitingOn w 1 (14 * tick) with port := { Port.reset with out := [q] } }
      s.sent 3 = some q ∧ q.kind = .monitor 0 0 ∧ q.hevis = false ∧ q.lost = false ∧ s.isMaker q.origin = true
      ∧ (look none (s.group 0).splits 0).isSome = true ∧ ((s.group 0).split 0).wait = some w
      ∧ w.conds.map (fun c => (c.kind, c.met, c.addr.toNat)) = [(.monitor, none, q.origin.va)]
      ∧ s.tick = tick ∧ q.sentTick = 0 := by
  decide +kernel

/-- An address of the one page, as an engine command of context 0 reaches it. -/
theorem engAt_page {s : State} (hs : s.maps = base.maps) {c : Cmd} (hc : c.ctx = 0) {a n : Nat} {w : Bool}
    (h1 : 4096 ≤ a) (h2 : a < 8192) : s.engAt c a n w = .at (.dev a) := by
  have hg : aperture a = .global a := by unfold aperture; rw [if_pos (by omega)]
  obtain ⟨hm, hl⟩ := page_byte (hs.trans base_maps) (by decide) h1 h2
  unfold State.engAt
  simp only [hg, hc, hm]
  rw [hl]
  cases w <;> rfl

/-- Command 5 of batch 1 of group 0, of its kind. -/
def cmd (kind : CmdKind) : Cmd :=
  { kind, key := 0, wg := 0, group := 0, seq := 1, index := 0, ctx := 0, launch := 2, slot := 0, plane := 0,
    region := 0, offset := 0, bar := none, reqs := [], waiting := none, here := false, fetch := [], arrived := false }

/-- A closed batch of one performed command. -/
def batch1 : Batch := { seq := 1, closed := true, fresh := false, count := 1, done := 1, tags := [], whole := true, named := [] }

def withCmd (c : Cmd) : State :=
  { base with
    cmds := [(5, some c)],
    groups := [(0, some { group0 with tags := [(8, some (handleWord 1 0))] })],
    wgs := [(0, some { placedWg with batches := [(0, batch1)] })] }

theorem withCmd_maps (c : Cmd) : (withCmd c).maps = base.maps := rfl

theorem witness_EngineSteps :
    (let c := { cmd (.copy 5120 4096 16) with reqs := [20] }
     let s := withCmd c
     look none s.cmds 5 = some c ∧ c.kind = .copy 5120 4096 16 ∧ c.reqs = [5120 / 256] ∧ c.waiting = none ∧ c.bar = none
     ∧ c.fetch = []
     ∧ s.engAt c 5120 16 true = .at (.dev 5120) ∧ s.engAt c 4096 16 false = .at (.dev 4096)
     ∧ ∀ i, i < 16 → s.poisoned (.dev (4096 + i)) = false)
    ∧ (let c := { cmd (.copy 5120 4096 16) with waiting := some 1 }
       let s := (withCmd c).setAst 1 { (default : Ast) with phase := .live }
       (look none s.cmds 5 = some c ∧ c.waiting = some 1 ∧ s.pageIsHere c.ctx 1 = true
         ∧ { c with here := true }.here = true ∧ c.here = false ∧ (withCmd c).pageIsHere c.ctx 1 = false)
       ∧ (s.wgOf 0).batches.find? (fun e => e.1 == 1 / 2 ^ 24 % 16 && e.2.seq == 1 % 2 ^ 24 && e.2.closed
           && e.2.count == e.2.done) = some (0, batch1)
       ∧ (s.cluster ((s.wgOf 0).core / 4)).cursor = 0 ∧ s.answered batch1.tags = true
       ∧ (sending true false .store s).answered [3] = false
       ∧ look none s.groups 0 ≠ none ∧ (s.group 0).wg = 0)
    ∧ (let c := { cmd (.msta 4096 128 4 false [(3, 7)] 1) with arrived := true }
       let s := withCmd c
       look none s.cmds 5 = some c ∧ c.kind = .msta 4096 128 4 false [(3, 7)] 1 ∧ c.arrived = true ∧ c.waiting = none
       ∧ c.fetch = [] ∧ rowBytes false ≤ 128 ∧ s.poison = []
       ∧ ∀ a n, 4096 ≤ a → a < 4096 + 32 * 128 → s.engAt c a n true = .at (.dev (4096 + (a - 4096)))) := by
  refine ⟨by decide +kernel, by decide +kernel, by decide +kernel, rfl, rfl, rfl, rfl, by decide, by decide +kernel, ?_⟩
  intro a n h1 h2
  rw [engAt_page (withCmd_maps _) rfl h1 (by omega), show 4096 + (a - 4096) = a by omega]

/-- A COLL of 2 members over 4 elements, at the object at 4096, from 4608 to 5120 and from 5632 to 6144. -/
def collBlock (rank : Nat) : BitVec 128 := 2#16 ++ BitVec.ofNat 16 rank ++ 4#32 ++ 4096#64

def collCmd (rank : Nat) : Cmd :=
  { cmd (.coll .add .f32 (5120 + 1024 * rank) (4608 + 1024 * rank) (collBlock rank)) with arrived := false }

def collective : Collective :=
  { members := [(1, 6), (0, 5)], parts := 2, count := 4, op := .add, t := .f32, late := [], fetch := none, await := none }

def collState : State :=
  { withCmd (collCmd 0) with
    mem := [(4102, 2)],
    cmds := [(5, some { collCmd 0 with arrived := true }), (6, some { collCmd 1 with arrived := true })],
    colls := [(8192, some collective)] }

theorem witness_Collectives :
    (let s := withCmd (collCmd 0)
     look none s.cmds 5 = some (collCmd 0) ∧ (collCmd 0).kind = .coll .add .f32 5120 4608 (collBlock 0)
     ∧ (collCmd 0).arrived = false ∧ (collCmd 0).waiting = none
     ∧ s.engAt (collCmd 0) (collObj (collBlock 0)) 16 true = .at (.dev 4096) ∧ look none s.colls (2 * 4096) = none)
    ∧ (let s := collState
       let k := collective
       let dst (i : Nat) : Nat := 5120 + 1024 * (i - 5)
       let src (i : Nat) : Nat := 4608 + 1024 * (i - 5)
       let n := k.count * collSize k.t
       look none s.colls (2 * 4096) = some k ∧ k.fetch = none ∧ k.await = none ∧ k.members ≠ [] ∧ leNat (s.peeks (.dev (4096 + 6)) 2) = k.parts ∧ 1 ≤ k.count ∧ byRank k = [5, 6]
       ∧ (∀ i ∈ byRank k, ∃ o y du su blk, (s.cmd i).kind = .coll o y du su blk
         ∧ (∀ a z, du ≤ a → a < du + n → s.engAt (s.cmd i) a z true = .at (.dev (dst i + (a - du))))
         ∧ (∀ a z, su ≤ a → a < su + n → s.engAt (s.cmd i) a z false = .at (.dev (src i + (a - su))))
         ∧ (dst i + n ≤ 4096 ∨ 4096 + 16 ≤ dst i))
       ∧ ∀ i ∈ byRank k, ∀ j ∈ byRank k, i ≠ j → dst i + n ≤ dst j ∨ dst j + n ≤ dst i) := by
  have hr : byRank collective = [5, 6] := by decide +kernel
  have hn : collective.count * collSize collective.t = 16 := by decide +kernel
  refine ⟨by decide +kernel, by decide +kernel, rfl, rfl, by decide, by decide +kernel, by decide, hr, ?_, by rw [hr, hn]; decide⟩
  rw [hr, hn]
  intro i hi
  obtain rfl | rfl : i = 5 ∨ i = 6 := by simpa using hi
  · exact ⟨.add, .f32, 5120, 4608, collBlock 0, rfl,
      fun a z h1 h2 => by rw [engAt_page (s := collState) rfl rfl (by omega) (by omega), show 5120 + 1024 * (5 - 5) + (a - 5120) = a by omega],
      fun a z h1 h2 => by rw [engAt_page (s := collState) rfl rfl (by omega) (by omega), show 4608 + 1024 * (5 - 5) + (a - 4608) = a by omega],
      by decide⟩
  · exact ⟨.add, .f32, 6144, 5632, collBlock 1, rfl,
      fun a z h1 h2 => by rw [engAt_page (s := collState) rfl rfl (by omega) (by omega), show 5120 + 1024 * (6 - 5) + (a - 6144) = a by omega],
      fun a z h1 h2 => by rw [engAt_page (s := collState) rfl rfl (by omega) (by omega), show 4608 + 1024 * (6 - 5) + (a - 5632) = a by omega],
      by decide⟩

def awaiting : Group := { group0 with inflight := [{ result1 with writes := [.v 4 0 0], await := [3] }] }

def requesting (q : OutReq) (tick : Nat) : State :=
  { base with hop := 14 * tick, groups := [(0, some awaiting)], port := { Port.reset with out := [q] } }

/-- Requests over each link, reaching their end or lost, at the ticks about the resending and the time-out; the last
sending; a first and a repeated arrival. -/
theorem witness_LinkSteps :
    (∀ hevis ∈ [true, false], ∀ lost ∈ [true, false], ∀ kind ∈ [OutKind.read, .register 4, .rmw 1], ∀ n ∈ [1, 7, 8],
      ∀ tick ∈ [499, 500, 5000, 5001],
      let q := { outReq hevis lost kind with attempts := n }
      let s := requesting q tick
      let r : Result := { result1 with writes := [.v 4 0 0], await := [3] }
      s.sent 3 = some q ∧ look none s.groups q.origin.group = some awaiting
      ∧ q.kind ≠ .unit ∧ (match q.kind with | .fetch _ => false | _ => true) = true
      ∧ (s.maps.all fun e => match e.2 with | some m => m.mkind == 0 | none => true) = true
      ∧ awaiting.inflight.findIdx? (fun x => x.await.contains 3) = some 0 ∧ awaiting.inflight[0]? = some r ∧ r.log = none
      ∧ s.tick = tick ∧ q.sentTick = 0 ∧ q.hevis = hevis ∧ q.nonPosted = !hevis ∧ q.lost = lost)
    ∧ (let s := { base with stage := 2, boot := { base.boot with cfg := leBytes 36 0 ++ leBytes 4 64 } }
       let r := { s with port := { s.port with applied := [(1, 9, [7])] } }
       s.stage = 2 ∧  s.port.applied.find? (fun e => e.1 == 1 && e.2.1 == 9) = none
       ∧ r.port.applied.find? (fun e => e.1 == 1 && e.2.1 == 9) = some (1, 9, [7])
       ∧ (∀ i, i < 8 → devExists (4096 + i) = true ∧ s.inTables (4096 + i) = false) ∧ s.tableBytes = 2 ^ 26
       ∧ ∀ i, i < 4 * Ty.regs .i64 → s.poisoned (.dev (canonicalDev 4096 + i)) = false) := by
  refine ⟨by decide +kernel, by decide +kernel⟩

/-- A SET of CTX record 7. -/
def ctxEdit : List Byte :=
  bodyOf [(8, 4, 7), (12, 2, 1), (14, 2, 1), (24, 4, 1), (28, 2, 1), (40, 8, 4096), (48, 8, 65536), (56, 8, 4096),
    (64, 8, 4096), (72, 8, 4096)]

def edit (data : List Byte) : Edit :=
  { page := some 0, ctx := 0, part := 0, group := 0, slot := 0, region := 0, offset := 0, plane := 0, dest := 0,
    mask := 5, id := 0, await := [], f := false, data, tick := 0 }

def editing (data : List Byte) : State :=
  let s := upAt 13
  { s with port := { s.port with presented := true, edits := [edit data] } }

/-- `s` under a configuration block that asks for IDE, and outside every stream. -/
def ideOnly (s : State) : State := { s with boot := { s.boot with cfg := bodyOf [(12, 4, 1)] } }

/-- The edit of the group of `base`, whose context may edit, its result in S8:S9, when the port is to decide it. -/
def editingBy (f : Bool) (data : List Byte) : State :=
  let s := editing data
  { s with port := { s.port with edits := [{ edit data with page := none, dest := 520, f }] },
           groups := [(0, some { group0 with inflight := [{ result1 with held := true, dest := 520 }] })],
           dsr := [(0, some { version := 1, kind := 1, present := true, body := bodyOf [(19, 1, 4), (24, 4, 8)], fresh := false })] }

theorem witness_EditPort :
    (let s := editing ctxEdit
     s.port.presented = true ∧ s.ideRefuses false = false ∧ ctxEdit.length = 128 ∧ s.hostEdits < 64
     ∧ (ideOnly s).ideRefuses false = true ∧ (ideOnly s).port.presented = true ∧ base.port.presented = false)
    ∧ (let s := editing ctxEdit
       let full := { s with port := { s.port with edits := List.replicate 64 (edit ctxEdit) } }
       64 ≤ full.hostEdits ∧ full.port.presented = true ∧ full.ideRefuses false = false)
    ∧ (∀ data, data = ctxEdit ∨ data = List.replicate 128 0 →
      let s := editing data
      s.editDue = true ∧ s.hopDone = true ∧ s.port.edits = [] ++ edit data :: [] ∧ (edit data).page = some 0 ∧ (edit data).await = [])
    ∧ ((editing ctxEdit).decide (some 0) 0 ctxEdit).1 = .ok
    ∧ ((editing (List.replicate 128 0)).decide (some 0) 0 (List.replicate 128 0)).1 = .malformed := by
  refine ⟨by decide +kernel, by decide +kernel, ?_, by decide +kernel, by decide +kernel⟩
  rintro data (rfl | rfl) <;> decide +kernel

/-- A SET of QUEUE record 7 of context 0, of the version that stands, 0, or of another. -/
def queueEdit (expect : Nat) : List Byte :=
  bodyOf [(0, 8, expect), (8, 4, 7), (12, 2, 4), (14, 2, 1), (20, 2, 1), (22, 2, 16), (24, 8, 4096)]

/-- A refused edit, an accepted one and one in conflict, by EDIT and by EDIT.f. -/
theorem witness_EditPort_group :
    ∀ f ∈ [false, true], ∀ x ∈ [(List.replicate 128 0, .malformed), (queueEdit 0, .ok), (queueEdit 9, EditStatus.conflict)],
      let s := editingBy f x.1
      let e : Edit := { edit x.1 with page := none, dest := 520, f }
      s.editDue = true ∧ s.hopDone = true ∧ s.port.edits = [e] ∧ e.page = none ∧ e.f = f
      ∧ look none s.groups e.group = some (s.group 0) ∧ s.recording (s.group 0).ctx = false
      ∧ (s.decide e.page e.ctx e.data).1 = x.2
      ∧ e.await = []
      ∧ (s.group 0).inflight.findIdx? (fun r => r.held && r.id == e.id) = some 0 ∧ 512 ≤ e.dest ∧ e.dest < 639
      -- an earlier edit whose bytes are still to come stands aside, and alone none is due
      ∧ (let late : Edit := { e with await := [4] }
         let t := { s with port := { s.port with edits := [late, e] } }
         t.editDue = true ∧ late.await ≠ [] ∧ ({ s with port := { s.port with edits := [late] } } : State).editDue = false) := by
  decide +kernel

def presented : State := { base with port := { Port.reset with presented := true, pending := [5] } }

/-- A register of each kind; requests under IDE_REQUIRED outside a stream; places that exist and one that does not. -/
theorem witness_HostRequests :
    [0, 0x200100, 0x201010, 0x201000, 0x201100, 0x201200, 0x200200, 0x210008, 0x202000, 0x201018].map regKind
      = [.plain, .counter, .masked 0x11F, .budget, .die 0, .cluster 0, .requests 0 0, .vector 0, .command, .none]
    ∧ (presented.port.presented = true ∧ presented.ideRefuses false = false
      ∧ (let s := { presented with boot := { presented.boot with cfg := leBytes 36 0 ++ leBytes 4 64 } }
         ∀ i, i < 4 → devExists (4096 + i) = true ∧ s.inTables (4096 + i) = false
           ∧ devExists (hbmBytes - 4 + i) = true ∧ s.inTables (hbmBytes - 4 + i) = true))
    ∧ devExists (2 ^ 48) = false
    ∧ (presented.port.unmasked.contains 5 = false ∧ presented.port.functionMasked = false
      ∧ presented.port.pending.contains 5 = true)
    ∧ ({ presented.port with unmasked := [5] }.unmasked.contains 5 = true ∧ { presented.port with functionMasked := true }.functionMasked = true)
    ∧ (presented.dbgBusy = false ∧ (presented.setReg 0x202010 (BitVec.ofNat 64 (2 ^ 48))).dbgBusy = true)
    ∧ ((ideOnly presented).ideRefuses false = true ∧ (ideOnly presented).port.presented = true)
    ∧ base.port.presented = false := by decide +kernel

theorem witness_SpdmAnswers :
    presented.port.presented = true
    ∧ (let s := { presented with port := { presented.port with algorithms := true }, boot := { presented.boot with identity := some [1] } }
       s.port.algorithms = true ∧ s.boot.identity = some [1] ∧ s.port.presented = true)
    ∧ presented.boot.identity = none ∧ presented.port.algorithms = false ∧ presented.port.session = 0
    ∧ ∀ n, n = 1 ∨ n = 2 →
      let s := { presented with port := { presented.port with session := n } }
      s.port.presented = true ∧ s.port.session = n := by
  refine ⟨by decide +kernel, by decide +kernel, by decide +kernel, by decide +kernel, by decide +kernel, ?_⟩
  rintro n (rfl | rfl) <;> decide +kernel

/-- The trace ring at 4096 with capacity 16, its consumer at `c`, and a record for it. -/
def ringing (p c : Nat) (cons : Option Bool) : State :=
  let s := (base.setReg trcCtl (BitVec.ofNat 64 (256 + 4))).setReg trcBase 4096
  { s with ext := putList 0 (putList 0 [] 4096 (leBytes 8 p)) 4104 (leBytes 8 c),
           notices := [{ ring := .trace, data := List.replicate 32 9, after := [], cons }] }

/-- Context 0 has its call ring at 4096 with slot 0 in use and `call` in its record. -/
def calling (call : Nat) : State :=
  let s := base.setAst 0 { (default : Ast) with body := bodyOf [(48, 8, 4096)] }
  { s.setCtx 0 { newContext with calls := [(0, false)], free := [(12, 4096)], taken := [(6, 64), (6, 0)] } with
    mem := putList 0 s.mem 4098 (leBytes 2 call) }

/-- A ring yet to ask for CONS, one with room and a full one, and one whose CONS did not come; calls 4, 5 and 0; a heap
block, and one whose buddy is taken. -/
theorem witness_RecordsAndCalls :
    (∀ c ∈ [0, 2 ^ 32 - 16], ∀ cons ∈ [none, some false, some true],
      let s := ringing 0 c cons
      let n : Notice := { ring := .trace, data := List.replicate 32 9, after := [], cons }
      let r : RingAt := { ctx := none, base := 4096, cap := 16, slot := 32, route := none }
      s.notices[0]? = some n ∧ s.answered n.after = true ∧ s.ringAt n.ring = some r ∧ n.data.length = r.slot
      ∧ s.port.out = [] ∧ leNat (s.peeks (.ext (r.base + 8)) 8) = c ∧ leNat (s.peeks (.ext r.base) 8) = 0)
    ∧ (∀ call ∈ [4, 5, 0],
      let s := calling call
      let c := s.ctxOf 0
      look none s.ctxs 0 = some c ∧ c.paging = none ∧ c.calls.find? (fun e => !e.2) = some (0, false)
      ∧ s.callSlot 0 0 = 4096 ∧ leNat (s.ctxRead 0 (4096 + 2) 2) = call)
    ∧ Apart (calling 5) 0 (addrs (4096 + 4) 4)
    ∧ (let c := (calling 0).ctxOf 0
       (∀ e ∈ c.free, e.2 % 2 ^ e.1 = 0) ∧ (c.alloc 12 100).2 = some 4096
       ∧ c.taken.find? (fun e => e.2 == 64) = some (6, 64) ∧ (6, 0) ∉ c.free) := by
  refine ⟨by decide +kernel, by decide +kernel, ?_, by decide +kernel⟩
  refine apart_page (n := 4096) (by decide +kernel) (by decide) (fun x hx => ?_) (addrs_nodup _ _)
  rw [mem_addrs] at hx
  omega

/-- Record 9, a CTX record, alone; its entry in a phase. -/
def ctxRecord (present : Bool) : Record :=
  { version := 3, kind := 1, present, body := ctxEdit, fresh := true }

def blocking (present : Bool) (phase : Phase) (mark working : Nat) : State :=
  { State.reset with
    stage := 1, dsr := [(9, some (ctxRecord present))],
    ast := [(9, some { (default : Ast) with phase, mark, working, body := ctxEdit })] }

/-- Queue record 9 drains, its grace of 1 tick over with 2 entries left. -/
def closing : State :=
  { base with
    stage := 1, hop := 28, dsr := [(9, some { version := 3, kind := 4, present := false, body := bodyOf [(40, 4, 1)], fresh := false })],
    ast := [(9, some { (default : Ast) with phase := .draining, body := bodyOf [(40, 4, 1)] })],
    queues := [(9, some { ctx := 0, cb := 4096, closedAt := some 1, copied := none })],
    mem := putList 0 [] 4108 [2] }

theorem witness_BlockerSteps :
    (∀ x ∈ [(true, Phase.absent, 0, 0), (true, .pending, 0, 3), (true, .building, 0, 3), (false, .live, 2, 2),
        (false, .draining, 2, 3)],
      let s := blocking x.1 x.2.1 x.2.2.1 x.2.2.2
      s.stage ≠ 0 ∧ s.dsr = [(9, some (ctxRecord x.1))] ∧ (ctxRecord x.1).kind = 1
      ∧ look none s.maps 9 = none ∧ look none s.launches 9 = none ∧ look none s.queues 9 = none
      ∧ (s.astOf 9).phase = x.2.1 ∧ (s.astOf 9).mark = x.2.2.1 ∧ (s.astOf 9).working = x.2.2.2)
    ∧ (∃ q, look none closing.queues 9 = some q ∧ q.closedAt = some 1 ∧ (closing.astOf 9).phase = .draining
      ∧ closing.stage ≠ 0 ∧ look none closing.maps 9 = none ∧ look none closing.launches 9 = none
      ∧ closing.plan.map (·.1) = some 9
      ∧ (closing.record 9).present = false ∧ 1 + field (closing.body 9) 40 4 ≤ closing.tick ∧ closing.entries q = 2
      ∧ q.ctx = 0 ∧ q.cb = 4096)
    ∧ Apart closing 0 (addrs (4096 + 8) 8) := by
  refine ⟨by decide +kernel, ⟨(look none closing.queues 9).getD default, by decide +kernel⟩, ?_⟩
  refine apart_page (n := 4096) (by decide +kernel) (by decide) (fun x hx => ?_) (addrs_nodup _ _)
  rw [mem_addrs] at hx
  omega

/-- Launch 2 of `base` is yet to start, context 0 with a save area of 19 units at 4096. -/
def placing : State :=
  { base with
    groups := [], wgs := [], launches := [(2, some { placedLaunch with next := 0, started := 0 })],
    ast := [(0, some { (default : Ast) with body := bodyOf [(72, 8, 4096)] }), (2, some { (default : Ast) with phase := .live })],
    mem := putList 0 [] 4096 (leBytes 8 81920) }

/-- The same launch while its record is BUILDING, its first work cluster the planned step. -/
def building : State :=
  { placing with
    stage := 2, dsr := [(0, some { version := 1, kind := 1, present := true, body := [], fresh := false }),
                        (2, some { version := 5, kind := 3, present := true, body := bodyOf [(24, 4, 0)], fresh := false })],
    ast := [(0, some { (default : Ast) with phase := .live, mark := 1, working := 1, body := bodyOf [(72, 8, 4096)] }),
            (2, some { (default : Ast) with phase := .building, working := 5, progress := 3, body := bodyOf [(24, 4, 0)] })] }

/-- Every lane of the group of `base` has exited. -/
def leaving : State := { base with groups := [(0, some { group0 with splits := [], exited := 5 })] }

/-- The workgroup of `base` with its state and window; the page a megabyte, the save area at its start. -/
def wgState (w : Workgroup) : State :=
  { base with
    wgs := [(0, some w)], groups := [(0, some { group0 with regs := 8 })],
    ast := [(0, some { (default : Ast) with body := bodyOf [(72, 8, 4096)] }), (2, some { (default : Ast) with phase := .live })],
    maps := [(1, some { placedMap with length := 2 ^ 20 })] }

def awayWg : Workgroup := { placedWg with state := .away, groups := [noSlot], saved := [(0, some { group0 with regs := 8 })] }

/-- Workgroup 1 is away and is to return to core 0, where workgroup 0 still owns 256 bytes of its window. -/
def claiming : State :=
  { wgState { awayWg with sharedBytes := 256 } with
    groups := [],
    launches := [(2, some { placedLaunch with shared := 262144 })],
    wgs := [(0, some { awayWg with sharedBytes := 256, groups := [] , saved := [] }),
            (1, some { awayWg with sharedBytes := 262144, claimed := true, moving := some 0 })] }

theorem witness_WorkgroupSteps :
    (let s := placing
     let l := s.launch 2
     (s.astOf 2).phase ≠ .building ∧ s.offers = [2]
     ∧ (match s.planFrom l (s.batchOf 2) l.next s.room with
        | some [(core, spots)] =>
          decide (core = 0 ∧ spots.length = 1) && s.unowned l.need [(core, spots)]
        | _ => false) = true
     ∧ s.fitUnits l.ctx l.unitsPerWg = some 0)
    ∧ (let s := building
       let l := s.launch 2
       (s.astOf 2).phase = .building ∧ (s.record 2).kind = 3 ∧ (s.astOf 2).working = (s.record 2).version ∧ l.coop = false
       ∧ l.next = 0 ∧ s.plan.map (·.1) = some 2 ∧ s.offers = [2] ∧ s.fitUnits l.ctx l.unitsPerWg = some 0
       ∧ (match s.planFrom l (s.batchOf 2) l.next s.room with
         | some [(core, spots)] => s.unowned l.need [(core, spots)]
         | _ => false) = true)
    ∧ ((look none leaving.groups 0).isSome = true ∧ (leaving.group 0).finished = true ∧ leaving.quiet 0 = true)
    ∧ (∀ draining : Bool,
      let w := { placedWg with state := .stopping, draining }
      let s := wgState w
      look none s.wgs 0 = some w ∧ (s.core w.core).latch = none ∧ s.stillWg w = true ∧ w.keys = [0]
      ∧ w.missing = [] ∧ (s.ctxOf w.ctx).fatal = false ∧ w.preempted = false
      ∧ s.writable 0 (s.unitAddr 0 (w.unit + 19 * 0)) (s.frameOf 0 false).length = true)
    ∧ (let s := { wgState awayWg with groups := [] }
       s.outranked 2 = false ∧ s.returnCore 0 = some 0 ∧ s.windowFree 0 0 = true ∧ s.areasHeld 2 = true
       ∧ (s.takeSome s.room 0 (s.launch 2).need true (keys awayWg.saved)).isSome = true ∧ awayWg.state = .away ∧ awayWg.missing = []
       ∧ awayWg.core = 0 ∧ (s.ctxOf 0).fatal = false)
    ∧ (let w := { awayWg with core := 1, sharedBytes := 256 }
       let s := { wgState w with groups := [] }
       s.outranked 2 = false ∧ s.returnCore 0 = some 0 ∧ s.windowFree 0 0 = true ∧ s.areasHeld 2 = true
       ∧ w.core ≠ 0 ∧ w.moving = none ∧ w.claimed = false ∧ w.sharedBytes ≠ 0
       ∧ s.writable w.ctx (s.unitAddr w.ctx (w.unit + 19 * (s.launch w.launch).need.groups)) w.sharedBytes = true)
    ∧ (let s := claiming
       s.wanted 0 = true ∧ s.claimVictim 0 = some 0
       ∧ s.writable 0 (s.unitAddr 0 (0 + 19 * (s.launch 2).need.groups)) 256 = true) := by
  refine ⟨by decide +kernel, by decide +kernel, by decide +kernel, fun d => ?_, by decide +kernel, by decide +kernel, by decide +kernel⟩
  cases d <;> decide +kernel

/-- The group that is saved fits its frame, whose bytes lie apart in the page of a megabyte; so does the window. -/
theorem witness_WorkgroupSteps_frame :
    let s := wgState { placedWg with state := .stopping }
    let n := 0x2900 + 4 * ((s.group 0).regs * (s.group 0).width)
    (s.core 0).l1 = [] ∧ FrameFits (s.group 0) ∧ s.unitAddr 0 (0 + 19 * 0) = 8192 ∧ n = 11520
    ∧ Apart s 0 (addrs 8192 11520)
    ∧ claiming.unitAddr 0 (0 + 19 * (claiming.launch 2).need.groups) = 86016 ∧ Apart claiming 0 (addrs 86016 256) := by
  refine ⟨by decide +kernel, ⟨by decide +kernel, fun l => ?_, fun l => ?_, by decide +kernel, fun k w h => ?_⟩,
    by decide +kernel, by decide +kernel, ?_, by decide +kernel, ?_⟩
  · rw [show ((wgState { placedWg with state := .stopping }).group 0).links = [] by decide +kernel]
    simp [look]
  · rw [show ((wgState { placedWg with state := .stopping }).group 0).planes = [] by decide +kernel]
    simp [look]
  · have hs : ((wgState { placedWg with state := .stopping }).group 0).splits = [(0, some split0)] := by decide +kernel
    exfalso
    unfold Group.split at h
    rw [hs] at h
    by_cases hk : k = 0
    · subst hk
      simp [look, split0] at h
    · have : look none [(0, some split0)] k = none := by simp [look]; omega
      rw [this] at h
      exact absurd h (by simp [show (default : Split).wait = none from rfl])
  · refine apart_page (n := 2 ^ 20) (by decide +kernel) (by decide) (fun x hx => ?_) (addrs_nodup _ _)
    rw [mem_addrs] at hx
    omega
  · refine apart_page (n := 2 ^ 20) (by decide +kernel) (by decide) (fun x hx => ?_) (addrs_nodup _ _)
    rw [mem_addrs] at hx
    omega

/-- A register write's fields, for the forms below. -/
def regValue (fs : List (Nat × Nat)) : DWord := BitVec.ofNat 64 ((fs.map fun f => f.2 * 2 ^ f.1).foldl (· + ·) 0)

/-- The bounds of TLIM and one beyond; LHI and OP_HI at OP_LO and below; die 0 at its telemetry record. -/
theorem witness_PowerRegisters :
    (∀ x ∈ [(60, true), (105, true), (59, false), (106, false)],
      let b := bitsAt (regValue [(0, x.1)]).toNat 0 8
      (x.2 = true ∧ 60 ≤ b ∧ b ≤ 105) ∨ (x.2 = false ∧ (b < 60 ∨ 105 < b)))
    ∧ (∀ x ∈ [(3, 3, true), (2, 3, false), (3, 2, false)],
      let v := regValue [(3, 3), (6, x.1), (9, x.2.1)]
      let b (l : Nat) := bitsAt v.toNat l 3
      (x.2.2 = true ∧ b 3 ≤ b 6 ∧ b 3 ≤ b 9) ∨ (x.2.2 = false ∧ (b 6 < b 3 ∨ b 9 < b 3)))
    ∧ (let s := { upAt (14 * Config.telemetryTicks - 1) with cleared := true }
       s.hopDone = true ∧ s.cleared = true ∧ s.telemetryDue = [0])
    ∧ base.ideRefuses false = false ∧ (ideOnly base).ideRefuses false = true := by decide +kernel

def stopped0 : Stopped :=
  { cause := 5, slot := 255, ctx := 0, region := 0, offset := 0, plane := 0, tick := 0, clock := 0, code := 0,
    watch := none, board := [], since := 0, told := false }

/-- Die 0 runs; partition 0 is stopped; DUMPLEN, DUMPOFF; context 0 with its dump area at 4096. -/
def debugging (len off : Nat) : State :=
  ((((upAt 0).setPart 0 { (upAt 0).part 0 with stopped := some stopped0 }).setReg 0x202008
      (BitVec.ofNat 64 (len * 2 ^ 32 + off)))).setAst 0 { (default : Ast) with body := bodyOf [(80, 8, 4096)] }

/-- A group that watchpoint 3 withholds. -/
def hitting : State :=
  { upAt 0 with
    hits := [{ watch := 3, cur := { placedCur with mask := 5 }, addr := 4096, mask := 5, data := 0, kind := 1, hop := 0, clock := 0 }] }

def sample : Sample :=
  { tick := 1, part := 0, slot := 0, ctx := 0, region := 0, offset := 12, plane := 0, mask := 5, hit := 5,
    link := false, op := 0x240, sectors := 1 }

theorem witness_DebugSteps :
    (base.dbgBusy = false ∧ base.partUp 0 = false ∧ (base.part 0).stepping = none)
    ∧ ((upAt 0).partUp 0 = true ∧ ((upAt 0).part 0).stopped = none ∧ ((upAt 0).part 0).stepping = none
      ∧ (upAt 0).dbgBusy = false)
    ∧ (let s := debugging 0 0
       s.dbgBusy = false ∧ s.partUp 0 = true ∧ (s.part 0).stopped = some stopped0 ∧ (s.part 0).stepping = none
       ∧ s.notReady (16 * 0 + 0) = false ∧ s.notReady (16 * 0 + 1) = true)
    ∧ (∀ x ∈ [(0, 0, true), (2 ^ 20, 16, true), (2 ^ 20 + 16, 0, false), (8, 0, false), (16, 8, false)],
       let s := debugging x.1 x.2.1
       let len := (s.reg 0x202008).toNat / 2 ^ 32
       let off := (s.reg 0x202008).toNat % 2 ^ 32
       decide (len % 16 = 0 ∧ len ≤ 2 ^ 20 ∧ off % 16 = 0) = x.2.2)
    ∧ (let s := debugging 0 0
       (look none s.ctxs 0).isSome = true ∧ s.ctxField 0 80 8 ≠ 0 ∧ look none s.ctxs 5 = none)
    ∧ (base.setReg 0x202010 (BitVec.ofNat 64 (2 ^ 48))).dbgBusy = true
    ∧ (let s := { debugging 0 0 with dumping := some { part := 0, ctx := 0 } }
       s.dbgBusy = false ∧ s.dumpReady { part := 0, ctx := 0 } = true
       ∧ s.writablePrefix 0 (s.ctxField 0 80 8) 256 = 256)
    ∧ (∃ h, hitting.hits = [h] ∧ (hitting.part (partOf h.cur.group)).stopped = none
      ∧ hitting.reg (0x202110 + 32 * h.watch) = 0)
    ∧ (({ base with samples := [sample] } : State).samples[0]? = some sample
      ∧ ({ base with samples := [sample] } : State).sampleDone sample = true)
    ∧ (let s := { base with samples := [sample], groups := [(0, some { group0 with inflight := [{ result1 with offset := 12 }] })] }
       s.samples[0]? = some sample ∧ s.sampleDone sample = false) := by
  refine ⟨by decide +kernel, by decide +kernel, by decide +kernel, by decide +kernel, by decide +kernel, by decide +kernel,
    by decide +kernel, ⟨_, rfl, by decide +kernel, by decide +kernel⟩, by decide +kernel, by decide +kernel⟩

/-- A group whose register V4 an error has lost in lane 0. -/
def losing : State := trapping.setGroup 0 { group0 with lost := [(4, 0)] }

theorem witness_Errors :
    (siteIn (.memory 4096) .hbm = true ∧ homeDie (canonicalDev 4096) = 0 ∧ look none base.groups 0 = some group0 ∧ dieOf 0 = 0)
    ∧ (siteIn (.memory 4096) .l2 = false ∧ base.siteUnit (.memory 4096) ≠ some 1)
    ∧ (losing.lostReads (.iadd (ops (.v 6) (.v 4) (.imm 1)) .i32 false) = [(4, 1)]
      ∧ leNat (losing.ctxRead 0 (losing.ctxField 0 40 8) 8) % 63 = 0 ∧ losing.ctxField 0 40 8 = 5120)
    ∧ Apart losing 0 (addrs (5120 + 64 + 64 * 0) 64 ++ addrs 5120 8)
    ∧ ((look none base.wgs 0).isSome = true ∧ coreDie (base.wgOf 0).core = 0)
    ∧ (let s := base.setPart 0 { base.part 0 with tiles := [(tileKey 0 1, default)] }
       ∃ e ∈ (s.part 0).tiles, e.1 = tileKey 0 1) := by
  refine ⟨by decide +kernel, by decide +kernel, by decide +kernel, ?_, by decide +kernel, by decide +kernel⟩
  refine apart_page (n := 4096) (by decide +kernel) (by decide) (fun x hx => ?_) (by decide +kernel)
  simp only [List.mem_append, mem_addrs] at hx
  omega

/-- A configuration block with CFGVER 1, the least SECVER 2, 64 MiB for tables and MODULE_MAX 3000. -/
def goodCfg : List Byte :=
  leBytes 4 0x47464357 ++ leBytes 4 1 ++ leBytes 4 2 ++ leBytes 24 0 ++ leBytes 4 64 ++ leBytes 64 0 ++ leBytes 2 3000
  ++ List.replicate 86 0 ++ List.replicate sigBytes 0

/-- A firmware image with SECVER 2. -/
def goodFw : List Byte :=
  leBytes 4 0x31574657 ++ leBytes 4 2 ++ leBytes 4 64 ++ List.replicate 52 0 ++ List.replicate sigBytes 0

theorem cfgValid_good (h : Config.verifies (goodCfg.take 192) (goodCfg.drop 192) = true) : cfgValid goodCfg = true := by
  unfold cfgValid
  rw [h, Bool.and_true]
  decide +kernel

theorem fwValid_good (h : Config.verifies (goodFw.take 64) ((goodFw.drop 64).take sigBytes) = true) : fwValid goodFw = true := by
  unfold fwValid
  simp only [show fwLength goodFw = 64 by decide +kernel]
  rw [h, Bool.and_true]
  decide +kernel

def booting : Boot := { Boot.reset with cfg0 := goodCfg, fw0 := goodFw }

/-- What a boot with good signatures chooses; Stage A and Stage B due; flash blank, and a block with no image. -/
theorem witness_StagedStart :
    (Config.verifies (goodCfg.take 192) (goodCfg.drop 192) = true →
     booting.chooseCfg = some goodCfg ∧ field goodCfg 8 4 = 2
     ∧ ({ booting with fw0 := [] } : Boot).chooseFw 2 = none
     ∧ (Config.verifies (goodFw.take 64) ((goodFw.drop 64).take sigBytes) = true → booting.chooseFw 2 = some goodFw))
    ∧ (State.reset.boot.booted = false ∧ State.reset.boot.status = 0 ∧ cfgValid State.reset.boot.cfg0 = false
      ∧ cfgValid State.reset.boot.cfg1 = false)
    ∧ (let s := { State.reset with boot := { Boot.reset with booted := true } }
       s.boot.booted = true ∧ s.stage = 0)
    ∧ (let s := { State.reset with stage := 1, boot := { Boot.reset with status := 1 } }
       s.stage = 1 ∧ s.boot.status % 256 = 1) := by
  refine ⟨fun h => ⟨?_, by decide +kernel, by decide +kernel, fun hf => ?_⟩, by decide +kernel, by decide +kernel, by decide +kernel⟩
  · have h0 : cfgValid booting.cfg0 = true := cfgValid_good h
    have h1 : cfgValid booting.cfg1 = false := by decide +kernel
    unfold Boot.chooseCfg
    simp only [h0, h1]
    rfl
  · have h0 : fwValid booting.fw0 = true := fwValid_good hf
    have hn : 2 ≤ secver booting.fw0 := by decide +kernel
    unfold Boot.chooseFw
    have hlt : ¬ secver booting.fw0 < secver booting.fw1 := by decide +kernel
    simp only [hlt, if_false, List.find?_cons, h0, hn, decide_true, Bool.and_self, Option.map_some]
    have hl : goodFw.length ≤ fwLength goodFw + sigBytes := by
      have h4 : ∀ x, (leBytes 4 x).length = 4 := fun _ => rfl
      rw [show fwLength goodFw = 64 by decide +kernel]
      simp only [goodFw, List.length_append, List.length_replicate, h4]
      omega
    exact congrArg some (List.take_of_length_le hl)

/-- An issue of the split of `base`, with a word at its place. -/
def issuing (w : BitVec 96) (offset : Nat) : State :=
  { base with
    agenda := [.issue { placedCur with mask := 5 }], mem := putList 0 [] 4096 (leBytes 12 w.toNat),
    groups := [(0, some { group0 with splits := [(0, some { split0 with offset })] })] }

/-- The MOVI of R205's table, a word of an unassigned sub-family, and a place past the region's end. -/
theorem witness_StepRunsDecoded :
    let c := { placedCur with mask := 5 }
    let i := Instr.movi { guard := { neg := false, p := 15 }, d := .s 10, a := .none, b := .none, hints := Hints.ofField 0 } 0x3F800000
    let bad : BitVec 96 := 0x040#10 ++ 0x3FF#10 ++ 0#76
    (let s := issuing (encode i) 0
     let u := (({ s with agenda := [] } : State).begin c).landEarly
     let l := u.launch u.me.launch
     s.agenda = [.issue c] ∧ c.snap = none ∧ u.me.lost = [] ∧ s.issuer c = true ∧ u.mySplit.offset + 12 ≤ (l.region u.mySplit.region).2.1
     ∧ u.fetch u.me.ctx (l.wordAddr u.mySplit.region c.plane u.mySplit.offset) = .word (encode i)
     ∧ decodeWord u.me.regs (encode i) = .ok i)
    ∧ (let s := issuing bad 0
       let u := (({ s with agenda := [] } : State).begin c).landEarly
       let l := u.launch u.me.launch
       s.issuer c = true ∧ u.mySplit.offset + 12 ≤ (l.region u.mySplit.region).2.1
       ∧ u.fetch u.me.ctx (l.wordAddr u.mySplit.region c.plane u.mySplit.offset) = .word bad
       ∧ (match decodeWord u.me.regs bad with | .error _ => true | .ok _ => false) = true)
    ∧ (let s := issuing 0 4080
       let u := (({ s with agenda := [] } : State).begin c).landEarly
       s.issuer c = true ∧ ¬ u.mySplit.offset + 12 ≤ ((u.launch u.me.launch).region u.mySplit.region).2.1) := by
  refine ⟨by decide +kernel, by decide +kernel, by decide +kernel⟩

/-- A word whose page may not be executed, and one whose page is not resident. -/
theorem witness_StepRunsDecoded_page :
    let c := { placedCur with mask := 5 }
    let at' (m : Mapping) : State :=
      (({ issuing 0 0 with agenda := [], maps := [(1, some m)] } : State).begin c).landEarly
    ((at' { placedMap with perm := 3 }).fetch 0 4096 = .trap faultPERMISSION)
    ∧ (at' { placedMap with resident := false }).fetch 0 4096 = .missing 1 4096 := by decide +kernel

theorem witness_RoundTrip :
    isWord (.movi (ops (.s 10) .none .none) 0x3F800000) = true
    ∧ Instr.wf 16 (.movi (ops (.s 10) .none .none) 0x3F800000) = true := by decide +kernel

theorem witness_CacheInvariant : L1Ok base 0 ∧ ∃ t, step { base with agenda := [.platform 4096 [1, 0]] } = .next t :=
  ⟨by unfold L1Ok; decide +kernel, _, rfl⟩

theorem witness_MemoryInvariant :
    MemoryOk base ∧ ∃ t, step { base with agenda := [.platform 4096 [1, 0]] } = .next t :=
  ⟨⟨by decide +kernel, by decide +kernel⟩, _, rfl⟩

end Sys2Proof.Tests
end

section
/-! PROOFS. The phase cache: what dropping a byte of it does to the points of coherence and to what a core's strong
loads see (R121 to R125). -/

namespace Sys2Proof

open Machine

/-! ## The frame of an operation on the phase cache -/

/-- Only the memories, their poison, the port's requests, the counters and the phase caches may differ. -/
def CacheOnly (s t : State) : Prop :=
  { t with mem := s.mem, ext := s.ext, poison := s.poison, port := s.port, free := s.free, diesT := s.diesT,
           cores := s.cores } = s

theorem CacheOnly.refl (s : State) : CacheOnly s s := rfl

/-- The state after such an operation, written out. -/
theorem CacheOnly.eq {s t : State} (h : CacheOnly s t) :
    t = { s with mem := t.mem, ext := t.ext, poison := t.poison, port := t.port, free := t.free, diesT := t.diesT,
                 cores := t.cores } := by
  unfold CacheOnly at h
  calc t = (fun x : State => { x with mem := t.mem, ext := t.ext, poison := t.poison, port := t.port, free := t.free,
                                      diesT := t.diesT, cores := t.cores })
          { t with mem := s.mem, ext := s.ext, poison := s.poison, port := s.port, free := s.free, diesT := s.diesT,
                   cores := s.cores } := rfl
    _ = _ := by rw [h]

theorem CacheOnly.trans {s t u : State} (h : CacheOnly s t) (k : CacheOnly t u) : CacheOnly s u := by
  rw [k.eq, h.eq]; rfl

theorem WritesOnly.cacheOnly {s t : State} (h : WritesOnly s t) : CacheOnly s t := by rw [h.eq]; rfl

theorem CacheOnly.groups {s t : State} (h : CacheOnly s t) : t.groups = s.groups := by rw [h.eq]
theorem CacheOnly.wgs {s t : State} (h : CacheOnly s t) : t.wgs = s.wgs := by rw [h.eq]
theorem CacheOnly.cur {s t : State} (h : CacheOnly s t) : t.cur = s.cur := by rw [h.eq]
theorem CacheOnly.me {s t : State} (h : CacheOnly s t) : t.me = s.me := by rw [h.eq]; rfl
theorem CacheOnly.mapping {s t : State} (h : CacheOnly s t) (c a : Nat) : t.mapping c a = s.mapping c a := by
  rw [h.eq]; rfl
theorem CacheOnly.cluster {s t : State} (h : CacheOnly s t) (c : Nat) : t.cluster c = s.cluster c := by
  rw [h.eq]; rfl
theorem CacheOnly.launch {s t : State} (h : CacheOnly s t) (c : Nat) : t.launch c = s.launch c := by
  rw [h.eq]; rfl
theorem CacheOnly.wgOf {s t : State} (h : CacheOnly s t) (k : Nat) : t.wgOf k = s.wgOf k := by rw [h.eq]; rfl
theorem CacheOnly.tick {s t : State} (h : CacheOnly s t) : t.tick = s.tick := by rw [h.eq]; rfl
theorem CacheOnly.maps {s t : State} (h : CacheOnly s t) : t.maps = s.maps := by rw [h.eq]

/-! ## Publishing one byte -/

theorem setPoison_cacheOnly {l : Loc} (g : Global l) (s : State) (on : Bool) : CacheOnly s (s.setPoison l on) := by
  cases l with
  | shared => exact g.elim
  | stack => exact g.elim
  | _ => rfl

theorem countReq_cases (s : State) (die : Nat) (l : Loc) : ∃ x, s.countReq die l = { s with diesT := x } := by
  unfold State.countReq State.count
  split
  · split
    · exact ⟨_, rfl⟩
    · split
      · exact ⟨_, rfl⟩
      · exact ⟨_, rfl⟩
  · exact ⟨_, rfl⟩

theorem peek_setPoison (s : State) (l : Loc) (on : Bool) (g : Global l) (x : Loc) :
    (s.setPoison l on).peek x = s.peek x := by
  rw [(setPoison_cacheOnly g s on).eq]
  cases l with
  | shared => exact g.elim
  | stack => exact g.elim
  | _ => cases x <;> rfl

theorem publishByte_cacheOnly {l : Loc} {k : Nat} (hk : l.key = some k) (s : State) (core : Nat) (x : L1Byte) :
    CacheOnly s (s.publishByte core l x) := by
  cases l with
  | dev j =>
    obtain ⟨d, hd⟩ := countReq_cases s (coreDie core) (.dev j)
    unfold State.publishByte
    dsimp only
    rw [hd]
    split <;> rfl
  | ext j => exact (sendOut_only ..).cacheOnly
  | _ => cases hk

theorem cores_publishByte {l : Loc} {k : Nat} (hk : l.key = some k) (s : State) (core : Nat) (x : L1Byte) :
    (s.publishByte core l x).cores = s.cores := by
  cases l with
  | dev j =>
    obtain ⟨d, hd⟩ := countReq_cases s (coreDie core) (.dev j)
    unfold State.publishByte
    dsimp only
    rw [hd]
    split <;> rfl
  | ext j =>
    unfold State.publishByte
    dsimp only
    rw [(sendOut_only ..).eq]
  | _ => cases hk

/-- A published byte stands at its point of coherence, but where Hevis Link may lose it. -/
theorem peek_publishByte {l : Loc} {k : Nat} (hk : l.key = some k) (s : State) (core : Nat) (x : L1Byte) :
    (overLink l = false → (s.publishByte core l x).peek l = x.val)
    ∧ ∀ y, cellOf y ≠ cellOf l → (s.publishByte core l x).peek y = s.peek y := by
  cases l with
  | dev j =>
    obtain ⟨d, hd⟩ := countReq_cases s (coreDie core) (.dev j)
    have hp (y : Loc) : (s.publishByte core (.dev j) x).peek y =
        (({ s with diesT := d } : State).poke (.dev j) x.val).peek y := by
      unfold State.publishByte
      dsimp only
      rw [hd]
      split
      · exact peek_setPoison _ (.dev j) _ trivial y
      · rfl
    refine ⟨fun _ => ?_, fun y hy => ?_⟩
    · rw [hp, peek_poke, if_pos rfl]
    · rw [hp, peek_poke_ne _ _ hy]
      cases y <;> rfl
  | ext j =>
    refine ⟨fun ho => ?_, fun y hy => ?_⟩
    · obtain ⟨q, f, e⟩ := sendOut_eq s j .publish [x.val] (s.coreOrigin core x.ctx x.gen) (s.struck core (2 * j + 1))
      have hl : s.lostNow j = false := by
        unfold State.lostNow
        rw [show viaHevis j = false from ho, Bool.false_and]
      show look 0 (s.sendOut j .publish [x.val] (s.coreOrigin core x.ctx x.gen) (s.struck core (2 * j + 1))).1.ext j = _
      rw [e, hl]
      simp [look_putList]
    · refine peek_sendOut_ne _ _ _ _ _ _ _ fun i hi => ?_
      obtain rfl : i = 0 := by simpa using hi
      exact hy.symm
  | _ => cases hk

/-! ## Dropping one byte (R123) -/

theorem unstrike_l1 (s : State) (core key : Nat) :
    (∃ x, s.unstrike core key = { s with cores := x }) ∧ ∀ c j, (s.unstrike core key).l1 c j = s.l1 c j := by
  unfold State.unstrike
  dsimp only
  split
  · refine ⟨⟨_, rfl⟩, fun c j => ?_⟩
    unfold State.l1
    rw [State.core_setCore]
    split
    · next h => rw [h]
    · rfl
  · exact ⟨⟨_, rfl⟩, fun _ _ => rfl⟩

/-- What dropping a byte that the L1 may hold does. -/
theorem evictByte_spec {l : Loc} {k : Nat} (hk : l.key = some k) (s : State) (core : Nat) :
    CacheOnly s (s.evictByte core l)
    ∧ (∀ c j, (s.evictByte core l).l1 c j = if c = core ∧ j = k then none else s.l1 c j)
    ∧ (overLink l = false → (s.evictByte core l).peek l = strongByte s core l)
    ∧ ∀ y, cellOf y ≠ cellOf l → (s.evictByte core l).peek y = s.peek y := by
  cases hx : s.l1 core k with
  | none =>
    have same : s.evictByte core l = s := by unfold State.evictByte; rw [hk]; dsimp only; rw [hx]
    rw [same]
    refine ⟨CacheOnly.refl s, fun c j => ?_, fun _ => ?_, fun _ _ => rfl⟩
    · by_cases h : c = core ∧ j = k
      · rw [if_pos h, h.1, h.2, hx]
      · rw [if_neg h]
    · unfold strongByte; rw [hk]; dsimp only; rw [hx]
  | some x =>
    unfold State.evictByte strongByte
    rw [hk]
    dsimp only
    rw [hx]
    dsimp only
    obtain ⟨u, hu⟩ : ∃ u, (if x.dirty = true then s.publishByte core l x else s) = u := ⟨_, rfl⟩
    have only : CacheOnly s u := by
      rw [← hu]; split
      · exact publishByte_cacheOnly hk s core x
      · exact CacheOnly.refl s
    have cores : u.cores = s.cores := by
      rw [← hu]; split
      · exact cores_publishByte hk s core x
      · rfl
    have at' : overLink l = false → u.peek l = if x.dirty then x.val else s.peek l := by
      intro ho
      rw [← hu]; split
      · exact (peek_publishByte hk s core x).1 ho
      · rfl
    have far : ∀ y, cellOf y ≠ cellOf l → u.peek y = s.peek y := by
      intro y hy
      rw [← hu]; split
      · exact (peek_publishByte hk s core x).2 y hy
      · rfl
    rw [hu]
    obtain ⟨⟨z, hz⟩, hl1⟩ := unstrike_l1 (u.setL1 core k none) core k
    have peek (y : Loc) : ((u.setL1 core k none).unstrike core k).peek y = u.peek y := by
      rw [hz]; cases y <;> rfl
    refine ⟨only.trans ?_, fun c j => ?_, fun ho => ?_, fun y hy => ?_⟩
    · rw [hz]; rfl
    · rw [hl1, l1_setL1]
      unfold State.l1 State.core
      rw [cores]
    · rw [peek]; exact at' ho
    · rw [peek]; exact far y hy

/-- The same of any place: one that the L1 does not hold is left alone. -/
theorem evictByte_cacheOnly (s : State) (core : Nat) (l : Loc) : CacheOnly s (s.evictByte core l) := by
  cases hk : l.key with
  | none => unfold State.evictByte; rw [hk]; exact CacheOnly.refl s
  | some k => exact (evictByte_spec hk s core).1

/-- What a strong load of a core sees depends on the L1's entry and the point of coherence. -/
theorem strongByte_congr {s t : State} {core : Nat} {x : Loc} (h1 : ∀ k, x.key = some k → t.l1 core k = s.l1 core k)
    (h2 : t.peek x = s.peek x) : strongByte t core x = strongByte s core x := by
  unfold strongByte
  cases hk : x.key with
  | none => exact h2
  | some k => dsimp only; rw [h1 k hk, h2]

/-- Places of one cell that are no peer register are one place. -/
theorem eq_of_cellOf_eq {x l : Loc} (hx : ∀ k, x ≠ .mmio k) (hl : ∀ k, l ≠ .mmio k) (h : cellOf x = cellOf l) :
    x = l := by
  cases x <;> cases l <;> simp_all [cellOf]

theorem ofKey_of_key {x : Loc} {k : Nat} (h : x.key = some k) : Loc.ofKey k = x := by
  unfold Loc.ofKey
  cases x with
  | dev j => obtain rfl : 2 * j = k := Option.some.inj h; simp
  | ext j =>
    obtain rfl : 2 * j + 1 = k := Option.some.inj h
    rw [if_neg (by omega)]
    congr 1
    omega
  | _ => cases h

/-- Dropping a byte of the L1 changes nothing that the core's strong loads see, but over Hevis Link (R123, R125). -/
theorem strongByte_evictByte (s : State) (core : Nat) (l x : Loc) (hx : ∀ k, x ≠ .mmio k) (ho : overLink x = false) :
    strongByte (s.evictByte core l) core x = strongByte s core x := by
  cases hk : l.key with
  | none => unfold State.evictByte; rw [hk]
  | some k =>
    obtain ⟨_, hl1, hat, hfar⟩ := evictByte_spec hk s core
    by_cases hc : cellOf x = cellOf l
    · have hl : ∀ j, l ≠ .mmio j := by rintro j rfl; cases hk
      obtain rfl := eq_of_cellOf_eq hx hl hc
      rw [← hat ho]
      unfold strongByte
      rw [hk]
      dsimp only
      rw [hl1, if_pos ⟨rfl, rfl⟩]
    · refine strongByte_congr (fun j hj => ?_) (hfar x hc)
      rw [hl1, if_neg]
      rintro ⟨-, rfl⟩
      exact hc (by rw [← ofKey_of_key hj, ofKey_of_key hk])

/-! ## The obligation -/

/-- Settles O42: the L1's early publication is `evictByte`, and a spill of the stack cache is no step of the state. -/
theorem cacheSteps : Obligations.CacheSteps := by
  intro core k s
  obtain ⟨only, hl1, hat, hfar⟩ := evictByte_spec (key_ofKey k) s core
  exact ⟨⟨_, rfl, hat, hfar, by rw [hl1, if_pos ⟨rfl, rfl⟩], only.groups⟩, rfl⟩

end Sys2Proof
end

section
/-! PROOFS. The end of a plane issue that is the last of its offset: where its lanes go, which planes they take, which
exit (R29, R34, R54, R235). -/

namespace Sys2Proof

open Machine

/-! ## Tables written entry by entry -/

/-- A value other than a table's default, read back under any default. -/
theorem look_put_of_ne_default {α : Type} [DecidableEq α] {d x : α} (hx : x ≠ d) (d' : α) (m : Sparse α) (k j : Nat) :
    look d' (put d m k x) j = if j = k then x else look d' m j := by
  unfold put
  rw [if_neg hx, look_insertAt _ _ _ _ _ (drop_ne m k), look_drop]
  by_cases h : j = k
  · rw [if_pos h, if_pos h]
  · rw [if_neg h, if_neg h, if_neg h]

/-- Entries written for some lanes, each with the lane's own value. -/
theorem look_put_lanes {α : Type} [DecidableEq α] (d : α) (f : Nat → α) (ls : List Nat) (m : Sparse α) (j : Nat) :
    look d ((ls.map fun l => (l, f l)).foldl (fun t e => put d t e.1 e.2) m) j =
      if j ∈ ls then f j else look d m j := by
  induction ls generalizing m with
  | nil => simp
  | cons a ls ih =>
    rw [List.map_cons, List.foldl_cons, ih, look_put]
    by_cases hj : j ∈ ls
    · simp [hj]
    · by_cases ha : j = a <;> simp [hj, ha]

/-- The same read under another default, where no value is the table's. -/
theorem look_put_lanes_of_ne {α : Type} [DecidableEq α] {d : α} (d' : α) (f : Nat → α) (hf : ∀ l, f l ≠ d) (ls : List Nat)
    (m : Sparse α) (j : Nat) :
    look d' ((ls.map fun l => (l, f l)).foldl (fun t e => put d t e.1 e.2) m) j =
      if j ∈ ls then f j else look d' m j := by
  induction ls generalizing m with
  | nil => simp
  | cons a ls ih =>
    rw [List.map_cons, List.foldl_cons, ih, look_put_of_ne_default (hf a)]
    by_cases hj : j ∈ ls
    · simp [hj]
    · by_cases ha : j = a <;> simp [hj, ha]

theorem getLsbD_maskOf (ls : List Nat) {l : Nat} (hl : l < 64) : (maskOf ls).getLsbD l = decide (l ∈ ls) := by
  unfold maskOf
  suffices h : ∀ (m : LaneMask), (ls.foldl (fun m l => m ||| (1#64 <<< l)) m).getLsbD l = (m.getLsbD l || decide (l ∈ ls)) by
    simpa using h 0
  induction ls with
  | nil => simp
  | cons a ls ih =>
    intro m
    rw [List.foldl_cons, ih, BitVec.getLsbD_or, getLsbD_one a l hl]
    simp [Bool.or_assoc]

/-! ## Leaving an offset -/

/-- Which lanes exit and what the planes become is settled before the split divides. -/
theorem leave_exited_planes (g : Group) (slot : Nat) (mid : Mid) (wait : Option Waiting) (clock : Nat) :
    (g.leave slot mid wait clock).exited = g.exited ||| maskOf ((lanesOf (g.split slot).mask).filter fun l =>
      look (Dest.to (g.split slot).region ((g.split slot).offset + 12)) mid.dests l == .gone)
    ∧ (g.leave slot mid wait clock).planes = (g.setPlanes (lanesOf (g.split slot).mask) mid).planes := by
  unfold Group.leave
  dsimp only
  split
  · obtain ⟨_, _, h⟩ := Group.settle_eq (Group.spread _ _ _) 128
    obtain ⟨_, _, k⟩ := Group.spread_eq (Group.setSplit _ _ _) _ _
    rw [h, k]
    exact ⟨rfl, rfl⟩
  · obtain ⟨_, _, h⟩ := Group.settle_eq (Group.endHandler _) 128
    obtain ⟨_, k⟩ := Group.endHandler_eq (Group.setSplit _ _ _)
    rw [h, k]
    exact ⟨rfl, rfl⟩

/-- The planes that an offset's plane issues have set take force (R235). -/
theorem look_setPlanes_of_mem (g : Group) (ls : List Nat) (mid : Mid) {l : Nat} (h : l ∈ ls) :
    look 0 (g.setPlanes ls mid).planes l = look (look 0 g.planes l) mid.planes l := by
  have key (ls : List Nat) : ∀ t : Sparse Nat,
      look 0 (ls.foldl (fun t l => put 0 t l (look (look 0 g.planes l) mid.planes l)) t) l =
        if l ∈ ls then look (look 0 g.planes l) mid.planes l else look 0 t l := by
    induction ls with
    | nil => intro t; simp
    | cons a ls ih =>
      intro t
      rw [List.foldl_cons, ih, look_put]
      by_cases hl : l ∈ ls
      · simp [hl]
      · by_cases ha : l = a
        · subst ha; simp
        · simp [hl, ha]
  unfold Group.setPlanes
  exact (key ls g.planes).trans (if_pos h)

/-! ## The last plane issue of an offset -/

/-- What the plane issues made so far at the offset have recorded of next places. -/
def midDests (s : State) : Sparse Dest := (s.mySplit.mid.map Mid.dests).getD []

/-- What they have recorded of plane numbers. -/
def midPlanes (s : State) : Sparse Nat := (s.mySplit.mid.map Mid.planes).getD []

/-- The next word. -/
def nextWord (s : State) : Dest := .to s.mySplit.region (s.mySplit.offset + 12)

theorem look_midDests (s : State) (l : Nat) : look (nextWord s) (midDests s) l = otherwise s l := by
  unfold midDests otherwise nextWord
  cases s.mySplit.mid <;> rfl

/-- What the last plane issue of an offset leaves to be done: `dests` and `planes` recorded last. -/
def lastMid (s : State) (dests : List (Nat × Dest)) (planes : List (Nat × Nat)) : Mid :=
  { todo := [], dests := dests.foldl (fun t e => put (nextWord s) t e.1 e.2) (midDests s),
    planes := planes.foldl (fun t e => put 4 t e.1 e.2) (midPlanes s), begun := true }

/-- The issuing group with the word's yield hint noted (R176). -/
def yielding (s : State) (y : Bool) : Group :=
  if y then { s.me with yieldUntil := (s.cluster (clusterOf s.cur.group)).yieldTo } else s.me

theorem yielding_eq (s : State) (y : Bool) : ∃ u, yielding s y = { s.me with yieldUntil := u } := by
  unfold yielding
  split
  · exact ⟨_, rfl⟩
  · exact ⟨s.me.yieldUntil, rfl⟩

/-- The last plane issue of an offset leaves it, unless its split waits and is to divide (R29, R49). -/
theorem retire_last {s : State} (hl : ∀ m, s.mySplit.mid = some m → m.todo.tail = []) (y : Bool)
    (dests : List (Nat × Dest)) (planes : List (Nat × Nat)) (wait : Option Waiting) :
    s.retire y dests planes wait =
      if wait.isNone || (lastMid s dests planes).dests.isEmpty then
        s.setMe ((yielding s y).leave s.cur.slot (lastMid s dests planes) wait (s.cluster (clusterOf s.cur.group)).clock)
      else s.setMe ((yielding s y).pause s.cur.slot (lastMid s dests planes) wait) := by
  unfold State.retire
  have hm : (s.me.split s.cur.slot).mid = s.mySplit.mid := rfl
  dsimp only
  rw [hm]
  unfold lastMid yielding midDests midPlanes nextWord State.mySplit at *
  cases h : (s.me.split s.cur.slot).mid with
  | none =>
    simp only [Option.getD_none, Option.map_none, List.tail_cons, List.isEmpty_nil, Bool.true_and]
  | some m =>
    simp only [Option.getD_some, Option.map_some, hl m h, List.isEmpty_nil, Bool.true_and]

/-- Every lane of the split goes where the last plane issue of its offset sends it, or else where those before it did;
planes set take force, and lanes that go nowhere have exited. -/
theorem retire_lastPlane {s : State} (h : LastPlane s) (y : Bool) (dests : List (Nat × Dest)) (planes : List (Nat × Nat)) :
    let t := s.retire y dests planes none
    LanesGo s t (fun l => look (nextWord s) (lastMid s dests planes).dests l)
    ∧ (∀ l, l < 64 → s.mySplit.mask.getLsbD l → look (nextWord s) (lastMid s dests planes).dests l = .gone →
        t.me.exited.getLsbD l = true)
    ∧ ∀ l, l < 64 → s.mySplit.mask.getLsbD l →
        look 0 t.me.planes l = look (look 0 s.me.planes l) (lastMid s dests planes).planes l := by
  obtain ⟨_, alone, last⟩ := h
  obtain ⟨u, hu⟩ := yielding_eq s y
  have hsplit : (yielding s y).split s.cur.slot = s.mySplit := by rw [hu]; rfl
  have hplanes : (yielding s y).planes = s.me.planes := by rw [hu]
  have halone : Alone (yielding s y) s.cur.slot := by rw [hu]; exact alone
  rw [retire_last last y dests planes none, if_pos (by rfl)]
  dsimp only
  unfold LanesGo
  rw [State.me_setMe]
  obtain ⟨hexit, hplane⟩ := leave_exited_planes (yielding s y) s.cur.slot (lastMid s dests planes) none
    (s.cluster (clusterOf s.cur.group)).clock
  refine ⟨fun l hl hb => ?_, fun l hl hb hg => ?_, fun l hl hb => ?_⟩
  · rw [leave_laneAt _ _ _ _ _ halone l hl (by rw [hsplit]; exact hb), hsplit]; rfl
  · rw [hexit, BitVec.getLsbD_or, getLsbD_maskOf _ hl, hsplit]
    have hm : l ∈ (lanesOf s.mySplit.mask).filter fun l =>
        look (Dest.to s.mySplit.region (s.mySplit.offset + 12)) (lastMid s dests planes).dests l == .gone :=
      List.mem_filter.mpr ⟨(mem_lanesOf ..).mpr ⟨hl, hb⟩, beq_iff_eq.mpr hg⟩
    rw [decide_eq_true hm, Bool.or_true]
  · rw [hplane, hsplit, look_setPlanes_of_mem _ _ _ ((mem_lanesOf ..).mpr ⟨hl, hb⟩), hplanes]

/-- The end of a plane issue works on the issuing group alone, and keeps its registers, flags and results. -/
theorem retire_transferFrame (s : State) (y : Bool) (dests : List (Nat × Dest)) (planes : List (Nat × Nat))
    (wait : Option Waiting) : TransferFrame s (s.retire y dests planes wait) := by
  obtain ⟨_, _, _, _, _, _, _, _, e⟩ := retire_eq s y dests planes wait
  unfold TransferFrame
  rw [e, State.me_setMe]
  refine ⟨KeptRegs.of_eq ⟨rfl, rfl, rfl, rfl⟩, rfl, rfl, rfl, fun k hk => ?_, rfl⟩
  rw [State.look_setMe, if_neg hk]

/-! ## Transfers and plane setters -/

/-- A transfer of the lanes of a mask, at the last plane issue of an offset (R29). -/
theorem transfer_lanesGo {s : State} (h : LastPlane s) (o : Op) (m : LaneMask) (f : Nat → Dest) :
    let t := s.transfer o ((lanesOf m).map fun l => (l, f l))
    LanesGo s t (fun l => if m.getLsbD l then f l else otherwise s l)
    ∧ (∀ l, l < 64 → s.mySplit.mask.getLsbD l → m.getLsbD l → f l = .gone → t.me.exited.getLsbD l = true)
    ∧ TransferFrame s t := by
  have goes (l : Nat) (hl : l < 64) :
      look (nextWord s) (lastMid s ((lanesOf m).map fun l => (l, f l)) []).dests l =
        if m.getLsbD l then f l else otherwise s l := by
    rw [lastMid, look_put_lanes, look_midDests]
    simp [mem_lanesOf, hl]
  obtain ⟨go, gone, _⟩ := retire_lastPlane h o.hints.y ((lanesOf m).map fun l => (l, f l)) []
  refine ⟨fun l hl hb => ?_, fun l hl hb hm hf => gone l hl hb ?_, retire_transferFrame ..⟩
  · exact (go l hl hb).trans (congrArg destPlace (goes l hl))
  · rw [goes l hl, if_pos hm, hf]

/-- A plane issue that sends no lane elsewhere, at the last plane issue of an offset. -/
theorem retire_otherwise {s : State} (h : LastPlane s) (y : Bool) (planes : List (Nat × Nat)) :
    LanesGo s (s.retire y [] planes none) (otherwise s) := fun l hl hb =>
  ((retire_lastPlane h y [] planes).1 l hl hb).trans (congrArg destPlace (look_midDests s l))

/-- Plane numbers below 4 that a plane issue gives the lanes of a mask (R235). -/
theorem retire_planes {s : State} (h : LastPlane s) (y : Bool) (m : LaneMask) (f : Nat → Nat) :
    let t := s.retire y [] ((lanesOf m).map fun l => (l, f l % 4)) none
    LanesGo s t (otherwise s) ∧ TransferFrame s t
    ∧ ∀ l, l < 64 → s.mySplit.mask.getLsbD l → m.getLsbD l → look 0 t.me.planes l = f l % 4 := by
  refine ⟨retire_otherwise h y _, retire_transferFrame .., fun l hl hb hm => ?_⟩
  have hf : ∀ l, f l % 4 ≠ 4 := fun l => Nat.ne_of_lt (Nat.mod_lt _ (by decide))
  rw [(retire_lastPlane h y [] ((lanesOf m).map fun l => (l, f l % 4))).2.2 l hl hb, lastMid,
    look_put_lanes_of_ne _ _ hf, if_pos ((mem_lanesOf ..).mpr ⟨hl, hm⟩)]

/-- No gang breaks where the core's latch is free (R285). -/
theorem breakGang_of_free {s : State} {key : Nat} (h : (s.core (coreOf key)).latch = none) : s.breakGang key = s := by
  unfold State.breakGang
  dsimp only
  rw [h]

theorem core_retire (s : State) (y : Bool) (dests : List (Nat × Dest)) (planes : List (Nat × Nat))
    (wait : Option Waiting) (c : Nat) : (s.retire y dests planes wait).core c = s.core c := by
  obtain ⟨_, _, _, _, _, _, _, _, e⟩ := retire_eq s y dests planes wait
  rw [e]; rfl

theorem exec_exit {s : State} (o : Op) (h : (s.core (coreOf s.cur.group)).latch = none) :
    exec (.exit o) s = .next (s.transfer o ((lanesOf (s.act o)).map fun l => (l, .gone))) := by
  have free : ((s.transfer o ((lanesOf (s.act o)).map fun l => (l, .gone))).core (coreOf s.cur.group)).latch = none := by
    rw [State.transfer, core_retire, h]
  show Host.Outcome.next (if _ then _ else _) = _
  rw [breakGang_of_free free, ite_self]

/-- Settles O13, by the end of the last plane issue of an offset (`retire_lastPlane`). -/
theorem directForms : Obligations.DirectForms := by
  refine ⟨fun o h v s last => ⟨?nop, ?yield, fun ha => ?bra, fun free => ?exit⟩,
    fun o v s last => ⟨?pset, fun ha => ?pseti⟩⟩
  case nop => exact ⟨_, rfl, retire_otherwise last _ _, retire_transferFrame ..⟩
  case yield => exact ⟨_, rfl, retire_otherwise last _ _, retire_transferFrame ..⟩
  case bra =>
    obtain ⟨go, _, frame⟩ := transfer_lanesGo last o (s.act o) fun _ =>
      .to s.mySplit.region (branchOffset s.mySplit.offset (immOf o.a))
    rw [ha] at go frame
    refine ⟨_, rfl, ?_⟩
    rw [ha]
    exact ⟨go, frame⟩
  case exit =>
    obtain ⟨go, gone, frame⟩ := transfer_lanesGo last o (s.act o) fun _ => .gone
    exact ⟨_, exec_exit o free, go, fun l hl hb hm => gone l hl hb hm rfl, frame⟩
  case pset => exact ⟨_, rfl, retire_planes last _ (s.act o) fun l => (s.word .int o.a l).toNat⟩
  case pseti =>
    refine ⟨_, rfl, ?_⟩
    rw [ha]
    exact retire_planes last _ (s.act o) fun _ => v.toNat

end Sys2Proof
end

section
/-! PROOFS. WAIT (R259 to R261): its conditions as they are read at the issue, and its split in WAIT. -/

namespace Sys2Proof

open Machine

/-! ## The conditions at the issue (R260) -/

/-- What the core's strong loads see stays, but over Hevis Link. -/
def SameStrong (s t : State) (core : Nat) : Prop :=
  ∀ x, (∀ k, x ≠ .mmio k) → overLink x = false → strongByte t core x = strongByte s core x

theorem SameStrong.refl (s : State) (core : Nat) : SameStrong s s core := fun _ _ _ => rfl

theorem SameStrong.trans {s t u : State} {core : Nat} (h : SameStrong s t core) (k : SameStrong t u core) :
    SameStrong s u core := fun x hx ho => (k x hx ho).trans (h x hx ho)

/-- An operation that leaves memories and phase caches alone changes nothing that a load sees. -/
theorem SameStrong.of_eq {s t : State} {core : Nat} (hc : t.cores = s.cores) (hp : ∀ x, t.peek x = s.peek x) :
    SameStrong s t core := fun x _ _ =>
  strongByte_congr (fun k _ => by unfold State.l1 State.core; rw [hc]) (hp x)

theorem readByte_poc (s : State) (core : Nat) (l : Loc) :
    CacheOnly s (s.readByte .poc core l).1 ∧ SameStrong s (s.readByte .poc core l).1 core := by
  unfold State.readByte
  cases hk : l.key with
  | none => exact ⟨CacheOnly.refl s, SameStrong.refl s core⟩
  | some k => exact ⟨evictByte_cacheOnly s core l, fun x hx ho => strongByte_evictByte s core l x hx ho⟩

theorem readBytes_poc (s : State) (core : Nat) (l : Loc) (n : Nat) :
    CacheOnly s (s.readBytes .poc core l n).1 ∧ SameStrong s (s.readBytes .poc core l n).1 core := by
  induction n generalizing s l with
  | zero => exact ⟨CacheOnly.refl s, SameStrong.refl s core⟩
  | succ n ih =>
    obtain ⟨h1, h2⟩ := readByte_poc s core l
    obtain ⟨k1, k2⟩ := ih (s.readByte .poc core l).1 (l.plus 1)
    exact ⟨h1.trans k1, h2.trans k2⟩

/-- A condition as it stands at its issue differs from the block's in when it was tested and whether it is met. -/
def SameTest (c d : Cond) : Prop := d.kind = c.kind ∧ d.addr = c.addr ∧ d.value = c.value

/-- A request changes no byte. -/
theorem ask_spec (s : State) (k n : Nat) (kind : OutKind) (ws : List Write) (lost : Bool) (o : Origin) (core : Nat) :
    CacheOnly s (s.ask k n kind ws lost o).1 ∧ SameStrong s (s.ask k n kind ws lost o).1 core := by
  obtain ⟨q, f, e⟩ := ask_eq s k n kind ws lost o false
  rw [e]
  exact ⟨rfl, .of_eq rfl fun x => by cases x <;> rfl⟩

theorem condAtIssue_spec (s : State) (key : Nat) (g : Group) (o : Origin) (i : Nat) (c : Cond) :
    CacheOnly s (s.condAtIssue key g o i c).1 ∧ SameStrong s (s.condAtIssue key g o i c).1 (coreOf key)
    ∧ SameTest c (s.condAtIssue key g o i c).2 := by
  unfold State.condAtIssue
  split
  · split <;> exact ⟨CacheOnly.refl s, SameStrong.refl _ _, rfl, rfl, rfl⟩
  · split
    · next l _ =>
      obtain ⟨d, hd⟩ := countReq_cases s (dieOf key) l
      obtain ⟨h1, h2⟩ := readBytes_poc (s.countReq (dieOf key) l) (coreOf key) l 4
      have only : CacheOnly s (s.countReq (dieOf key) l) := by rw [hd]; rfl
      have seen : SameStrong s (s.countReq (dieOf key) l) (coreOf key) := by
        rw [hd]; exact .of_eq rfl fun x => by cases x <;> rfl
      have here := only.trans h1
      have view := seen.trans h2
      dsimp only
      generalize (s.countReq (dieOf key) l).readBytes .poc (coreOf key) l 4 = x at here view ⊢
      obtain ⟨u, bs⟩ := x
      dsimp only at here view ⊢
      split
      · next k _ =>
        obtain ⟨askOnly, askView⟩ := ask_spec u k 4 (.monitor i (BitVec.ofNat 32 (leNat bs))) [] false
          { o with va := c.addr.toNat } (coreOf key)
        exact ⟨here.trans askOnly, view.trans askView, rfl, rfl, rfl⟩
      · exact ⟨here, view, rfl, rfl, rfl⟩
    · exact ⟨CacheOnly.refl s, SameStrong.refl _ _, rfl, rfl, rfl⟩
  · exact ⟨CacheOnly.refl s, SameStrong.refl _ _, rfl, rfl, rfl⟩

theorem condsAtIssue_spec (s : State) (key : Nat) (g : Group) (o : Origin) (i : Nat) (cs : List Cond) :
    CacheOnly s (s.condsAtIssue key g o i cs).1 ∧ SameStrong s (s.condsAtIssue key g o i cs).1 (coreOf key)
    ∧ List.Forall₂ SameTest cs (s.condsAtIssue key g o i cs).2 := by
  induction cs generalizing s i with
  | nil => exact ⟨CacheOnly.refl s, SameStrong.refl _ _, .nil⟩
  | cons c cs ih =>
    unfold State.condsAtIssue
    dsimp only
    have one : CacheOnly s (if c.met.isSome then (s, c) else s.condAtIssue key g o i c).1
        ∧ SameStrong s (if c.met.isSome then (s, c) else s.condAtIssue key g o i c).1 (coreOf key)
        ∧ SameTest c (if c.met.isSome then (s, c) else s.condAtIssue key g o i c).2 := by
      split
      · exact ⟨CacheOnly.refl s, SameStrong.refl _ _, rfl, rfl, rfl⟩
      · exact condAtIssue_spec s key g o i c
    obtain ⟨h1, h2, h3⟩ := one
    obtain ⟨k1, k2, k3⟩ := ih (if c.met.isSome then (s, c) else s.condAtIssue key g o i c).1 (i + 1)
    exact ⟨h1.trans k1, h2.trans k2, .cons h3 k3⟩

theorem map_eq_of_sameTest {cs ds : List Cond} (h : List.Forall₂ SameTest cs ds) :
    ds.length = cs.length ∧ ds.map (·.kind) = cs.map (·.kind) ∧ ds.map (·.addr) = cs.map (·.addr)
    ∧ ds.map (·.value) = cs.map (·.value) := by
  induction h with
  | nil => exact ⟨rfl, rfl, rfl, rfl⟩
  | cons h _ ih =>
    obtain ⟨h1, h2, h3⟩ := h
    obtain ⟨k1, k2, k3, k4⟩ := ih
    exact ⟨by simp [k1], by simp [h1, k2], by simp [h2, k3], by simp [h3, k4]⟩

/-! ## A split in WAIT -/

theorem live_of_look {g : Group} {k : Nat} {sp : Split} (h : look none g.splits k = some sp) : g.split k = sp := by
  unfold Group.split; rw [h]; rfl

/-- A split in WAIT neither merges nor gives up its slot (R30, R31). -/
theorem settle_waiting {g : Group} {k : Nat} {sp : Split} (n : Nat) (h : look none g.splits k = some sp)
    (hw : sp.wait.isSome = true) : look none (g.settle n).splits k = some sp := by
  induction n generalizing g with
  | zero => exact h
  | succ n ih =>
    unfold Group.settle
    split
    · next e es j _ hf =>
      refine ih ?_
      have free := List.find?_some hf
      rw [Group.look_setSplit, if_neg]
      · exact h
      · rintro rfl
        rw [h] at free
        cases free
    · split
      · next i j hm =>
        unfold Group.mergePair at hm
        obtain ⟨i', _, hi⟩ := List.exists_of_findSome?_eq_some hm
        obtain ⟨j', hf, hj⟩ := Option.map_eq_some_iff.mp hi
        obtain ⟨rfl, rfl⟩ := Prod.mk.inj hj
        have ready := List.find?_some hf
        simp only [mergeable, Bool.and_eq_true, decide_eq_true_eq, Option.isNone_iff_eq_none] at ready
        obtain ⟨_, ⟨⟨_, wi⟩, wj⟩, _⟩ := ready
        have ne (i : Nat) (wi : (g.split i).wait = none) : k ≠ i := by
          rintro rfl
          rw [live_of_look h] at wi
          rw [wi] at hw
          cases hw
        refine ih ?_
        rw [Group.look_setSplit, if_neg (ne _ wj), Group.look_setSplit, if_neg (ne _ wi)]
        exact h
      · exact h

/-- Where the offset's plane issues have sent no lane elsewhere, a split that leaves it in WAIT stands at the next word. -/
theorem leave_waiting {g : Group} {slot : Nat} {mid : Mid} (w : Waiting) (clock : Nat) (hd : mid.dests = [])
    (hm : (g.split slot).mask ≠ 0) :
    ∃ sp, look none (g.leave slot mid (some w) clock).splits slot = some sp ∧ sp.wait = some w
      ∧ sp.region = (g.split slot).region ∧ sp.offset = (g.split slot).offset + 12 := by
  cases hl : lanesOf (g.split slot).mask with
  | nil => exact absurd hl (lanesOf_ne_nil hm)
  | cons a ls =>
    obtain ⟨m, hm⟩ := partsOf_const (.to (g.split slot).region ((g.split slot).offset + 12)) a ls
    unfold Group.leave
    rw [hd]
    simp only [look, hl]
    rw [hm]
    simp only [List.filter_cons, List.filter_nil, bne_iff_ne, ne_eq, reduceCtorEq, not_false_eq_true, if_true,
      Group.spread]
    exact ⟨_, settle_waiting 128 ((Group.look_setSplit ..).trans (if_pos rfl)) rfl, rfl, rfl, rfl⟩

/-- A split that waits with its offset's plane issues to divide it stands where it was. -/
theorem pause_waiting (g : Group) (slot : Nat) (mid : Mid) (w : Waiting) :
    ∃ sp, look none (g.pause slot mid (some w)).splits slot = some sp ∧ sp.wait = some w
      ∧ sp.region = (g.split slot).region ∧ sp.offset = (g.split slot).offset := by
  unfold Group.pause
  exact ⟨_, (Group.look_setSplit ..).trans (if_pos rfl), rfl, rfl, rfl⟩

/-- The last plane issue of an offset that ends in WAIT (R49). -/
theorem retire_waiting {s : State} (hl : ∀ m, s.mySplit.mid = some m → m.todo.tail = []) (hm : s.mySplit.mask ≠ 0)
    (y : Bool) (w : Waiting) :
    let t := s.retire y [] [] (some w)
    t.mySplit.wait = some w ∧ t.mySplit.region = s.mySplit.region
    ∧ ((∀ m, s.mySplit.mid = some m → m.dests = []) → t.mySplit.offset = s.mySplit.offset + 12)
    ∧ ((∃ m, s.mySplit.mid = some m ∧ m.dests ≠ []) → t.mySplit.offset = s.mySplit.offset) := by
  obtain ⟨u, hu⟩ := yielding_eq s y
  have hsplit : (yielding s y).split s.cur.slot = s.mySplit := by rw [hu]; rfl
  have hdests : (lastMid s [] []).dests = midDests s := rfl
  have mine (g : Group) (sp : Split) (h : look none g.splits s.cur.slot = some sp) : (s.setMe g).mySplit = sp := by
    unfold State.mySplit
    rw [State.me_setMe]
    exact live_of_look h
  rw [retire_last hl y [] [] (some w), hdests]
  cases hd : midDests s with
  | nil =>
    obtain ⟨sp, h1, h2, h3, h4⟩ := leave_waiting (g := yielding s y) (slot := s.cur.slot) w
      (s.cluster (clusterOf s.cur.group)).clock (hdests.trans hd) (by rw [hsplit]; exact hm)
    rw [if_pos (by rfl)]
    dsimp only
    rw [mine _ _ h1]
    rw [hsplit] at h3 h4
    refine ⟨h2, h3, fun _ => h4, fun ⟨m, hm, hne⟩ => absurd ?_ hne⟩
    unfold midDests at hd
    rw [hm] at hd
    exact hd
  | cons e es =>
    obtain ⟨sp, h1, h2, h3, h4⟩ := pause_waiting (yielding s y) s.cur.slot (lastMid s [] []) w
    rw [if_neg (by simp)]
    dsimp only
    rw [mine _ _ h1]
    rw [hsplit] at h3 h4
    refine ⟨h2, h3, fun h => ?_, fun _ => h4⟩
    unfold midDests at hd
    cases hmid : s.mySplit.mid with
    | none => rw [hmid] at hd; cases hd
    | some m => rw [hmid] at hd; exact absurd (h m hmid) (by rw [show m.dests = e :: es from hd]; simp)

/-! ## The issue of a WAIT -/

/-- Checks that find neither a fault nor a missing page let the issue go on. -/
theorem verdict_go {s : State} (every : Option LaneMask) {cs : List (Nat × Nat × Chk)}
    (h : ∀ e ∈ cs, (∀ n, e.2.2 ≠ .fault n) ∧ ∀ n, e.2.2 ≠ .missing n) : s.verdict every cs = .go cs := by
  unfold State.verdict
  dsimp only
  generalize hfaults : List.filterMap _ cs = faults
  obtain rfl : faults = [] := by
    rw [← hfaults]
    refine List.filterMap_eq_nil_iff.mpr fun e he => ?_
    obtain ⟨hf, _⟩ := h e he
    split
    · next n hn => exact absurd hn (hf n)
    · rfl
  simp only [List.map_nil, leastCode]
  generalize hpages : List.filterMap _ cs = pages
  obtain rfl : pages = [] := by
    rw [← hpages]
    refine List.filterMap_eq_nil_iff.mpr fun e he => ?_
    obtain ⟨_, hm⟩ := h e he
    split
    · next n hn => exact absurd hn (hm n)
    · rfl
  rfl

/-- The wait in which a WAIT puts its split. -/
def waitOf (s : State) (o : Op) (all : Bool) (conds : List Cond) : Waiting :=
  let t := match o.b with | .none => 0 | b => (s.uword b).toNat
  { kind := .explicit o.d, conds, all, expiry := if t = 0 then none else some (s.tick + t), lanes := s.act o,
    region := s.mySplit.region, offset := s.mySplit.offset, plane := s.cur.plane, yield := false }

theorem exec_wait_go {s : State} {o : Op} {cs : List Cond} (all : Bool) (ha : s.act o ≠ 0)
    (hb : s.condBlock s.me 4 (sIndex o.a) = some cs)
    (hc : ∀ c ∈ cs, (∀ n, s.condCheck s.me c ≠ .fault n) ∧ ∀ n, s.condCheck s.me c ≠ .missing n) :
    exec (.wait o all) s =
      let x := s.condsAtIssue s.cur.group s.me (s.here (s.act o) 0) 0 cs
      .next (x.1.retire o.hints.y [] [] (some (waitOf s o all x.2))) := by
  obtain ⟨only, _⟩ := condsAtIssue_spec s s.cur.group s.me (s.here (s.act o) 0) 0 cs
  have hv : s.verdict (some (s.act o)) (cs.map fun c => (0, c.addr.toNat, s.condCheck s.me c)) = .go _ :=
    verdict_go _ fun e he => by
      obtain ⟨c, hm, rfl⟩ := List.mem_map.mp he
      exact hc c hm
  have tick : (s.condsAtIssue s.cur.group s.me (s.here (s.act o) 0) 0 cs).1.tick = s.tick := by rw [only.eq]; rfl
  have plane : (s.condsAtIssue s.cur.group s.me (s.here (s.act o) 0) 0 cs).1.cur = s.cur := only.cur
  show execWait o all s = _
  unfold execWait waitOf
  dsimp only
  rw [if_neg ha, hb]
  dsimp only
  rw [hv]
  dsimp only
  rw [tick, plane] <;> rfl

/-- A place of a group's stack aside, ending an issue changes no byte; and it keeps the stacks. -/
theorem peek_retire (s : State) (y : Bool) (dests : List (Nat × Dest)) (planes : List (Nat × Nat))
    (wait : Option Waiting) (x : Loc) : (s.retire y dests planes wait).peek x = s.peek x := by
  obtain ⟨_, _, _, _, _, _, _, _, e⟩ := retire_eq s y dests planes wait
  rw [e]
  cases x with
  | stack g off =>
    show look 0 ((s.setMe _).group g).stackMem off = look 0 (s.group g).stackMem off
    rw [State.group_setMe]
    split
    · next h => rw [h]; rfl
    · rfl
  | _ => rfl

theorem sameStrong_retire (s : State) (y : Bool) (dests : List (Nat × Dest)) (planes : List (Nat × Nat))
    (wait : Option Waiting) (core : Nat) : SameStrong s (s.retire y dests planes wait) core := by
  refine .of_eq ?_ (peek_retire s y dests planes wait)
  obtain ⟨_, _, _, _, _, _, _, _, e⟩ := retire_eq s y dests planes wait
  rw [e]; rfl

/-- Settles O25: the conditions are read past the L1 (`condsAtIssue_spec`), and the issue ends with its split in WAIT
(`retire_waiting`). -/
theorem waits : Obligations.Waits := by
  intro o all cs s ha
  refine ⟨fun hb => ?illegal, fun hb hc last hm _ => ?waiting⟩
  case illegal =>
    show execWait o all s = _
    unfold execWait
    dsimp only
    rw [if_neg ha, hb]
  case waiting =>
    obtain ⟨only, seen, tests⟩ := condsAtIssue_spec s s.cur.group s.me (s.here (s.act o) 0) 0 cs
    obtain ⟨hlen, hkind, haddr, hvalue⟩ := map_eq_of_sameTest tests
    refine ⟨_, exec_wait_go all ha hb hc, ?_⟩
    generalize s.condsAtIssue s.cur.group s.me (s.here (s.act o) 0) 0 cs = x at only seen hlen hkind haddr hvalue ⊢
    obtain ⟨u, ds⟩ := x
    dsimp only at only seen hlen hkind haddr hvalue ⊢
    have hme : u.me = s.me := only.me
    have hmy : u.mySplit = s.mySplit := by unfold State.mySplit; rw [only.cur, hme]
    obtain ⟨regs, _, flags, _⟩ := retire_transferFrame u o.hints.y [] [] (some (waitOf s o all ds))
    obtain ⟨wait, region, onward, divided⟩ := retire_waiting (s := u) (by rw [hmy]; exact last.2.2) (by rw [hmy]; exact hm)
      o.hints.y (waitOf s o all ds)
    rw [hme] at regs flags
    rw [hmy] at region onward divided
    refine ⟨regs, flags, seen.trans (sameStrong_retire _ _ _ _ _ _), region, onward, divided, _, wait, rfl, rfl, rfl, rfl,
      rfl, hlen,
      hkind, haddr, hvalue, ?_⟩
    unfold waitOf
    cases o.b <;> rfl

end Sys2Proof
end

section
/-! PROOFS. TRET (R39, R46, R301): the frame read past the L1, the registers restored, and where the split resumes. -/

namespace Sys2Proof

open Machine

/-! ## A context becomes FATAL (R374) -/

theorem faultRecord_eq (s : State) (id f : Nat) :
    ∃ a l n, s.faultRecord id f = { s with ast := a, lastTick := l, notices := n } := by
  unfold State.faultRecord
  dsimp only
  split
  · exact ⟨s.ast, s.lastTick, s.notices, rfl⟩
  · exact ⟨_, _, _, rfl⟩

theorem faultRecords_eq (s : State) (f : Nat) (ids : List Nat) :
    ∃ a l n, ids.foldl (fun s id => s.faultRecord id f) s = { s with ast := a, lastTick := l, notices := n } := by
  induction ids generalizing s with
  | nil => exact ⟨s.ast, s.lastTick, s.notices, rfl⟩
  | cons id ids ih =>
    obtain ⟨_, _, _, h⟩ := faultRecord_eq s id f
    obtain ⟨a, l, n, k⟩ := ih (s.faultRecord id f)
    exact ⟨a, l, n, by rw [List.foldl_cons, k, h]⟩

/-- The groups stay as they are, and the context is FATAL. -/
theorem makeFatal_spec (s : State) (ctx : Nat) :
    (s.makeFatal ctx).groups = s.groups ∧ (s.makeFatal ctx).cur = s.cur
    ∧ ((s.makeFatal ctx).ctxOf ctx).fatal = true := by
  unfold State.makeFatal
  split
  · next h => exact ⟨rfl, rfl, h⟩
  · dsimp only
    obtain ⟨a, l, n, h⟩ := faultRecord_eq (List.foldl (fun s id => s.faultRecord id 3) _ _) ctx 0
    obtain ⟨a', l', n', k⟩ := faultRecords_eq _ 3 _
    rw [h, k]
    refine ⟨rfl, rfl, ?_⟩
    show ((s.setCtx ctx { s.ctxOf ctx with fatal := true }).ctxOf ctx).fatal = true
    rw [State.ctxOf_setCtx_self]

theorem writeFault_only (s : State) (ctx : Nat) (b : List Byte) : WritesOnly s (s.writeFault ctx b).1 := by
  unfold State.writeFault
  exact ((unitRead_only ..).trans (ctxWrite_only ..)).trans (ctxWrite_only ..)

/-- A fault inside the handler: the context is FATAL, and no register changes. -/
theorem fatalFault_spec (s : State) (code detail region offset : Nat) :
    ((s.fatalFault code detail region offset).ctxOf s.me.ctx).fatal = true
    ∧ KeptRegs s.me (s.fatalFault code detail region offset).me := by
  unfold State.fatalFault
  dsimp only
  generalize hu : (s.writeFault s.me.ctx (s.faultBytes s.cur.group s.cur.slot s.cur.plane region offset
    { code, detail, mask := s.cur.mask, addr := 0, index := 0 } true)).1 = u
  have only : WritesOnly s u := by rw [← hu]; exact writeFault_only ..
  have hme : u.me = s.me := only.cacheOnly.me
  obtain ⟨groups, cur, fatal⟩ := makeFatal_spec u.endIssue s.me.ctx
  refine ⟨fatal, ?_⟩
  have same : (u.endIssue.makeFatal s.me.ctx).me = u.endIssue.me := by
    show get (u.endIssue.makeFatal s.me.ctx).groups (u.endIssue.makeFatal s.me.ctx).cur.group = _
    rw [groups, cur]
    rfl
  rw [same]
  unfold State.endIssue
  rw [State.me_setMe, hme]
  exact KeptRegs.of_eq ⟨rfl, rfl, rfl, rfl⟩

/-! ## Reading a context's memory past the L1 -/

theorem pocRead_spec (s : State) (ctx core a n : Nat) :
    CacheOnly s (s.pocRead ctx core a n).1 ∧ SameStrong s (s.pocRead ctx core a n).1 core
    ∧ ∀ i, i < n → ∀ e, s.mapping ctx (a + i) = some e → ∀ k, (e.2.loc (a + i)).key = some k →
        (s.pocRead ctx core a n).1.l1 core k = none := by
  unfold State.pocRead
  dsimp only
  induction n with
  | zero => exact ⟨CacheOnly.refl s, SameStrong.refl s core, fun i hi => absurd hi (by omega)⟩
  | succ n ih =>
    rw [List.range_succ, List.foldl_append, List.foldl_cons, List.foldl_nil]
    generalize List.foldl _ s (List.range n) = u at ih ⊢
    obtain ⟨only, seen, gone⟩ := ih
    rw [only.mapping]
    split
    · next id m hm =>
      refine ⟨only.trans (evictByte_cacheOnly ..), seen.trans fun x hx ho => strongByte_evictByte u core _ x hx ho,
        fun i hi e he k hk => ?_⟩
      have dropped (j : Nat) (h : u.l1 core j = none) : (u.evictByte core (m.loc (a + n))).l1 core j = none := by
        cases hk : (m.loc (a + n)).key with
        | none => unfold State.evictByte; rw [hk]; exact h
        | some k => rw [(evictByte_spec hk u core).2.1, h, ite_self]
      rcases Nat.lt_succ_iff_lt_or_eq.mp hi with hlt | rfl
      · exact dropped k (gone i hlt e he k hk)
      · rw [hm] at he
        obtain rfl := Option.some.inj he
        rw [(evictByte_spec hk u core).2.1, if_pos ⟨rfl, rfl⟩]
    · next hm =>
      refine ⟨only, seen, fun i hi e he k hk => ?_⟩
      rcases Nat.lt_succ_iff_lt_or_eq.mp hi with hlt | rfl
      · exact gone i hlt e he k hk
      · rw [hm] at he; cases he

theorem unitRead_strong (s : State) (ctx a n core : Nat) : SameStrong s (s.unitRead ctx a n).1 core := by
  refine .of_eq ?_ (peek_unitRead s ctx a n)
  obtain ⟨q, f, e⟩ := unitRead_eq s ctx a n
  rw [e]

/-- A byte of device memory that a unit reads is the one at its point of coherence. -/
theorem unitRead_dev {s : State} {ctx a n i k : Nat} (hi : i < n) {e : Nat × Mapping}
    (he : s.mapping ctx (a + i) = some e) (hk : e.2.loc (a + i) = .dev k) :
    (s.unitRead ctx a n).2.getD i 0 = s.peek (.dev k) := by
  unfold State.unitRead
  dsimp only
  rw [List.getD_eq_getElem _ _ (by simpa using hi), List.getElem_map, List.getElem_range, he]
  simp only [Option.map_some, hk]

theorem loc_of_device {m : Mapping} (h : m.mkind = 0) (a : Nat) : m.loc a = .dev (canonicalDev (m.target' a)) := by
  simp only [Mapping.loc, h]

/-- What the frame is read as: the core's own stores over what stands at the points of coherence. -/
theorem frame_strong (s : State) (ctx core a n : Nat) (ha : ∀ i, i < n → ∃ e, s.mapping ctx (a + i) = some e ∧ e.2.mkind = 0)
    (i : Nat) (hi : i < n) (e : Nat × Mapping) (he : s.mapping ctx (a + i) = some e) :
    ((s.pocRead ctx core a n).1.unitRead ctx a n).2.getD i 0 = strongByte s core (e.2.loc (a + i)) := by
  obtain ⟨only, seen, gone⟩ := pocRead_spec s ctx core a n
  obtain ⟨e', he', hdev⟩ := ha i hi
  rw [he] at he'
  obtain rfl := Option.some.inj he'
  have hl := loc_of_device hdev (a + i)
  rw [unitRead_dev hi ((only.mapping ..).trans he) hl, hl, ← seen (.dev _) (fun _ h => by cases h) rfl]
  have hnone := gone i hi e he _ (by rw [hl]; rfl)
  unfold strongByte
  simp only [Loc.key, hnone]

/-! ## The frame read does not depend on the yield hint

Beside the makers of requests, the phase cache reads nothing of the groups. -/

/-- Two tables of groups that name the same makers of requests. -/
def SameMakers (G H : Sparse (Option Group)) : Prop :=
  ∀ k, (get H k).launch = (get G k).launch ∧ (get H k).wg = (get G k).wg ∧ (get H k).index = (get G k).index

/-- The state with another table of groups. -/
def withGroups (G : Sparse (Option Group)) (s : State) : State := { s with groups := G }

theorem withGroups_ite (G : Sparse (Option Group)) (c : Prop) [Decidable c] (s t : State) :
    withGroups G (if c then s else t) = if c then withGroups G s else withGroups G t := apply_ite _ c s t

theorem coreOrigin_withGroups {s : State} {G : Sparse (Option Group)} (h : SameMakers s.groups G) (core ctx : Nat)
    (gen : Bool) : (withGroups G s).coreOrigin core ctx gen = s.coreOrigin core ctx gen := by
  obtain ⟨h1, h2, h3⟩ := h (64 * core)
  have e1 : ((withGroups G s).group (64 * core)).launch = (s.group (64 * core)).launch := h1
  have e2 : ((withGroups G s).group (64 * core)).wg = (s.group (64 * core)).wg := h2
  have e3 : ((withGroups G s).group (64 * core)).index = (s.group (64 * core)).index := h3
  unfold State.coreOrigin
  dsimp only
  rw [e1, e2, e3]
  rfl

theorem flushPosted_withGroups (s : State) (G : Sparse (Option Group)) (b : Bool) (o : Origin) :
    (withGroups G s).flushPosted b o = withGroups G (s.flushPosted b o) := by
  unfold State.flushPosted
  rw [withGroups_ite]
  rfl

theorem sendOut_withGroups (s : State) (G : Sparse (Option Group)) (k : Nat) (kind : OutKind) (bs : List Byte)
    (o : Origin) (p : Bool) :
    ((withGroups G s).sendOut k kind bs o p).1 = withGroups G (s.sendOut k kind bs o p).1 := by
  unfold State.sendOut
  dsimp only
  generalize (if viaHevis k = true then kind else OutKind.posted) = kd
  have asked : ((withGroups G s).ask k bs.length kd [] ((withGroups G s).lostNow k) o p).1 =
      withGroups G (s.ask k bs.length kd [] (s.lostNow k) o p).1 := rfl
  rw [asked]
  generalize (s.ask k bs.length kd [] (s.lostNow k) o p).1 = u
  rw [flushPosted_withGroups, show (withGroups G u).ctxOf o.ctx = u.ctxOf o.ctx from rfl, ← withGroups_ite]
  generalize (if (o.gen == (u.ctxOf o.ctx).gen) = true then u else u.flushPosted false o) = v
  rw [withGroups_ite]
  rfl

theorem publishByte_withGroups {s : State} {G : Sparse (Option Group)} (h : SameMakers s.groups G) {l : Loc} {k : Nat}
    (hk : l.key = some k) (core : Nat) (x : L1Byte) :
    (withGroups G s).publishByte core l x = withGroups G (s.publishByte core l x) := by
  cases l with
  | dev j =>
    have count : (withGroups G s).countReq (coreDie core) (.dev j) = withGroups G (s.countReq (coreDie core) (.dev j)) := by
      unfold State.countReq
      rw [withGroups_ite, withGroups_ite]
      rfl
    unfold State.publishByte
    dsimp only
    rw [count, withGroups_ite]
    rfl
  | ext j =>
    unfold State.publishByte
    dsimp only
    rw [coreOrigin_withGroups h]
    exact sendOut_withGroups ..
  | _ => cases hk

theorem evictByte_withGroups {s : State} {G : Sparse (Option Group)} (h : SameMakers s.groups G) (core : Nat) (l : Loc) :
    (withGroups G s).evictByte core l = withGroups G (s.evictByte core l) := by
  unfold State.evictByte
  cases hk : l.key with
  | none => rfl
  | some k =>
    dsimp only
    rw [show (withGroups G s).l1 core k = s.l1 core k from rfl]
    cases s.l1 core k with
    | none => rfl
    | some x =>
      dsimp only
      rw [publishByte_withGroups h hk, ← withGroups_ite]
      generalize (if x.dirty = true then s.publishByte core l x else s) = u
      rw [show (withGroups G u).setL1 core k none = withGroups G (u.setL1 core k none) from rfl]
      unfold State.unstrike
      dsimp only
      rw [withGroups_ite]
      rfl

theorem pocRead_withGroups {s : State} {G : Sparse (Option Group)} (h : SameMakers s.groups G) (ctx core a n : Nat) :
    ((withGroups G s).pocRead ctx core a n).1 = withGroups G (s.pocRead ctx core a n).1 := by
  unfold State.pocRead
  dsimp only
  generalize List.range n = is
  induction is generalizing s with
  | nil => rfl
  | cons i is ih =>
    rw [List.foldl_cons, List.foldl_cons, show (withGroups G s).mapping ctx (a + i) = s.mapping ctx (a + i) from rfl]
    cases s.mapping ctx (a + i) with
    | none => exact ih h
    | some e =>
      dsimp only
      rw [evictByte_withGroups h]
      exact ih (by rw [(evictByte_cacheOnly ..).groups]; exact h)

theorem askRuns_withGroups (s : State) (G : Sparse (Option Group)) (kind : OutKind) (o : Origin) (runs : List (Nat × Nat)) :
    (withGroups G s).askRuns kind o runs = (withGroups G (s.askRuns kind o runs).1, (s.askRuns kind o runs).2) := by
  unfold State.askRuns
  exact (List.foldl_hom (init := (s, [])) (fun x : State × List Nat => (withGroups G x.1, x.2)) fun _ _ => rfl)

theorem unitRead_withGroups (s : State) (G : Sparse (Option Group)) (ctx a n : Nat) :
    ((withGroups G s).unitRead ctx a n).2 = (s.unitRead ctx a n).2 := by
  unfold State.unitRead
  dsimp only
  rw [show (withGroups G s).unitOrigin ctx = s.unitOrigin ctx from rfl,
    show (withGroups G s).mapping ctx = s.mapping ctx from rfl, askRuns_withGroups]
  dsimp only
  refine List.map_congr_left fun i _ => ?_
  cases s.mapping ctx (a + i) with
  | none => rfl
  | some e =>
    have hg := global_loc e.2 (a + i)
    simp only [Option.map_some]
    generalize e.2.loc (a + i) = l at hg ⊢
    cases l with
    | shared => exact hg.elim
    | stack => exact hg.elim
    | _ => rfl

end Sys2Proof
end

section
/-! PROOFS. TRET, continued (R39, R46, R301): where the split resumes, and the obligation. -/

namespace Sys2Proof

open Machine

/-! ## Resuming -/

/-- The lanes of a split that is alone in its group stand where its slot's split is put. -/
theorem stands_setSplit {g : Group} {slot l : Nat} (ha : Alone g slot) (hl : (g.split slot).mask.getLsbD l = true)
    {sp : Split} (hm : sp.mask = (g.split slot).mask) :
    Stands (g.setSplit slot (some sp)) l (some (sp.region, sp.offset)) := by
  obtain ⟨keys, others, stack⟩ := ha
  have apart {x : LaneMask} (h : x &&& (g.split slot).mask = 0) : x.getLsbD l = false := by
    have := congrArg (fun z => z.getLsbD l) h
    simpa [hl] using this
  refine ⟨fun k x hx hb => ?_, fun e he hb => ?_, fun _ => ?_, setSplit_keys _ _ keys⟩
  · rcases mem_setSplit hx with h | ⟨h, hk⟩
    · obtain ⟨_, h⟩ := Prod.mk.inj h
      rw [Option.some.inj h]
    · rw [apart (others (k, some x) h hk x rfl)] at hb
      cases hb
  · rw [apart (stack e he)] at hb
    cases hb
  · exact .inl ⟨slot, sp, setSplit_self .., by rw [hm]; exact hl⟩

/-- A split put in the place of one that is alone is alone. -/
theorem alone_setSplit {g : Group} {slot : Nat} (ha : Alone g slot) {sp : Split} (hm : sp.mask = (g.split slot).mask) :
    Alone (g.setSplit slot (some sp)) slot := by
  obtain ⟨keys, others, stack⟩ := ha
  unfold Alone
  rw [Group.split_setSplit, hm]
  refine ⟨setSplit_keys _ _ keys, fun e he hk sp' hsp => ?_, stack⟩
  rcases mem_setSplit he with h | ⟨h, _⟩
  · exact absurd (congrArg Prod.fst h) hk
  · exact others e h hk sp' hsp

/-- The plane issues still to make of a trapped offset, for the lanes that are still there. -/
def stillTodo (h : Handling) (done : Bool) (mask : LaneMask) : List (Nat × LaneMask) :=
  (if done then h.mid.todo.tail else h.mid.todo).filter fun e => e.2 &&& mask != 0

theorem resume_todo (h : Handling) (done : Bool) (mask : LaneMask) :
    ((if done then h.mid.todo.tail else h.mid.todo).filterMap fun (k, m) =>
      if m &&& mask = 0 then none else some (k, m &&& mask)).isEmpty = (stillTodo h done mask).isEmpty := by
  unfold stillTodo
  generalize (if done = true then h.mid.todo.tail else h.mid.todo) = es
  induction es with
  | nil => rfl
  | cons e es ih =>
    obtain ⟨k, m⟩ := e
    by_cases hz : m &&& mask = 0
    · rw [List.filterMap_cons_none (by simp [hz]), List.filter_cons_of_neg (by simp [hz])]
      exact ih
    · rw [List.filterMap_cons_some (b := (k, m &&& mask)) (by simpa using hz), List.filter_cons_of_pos (by simpa using hz)]
      rfl

/-- The group out of its handler, its age restarted (R46). -/
def outOfHandler (g : Group) (clock : Nat) : Group := { g with handling := none, ageBase := clock }

/-- A split back from the handler at a place. -/
def backAt (sp : Split) (r o : Nat) : Split :=
  { sp with region := r, offset := o, mid := none, wait := none, handler := false }

/-- With no plane issue left to make, the split leaves the trapped offset. -/
theorem resume_done {g : Group} {slot : Nat} {h : Handling} {r o : Nat} {done : Bool} (clock : Nat)
    (here : r = h.region ∧ o = h.offset % 2 ^ 32) (hd : stillTodo h done (g.split slot).mask = []) :
    g.resume slot h r o done clock =
      ((outOfHandler g clock).setSplit slot (some (backAt (g.split slot) r h.offset))).leave slot
        { h.mid with todo := [] } none clock := by
  unfold Group.resume
  dsimp only
  rw [if_pos (by simpa using here), if_pos ((resume_todo ..).trans (by rw [hd]; rfl))]
  rfl

/-- With plane issues left to make, it stands at the trapped offset. -/
theorem resume_todo_left {g : Group} {slot : Nat} {h : Handling} {r o : Nat} {done : Bool} (clock : Nat)
    (here : r = h.region ∧ o = h.offset % 2 ^ 32) (hd : stillTodo h done (g.split slot).mask ≠ []) :
    ∃ m, g.resume slot h r o done clock =
      ((outOfHandler g clock).setSplit slot (some { backAt (g.split slot) r h.offset with mid := m })).settle 128 := by
  unfold Group.resume
  dsimp only
  rw [if_pos (by simpa using here), if_neg]
  · exact ⟨_, rfl⟩
  · rw [Bool.not_eq_true]
    exact (resume_todo ..).trans (by simpa using hd)

/-- At another word it begins afresh. -/
theorem resume_elsewhere {g : Group} {slot : Nat} {h : Handling} {r o : Nat} (done : Bool) (clock : Nat)
    (there : ¬ (r = h.region ∧ o = h.offset % 2 ^ 32)) :
    g.resume slot h r o done clock =
      (((outOfHandler g clock).setPlanes (lanesOf (g.split slot).mask) h.mid).setSplit slot
        (some (backAt (g.split slot) r o))).settle 128 := by
  unfold Group.resume
  dsimp only
  rw [if_neg (by simpa using there)]
  rfl

/-- What resuming does to a group, its lanes going where `p` says. -/
structure Resumed (g t : Group) (slot clock : Nat) (p : Nat → Dest) : Prop where
  regs : EqRegs t g
  stack : t.stackMem = g.stackMem
  handling : t.handling = none
  age : t.ageBase = clock
  stands : Alone g slot → ∀ l, l < 64 → (g.split slot).mask.getLsbD l → laneAt t l = destPlace (p l)

/-- Of a group out of its handler, whatever planes it has, with its split put back at a place. -/
theorem resumed_settle {g k : Group} {slot clock : Nat} (hk : ∃ e, k = { outOfHandler g clock with planes := e }) {sp : Split}
    (hm : sp.mask = (g.split slot).mask) :
    Resumed g ((k.setSplit slot (some sp)).settle 128) slot clock fun _ => .to sp.region sp.offset := by
  obtain ⟨e, rfl⟩ := hk
  refine ⟨⟨by simp [outOfHandler], by simp [outOfHandler], by simp [outOfHandler], by simp [outOfHandler]⟩,
    by simp [outOfHandler], by simp [outOfHandler], by simp [outOfHandler], fun ha l _ hb => ?_⟩
  exact ((stands_setSplit (g := { outOfHandler g clock with planes := e }) ha hb hm).settle 128).laneAt

theorem leave_handling {g : Group} (slot : Nat) (mid : Mid) (wait : Option Waiting) (clock : Nat) (h : g.handling = none) :
    (g.leave slot mid wait clock).handling = none := by
  unfold Group.leave
  dsimp only
  split
  · rw [Group.settle_handling]
    obtain ⟨_, _, k⟩ := Group.spread_eq (Group.setSplit _ _ _) _ _
    rw [k]
    exact h
  · rw [Group.settle_handling]
    unfold Group.endHandler
    split
    · exact h
    · rfl

theorem resumed_leave {g : Group} {slot clock : Nat} {sp : Split} (mid : Mid) (hm : sp.mask = (g.split slot).mask) :
    Resumed g (((outOfHandler g clock).setSplit slot (some sp)).leave slot mid none clock) slot clock fun l =>
      look (.to sp.region (sp.offset + 12)) mid.dests l := by
  refine ⟨⟨by simp [outOfHandler], by simp [outOfHandler], by simp [outOfHandler], by simp [outOfHandler]⟩,
    by simp [outOfHandler], leave_handling _ _ _ _ rfl, Group.leave_ageBase .., fun ha l hl hb => ?_⟩
  have alone := alone_setSplit (g := outOfHandler g clock) (slot := slot) ha hm
  have lane := leave_laneAt _ slot mid none clock alone l hl (by rw [Group.split_setSplit, hm]; exact hb)
  rw [Group.split_setSplit] at lane
  exact lane

/-! ## The step -/

theorem traceMe_eq (s : State) (kind value : Nat) : ∃ n, s.traceMe kind value = { s with notices := n } := by
  unfold State.traceMe State.trace State.traceAt
  dsimp only
  split
  · exact ⟨_, rfl⟩
  · exact ⟨s.notices, rfl⟩

theorem noteYield_eq (s : State) (y : Bool) : s.noteYield y = s.setMe (yielding s y) ∨ s.noteYield y = s := by
  unfold State.noteYield yielding
  cases y
  · exact .inr rfl
  · exact .inl rfl

/-- Noting a yield hint changes nothing but when the group is picked next. -/
theorem noteYield_spec (s : State) (y : Bool) :
    ∃ u G, s.noteYield y = withGroups G s ∧ SameMakers s.groups G
      ∧ (s.noteYield y).me = { s.me with yieldUntil := u } ∧ ∀ core, SameStrong s (s.noteYield y) core := by
  rcases noteYield_eq s y with h | h
  · obtain ⟨u, hu⟩ := yielding_eq s y
    rw [h, hu]
    refine ⟨u, _, rfl, fun k => ?_, State.me_setMe .., fun core => .of_eq rfl fun x => ?_⟩
    · show ((s.setMe _).group k).launch = (s.group k).launch ∧ ((s.setMe _).group k).wg = (s.group k).wg
        ∧ ((s.setMe _).group k).index = (s.group k).index
      rw [State.group_setMe]
      split
      · next e => rw [e]; exact ⟨rfl, rfl, rfl⟩
      · exact ⟨rfl, rfl, rfl⟩
    · cases x with
      | stack g off =>
        show look 0 ((s.setMe _).group g).stackMem off = look 0 (s.group g).stackMem off
        rw [State.group_setMe]
        split
        · next e => rw [e]; rfl
        · rfl
      | _ => rfl
  · rw [h]
    exact ⟨s.me.yieldUntil, s.groups, rfl, fun _ => ⟨rfl, rfl, rfl⟩, rfl, fun core => SameStrong.refl s core⟩


/-- The state after the frame has been read, behind the core's own stores. -/
def afterFrame (s : State) (frame : Nat) : State :=
  ((s.pocRead s.me.ctx (coreOf s.cur.group) frame 64).1.unitRead s.me.ctx frame 64).1

/-- The frame as it stands. -/
def frameBytes (s : State) (frame : Nat) : List Byte :=
  ((s.pocRead s.me.ctx (coreOf s.cur.group) frame 64).1.unitRead s.me.ctx frame 64).2

/-- S0 to S3, as a frame holds them (R300). -/
def restored (fb : List Byte) : List Write :=
  [0, 1, 2, 3].map fun i => Write.s i (BitVec.ofNat 32 (field fb (48 + 4 * i) 4))

theorem afterFrame_spec (s : State) (frame : Nat) :
    CacheOnly s (afterFrame s frame) ∧ SameStrong s (afterFrame s frame) (coreOf s.cur.group) := by
  obtain ⟨only, seen, _⟩ := pocRead_spec s s.me.ctx (coreOf s.cur.group) frame 64
  exact ⟨only.trans (unitRead_only ..).cacheOnly, seen.trans (unitRead_strong _ _ _ _ _)⟩

theorem frameBytes_noteYield (s : State) (y : Bool) (frame : Nat) :
    frameBytes (s.noteYield y) frame = frameBytes s frame := by
  obtain ⟨u, G, hG, makers, hme, _⟩ := noteYield_spec s y
  unfold frameBytes
  rw [hme, hG, show (withGroups G s).cur = s.cur from rfl, pocRead_withGroups makers, unitRead_withGroups]

/-- The frame names the trapped place itself. -/
def Back (h : Handling) (fb : List Byte) : Prop := field fb 2 2 = h.region ∧ field fb 4 4 = h.offset % 2 ^ 32

/-- The frame names a word of the launch's code. -/
def IsWord (l : Launch) (fb : List Byte) : Prop :=
  field fb 2 2 < l.regions.length ∧ field fb 4 4 % 4 = 0 ∧ field fb 4 4 + 12 ≤ (l.region (field fb 2 2)).2.1

/-- The test that TRET makes of its frame. -/
def frameOk (l : Launch) (h : Handling) (fb : List Byte) : Bool :=
  (field fb 2 2 == h.region && field fb 4 4 == h.offset % 2 ^ 32)
    || (field fb 2 2 < l.regions.length && field fb 4 4 % 4 == 0 && field fb 4 4 + 12 ≤ (l.region (field fb 2 2)).2.1)

theorem frameOk_iff (l : Launch) (h : Handling) (fb : List Byte) : frameOk l h fb = true ↔ Back h fb ∨ IsWord l fb := by
  simp [frameOk, Back, IsWord, and_assoc]

theorem trapReturn_eq {s : State} {h : Handling} (hh : s.me.handling = some h) :
    s.trapReturn =
      let fb := frameBytes s h.frame
      let u := afterFrame s h.frame
      if !s.mySplit.handler then s.illegal
      else if s.cur.mask != h.entry &&& ~~~s.me.exited then s.fatalFault 1 8 s.mySplit.region s.mySplit.offset
      else if !frameOk (u.launch s.me.launch) h fb then u.fatalFault 11 3 (field fb 2 2) (field fb 4 4)
      else (u.traceMe 5 0).setMe ((s.me.writes (restored fb)).resume u.cur.slot h (field fb 2 2) (field fb 4 4)
        ((field fb 0 2).testBit 3) (u.cluster (clusterOf u.cur.group)).clock) := by
  unfold State.trapReturn
  dsimp only
  rw [hh]
  unfold frameBytes afterFrame frameOk
  rfl

theorem trapReturn_outside {s : State} (hh : s.me.handling = none ∨ s.mySplit.handler = false) :
    s.trapReturn = s.illegal := by
  cases h : s.me.handling with
  | none => unfold State.trapReturn; dsimp only; rw [h]
  | some x =>
    rcases hh with e | e
    · rw [e] at h; cases h
    · rw [trapReturn_eq h]; dsimp only; rw [e]; rfl

section
variable {s : State} {h : Handling} (hh : s.me.handling = some h) (hs : s.mySplit.handler = true)
include hh hs

theorem trapReturn_mask (hm : s.cur.mask ≠ h.entry &&& ~~~s.me.exited) :
    s.trapReturn = s.fatalFault 1 8 s.mySplit.region s.mySplit.offset := by
  rw [trapReturn_eq hh]
  dsimp only
  rw [if_neg (by simp [hs]), if_pos (by simpa using hm)]

variable (hm : s.cur.mask = h.entry &&& ~~~s.me.exited)
include hm

theorem trapReturn_noWord (hb : ¬ Back h (frameBytes s h.frame))
    (hw : ¬ IsWord (s.launch s.me.launch) (frameBytes s h.frame)) :
    s.trapReturn = (afterFrame s h.frame).fatalFault 11 3 (field (frameBytes s h.frame) 2 2)
      (field (frameBytes s h.frame) 4 4) := by
  rw [trapReturn_eq hh]
  dsimp only
  rw [if_neg (by simp [hs]), if_neg (by simp [hm]), (afterFrame_spec s h.frame).1.launch, if_pos]
  have := (frameOk_iff (s.launch s.me.launch) h (frameBytes s h.frame)).not.mpr (not_or.mpr ⟨hb, hw⟩)
  rw [Bool.eq_false_of_not_eq_true this]
  rfl

theorem trapReturn_word (hb : Back h (frameBytes s h.frame)
      ∨ IsWord (s.launch s.me.launch) (frameBytes s h.frame)) :
    s.trapReturn = ((afterFrame s h.frame).traceMe 5 0).setMe
      ((s.me.writes (restored (frameBytes s h.frame))).resume s.cur.slot h (field (frameBytes s h.frame) 2 2)
        (field (frameBytes s h.frame) 4 4) ((field (frameBytes s h.frame) 0 2).testBit 3)
        (s.cluster (clusterOf s.cur.group)).clock) := by
  obtain ⟨only, _⟩ := afterFrame_spec s h.frame
  rw [trapReturn_eq hh]
  dsimp only
  rw [if_neg (by simp [hs]), if_neg (by simp [hm]), only.launch, only.cluster, only.cur, if_neg]
  rw [(frameOk_iff ..).mpr hb]
  decide
end

/-! ## What TRET leaves -/

theorem readS_restored (g : Group) (fb : List Byte) (k : Nat) :
    (g.writes (restored fb)).readS k = if k < 4 then BitVec.ofNat 32 (field fb (48 + 4 * k) 4) else g.readS k := by
  unfold restored Group.writes
  simp only [List.map_cons, List.map_nil, List.foldl_cons, List.foldl_nil, readS_write_s]
  by_cases hk : k < 4
  · interval_cases k <;> rfl
  · rw [if_neg hk, if_neg (by omega), if_neg (by omega), if_neg (by omega), if_neg (by omega)]

/-- The vector registers and the predicates stay. -/
theorem restored_keeps (g : Group) (fb : List Byte) :
    (∀ r l, (g.writes (restored fb)).readV r l = g.readV r l) ∧ ∀ r l, (g.writes (restored fb)).readP r l = g.readP r l := by
  unfold restored Group.writes
  simp only [List.map_cons, List.map_nil, List.foldl_cons, List.foldl_nil, readV_write_s, readP_write_s, implies_true,
    and_self]

/-- What the return from a handler leaves: the registers of the frame, the age, and memory as the core sees it. -/
def Returned (s : State) (fb : List Byte) (t : State) : Prop :=
  t.me.handling = none
  ∧ (∀ i, i < 4 → t.me.readS i = BitVec.ofNat 32 (field fb (48 + 4 * i) 4))
  ∧ (∀ i, 4 ≤ i → t.me.readS i = s.me.readS i) ∧ SameV s.me t.me ∧ SameP s.me t.me
  ∧ t.me.ageBase = (s.cluster (clusterOf s.cur.group)).clock
  ∧ (L1Ok s (coreOf s.cur.group) → ∀ x, (∀ k, x ≠ .mmio k) → overLink x = false →
      strongByte t (coreOf s.cur.group) x = strongByte s (coreOf s.cur.group) x)

/-- A change of the issuing group that keeps its stack changes no byte that its core sees. -/
theorem sameStrong_setMe (s : State) {g : Group} (h : g.stackMem = s.me.stackMem) (core : Nat) :
    SameStrong s (s.setMe g) core := by
  refine .of_eq rfl fun x => ?_
  cases x with
  | stack k off =>
    show look 0 ((s.setMe g).group k).stackMem off = look 0 (s.group k).stackMem off
    rw [State.group_setMe]
    split
    · next e => rw [e, h]; rfl
    · rfl
  | _ => rfl

/-- A group that resumes from its handler, its registers restored, has returned, and its lanes go where it says. -/
theorem returned_of_resumed {s u : State} {fb : List Byte} {g t : Group} {p : Nat → Dest}
    (hg : ∃ y, g = { s.me with yieldUntil := y }) (stack : u.me.stackMem = s.me.stackMem)
    (seen : SameStrong s u (coreOf s.cur.group))
    (r : Resumed (g.writes (restored fb)) t s.cur.slot (s.cluster (clusterOf s.cur.group)).clock p) :
    Returned s fb (u.setMe t) ∧ (Alone s.me s.cur.slot → LanesGo s (u.setMe t) p) := by
  obtain ⟨y, rfl⟩ := hg
  obtain ⟨_, _, _, _, _, hw⟩ := Group.writes_eq { s.me with yieldUntil := y } (restored fb)
  have hstack : t.stackMem = u.me.stackMem := by rw [r.stack, hw, stack]
  have hS (k : Nat) : t.readS k = if k < 4 then BitVec.ofNat 32 (field fb (48 + 4 * k) 4) else s.me.readS k :=
    (r.regs.readS k).trans (readS_restored _ fb k)
  unfold Returned LanesGo
  rw [State.me_setMe]
  refine ⟨⟨r.handling, fun i hi => ?_, fun i hi => ?_, fun a l _ => ?_, fun a l => ?_, r.age, fun _ x hx ho => ?_⟩,
    fun ha l hl hb => ?_⟩
  · rw [hS, if_pos hi]
  · rw [hS, if_neg (by omega)]
  · exact (r.regs.readV a l).trans ((restored_keeps _ fb).1 a l)
  · exact (r.regs.readP a l).trans ((restored_keeps _ fb).2 a l)
  · exact (sameStrong_setMe u hstack _ x hx ho).trans (seen x hx ho)
  · exact r.stands (by rw [hw]; exact ha) l hl (by rw [hw]; exact hb)

section
variable {g : Group} {slot : Nat} {h : Handling} {fb : List Byte} (clock : Nat)

theorem resumed_todo (here : Back h fb) (hd : stillTodo h ((field fb 0 2).testBit 3) (g.split slot).mask ≠ []) :
    Resumed g (g.resume slot h (field fb 2 2) (field fb 4 4) ((field fb 0 2).testBit 3) clock) slot clock
      fun _ => .to h.region h.offset := by
  obtain ⟨m, e⟩ := resume_todo_left clock here hd
  rw [e, ← here.1]
  exact resumed_settle ⟨g.planes, rfl⟩ rfl

theorem resumed_done (here : Back h fb) (hd : stillTodo h ((field fb 0 2).testBit 3) (g.split slot).mask = []) :
    Resumed g (g.resume slot h (field fb 2 2) (field fb 4 4) ((field fb 0 2).testBit 3) clock) slot clock
      fun l => look (.to h.region (h.offset + 12)) h.mid.dests l := by
  rw [resume_done clock here hd, ← here.1]
  exact resumed_leave { h.mid with todo := [] } rfl

theorem resumed_elsewhere (there : ¬ Back h fb) :
    Resumed g (g.resume slot h (field fb 2 2) (field fb 4 4) ((field fb 0 2).testBit 3) clock) slot clock
      fun _ => .to (field fb 2 2) (field fb 4 4) := by
  rw [resume_elsewhere _ clock there]
  exact resumed_settle ⟨_, rfl⟩ rfl
end

/-! ## The obligation -/

/-- What the step starts from: the issuing group with its yield hint noted. -/
structure Started (s t : State) : Prop where
  me : ∃ u, t.me = { s.me with yieldUntil := u }
  cur : t.cur = s.cur
  split : t.mySplit = s.mySplit
  launch : ∀ l, t.launch l = s.launch l
  cluster : ∀ c, t.cluster c = s.cluster c
  bytes : ∀ frame, frameBytes t frame = frameBytes s frame
  seen : ∀ core, SameStrong s t core

theorem started_noteYield (s : State) (y : Bool) : Started s (s.noteYield y) := by
  obtain ⟨u, G, hG, _, hme, seen⟩ := noteYield_spec s y
  have hcur : (s.noteYield y).cur = s.cur := by rw [hG]; rfl
  refine ⟨⟨u, hme⟩, hcur, ?_, fun _ => by rw [hG]; rfl, fun _ => by rw [hG]; rfl, frameBytes_noteYield s y, seen⟩
  unfold State.mySplit
  rw [hme, hcur]
  rfl

/-- A fault that TRET takes makes the issuing group's context FATAL and changes none of its registers. -/
theorem started_fatal {s t u : State} (st : Started s t) (only : CacheOnly t u) (code detail region offset : Nat) :
    ((u.fatalFault code detail region offset).ctxOf s.me.ctx).fatal = true
    ∧ KeptRegs s.me (u.fatalFault code detail region offset).me := by
  obtain ⟨y, hy⟩ := st.me
  have h := fatalFault_spec u code detail region offset
  rw [only.me, hy] at h
  exact h

/-- From the handler's split with the mask of its entry, at a place that is a word: the lanes go where resuming sends
them. -/
theorem tret_returned {s t : State} {h : Handling} {p : Nat → Dest} (st : Started s t) (hh : s.me.handling = some h)
    (hs : s.mySplit.handler = true) (hm : s.cur.mask = h.entry &&& ~~~s.me.exited)
    (hb : Back h (frameBytes s h.frame) ∨ IsWord (s.launch s.me.launch) (frameBytes s h.frame))
    (resumed : ∀ g clock, (g.split s.cur.slot).mask = s.mySplit.mask →
      Resumed g (g.resume s.cur.slot h (field (frameBytes s h.frame) 2 2) (field (frameBytes s h.frame) 4 4)
        ((field (frameBytes s h.frame) 0 2).testBit 3) clock) s.cur.slot clock p) :
    Returned s (frameBytes s h.frame) t.trapReturn ∧ (Alone s.me s.cur.slot → LanesGo s t.trapReturn p) := by
  obtain ⟨y, hy⟩ := st.me
  obtain ⟨only, seen⟩ := afterFrame_spec t h.frame
  obtain ⟨n, hn⟩ := traceMe_eq (afterFrame t h.frame) 5 0
  rw [trapReturn_word (by rw [hy]; exact hh) (by rw [st.split]; exact hs) (by rw [hy, st.cur]; exact hm)
    (by rw [st.bytes, st.launch, hy]; exact hb), st.bytes, st.cur, st.cluster, hn]
  generalize afterFrame t h.frame = u at only seen hn ⊢
  refine returned_of_resumed ⟨y, hy⟩ ?_ ?_ (resumed _ _ ?_)
  · show u.me.stackMem = _
    rw [only.me, hy]
  · rw [st.cur] at seen
    refine ((st.seen _).trans seen).trans (.of_eq rfl fun x => ?_)
    cases x <;> rfl
  · obtain ⟨_, _, _, _, _, hw⟩ := Group.writes_eq t.me (restored (frameBytes s h.frame))
    rw [hw, hy]
    rfl

/-- Settles O32: the frame is read as it stands (`frame_strong`), its registers are restored (`readS_restored`), and the
split resumes where it says (`resumed_todo`, `resumed_done`, `resumed_elsewhere`). -/
theorem trapReturn : Obligations.TrapReturn := by
  intro o h s
  have st := started_noteYield s o.hints.y
  obtain ⟨y, hy⟩ := st.me
  refine ⟨fun hx => ?outside, fun hh hs hm => ⟨_, rfl, ?mask⟩,
    fun hh hs hm _ => ⟨fun hw => ⟨_, rfl, ?noWord⟩, fun here hd => ⟨_, rfl, ?todo⟩, fun here hd => ⟨_, rfl, ?done⟩,
      fun there hw => ⟨_, rfl, ?elsewhere⟩, fun _ ap i hi e he => ?frame⟩⟩
  case outside =>
    show Host.Outcome.next _ = _
    rw [trapReturn_outside]
    rw [hy, st.split]
    exact hx
  case mask =>
    rw [trapReturn_mask (by rw [hy]; exact hh) (by rw [st.split]; exact hs) (by rw [hy, st.cur]; exact hm)]
    exact started_fatal st (CacheOnly.refl _) ..
  case noWord =>
    rw [trapReturn_noWord (by rw [hy]; exact hh) (by rw [st.split]; exact hs) (by rw [hy, st.cur]; exact hm)
      (by rw [st.bytes]; exact hw.1) (by rw [st.bytes, st.launch, hy]; exact hw.2)]
    exact started_fatal st (afterFrame_spec ..).1 ..
  case todo =>
    exact tret_returned st hh hs hm (.inl here) fun g clock hg => resumed_todo clock here (by rw [hg]; exact hd)
  case done =>
    exact tret_returned st hh hs hm (.inl here) fun g clock hg => resumed_done clock here (by rw [hg]; exact hd)
  case elsewhere =>
    exact tret_returned st hh hs hm (.inr hw) fun g clock _ => resumed_elsewhere clock there
  case frame =>
    refine frame_strong s _ _ _ 64 (fun j hj => ap.1 _ ?_) i hi e he
    exact List.mem_map.mpr ⟨j, List.mem_range.mpr hj, rfl⟩

end Sys2Proof
end

section
/-! PROOFS. Byte layouts: where the parts of a string of bytes stand, the numbers they hold, and the parts of a
group's frame (R377). -/

namespace Sys2Proof

open Machine

/-! ## Parts of a string of bytes -/

/-- `x` stands in `b` from offset `o` on. -/
def StandsAt (b : List Byte) (o : Nat) (x : List Byte) : Prop := ∃ pre post, b = pre ++ (x ++ post) ∧ pre.length = o

namespace StandsAt

variable {b x y z : List Byte} {o k m n : Nat}

theorem refl (b : List Byte) : StandsAt b 0 b := ⟨[], [], by simp, rfl⟩

theorem trans (h : StandsAt b o x) (i : StandsAt x k y) : StandsAt b (o + k) y := by
  obtain ⟨p, q, rfl, rfl⟩ := h
  obtain ⟨p', q', rfl, rfl⟩ := i
  exact ⟨p ++ p', q' ++ q, by simp, by simp⟩

/-- The first of two parts. -/
theorem left (x y : List Byte) : StandsAt (x ++ y) 0 x := ⟨[], y, rfl, rfl⟩

/-- The second of two parts. -/
theorem right (hx : x.length = n) : StandsAt (x ++ y) n y := ⟨x, [], by simp, hx⟩

theorem padTo (n : Nat) (x : List Byte) : StandsAt (padTo n x) 0 x := left ..

/-- One of several parts of equal length. -/
theorem flatMap {α : Type} {f : α → List Byte} {w : Nat} {xs : List α} (hw : ∀ x ∈ xs, (f x).length = w) {i : Nat} {a : α}
    (hi : xs[i]? = some a) : StandsAt (xs.flatMap f) (w * i) (f a) := by
  induction xs generalizing i with
  | nil => cases hi
  | cons c xs ih =>
    rw [List.flatMap_cons]
    cases i with
    | zero =>
      obtain rfl := Option.some.inj hi
      exact left ..
    | succ i =>
      have tail := (right (y := xs.flatMap f) (hw c (by simp))).trans (ih (fun x hx => hw x (by simp [hx])) hi)
      rwa [Nat.mul_succ, Nat.add_comm]

theorem flatMap_range {f : Nat → List Byte} {w n i : Nat} (hw : ∀ j, j < n → (f j).length = w) (hi : i < n) :
    StandsAt ((List.range n).flatMap f) (w * i) (f i) :=
  flatMap (fun j hj => hw j (List.mem_range.mp hj)) (by simp [hi])

/-- A field of a part is a field of the whole. -/
theorem subfield (h : StandsAt b o x) (hk : k + m ≤ x.length) : field b (o + k) m = field x k m := by
  obtain ⟨pre, post, rfl, rfl⟩ := h
  unfold field
  rw [List.drop_length_add_append, List.drop_append_of_le_length (by omega), List.take_append_of_le_length]
  rw [List.length_drop]
  omega

end StandsAt

theorem leNat_leBytes (n x : Nat) : leNat (leBytes n x) = x % 256 ^ n := by
  induction n generalizing x with
  | zero => simp [leBytes, leNat, Nat.mod_one]
  | succ n ih =>
    rw [leBytes, leNat, ih, Nat.pow_succ, Nat.mul_comm (256 ^ n), Nat.mod_mul]
    simp

/-- The number at a part that holds one. -/
theorem StandsAt.num {b : List Byte} {o n x : Nat} (h : StandsAt b o (leBytes n x)) : field b o n = x % 256 ^ n := by
  rw [← Nat.add_zero o, h.subfield (by simp)]
  unfold field
  rw [List.drop_zero, List.take_of_length_le (by simp), leNat_leBytes]

theorem StandsAt.word {b : List Byte} {o : Nat} {n : Nat} {x : BitVec n} (m : Nat) (hm : n ≤ 8 * m)
    (h : StandsAt b o (leBytes m x.toNat)) : field b o m = x.toNat := by
  rw [h.num, Nat.mod_eq_of_lt]
  calc x.toNat < 2 ^ n := x.isLt
    _ ≤ 2 ^ (8 * m) := Nat.pow_le_pow_right (by decide) hm
    _ = 256 ^ m := by rw [Nat.pow_mul]

theorem leNat_replicate_zero (n : Nat) : leNat (List.replicate n 0) = 0 := by
  induction n with
  | zero => rfl
  | succ n ih => rw [List.replicate_succ, leNat, ih]; rfl

theorem StandsAt.zeros {b : List Byte} {o n : Nat} (h : StandsAt b o (List.replicate n 0)) : field b o n = 0 := by
  rw [← Nat.add_zero o, h.subfield (by simp)]
  unfold field
  rw [List.drop_zero, List.take_of_length_le (by simp), leNat_replicate_zero]

theorem padTo_length {n : Nat} {x : List Byte} (h : x.length ≤ n) : (padTo n x).length = n := by
  unfold padTo
  rw [List.length_append, List.length_replicate]
  omega

theorem flatMap_length {α : Type} {f : α → List Byte} {w : Nat} {xs : List α} (hw : ∀ x ∈ xs, (f x).length = w) :
    (xs.flatMap f).length = w * xs.length := by
  induction xs with
  | nil => rfl
  | cons x xs ih =>
    rw [List.flatMap_cons, List.length_append, hw x (by simp), ih fun y hy => hw y (by simp [hy]), List.length_cons,
      Nat.mul_succ, Nat.add_comm]

theorem flatMap_range_length {f : Nat → List Byte} {w n : Nat} (hw : ∀ j, j < n → (f j).length = w) :
    ((List.range n).flatMap f).length = w * n := by
  rw [flatMap_length fun j hj => hw j (List.mem_range.mp hj), List.length_range]

/-! ## Numbers made of bits and of digits -/

theorem bitsOf_succ (n : Nat) (p : Nat → Bool) : bitsOf (n + 1) p = if p n then bitsOf n p + 2 ^ n else bitsOf n p := by
  unfold bitsOf
  rw [List.range_succ, List.foldl_append]
  rfl

theorem bitsOf_lt (n : Nat) (p : Nat → Bool) : bitsOf n p < 2 ^ n := by
  induction n with
  | zero => exact Nat.one_pos
  | succ n ih =>
    rw [bitsOf_succ, Nat.pow_succ]
    split <;> omega

theorem testBit_bitsOf {n i : Nat} (p : Nat → Bool) (hi : i < n) : (bitsOf n p).testBit i = p i := by
  induction n with
  | zero => omega
  | succ n ih =>
    rw [bitsOf_succ]
    rcases Nat.lt_succ_iff_lt_or_eq.mp hi with h | rfl
    · split
      · rw [Nat.add_comm, Nat.testBit_two_pow_add_gt h, ih h]
      · exact ih h
    · have low := Nat.testBit_lt_two_pow (bitsOf_lt i p)
      split
      · next hp => rw [Nat.add_comm, Nat.testBit_two_pow_add_eq, low, hp]; rfl
      · next hp => rw [low]; simpa using hp

/-- A number with the digits `f` in base 4. -/
def digits4 (n : Nat) (f : Nat → Nat) : Nat := (List.range n).foldl (fun x l => x + f l * 4 ^ l) 0

theorem digits4_succ (n : Nat) (f : Nat → Nat) : digits4 (n + 1) f = digits4 n f + f n * 4 ^ n := by
  unfold digits4
  rw [List.range_succ, List.foldl_append]
  rfl

theorem digits4_lt {f : Nat → Nat} (hf : ∀ l, f l < 4) (n : Nat) : digits4 n f < 4 ^ n := by
  induction n with
  | zero => exact Nat.one_pos
  | succ n ih =>
    rw [digits4_succ, Nat.pow_succ]
    have : f n * 4 ^ n ≤ 3 * 4 ^ n := Nat.mul_le_mul_right _ (by have := hf n; omega)
    omega

theorem digit_digits4 {f : Nat → Nat} (hf : ∀ l, f l < 4) {n l : Nat} (hl : l < n) : digits4 n f / 4 ^ l % 4 = f l := by
  induction n with
  | zero => omega
  | succ n ih =>
    rw [digits4_succ]
    have pos : 0 < 4 ^ l := Nat.pow_pos (by decide)
    rcases Nat.lt_succ_iff_lt_or_eq.mp hl with h | rfl
    · obtain ⟨d, rfl⟩ : ∃ d, n = l + 1 + d := ⟨n - (l + 1), by omega⟩
      rw [show f (l + 1 + d) * 4 ^ (l + 1 + d) = 4 ^ l * (4 * (f (l + 1 + d) * 4 ^ d)) by ring,
        Nat.add_mul_div_left _ _ pos, Nat.add_mul_mod_self_left, ih h]
    · rw [Nat.add_mul_div_right _ _ pos, Nat.div_eq_of_lt (digits4_lt hf l), Nat.zero_add, Nat.mod_eq_of_lt (hf l)]

end Sys2Proof
end

section
/-! PROOFS. The frame of a group (R377, R434): its parts, where they stand, and what they hold. -/

namespace Sys2Proof

open Machine

/-! ## The parts of a frame -/

/-- The waits that a save keeps, by slot. -/
def savedWaits (s : State) (key : Nat) (k : Nat) : Option Held :=
  ((List.range 4).map fun k => if (look none (s.group key).splits k).isSome then s.heldOf key k false else none).getD k none

theorem savedWaits_eq (s : State) (key : Nat) {k : Nat} (hk : k < 4) :
    savedWaits s key k = if (look none (s.group key).splits k).isSome then s.heldOf key k false else none := by
  unfold savedWaits
  rw [List.getD_eq_getElem _ _ (by simpa using hk), List.getElem_map, List.getElem_range]

def frameScalars (g : Group) : List Byte := (List.range 128).flatMap fun r => leBytes 4 (g.readS r).toNat

def framePreds (g : Group) : List Byte := (List.range 15).flatMap fun p => leBytes 8 (look 0 g.p p).toNat

def frameSlot (g : Group) (k : Nat) : List Byte :=
  match look none g.splits k with
  | some sp => placeBytes sp.mask sp.offset sp.region
  | none => List.replicate 16 0

/-- The slot of the handler's split. -/
def handlerSlot (g : Group) : Option Nat :=
  (List.range 4).find? fun k => match look none g.splits k with | some sp => sp.handler | none => false

def frameState (g : Group) (held : Nat → Option Held) : Nat :=
  g.hint + (if (handlerSlot g).isSome then 256 else 0) + 512 * (handlerSlot g).getD 0
    + 4096 * bitsOf 4 (fun k => (held k).isSome) + 65536 * bitsOf 4 (fun k => ((held k).map (·.implicit)).getD false)

def frameWait (held : Nat → Option Held) (k : Nat) : List Byte :=
  padTo 64 (((held k).map fun h => condsBytes h.conds).getD [])

def frameStack (g : Group) : List Byte := padTo 1024 (g.stack.flatMap fun e => placeBytes e.mask e.offset e.region)

def frameLinks (g : Group) (l : Nat) : List Byte :=
  padTo 128 ((look [] g.links l).flatMap fun e => leBytes 4 e.offset ++ leBytes 2 e.region ++ leBytes 2 0)

def frameEnd (held : Nat → Option Held) (k : Nat) : List Byte :=
  match held k with
  | some h =>
    padTo 64 (leBytes 8 (h.expiry.getD (2 ^ 64 - 1)) ++ leBytes 1 (bitsOf 4 fun i => ((h.conds[i]?).bind (·.met)).isSome))
  | none => List.replicate 64 0

def frameVectors (g : Group) : List Byte :=
  (List.range g.regs).flatMap fun r => (List.range g.width).flatMap fun l => leBytes 4 (g.readV r l).toNat

theorem frameOf_eq (s : State) (key : Nat) :
    let g := s.group key
    let held := savedWaits s key
    s.frameOf key false =
      frameScalars g ++ framePreds g ++ List.replicate 8 0
      ++ (List.range 4).flatMap (frameSlot g) ++ leBytes 16 (digits4 64 fun l => look 0 g.planes l)
      ++ leBytes 4 (frameState g held) ++ leBytes 4 g.gang.toNat ++ leBytes 4 g.fpx.toNat
      ++ leBytes 4 (g.stack.length % 64 + 256 * g.nextSeq)
      ++ leBytes 16 (bitsOf 128 fun r => (look none g.tags r).isSome) ++ List.replicate 16 0
      ++ (List.range 4).flatMap (frameWait held) ++ frameStack g ++ (List.range 64).flatMap (frameLinks g)
      ++ (List.range 4).flatMap (frameEnd held) ++ frameVectors g := rfl

/-! ## Their lengths -/

theorem placeBytes_length (m : LaneMask) (o r : Nat) : (placeBytes m o r).length = 16 := by simp [placeBytes]

theorem condsBytes_length (cs : List Cond) : (condsBytes cs).length = 16 * cs.length := by
  induction cs with
  | nil => rfl
  | cons c cs ih =>
    rw [condsBytes, List.length_append, ih, List.length_cons]
    simp [Cond.bytes]
    omega

theorem frameScalars_length (g : Group) : (frameScalars g).length = 512 :=
  flatMap_range_length (w := 4) fun _ _ => leBytes_length ..

theorem framePreds_length (g : Group) : (framePreds g).length = 120 :=
  flatMap_range_length (w := 8) fun _ _ => leBytes_length ..

theorem frameSlot_length (g : Group) (k : Nat) : (frameSlot g k).length = 16 := by
  unfold frameSlot
  split
  · exact placeBytes_length ..
  · exact List.length_replicate ..

theorem frameEnd_length (held : Nat → Option Held) (k : Nat) : (frameEnd held k).length = 64 := by
  unfold frameEnd
  split
  · exact padTo_length (by simp)
  · exact List.length_replicate ..

theorem frameVectors_length (g : Group) : (frameVectors g).length = 4 * (g.regs * g.width) := by
  unfold frameVectors
  rw [flatMap_range_length (w := 4 * g.width) fun _ _ => flatMap_range_length fun _ _ => leBytes_length ..]
  ring

section
variable {g : Group} (fits : FrameFits g)
include fits

theorem frameStack_length : (frameStack g).length = 1024 := by
  obtain ⟨hstack, _, _, _, _⟩ := fits
  refine padTo_length ?_
  rw [flatMap_length (w := 16) fun e _ => placeBytes_length ..]
  omega

theorem frameLinks_length (l : Nat) : (frameLinks g l).length = 128 := by
  obtain ⟨_, hlinks, _, _, _⟩ := fits
  refine padTo_length ?_
  rw [flatMap_length (w := 8) fun e _ => by simp]
  have := hlinks l
  omega
end

theorem savedWaits_conds {s : State} {key : Nat} (fits : FrameFits (s.group key)) {k : Nat} (hk : k < 4) {h : Held}
    (hh : savedWaits s key k = some h) : h.conds.length ≤ 4 := by
  obtain ⟨_, _, _, _, hconds⟩ := fits
  rw [savedWaits_eq s key hk] at hh
  unfold State.heldOf at hh
  dsimp only at hh
  split at hh
  · split at hh
    · next w hw =>
      split at hh
      · obtain rfl := Option.some.inj hh
        exact hconds k w hw
      · obtain rfl := Option.some.inj hh
        exact Nat.succ_le_succ (Nat.zero_le 3)
      · obtain rfl := Option.some.inj hh
        rw [List.length_map, List.length_take]
        omega
      · cases hh
    · cases hh
  · cases hh

theorem frameWait_length {s : State} {key : Nat} (fits : FrameFits (s.group key)) {k : Nat} (hk : k < 4) :
    (frameWait (savedWaits s key) k).length = 64 := by
  refine padTo_length ?_
  cases hh : savedWaits s key k with
  | none => decide
  | some h =>
    have := savedWaits_conds fits hk hh
    show (condsBytes h.conds).length ≤ 64
    rw [condsBytes_length]
    omega

/-! ## Where they stand -/

/-- The parts of a frame, each at its offset. -/
structure FrameParts (g : Group) (held : Nat → Option Held) (b : List Byte) : Prop where
  length : b.length = 0x2900 + 4 * (g.regs * g.width)
  scalars : StandsAt b 0 (frameScalars g)
  preds : StandsAt b 0x200 (framePreds g)
  slots : StandsAt b 0x280 ((List.range 4).flatMap (frameSlot g))
  planes : StandsAt b 0x2C0 (leBytes 16 (digits4 64 fun l => look 0 g.planes l))
  state : StandsAt b 0x2D0 (leBytes 4 (frameState g held))
  gang : StandsAt b 0x2D4 (leBytes 4 g.gang.toNat)
  fpx : StandsAt b 0x2D8 (leBytes 4 g.fpx.toNat)
  depth : StandsAt b 0x2DC (leBytes 4 (g.stack.length % 64 + 256 * g.nextSeq))
  tags : StandsAt b 0x2E0 (leBytes 16 (bitsOf 128 fun r => (look none g.tags r).isSome))
  waits : StandsAt b 0x300 ((List.range 4).flatMap (frameWait held))
  stack : StandsAt b 0x400 (frameStack g)
  links : StandsAt b 0x800 ((List.range 64).flatMap (frameLinks g))
  ends : StandsAt b 0x2800 ((List.range 4).flatMap (frameEnd held))
  vectors : StandsAt b 0x2900 (frameVectors g)

/-- What follows a part of known length. -/
theorem StandsAt.next {b x y : List Byte} {o n : Nat} (h : StandsAt b o (x ++ y)) (hx : x.length = n) :
    StandsAt b (o + n) y := h.trans (.right hx)

theorem StandsAt.head {b x y : List Byte} {o : Nat} (h : StandsAt b o (x ++ y)) : StandsAt b o x := h.trans (.left ..)

theorem frameParts {s : State} {key : Nat} (fits : FrameFits (s.group key)) :
    FrameParts (s.group key) (savedWaits s key) (s.frameOf key false) := by
  have hslots := flatMap_range_length (n := 4) fun k _ => frameSlot_length (s.group key) k
  have hwaits := flatMap_range_length (n := 4) fun k hk => frameWait_length fits hk
  have hlinks := flatMap_range_length (n := 64) fun l _ => frameLinks_length fits l
  have hends := flatMap_range_length (n := 4) fun k _ => frameEnd_length (savedWaits s key) k
  have h0 := StandsAt.refl (s.frameOf key false)
  have hb := frameOf_eq s key
  dsimp only at hb
  simp only [List.append_assoc] at hb
  generalize s.frameOf key false = b at h0 hb ⊢
  nth_rw 2 [hb] at h0
  have h1 := h0.next (frameScalars_length _)
  have h2 := (h1.next (framePreds_length _)).next (List.length_replicate ..)
  have h3 := h2.next hslots
  have h4 := h3.next (leBytes_length ..)
  have h5 := h4.next (leBytes_length ..)
  have h6 := h5.next (leBytes_length ..)
  have h7 := h6.next (leBytes_length ..)
  have h8 := h7.next (leBytes_length ..)
  have h9 := (h8.next (leBytes_length ..)).next (List.length_replicate ..)
  have h10 := h9.next hwaits
  have h11 := h10.next (frameStack_length fits)
  have h12 := h11.next hlinks
  have h13 := h12.next hends
  have hl := congrArg List.length hb
  simp only [List.length_append, frameScalars_length, framePreds_length, List.length_replicate, hslots, leBytes_length,
    hwaits, frameStack_length fits, hlinks, hends, frameVectors_length] at hl
  refine ⟨hl.trans (by ring), h0.head, h1.head, h2.head, h3.head, h4.head, h5.head, h6.head, h7.head, h8.head, h9.head,
    h10.head, h11.head, h12.head, h13⟩

/-! ## What they hold -/

theorem isPlace_of_standsAt {b : List Byte} {o : Nat} {m : LaneMask} {offset region : Nat}
    (h : StandsAt b o (placeBytes m offset region)) : IsPlace b o m offset region := by
  unfold placeBytes at h
  rw [List.append_assoc, List.append_assoc] at h
  have h2 := h.next (leBytes_length ..)
  have h4 := h2.next (leBytes_length ..)
  have h8 := h4.next (leBytes_length ..)
  exact ⟨h.head.num, h2.head.num, h4.head.num, h8.word 8 (by decide)⟩

/-- The conditions of a wait follow one another. -/
theorem standsAt_cond {cs : List Cond} {i : Nat} {c : Cond} (hi : cs[i]? = some c) :
    ∃ more, StandsAt (condsBytes cs) (16 * i) (c.bytes more) := by
  induction cs generalizing i with
  | nil => cases hi
  | cons d cs ih =>
    rw [condsBytes]
    cases i with
    | zero =>
      obtain rfl := Option.some.inj hi
      exact ⟨_, .left ..⟩
    | succ i =>
      obtain ⟨more, h⟩ := ih hi
      refine ⟨more, ?_⟩
      have tail := (StandsAt.right (x := d.bytes !cs.isEmpty) (y := condsBytes cs) (n := 16)
        (by simp [Cond.bytes])).trans h
      rwa [Nat.mul_succ, Nat.add_comm]

theorem handlerSlot_lt (g : Group) : (handlerSlot g).getD 0 < 4 := by
  cases h : handlerSlot g with
  | none => decide
  | some k => exact List.mem_range.mp (List.mem_of_find?_eq_some h)

theorem frameState_hint {g : Group} (h : g.hint < 8) (held : Nat → Option Held) :
    frameState g held % 2 ^ 32 % 8 = g.hint := by
  unfold frameState
  split <;> omega

/-- Bits 12 to 15 of a frame's state say which slots wait. -/
theorem testBit_frameState {g : Group} (h : g.hint < 8) (held : Nat → Option Held) {k : Nat} (hk : k < 4) :
    (frameState g held % 2 ^ 32).testBit (12 + k) = (held k).isSome := by
  have slot := handlerSlot_lt g
  have waits := bitsOf_lt 4 fun k => (held k).isSome
  have implicit := bitsOf_lt 4 fun k => ((held k).map (·.implicit)).getD false
  rw [← testBit_bitsOf (fun k => (held k).isSome) hk, Nat.add_comm 12, ← Nat.testBit_div_two_pow]
  have high : frameState g held % 2 ^ 32 / 2 ^ 12 =
      bitsOf 4 (fun k => (held k).isSome) + 2 ^ 4 * bitsOf 4 fun k => ((held k).map (·.implicit)).getD false := by
    unfold frameState
    split <;> omega
  rw [high]
  have low (x : Nat) : x.testBit k = (x % 2 ^ 4).testBit k := by
    rw [Nat.testBit_mod_two_pow, decide_eq_true hk, Bool.true_and]
  rw [low, Nat.add_mul_mod_self_left, ← low]

namespace FrameParts

variable {g : Group} {held : Nat → Option Held} {b : List Byte} (f : FrameParts g held b)
include f

theorem scalar {r : Nat} (hr : r < 128) : field b (4 * r) 4 = (g.readS r).toNat := by
  have h := f.scalars.trans (.flatMap_range (fun _ _ => leBytes_length ..) hr)
  rw [Nat.zero_add] at h
  exact h.word 4 (by decide)

theorem pred {p l : Nat} (hp : p < 15) : (field b (0x200 + 8 * p) 8).testBit l = g.readP p l := by
  rw [(f.preds.trans (.flatMap_range (fun _ _ => leBytes_length ..) hp)).word 8 (by decide)]
  unfold Group.readP
  rw [if_neg (by omega), BitVec.testBit_toNat]

theorem slot {k : Nat} (hk : k < 4) :
    match look none g.splits k with
    | some sp => IsPlace b (0x280 + 16 * k) sp.mask sp.offset sp.region
    | none => field b (0x280 + 16 * k) 16 = 0 := by
  have h := f.slots.trans (.flatMap_range (fun k _ => frameSlot_length g k) hk)
  unfold frameSlot at h
  cases hs : look none g.splits k with
  | some sp =>
    rw [hs] at h
    exact isPlace_of_standsAt h
  | none =>
    rw [hs] at h
    exact h.zeros

theorem plane (hp : ∀ l, look 0 g.planes l < 4) {l : Nat} (hl : l < 64) :
    field b 0x2C0 16 / 4 ^ l % 4 = look 0 g.planes l := by
  have small : digits4 64 (fun l => look 0 g.planes l) < 256 ^ 16 := digits4_lt hp 64
  rw [f.planes.num, Nat.mod_eq_of_lt small]
  exact digit_digits4 hp hl

theorem tag {n : Nat} (hn : n < 128) : (field b 0x2E0 16).testBit n = (look none g.tags n).isSome := by
  have small : bitsOf 128 (fun r => (look none g.tags r).isSome) < 256 ^ 16 := bitsOf_lt 128 _
  rw [f.tags.num, Nat.mod_eq_of_lt small]
  exact testBit_bitsOf _ hn

theorem stackEntry {i : Nat} {e : StackEntry} (hi : g.stack[i]? = some e) :
    IsPlace b (0x400 + 16 * i) e.mask e.offset e.region := by
  have h := (f.stack.trans (.padTo ..)).trans (.flatMap (fun e _ => placeBytes_length ..) hi)
  exact isPlace_of_standsAt h

theorem link (hl : ∀ l, (frameLinks g l).length = 128) {l i : Nat} {e : Link} (h64 : l < 64)
    (hi : (look [] g.links l)[i]? = some e) :
    field b (0x800 + 128 * l + 8 * i) 4 = e.offset % 2 ^ 32
    ∧ field b (0x804 + 128 * l + 8 * i) 2 = e.region % 2 ^ 16 := by
  have h := ((f.links.trans (.flatMap_range (fun l _ => hl l) h64)).trans (.padTo ..)).trans
    (.flatMap (w := 8) (fun _ _ => by simp) hi)
  rw [List.append_assoc] at h
  have h4 := (h.next (leBytes_length ..)).head.num
  rw [show 0x800 + 128 * l + 0 + 8 * i + 4 = 0x804 + 128 * l + 8 * i by omega] at h4
  exact ⟨h.head.num, h4⟩

theorem vector {r l : Nat} (hr : r < g.regs) (hl : l < g.width) :
    field b (0x2900 + 4 * (r * g.width + l)) 4 = (g.readV r l).toNat := by
  have h := (f.vectors.trans (.flatMap_range (w := 4 * g.width)
    (fun _ _ => flatMap_range_length fun _ _ => leBytes_length ..) hr)).trans
    (.flatMap_range (fun _ _ => leBytes_length ..) hl)
  rw [show 0x2900 + 4 * g.width * r + 4 * l = 0x2900 + 4 * (r * g.width + l) by ring] at h
  exact h.word 4 (by decide)

/-- One condition of a wait, and the wait's expiry. -/
theorem wait (hw : ∀ k, k < 4 → (frameWait held k).length = 64) {k i : Nat} {h : Held} {c : Cond} (hk : k < 4)
    (hh : held k = some h) (hi : h.conds[i]? = some c) (h4 : i < 4) :
    field b (0x300 + 64 * k + 16 * i) 8 = c.addr.toNat ∧ field b (0x308 + 64 * k + 16 * i) 4 = c.value.toNat
    ∧ field b (0x2800 + 64 * k) 8 = h.expiry.getD (2 ^ 64 - 1) % 2 ^ 64
    ∧ (field b (0x2808 + 64 * k) 1).testBit i = c.met.isSome := by
  have waits := f.waits.trans (.flatMap_range hw hk)
  have ends := f.ends.trans (.flatMap_range (fun k _ => frameEnd_length held k) hk)
  unfold frameWait at waits
  unfold frameEnd at ends
  rw [hh] at waits ends
  obtain ⟨more, hc⟩ := standsAt_cond hi
  have cond := (waits.trans (.padTo ..)).trans hc
  unfold Cond.bytes at cond
  rw [List.append_assoc] at cond
  have value := (cond.next (leBytes_length ..)).head.word 4 (by decide)
  rw [show 0x300 + 64 * k + 0 + 16 * i + 8 = 0x308 + 64 * k + 16 * i by omega] at value
  have expiry := ends.trans (.padTo ..)
  have met := (expiry.next (leBytes_length ..)).num
  rw [show 0x2800 + 64 * k + 0 + 8 = 0x2808 + 64 * k by omega] at met
  refine ⟨cond.head.word 8 (by decide), value, expiry.head.num, ?_⟩
  have small := bitsOf_lt 4 fun i => ((h.conds[i]?).bind (·.met)).isSome
  rw [met, Nat.mod_eq_of_lt (by omega), testBit_bitsOf _ h4, hi]
  rfl

end FrameParts

/-- A save keeps an explicit wait as it is. -/
theorem savedWaits_explicit {s : State} {key k : Nat} {w : Waiting} {d : Operand} (hk : k < 4)
    (hs : (look none (s.group key).splits k).isSome = true) (hw : ((s.group key).split k).wait = some w)
    (he : w.kind = .explicit d) :
    savedWaits s key k = some { conds := w.conds, expiry := w.expiry, implicit := false } := by
  rw [savedWaits_eq s key hk, if_pos hs]
  unfold State.heldOf
  dsimp only
  rw [hw]
  dsimp only
  rw [he]

/-- A frame holds what R377 says. -/
theorem frameOf_isGroupFrame {s : State} {key : Nat} (fits : FrameFits (s.group key)) :
    IsGroupFrame (s.group key) (s.frameOf key false) := by
  have f := frameParts fits
  obtain ⟨_, _, hplanes, hhint, hconds⟩ := id fits
  refine ⟨f.length, fun _ hr => f.scalar hr, fun _ _ hp _ => f.pred hp, fun _ hk => f.slot hk,
    fun _ hl => f.plane hplanes hl, ?_, f.gang.word 4 (by decide), f.fpx.word 4 (by decide), ?_, ?_,
    fun _ hn => f.tag hn, fun k w d i c hk hs hw he hi => ?_, fun _ _ hi => f.stackEntry hi,
    fun _ _ _ hl hi => f.link (frameLinks_length fits) hl hi, fun _ _ hr hl => f.vector hr hl⟩
  · rw [f.state.num]
    exact frameState_hint hhint _
  · rw [f.depth.num]
    omega
  · rw [f.depth.num]
    omega
  · have hh := savedWaits_explicit hk hs hw he
    have hlt : i < 4 := by
      have := (List.getElem?_eq_some_iff.mp hi).1
      have := hconds k w hw
      omega
    refine ⟨?_, f.wait (fun _ hk => frameWait_length fits hk) hk hh hi hlt⟩
    rw [f.state.num]
    exact (testBit_frameState hhint _ hk).trans (by rw [hh]; rfl)

end Sys2Proof
end

section
/-! PROOFS. What a unit of the device writes into a context's memory reads back; what a phase boundary leaves alone. -/

namespace Sys2Proof

open Machine

/-! ## Bytes written into a context's memory -/

/-- Of bytes written at places that all differ, each stands at its place. -/
theorem peek_pokeEach {ps : List (Loc × Byte)} (apart : (ps.map fun p => cellOf p.1).Nodup) (s : State) {p : Loc × Byte}
    (hp : p ∈ ps) : (ps.foldl (fun s p => s.poke p.1 p.2) s).peek p.1 = p.2 := by
  induction ps using List.reverseRecOn with
  | nil => cases hp
  | append_singleton ps q ih =>
    rw [List.map_append, List.nodup_append] at apart
    obtain ⟨first, _, differ⟩ := apart
    rw [List.foldl_append, List.foldl_cons, List.foldl_nil, peek_poke]
    rcases List.mem_append.mp hp with h | h
    · rw [if_neg, ih first h]
      exact differ _ (List.mem_map.mpr ⟨p, h, rfl⟩) _ (by simp)
    · rw [List.mem_singleton.mp h, if_pos rfl]

theorem outRuns_of_inside {ls : List Loc} (h : ∀ l ∈ ls, l.outside = false) : outRuns ls = [] := by
  induction ls with
  | nil => rfl
  | cons l ls ih =>
    unfold outRuns
    rw [ih fun x hx => h x (by simp [hx])]
    have := h l (by simp)
    cases l with
    | ext k => cases this
    | _ => rfl

/-- Bytes written at places within the device are written one after another. -/
theorem putPlaces_inside (s : State) (kind : OutKind) (o : Origin) {ps : List (Loc × Byte)}
    (h : ∀ p ∈ ps, p.1.outside = false) : s.putPlaces kind o ps = ps.foldl (fun s p => s.poke p.1 p.2) s := by
  unfold State.putPlaces
  dsimp only
  rw [outRuns_of_inside fun l hl => ?_, List.filter_eq_self.mpr fun p hp => by rw [h p hp]; rfl]
  · rfl
  · obtain ⟨p, hp, rfl⟩ := List.mem_map.mp hl
    exact h p hp

theorem addrs_succ (a n : Nat) : addrs a (n + 1) = a :: addrs (a + 1) n := by
  unfold addrs
  rw [List.range_succ_eq_map, List.map_cons, List.map_map]
  refine congrArg₂ _ rfl (List.map_congr_left fun i _ => ?_)
  show a + (i + 1) = a + 1 + i
  omega

theorem mem_addrs {a n x : Nat} : x ∈ addrs a n ↔ ∃ i, i < n ∧ x = a + i := by
  unfold addrs
  simp only [List.mem_map, List.mem_range, eq_comm]

section
variable {s : State} {ctx : Nat}

/-- The cells of a write into mapped memory. -/
theorem ctxPlaces_cells {a : Nat} {bs : List Byte} (h : ∀ x ∈ addrs a bs.length, ∃ e, s.mapping ctx x = some e) :
    ((s.ctxPlaces ctx a bs).map fun p => some (cellOf p.1)) =
      (addrs a bs.length).map fun x => (s.mapping ctx x).map fun e => cellOf (e.2.loc x) := by
  induction bs generalizing a with
  | nil => rfl
  | cons b bs ih =>
    rw [List.length_cons, addrs_succ] at h ⊢
    obtain ⟨e, he⟩ := h a (by simp)
    unfold State.ctxPlaces
    rw [he]
    dsimp only
    rw [List.map_cons, List.map_cons, he, ih fun x hx => h x (by simp [hx])]
    rfl

/-- Each byte of a write into mapped memory has its place. -/
theorem mem_ctxPlaces {a : Nat} {bs : List Byte} {i : Nat} {b : Byte} {e : Nat × Mapping} (hi : bs[i]? = some b)
    (he : s.mapping ctx (a + i) = some e) : (e.2.loc (a + i), b) ∈ s.ctxPlaces ctx a bs := by
  induction bs generalizing a i with
  | nil => cases hi
  | cons c bs ih =>
    unfold State.ctxPlaces
    cases i with
    | zero =>
      obtain rfl := Option.some.inj hi
      rw [Nat.add_zero] at he ⊢
      rw [he]
      exact List.mem_cons_self ..
    | succ i =>
      have rest := ih (a := a + 1) hi (by rw [← he]; congr 1; omega)
      rw [show a + 1 + i = a + (i + 1) by omega] at rest
      split
      · exact List.mem_cons_of_mem _ rest
      · exact rest

/-- What is written at addresses that name different bytes of device memory reads back. -/
theorem ctxRead_ctxWrite {a : Nat} {bs : List Byte} (apart : Apart s ctx (addrs a bs.length)) :
    (s.ctxWrite ctx a bs).ctxRead ctx a bs.length = bs := by
  obtain ⟨mapped, differ⟩ := apart
  have inside : ∀ p ∈ s.ctxPlaces ctx a bs, p.1.outside = false := by
    intro p hp
    obtain ⟨i, e, hi, he, hl⟩ := ctxPlaces_mem s ctx a bs p hp
    obtain ⟨e', he', hdev⟩ := mapped _ (mem_addrs.mpr ⟨i, hi, rfl⟩)
    rw [he] at he'
    obtain rfl := Option.some.inj he'
    rw [hl, loc_of_device hdev]
    rfl
  have cells : ((s.ctxPlaces ctx a bs).map fun p => cellOf p.1).Nodup := by
    rw [← ctxPlaces_cells fun x hx => (mapped x hx).imp fun _ h => h.1] at differ
    refine .of_map some ?_
    rwa [List.map_map]
  unfold State.ctxRead
  refine List.ext_getElem (by simp) fun i _ hi => ?_
  obtain ⟨e, he, _⟩ := mapped _ (mem_addrs.mpr ⟨i, hi, rfl⟩)
  rw [List.getElem_map, List.getElem_range, (ctxWrite_only ..).mapping, he]
  dsimp only
  have hp := mem_ctxPlaces (List.getElem?_eq_getElem hi) he
  unfold State.ctxWrite
  rw [putPlaces_inside _ _ _ inside]
  exact peek_pokeEach cells s hp

end

/-- What is read of a context's memory depends on its mappings and on the bytes alone. -/
theorem ctxRead_congr {s t : State} {ctx : Nat} (hm : ∀ x, t.mapping ctx x = s.mapping ctx x)
    (hp : ∀ k, t.peek (.dev k) = s.peek (.dev k))
    {a n : Nat} (dev : ∀ x ∈ addrs a n, ∃ e, s.mapping ctx x = some e ∧ e.2.mkind = 0) :
    t.ctxRead ctx a n = s.ctxRead ctx a n := by
  unfold State.ctxRead
  refine List.map_congr_left fun i hi => ?_
  obtain ⟨e, he, hdev⟩ := dev _ (mem_addrs.mpr ⟨i, List.mem_range.mp hi, rfl⟩)
  rw [hm, he]
  dsimp only
  rw [loc_of_device hdev, hp]

/-! ## A phase boundary -/

theorem publish_cacheOnly (s : State) (es : List (Nat × Option L1Byte)) : CacheOnly s (publish s es) := by
  induction es generalizing s with
  | nil => exact CacheOnly.refl s
  | cons e es ih =>
    obtain ⟨key, x⟩ := e
    cases x with
    | none => exact ih s
    | some x =>
      refine CacheOnly.trans ?_ (ih _)
      split
      · split
        · exact (poke_only (l := .dev _) trivial s x.val).writes.cacheOnly
        · exact CacheOnly.refl s
      · exact CacheOnly.refl s

theorem setPoisons_cacheOnly (s : State) (ks : List Nat) :
    CacheOnly s (ks.foldl (fun s k => s.setPoison (.dev (32 * k)) true) s) := by
  induction ks generalizing s with
  | nil => exact CacheOnly.refl s
  | cons k ks ih => exact (setPoison_cacheOnly (l := .dev _) trivial s true).trans (ih _)

theorem publishDev_cacheOnly (s : State) (core : Nat) (runs : List StoreRun) : CacheOnly s (s.publishDev core runs) := by
  unfold State.publishDev
  induction runs generalizing s with
  | nil => exact CacheOnly.refl s
  | cons r runs ih =>
    rw [List.foldl_cons]
    refine CacheOnly.trans ?_ (ih _)
    obtain ⟨d, hd⟩ := countReq_cases s (coreDie core) (.dev r.first)
    dsimp only
    rw [hd]
    split
    · exact CacheOnly.trans (t := { s with diesT := d }) rfl (setPoisons_cacheOnly ..)
    · rfl

theorem publishOut_cacheOnly (s : State) (core : Nat) (runs : List StoreRun) : CacheOnly s (s.publishOut core runs) := by
  unfold State.publishOut
  induction runs generalizing s with
  | nil => exact CacheOnly.refl s
  | cons r runs ih =>
    rw [List.foldl_cons]
    exact (sendOut_only ..).cacheOnly.trans (ih _)

/-- A phase boundary works on memory and on the phase cache alone. -/
theorem boundary_cacheOnly (s : State) (core : Nat) : CacheOnly s (s.boundary core) := by
  unfold State.boundary
  dsimp only
  generalize hu : ((publish s (s.core core).l1).publishDev core (storeRuns ((s.core core).stores false))).publishOut core
    (storeRuns ((s.core core).stores true)) = u
  have only : CacheOnly s u := by
    rw [← hu]
    exact ((publish_cacheOnly ..).trans (publishDev_cacheOnly ..)).trans (publishOut_cacheOnly ..)
  exact only.trans rfl

/-- With an empty phase cache it changes no byte. -/
theorem peek_boundary {s : State} {core : Nat} (h : (s.core core).l1 = []) (x : Loc) :
    (s.boundary core).peek x = s.peek x := by
  unfold State.boundary Core.stores
  dsimp only
  rw [h]
  cases x <;> rfl

end Sys2Proof
end

section
/-! PROOFS. WORK_CLUSTER_PLACE (R42, R81, R341): a group as it becomes resident, a workgroup as it starts, and the
planned step of a record that is being built. -/

namespace Sys2Proof

open Machine

/-! ## Becoming resident (R81) -/

/-- A group as it starts: S0:S1 and S2:S3 hold the launch's argument and data, and all else is clear. -/
def StartedGroup (launch wg arg data : Nat) (h : Group) : Prop :=
  h.launch = launch ∧ h.wg = wg ∧ h.readS64 0 = BitVec.ofNat 64 arg ∧ h.readS64 2 = BitVec.ofNat 64 data
  ∧ (∀ i, 4 ≤ i → h.readS i = 0) ∧ (∀ i j, h.readV i j = 0) ∧ (∀ i j, i ≠ 15 → h.readP i j = false)
  ∧ (∀ f, look 0 h.flags f = 0) ∧ (∀ j, look 0 h.planes j = 0) ∧ h.fpx = 0 ∧ h.stack = []
  ∧ h.gang = BitVec.ofNat 32 h.index

theorem append_halves (z : DWord) : z.extractLsb' 32 32 ++ z.setWidth 32 = z := by
  apply BitVec.eq_of_toNat_eq
  rw [BitVec.toNat_append, BitVec.extractLsb'_toNat, BitVec.toNat_setWidth,
    ← Nat.shiftLeft_add_eq_or_of_lt (Nat.mod_lt _ (by decide)), Nat.shiftLeft_eq, Nat.shiftRight_eq_div_pow]
  have := z.isLt
  omega

/-- Two S register pairs written, as the pairs read. -/
theorem readS64_writePairs (g : Group) (x y : DWord) :
    let h := g.writes (writeS64 0 x ++ writeS64 2 y)
    h.readS64 0 = x ∧ h.readS64 2 = y ∧ ∀ i, 4 ≤ i → h.readS i = g.readS i := by
  have hS (i : Nat) : (g.writes (writeS64 0 x ++ writeS64 2 y)).readS i =
      if i = 3 then y.extractLsb' 32 32 else if i = 2 then y.setWidth 32
      else if i = 1 then x.extractLsb' 32 32 else if i = 0 then x.setWidth 32 else g.readS i := by
    unfold Group.writes writeS64
    simp only [List.cons_append, List.nil_append, List.foldl_cons, List.foldl_nil, readS_write_s]
  refine ⟨?_, ?_, fun i hi => ?_⟩
  · unfold Group.readS64
    rw [hS, hS]
    exact append_halves x
  · unfold Group.readS64
    rw [hS, hS]
    exact append_halves y
  · rw [hS, if_neg (by omega), if_neg (by omega), if_neg (by omega), if_neg (by omega)]

/-- Writes of S registers change S registers, their losses and tags alone. -/
theorem writes_scalars_eq (g : Group) (ws : List Write) (h : ∀ w ∈ ws, ∃ r x, w = .s r x) :
    ∃ s t l, g.writes ws = { g with s := s, tags := t, lost := l } := by
  induction ws generalizing g with
  | nil => exact ⟨g.s, g.tags, g.lost, rfl⟩
  | cons w ws ih =>
    obtain ⟨r, x, rfl⟩ := h w (by simp)
    obtain ⟨s, t, l, k⟩ := ih (g.write (.s r x)) fun w hw => h w (by simp [hw])
    exact ⟨s, t, l, k⟩

theorem startedGroup_writePairs {g : Group} (arg data : Nat) (hv : g.v = []) (hs : g.s = []) (hp : g.p = [])
    (hf : g.flags = []) (hn : g.planes = []) (hx : g.fpx = 0) (hk : g.stack = []) (hg : g.gang = BitVec.ofNat 32 g.index) :
    StartedGroup g.launch g.wg arg data
      (g.writes (writeS64 0 (BitVec.ofNat 64 arg) ++ writeS64 2 (BitVec.ofNat 64 data))) := by
  obtain ⟨h0, h2, hrest⟩ := readS64_writePairs g (BitVec.ofNat 64 arg) (BitVec.ofNat 64 data)
  obtain ⟨_, _, _, k⟩ := writes_scalars_eq g (writeS64 0 (BitVec.ofNat 64 arg) ++ writeS64 2 (BitVec.ofNat 64 data))
    (by simp [writeS64])
  rw [k] at h0 h2 hrest ⊢
  refine ⟨rfl, rfl, h0, h2, fun i hi => ?_, fun i j => ?_, fun i j hi => ?_, fun f => ?_, fun j => ?_, hx, hk, hg⟩
  · rw [hrest i hi]
    exact congrArg (look 0 · i) hs
  · exact congrArg (look 0 · (64 * i + j)) hv
  · unfold Group.readP
    rw [if_neg hi]
    have none : look 0 g.p i = 0 := congrArg (look 0 · i) hp
    rw [none]
    exact BitVec.getLsbD_zero
  · exact congrArg (look 0 · f) hf
  · exact congrArg (look 0 · j) hn

theorem startedGroup_fresh (s : State) (id wg i : Nat) (backing : Nat × Nat) (clock : Nat) :
    StartedGroup id wg (s.launch id).arg (s.launch id).data (s.freshGroup id wg i backing clock) := by
  unfold State.freshGroup
  exact startedGroup_writePairs _ _ rfl rfl rfl rfl rfl rfl rfl rfl

/-! ## Taking places -/

/-- Groups put on their spots: other groups may only be replaced, and what holds of each group put holds of each group
at a key that comes back. -/
theorem seat_spec (mk : Nat → Spot → Group) (xs : List (Nat × Spot)) (s : State) :
    (∃ g a, (s.seat mk xs).1 = { s with groups := g, allocated := a }) ∧ (s.seat mk xs).2.length = xs.length
    ∧ ∀ P : Group → Prop, (∀ i x, P (mk i x)) →
      (∀ k h, look none s.groups k = some h → P h → ∃ h, look none (s.seat mk xs).1.groups k = some h ∧ P h)
      ∧ ∀ k ∈ (s.seat mk xs).2, ∃ h, look none (s.seat mk xs).1.groups k = some h ∧ P h := by
  induction xs generalizing s with
  | nil => exact ⟨⟨s.groups, s.allocated, rfl⟩, rfl, fun P _ => ⟨fun k h hk hp => ⟨h, hk, hp⟩, fun k hk => nomatch hk⟩⟩
  | cons e xs ih =>
    obtain ⟨i, x⟩ := e
    unfold State.seat
    dsimp only
    generalize hu : (if x.2.2 = 0 then s else { s with allocated := x.2 :: s.allocated }) = u
    have eu : ∃ a, u = { s with allocated := a } := by
      rw [← hu]
      split
      · exact ⟨s.allocated, rfl⟩
      · exact ⟨_, rfl⟩
    obtain ⟨a, rfl⟩ := eu
    generalize 16 * x.1 + s.freeSlot x.1 = key
    obtain ⟨⟨g', a', he⟩, hlen, hall⟩ := ih (({ s with allocated := a } : State).setGroup key (mk i x))
    refine ⟨⟨g', a', by rw [he]; rfl⟩, by rw [List.length_cons, List.length_cons, hlen], fun P hP => ?_⟩
    obtain ⟨keep, seated⟩ := hall P hP
    have mine := keep key (mk i x) (by rw [State.look_setGroup, if_pos rfl]) (hP i x)
    refine ⟨fun k h hk hp => ?_, fun k hk => ?_⟩
    · by_cases hkey : k = key
      · exact hkey ▸ mine
      · exact keep k h (by rw [State.look_setGroup, if_neg hkey]; exact hk) hp
    · rcases List.mem_cons.mp hk with rfl | hk
      · exact mine
      · exact seated k hk

/-- Only the accounts that partitions, clusters, dies and contexts keep of the work on them may differ. -/
def BooksOnly (s t : State) : Prop :=
  { t with diesT := s.diesT, clusters := s.clusters, ctxs := s.ctxs, parts := s.parts, hits := s.hits, judged := s.judged,
           allocated := s.allocated } = s

namespace BooksOnly

theorem refl (s : State) : BooksOnly s s := rfl

variable {s t u : State}

theorem eq (h : BooksOnly s t) :
    t = { s with diesT := t.diesT, clusters := t.clusters, ctxs := t.ctxs, parts := t.parts, hits := t.hits,
                 judged := t.judged, allocated := t.allocated } := by
  unfold BooksOnly at h
  calc t = (fun x : State => { x with diesT := t.diesT, clusters := t.clusters, ctxs := t.ctxs, parts := t.parts,
                                      hits := t.hits, judged := t.judged, allocated := t.allocated })
          { t with diesT := s.diesT, clusters := s.clusters, ctxs := s.ctxs, parts := s.parts, hits := s.hits,
                   judged := s.judged, allocated := s.allocated } := rfl
    _ = _ := by rw [h]

theorem trans (h : BooksOnly s t) (k : BooksOnly t u) : BooksOnly s u := by rw [k.eq, h.eq]; rfl

theorem mem (h : BooksOnly s t) : t.mem = s.mem := by rw [h.eq]
theorem cores (h : BooksOnly s t) : t.cores = s.cores := by rw [h.eq]
theorem wgs (h : BooksOnly s t) : t.wgs = s.wgs := by rw [h.eq]
theorem groups (h : BooksOnly s t) : t.groups = s.groups := by rw [h.eq]
theorem launches (h : BooksOnly s t) : t.launches = s.launches := by rw [h.eq]
theorem ast (h : BooksOnly s t) : t.ast = s.ast := by rw [h.eq]
theorem maps (h : BooksOnly s t) : t.maps = s.maps := by rw [h.eq]
theorem tick (h : BooksOnly s t) : t.tick = s.tick := by rw [h.eq]; rfl
theorem nextWg (h : BooksOnly s t) : t.nextWg = s.nextWg := by rw [h.eq]
theorem offered (h : BooksOnly s t) : t.offered = s.offered := by rw [h.eq]
theorem wgOf (h : BooksOnly s t) (k : Nat) : t.wgOf k = s.wgOf k := by rw [h.eq]; rfl
theorem launch (h : BooksOnly s t) (k : Nat) : t.launch k = s.launch k := by rw [h.eq]; rfl
theorem astOf (h : BooksOnly s t) (k : Nat) : t.astOf k = s.astOf k := by rw [h.eq]; rfl

end BooksOnly

theorem floorCluster_books (s : State) (cl : Nat) : BooksOnly s (s.floorCluster cl) := by
  unfold State.floorCluster
  dsimp only
  split <;> rfl

theorem takeUnits_books (s : State) (ctx a n : Nat) : BooksOnly s (s.takeUnits ctx a n) := by
  unfold State.takeUnits
  split <;> rfl

/-- A workgroup that starts on a core. -/
structure StartedWg (s t : State) (id index core n : Nat) : Prop where
  mem : t.mem = s.mem
  nextWg : t.nextWg = s.nextWg + 1
  launch : ∃ cs, t.launch id = { s.launch id with started := (s.launch id).started + 1, cores := cs }
  ast : t.astOf id = (s.astOf id).bump 0 1
  wg : (t.wgOf s.nextWg).launch = id ∧ (t.wgOf s.nextWg).index = index ∧ (t.wgOf s.nextWg).core = core
    ∧ (t.wgOf s.nextWg).state = .running ∧ (t.wgOf s.nextWg).groups.length = n
  groups : ∀ k ∈ (t.wgOf s.nextWg).groups, ∃ h, look none t.groups k = some h
    ∧ StartedGroup id s.nextWg (s.launch id).arg (s.launch id).data h

theorem startedWg (s : State) (id index core : Nat) (spots : List Spot) (unit : Nat) :
    StartedWg s (s.startWg id index core spots unit) id index core spots.length := by
  unfold State.startWg
  dsimp only
  obtain ⟨⟨g, a, he⟩, hlen, hall⟩ := seat_spec (fun i x => s.freshGroup id s.nextWg i x.2 (s.cluster (core / 4)).clock)
    ((List.range spots.length).zip spots) s
  obtain ⟨_, seated⟩ := hall (StartedGroup id s.nextWg (s.launch id).arg (s.launch id).data)
    fun i x => startedGroup_fresh ..
  rw [List.length_zip, List.length_range, Nat.min_self] at hlen
  generalize (s.seat (fun i x => s.freshGroup id s.nextWg i x.2 (s.cluster (core / 4)).clock)
    ((List.range spots.length).zip spots)) = r at he hlen seated ⊢
  generalize hw : Workgroup.mk _ _ _ _ _ _ _ _ _ _ _ _ _ _ _ _ _ _ _ _ = w
  have books := takeUnits_books (({ r.1 with nextWg := s.nextWg + 1 } : State).setWg s.nextWg w) (s.launch id).ctx unit
    (s.launch id).unitsPerWg
  generalize (({ r.1 with nextWg := s.nextWg + 1 } : State).setWg s.nextWg w).takeUnits (s.launch id).ctx unit
    (s.launch id).unitsPerWg = u at books ⊢
  have hlaunch : u.launch id = s.launch id := by rw [books.launch]; show r.1.launch id = _; rw [he]; rfl
  have hast : u.astOf id = s.astOf id := by rw [books.astOf]; show r.1.astOf id = _; rw [he]; rfl
  have hmem : u.mem = s.mem := by rw [books.mem]; show r.1.mem = _; rw [he]
  have hwg : u.wgOf s.nextWg = w := by rw [books.wgOf]; exact State.wgOf_setWg_self ..
  have hgroups : u.groups = r.1.groups := books.groups
  have floor (l : Launch) := floorCluster_books ((u.setLaunch id l).bumpAst id 0 1) (core / 4)
  have wg (l : Launch) : (((u.setLaunch id l).bumpAst id 0 1).floorCluster (core / 4)).wgOf s.nextWg = w :=
    ((floor l).wgOf _).trans hwg
  rw [hlaunch]
  refine ⟨(floor _).mem.trans hmem, (floor _).nextWg.trans books.nextWg,
    ⟨_, ((floor _).launch id).trans (State.launch_setLaunch_self ..)⟩, ?_, ?_, ?_⟩
  · rw [(floor _).astOf, ← hast]
    exact State.astOf_setAst_self ..
  · rw [wg, ← hw]
    exact ⟨rfl, rfl, rfl, rfl, hlen⟩
  · rw [wg, (floor _).groups, ← hw]
    exact fun k hk => hgroups ▸ seated k hk

/-! ## The next work cluster of one workgroup -/

/-- A work cluster of one workgroup placed: the launch has `n` work clusters more placed, and `k` steps more done. -/
structure Placed (s t : State) (id core spots n k : Nat) : Prop where
  next : (t.launch id).next = (s.launch id).next + n
  started : (t.launch id).started = (s.launch id).started + 1
  steps : (t.astOf id).steps = (s.astOf id).steps + k
  since : (t.launch id).since = none
  offered : t.offered = some id
  nextWg : t.nextWg = s.nextWg + 1
  mem : t.mem = s.mem
  phase : (t.astOf id).phase = (s.astOf id).phase
  wg : (t.wgOf s.nextWg).launch = id ∧ (t.wgOf s.nextWg).index = (s.launch id).next * (s.launch id).wcluster
    ∧ (t.wgOf s.nextWg).core = core ∧ (t.wgOf s.nextWg).state = .running ∧ (t.wgOf s.nextWg).groups.length = spots
  groups : ∀ k ∈ (t.wgOf s.nextWg).groups, ∃ h, look none t.groups k = some h
    ∧ StartedGroup id s.nextWg (s.launch id).arg (s.launch id).data h

theorem placeNext_one {s : State} {id core u : Nat} {spots : List Spot}
    (fit : s.fitUnits (s.launch id).ctx (s.launch id).unitsPerWg = some u) :
    Placed s (s.placeNext id [(core, spots)]) id core spots.length (s.batchOf id) (s.batchOf id - 1) := by
  unfold State.placeNext State.startWgs
  dsimp only
  rw [fit]
  unfold State.startWgs
  dsimp only
  have st := startedWg s id ((s.launch id).next * (s.launch id).wcluster) core spots u
  generalize s.startWg id ((s.launch id).next * (s.launch id).wcluster) core spots u = v at st ⊢
  obtain ⟨_, hl⟩ := st.launch
  have launch (l : Launch) (a : Ast) : (({ v with offered := some id }.setLaunch id l).writeAst id a).launch id = l :=
    State.launch_setLaunch_self ..
  have ast (l : Launch) (a : Ast) : (({ v with offered := some id }.setLaunch id l).writeAst id a).astOf id = a :=
    State.astOf_setAst_self ..
  refine ⟨?_, ?_, ?_, ?_, rfl, st.nextWg, st.mem, ?_, st.wg, st.groups⟩
  · rw [launch, hl]
  · rw [launch, hl]
  · rw [ast, st.ast]
    rfl
  · rw [launch]
  · rw [ast, st.ast]
    rfl

/-- A step is counted on its record (R329). -/
theorem Placed.stepped {s t : State} {id core spots n k : Nat} (h : Placed s t id core spots n k) :
    Placed s (t.stepped id) id core spots n (k + 1) := by
  have ast : (t.stepped id).astOf id = { t.astOf id with steps := (t.astOf id).steps + 1 } := State.astOf_setAst_self ..
  exact { h with
    steps := by rw [ast, ← Nat.add_assoc, ← h.steps]
    phase := by rw [ast, ← h.phase] }

/-! ## The planned step (R332, R333) -/

theorem firstStep_stepOf {s : State} {tear : Bool} {kind : Nat} {ids : List Nat} {id : Nat} {u : State}
    (h : s.firstStep tear kind ids = some (id, u)) : s.stepOf id = some (tear, u) := by
  induction ids with
  | nil => cases h
  | cons k ids ih =>
    unfold State.firstStep at h
    split at h
    · next t v hk =>
      split at h
      · next ht =>
        obtain ⟨rfl, rfl⟩ := Prod.mk.inj (Option.some.inj h)
        split at hk
        · rw [hk, ht]
        · cases hk
      · exact ih h
    · exact ih h

/-- The planned step is one that its record can take. -/
theorem plan_stepOf {s : State} {id : Nat} {u : State} (h : s.plan = some (id, u)) :
    ∃ tear, s.stepOf id = some (tear, u) := by
  unfold State.plan at h
  dsimp only at h
  split at h
  · next x hx =>
    obtain ⟨_, _, hk⟩ := List.exists_of_findSome?_eq_some hx
    rw [h] at hk
    exact ⟨true, firstStep_stepOf hk⟩
  · obtain ⟨_, _, hk⟩ := List.exists_of_findSome?_eq_some h
    exact ⟨false, firstStep_stepOf hk⟩

theorem mem_insertOffer {s : State} {a x : Nat} {bs : List Nat} (h : x ∈ insertOffer s a bs) : x = a ∨ x ∈ bs := by
  induction bs with
  | nil => exact .inl (List.mem_singleton.mp h)
  | cons b bs ih =>
    unfold insertOffer at h
    split at h
    · exact List.mem_cons.mp h
    · rcases List.mem_cons.mp h with rfl | h
      · exact .inr (by simp)
      · exact (ih h).imp_right fun h => by simp [h]

/-- A launch that is offered room has work to place. -/
theorem waiting_of_mem_offers {s : State} {id : Nat} (h : id ∈ s.offers) : s.waiting id = true := by
  unfold State.offers at h
  refine (List.mem_filter.mp (?_ : id ∈ (keys s.launches).filter s.waiting)).2
  generalize (keys s.launches).filter s.waiting = xs at h
  induction xs with
  | nil => cases h
  | cons x xs ih =>
    rcases mem_insertOffer h with rfl | h
    · simp
    · exact List.mem_cons_of_mem _ (ih h)

/-- What a launch with work to place is like. -/
theorem waiting_spec {s : State} {id : Nat} (h : s.waiting id = true) :
    (s.launch id).next < (s.launch id).clusterTotal
    ∧ ((s.astOf id).phase = .live ∨ (s.astOf id).phase = .building ∧ (s.astOf id).progress = 3) := by
  unfold State.waiting at h
  split at h
  · cases h
  · next l hl =>
    have hget : s.launch id = l := by unfold State.launch Machine.get; rw [hl]; rfl
    simp only [Bool.and_eq_true, Bool.or_eq_true, beq_iff_eq, decide_eq_true_eq] at h
    obtain ⟨⟨⟨⟨phase, _⟩, next⟩, _⟩, _⟩ := h
    rw [hget]
    exact ⟨next, phase⟩

theorem batchOf_pos {s : State} {id : Nat} (h : (s.launch id).next < (s.launch id).clusterTotal) : 0 < s.batchOf id := by
  unfold State.batchOf
  dsimp only
  split <;> omega

section
variable {s : State} {id : Nat} {plan : List (Nat × List Spot)} (offers : s.offers = [id])
  (planned : s.planFrom (s.launch id) (s.batchOf id) (s.launch id).next s.room = some plan)
include offers planned

theorem nextPlace_only : s.nextPlace s.offers = (s, some (id, plan)) := by
  rw [offers]
  unfold State.nextPlace
  rw [planned]

variable (unowned : s.unowned (s.launch id).need plan = true)
include unowned

/-- What a launch that is being built does next is to place its work. -/
theorem buildProg_places (hp : (s.astOf id).progress = 3) (hc : (s.launch id).coop = false → (s.launch id).next = 0)
    (hn : (s.launch id).next < (s.launch id).clusterTotal) : s.buildProg id = some (s.placeNext id plan) := by
  unfold State.buildProg
  dsimp only
  rw [hp]
  rw [if_neg]
  · unfold State.placeBuilt
    rw [nextPlace_only offers planned]
    dsimp only
    rw [if_pos (by simpa using unowned)]
    rfl
  · cases h : (s.launch id).coop with
    | true => simp; omega
    | false => simp [hc h]

/-- The step of a record that is being built, where it is the planned one. -/
theorem exec_place_building (phase : (s.astOf id).phase = .building) (hk : (s.record id).kind = 3)
    (hv : (s.astOf id).working = (s.record id).version) (hc : (s.launch id).coop = false → (s.launch id).next = 0)
    (hp : ∃ u, s.plan = some (id, u)) :
    exec .workClusterPlace s = .next ((s.placeNext id plan).stepped id) := by
  obtain ⟨hn, live | ⟨_, hprog⟩⟩ := waiting_spec (waiting_of_mem_offers (id := id) (by rw [offers]; simp))
  · rw [phase] at live
    cases live
  obtain ⟨u, hu⟩ := hp
  obtain ⟨tear, hstep⟩ := plan_stepOf hu
  have build : s.build id = some (s.placeNext id plan) := by
    unfold State.build
    dsimp only
    rw [hk]
    exact buildProg_places offers planned unowned hprog hc hn
  unfold State.stepOf at hstep
  dsimp only at hstep
  rw [phase] at hstep
  dsimp only at hstep
  rw [if_pos hv, build] at hstep
  obtain ⟨_, rfl⟩ := Prod.mk.inj (Option.some.inj hstep)
  show execWorkClusterPlace s = _
  unfold execWorkClusterPlace
  rw [nextPlace_only offers planned]
  dsimp only
  rw [if_pos phase, hu]
  dsimp only
  rw [if_pos (rfl : id = id)]

/-- A later work cluster of a LIVE launch is no step on its record (log entry 61). -/
theorem exec_place_live (phase : (s.astOf id).phase ≠ .building)
    (after : ((s.placeNext id plan).astOf id).phase ≠ .faulted) :
    exec .workClusterPlace s = .next (s.placeNext id plan) := by
  show execWorkClusterPlace s = _
  unfold execWorkClusterPlace
  rw [nextPlace_only offers planned]
  dsimp only
  rw [if_neg phase, if_pos unowned, if_neg after]
end

end Sys2Proof
end

section
/-! PROOFS. Leaving a core: groups and workgroups that retire (R54), are discarded (R341) or saved away (R377), go on
where they stand (R370), and windows that are claimed (R378). -/

namespace Sys2Proof

open Machine

/-! ## What leaving does to the books -/

theorem grantReservation_books (s : State) (cl : Nat) : BooksOnly s (s.grantReservation cl) := by
  unfold State.grantReservation
  dsimp only
  split
  · rfl
  · split <;> rfl

theorem passReservation_books (s : State) (cl : Nat) : BooksOnly s (s.passReservation cl) :=
  BooksOnly.trans (t := s.setCluster cl { s.cluster cl with
    reservation := none, wanting := (s.cluster cl).wanting.filter fun e => !s.holderLost e.1 }) rfl
    (grantReservation_books ..)

theorem vacate_books (s : State) (key : Nat) : BooksOnly s (s.vacate key) := by
  unfold State.vacate
  dsimp only
  generalize hu : ite (((s.part (partOf key)).rank.map (·.1)) == some key) _ s = u
  have first : BooksOnly s u := by
    rw [← hu]
    split <;> rfl
  refine first.trans ?_
  split
  · exact BooksOnly.trans (t := u.setCluster _ _) rfl (passReservation_books ..)
  · rfl

/-- The books aside, a group that leaves its slot is no more, and nothing else changes. -/
theorem dropGroup_books (s : State) (key : Nat) :
    BooksOnly { s with groups := put none s.groups key none } (s.dropGroup key) := by
  unfold State.dropGroup
  refine BooksOnly.trans ?_ (vacate_books ..)
  rfl

theorem freeBacking_books (s : State) (g : Group) : BooksOnly s (s.freeBacking g) := rfl

theorem freeUnits_books (s : State) (ctx a n : Nat) : BooksOnly s (s.freeUnits ctx a n) := by
  unfold State.freeUnits
  split <;> rfl

theorem foldl_books {α : Type} {f : State → α → State} (hf : ∀ s e, BooksOnly s (f s e)) (s : State) (es : List α) :
    BooksOnly s (es.foldl f s) := by
  induction es generalizing s with
  | nil => rfl
  | cons e es ih => exact (hf s e).trans (ih _)

theorem freeCalls_books (s : State) (g : Group) : BooksOnly s (s.freeCalls g) := by
  unfold State.freeCalls
  refine foldl_books (fun s k => ?_) s _
  dsimp only
  split
  · split <;> rfl
  · rfl

theorem look_dropGroup (s : State) (key k : Nat) :
    look none (s.dropGroup key).groups k = if k = key then none else look none s.groups k := by
  rw [(dropGroup_books s key).groups, look_put]

/-! ## A group retires (R54) -/

/-- The workgroup of a group that retires, one of its groups fewer. -/
def oneFewer (w : Workgroup) (index : Nat) : Workgroup :=
  { w with groups := w.groups.set index noSlot, retired := w.retired ++ [index],
           batches := w.batches.filter fun e => e.1 != index }

theorem retireGroup_eq (s : State) (key : Nat) :
    let g := s.group key
    let w := oneFewer (s.wgOf g.wg) g.index
    ∃ u, BooksOnly { s with groups := put none s.groups key none } u ∧
      s.retireGroup key =
        if w.retired.length < w.groups.length then u.setWg g.wg w
        else (((u.setWg g.wg w).dropWg g.wg).setLaunch w.launch
          { s.launch w.launch with retired := (s.launch w.launch).retired + 1 }).bumpAst w.launch 1 1 := by
  have books : BooksOnly { s with groups := put none s.groups key none } ((s.dropGroup key).freeBacking (s.group key)) :=
    (dropGroup_books s key).trans (freeBacking_books ..)
  refine ⟨_, books, ?_⟩
  have hw (k : Nat) : ((s.dropGroup key).freeBacking (s.group key)).wgOf k = s.wgOf k := books.wgOf k
  have hl (k : Nat) : ((s.dropGroup key).freeBacking (s.group key)).launch k = s.launch k := books.launch k
  unfold State.retireGroup oneFewer
  dsimp only
  rw [hw, State.launch_setWg, hl]

theorem groupRetire_spec {s : State} {key : Nat} {g : Group} (hg : look none s.groups key = some g)
    (hf : g.finished = true) (hq : s.quiet key = true) :
    let w := s.wgOf g.wg
    Next (exec (.groupRetire key) s) fun t =>
      look none t.groups key = none ∧ (∀ k, k ≠ key → look none t.groups k = look none s.groups k) ∧ t.mem = s.mem
      ∧ (w.retired.length + 1 < w.groups.length → (t.wgOf g.wg).retired = w.retired ++ [g.index])
      ∧ (w.groups.length ≤ w.retired.length + 1 → look none t.wgs g.wg = none
        ∧ (t.launch w.launch).retired = (s.launch w.launch).retired + 1) := by
  have hgroup : s.group key = g := by unfold State.group Machine.get; rw [hg]; rfl
  obtain ⟨u, books, hr⟩ := retireGroup_eq s key
  rw [hgroup] at hr
  refine ⟨s.retireGroup key, ?_, ?_⟩
  · show Host.Outcome.next _ = _
    rw [hg]
    dsimp only
    rw [hf, hq]
    rfl
  have gone (t : State) (h : t.groups = u.groups) : look none t.groups key = none
      ∧ ∀ k, k ≠ key → look none t.groups k = look none s.groups k := by
    rw [h, books.groups]
    exact ⟨by rw [look_put, if_pos rfl], fun k hk => by rw [look_put, if_neg hk]⟩
  have size : (oneFewer (s.wgOf g.wg) g.index).retired.length = (s.wgOf g.wg).retired.length + 1
      ∧ (oneFewer (s.wgOf g.wg) g.index).groups.length = (s.wgOf g.wg).groups.length := by simp [oneFewer]
  rw [size.1, size.2] at hr
  rw [hr]
  split
  · next more =>
    obtain ⟨h1, h2⟩ := gone (u.setWg g.wg (oneFewer (s.wgOf g.wg) g.index)) rfl
    exact ⟨h1, h2, books.mem, fun _ => by rw [State.wgOf_setWg_self]; rfl, fun h => absurd h (by omega)⟩
  · next last =>
    generalize hv : (u.setWg g.wg (oneFewer (s.wgOf g.wg) g.index)).dropWg g.wg = v
    have dropped : v.groups = u.groups ∧ v.mem = u.mem ∧ look none v.wgs g.wg = none := by
      rw [← hv]
      unfold State.dropWg
      have free := freeUnits_books ({ u.setWg g.wg (oneFewer (s.wgOf g.wg) g.index) with
        wgs := put none (u.setWg g.wg (oneFewer (s.wgOf g.wg) g.index)).wgs g.wg none })
      exact ⟨(free ..).groups, (free ..).mem, by rw [(free ..).wgs, look_put, if_pos rfl]⟩
    obtain ⟨hgroups, hmem, hwg⟩ := dropped
    obtain ⟨h1, h2⟩ := gone v hgroups
    refine ⟨h1, h2, hmem.trans books.mem, fun h => absurd h last, fun _ => ⟨hwg, ?_⟩⟩
    exact congrArg Launch.retired (State.launch_setLaunch_self v _ _)

/-! ## Pre-emption (R51, R341, R370) -/

theorem wgOf_of_look {s : State} {wg : Nat} {w : Workgroup} (h : look none s.wgs wg = some w) : s.wgOf wg = w := by
  unfold State.wgOf Machine.get
  rw [h]
  rfl

/-- The workgroup has members in the latch of a core. -/
def inLatch (s : State) (core wg : Nat) : Bool :=
  match (s.core core).latch with
  | some (_, x, _) => x == wg
  | none => false

/-- A stopping workgroup that is out of the latch and stands still is discarded or saved. -/
theorem exec_preempt {s : State} {wg : Nat} {w : Workgroup} (hw : look none s.wgs wg = some w) (hs : w.state = .stopping)
    (free : inLatch s w.core wg = false) (still : s.stillWg w = true) :
    exec (.preempt wg) s = .next (if w.draining then s.discardWg wg else s.saveWg wg) := by
  show Host.Outcome.next _ = _
  rw [hw]
  dsimp only
  rw [if_pos hs]
  congr 1
  unfold State.preempt
  dsimp only
  rw [wgOf_of_look hw, still]
  exact if_neg fun held => Bool.false_ne_true (free.symm.trans held)

/-- Groups of a workgroup that is discarded are no more. -/
theorem discardGroups_spec (s : State) (ks : List Nat) :
    let t := ks.foldl (fun s key => ((s.freeCalls (s.group key)).dropGroup key).freeBacking (s.group key)) s
    ∀ k, k ∈ ks ∨ look none s.groups k = none → look none t.groups k = none := by
  induction ks generalizing s with
  | nil => exact fun k h => h.resolve_left (by simp)
  | cons key ks ih =>
    intro t k hk
    refine ih (((s.freeCalls (s.group key)).dropGroup key).freeBacking (s.group key)) k ?_
    have here : look none (((s.freeCalls (s.group key)).dropGroup key).freeBacking (s.group key)).groups k =
        if k = key then none else look none s.groups k := by
      rw [(freeBacking_books ..).groups, look_dropGroup, (freeCalls_books ..).groups]
    rw [here]
    rcases hk with h | h
    · rcases List.mem_cons.mp h with rfl | h
      · exact .inr (if_pos rfl)
      · exact .inl h
    · rw [h, ite_self]
      exact .inr rfl

/-- A workgroup that is discarded is no more, nor are its groups. -/
theorem discardWg_spec (s : State) (wg : Nat) :
    look none (s.discardWg wg).wgs wg = none ∧ ∀ k ∈ (s.wgOf wg).keys, look none (s.discardWg wg).groups k = none := by
  unfold State.discardWg
  dsimp only
  have gone := discardGroups_spec (s.boundary (s.wgOf wg).core) (s.wgOf wg).keys
  generalize (s.wgOf wg).keys.foldl (fun s key => ((s.freeCalls (s.group key)).dropGroup key).freeBacking (s.group key))
    (s.boundary (s.wgOf wg).core) = u at gone ⊢
  generalize hv : (s.wgOf wg).saved.foldl _ u = v
  have books : BooksOnly u v := by
    rw [← hv]
    refine foldl_books (fun s e => ?_) u _
    split
    · exact (freeCalls_books ..).trans (freeBacking_books ..)
    · rfl
  have dropped : (v.dropWg wg).groups = v.groups ∧ look none (v.dropWg wg).wgs wg = none := by
    unfold State.dropWg
    have free := freeUnits_books ({ v with wgs := put none v.wgs wg none })
    exact ⟨(free ..).groups, by rw [(free ..).wgs, look_put, if_pos rfl]⟩
  refine ⟨dropped.2, fun k hk => ?_⟩
  rw [dropped.1, books.groups]
  exact gone k (.inl hk)

/-! ## A workgroup of one group is saved away (R377) -/

/-- Where a group's frame stands in the save area of its context. -/
def frameAddr (s : State) (wg key : Nat) : Nat :=
  s.unitAddr (s.group key).ctx ((s.wgOf wg).unit + 19 * (s.group key).index)

/-- The workgroup with the group kept whole in the model's own copy. -/
def keptAway (s : State) (wg key : Nat) : Workgroup :=
  { s.wgOf wg with saved := put none (s.wgOf wg).saved (s.group key).index (some (s.group key).away) }

/-- The group's frame is written, and the group leaves its slot. -/
def frameSaved (s : State) (wg key : Nat) : State :=
  ((s.ctxWrite (s.group key).ctx (frameAddr s wg key) (s.frameOf key false)).setWg wg (keptAway s wg key)).dropGroup key

theorem saveGroups_one {s : State} {wg key : Nat}
    (hw : s.writable (s.group key).ctx (frameAddr s wg key) (s.frameOf key false).length = true) :
    s.saveGroups wg [key] = .ok (frameSaved s wg key) := by
  unfold State.saveGroups
  dsimp only
  exact (if_pos hw).trans rfl

theorem mapping_congr {s t : State} (h : t.maps = s.maps) (ctx a : Nat) : t.mapping ctx a = s.mapping ctx a := by
  unfold State.mapping
  rw [h]

theorem peek_dev (s : State) (k : Nat) : s.peek (.dev k) = look 0 s.mem k := rfl

/-- What saving a group's frame leaves: its place is free, its copy is kept, and the frame stands in memory. -/
structure FrameSaved (s t : State) (wg key : Nat) : Prop where
  kept : t.wgOf wg = keptAway s wg key
  groups : look none t.groups key = none
  maps : t.maps = s.maps
  cores : t.cores = s.cores
  tick : t.tick = s.tick
  bytes : ∀ k, t.peek (.dev k) =
    (s.ctxWrite (s.group key).ctx (frameAddr s wg key) (s.frameOf key false)).peek (.dev k)

theorem frameSaved_spec (s : State) (wg key : Nat) : FrameSaved s (frameSaved s wg key) wg key := by
  unfold frameSaved
  have only := ctxWrite_only s (s.group key).ctx (frameAddr s wg key) (s.frameOf key false)
  generalize hu : s.ctxWrite (s.group key).ctx (frameAddr s wg key) (s.frameOf key false) = u at only ⊢
  have books := dropGroup_books (u.setWg wg (keptAway s wg key)) key
  refine ⟨?_, ?_, ?_, ?_, ?_, fun k => ?_⟩
  · rw [books.wgOf]
    exact State.wgOf_setWg_self ..
  · rw [look_dropGroup, if_pos rfl]
  · exact books.maps.trans only.maps
  · rw [books.cores]
    show u.cores = _
    rw [only.eq]
  · rw [books.tick]
    show u.tick = _
    rw [only.eq]
    rfl
  · rw [hu, peek_dev, peek_dev, books.mem]
    rfl

/-- A count on a record that may be made. -/
theorem bumpIf_eq (c : Prop) [Decidable c] (s : State) (id which n : Nat) :
    ∃ a l, (if c then s.bumpAst id which n else s) = { s with ast := a, lastTick := l } := by
  split
  · exact ⟨_, _, rfl⟩
  · exact ⟨s.ast, s.lastTick, rfl⟩

theorem saveWg_one {s : State} {wg key : Nat} (hk : (s.wgOf wg).keys = [key])
    (hw : s.writable (s.group key).ctx (frameAddr s wg key) (s.frameOf key false).length = true) :
    let u := (frameSaved s wg key).boundary (s.wgOf wg).core
    ∃ a l, s.saveWg wg =
      { u.setWg wg { keptAway s wg key with state := .away, stopTick := u.tick } with ast := a, lastTick := l } := by
  intro u
  have hu : u.wgOf wg = keptAway s wg key := by
    show get u.wgs wg = _
    rw [(boundary_cacheOnly ..).wgs]
    exact (frameSaved_spec s wg key).kept
  unfold State.saveWg
  dsimp only
  rw [hk, saveGroups_one hw]
  dsimp only
  rw [hu]
  exact bumpIf_eq ..

theorem keptRegs_away (g : Group) : KeptRegs g g.away := KeptRegs.of_eq ⟨rfl, rfl, rfl, rfl⟩

/-- The saved workgroup, and its frame in memory. -/
theorem saveWg_spec {s : State} {wg key : Nat} (hk : (s.wgOf wg).keys = [key])
    (hw : s.writable (s.group key).ctx (frameAddr s wg key) (s.frameOf key false).length = true) :
    let g := s.group key
    let t := s.saveWg wg
    (t.wgOf wg).state = .away ∧ (t.wgOf wg).stopTick = s.tick ∧ look none t.groups key = none
    ∧ (let n := 0x2900 + 4 * (g.regs * g.width)
       (s.core (s.wgOf wg).core).l1 = [] → FrameFits g → Apart s g.ctx (addrs (frameAddr s wg key) n) →
         IsGroupFrame g (t.ctxRead g.ctx (frameAddr s wg key) n))
    ∧ look none (t.wgOf wg).saved g.index = some g.away := by
  intro g t
  have saved := frameSaved_spec s wg key
  obtain ⟨a, l, ht⟩ := saveWg_one hk hw
  have cache := boundary_cacheOnly (frameSaved s wg key) (s.wgOf wg).core
  have peek (h : (s.core (s.wgOf wg).core).l1 = []) (x : Loc) :
      ((frameSaved s wg key).boundary (s.wgOf wg).core).peek x = (frameSaved s wg key).peek x := by
    refine peek_boundary ?_ x
    unfold State.core
    rw [saved.cores]
    exact h
  generalize (frameSaved s wg key).boundary (s.wgOf wg).core = u at ht cache peek
  have wgOf : t.wgOf wg = { keptAway s wg key with state := .away, stopTick := u.tick } := by
    show (s.saveWg wg).wgOf wg = _
    rw [ht]
    exact State.wgOf_setWg_self ..
  have tick : u.tick = s.tick := cache.tick.trans saved.tick
  have groups : t.groups = (frameSaved s wg key).groups := by
    show (s.saveWg wg).groups = _
    rw [ht]
    exact cache.groups
  have maps : t.maps = s.maps := by
    show (s.saveWg wg).maps = _
    rw [ht]
    exact cache.maps.trans saved.maps
  have mem : t.mem = u.mem := by
    show (s.saveWg wg).mem = _
    rw [ht]
    rfl
  refine ⟨by rw [wgOf], by rw [wgOf, ← tick], by rw [groups]; exact saved.groups, fun hl fits apart => ?_, ?_⟩
  · have hn : 0x2900 + 4 * (g.regs * g.width) = (s.frameOf key false).length := (frameParts fits).length.symm
    rw [hn] at apart ⊢
    have written := ctxRead_ctxWrite (bs := s.frameOf key false) apart
    rw [ctxRead_congr (s := s.ctxWrite g.ctx (frameAddr s wg key) (s.frameOf key false)) ?_ ?_ ?_, written]
    · exact frameOf_isGroupFrame fits
    · intro x
      rw [(ctxWrite_only ..).mapping, mapping_congr maps]
    · intro k
      rw [← saved.bytes k, ← peek hl, peek_dev, peek_dev]
      exact congrArg (look 0 · k) mem
    · intro x hx
      rw [(ctxWrite_only ..).mapping]
      exact apart.1 x hx
  · rw [wgOf]
    show look none (put none (s.wgOf wg).saved g.index (some g.away)) g.index = _
    rw [look_put, if_pos rfl]

end Sys2Proof
end

section
/-! PROOFS. Workgroups that go on, return to a core, or have their windows claimed (R370, R378 to R380), and the
obligation on the steps of workgroups. -/

namespace Sys2Proof

open Machine

/-! ## Going on in place (R370) -/

/-- A split that waited for a page waits no more. -/
def awakened (sp : Split) : Split :=
  match sp.wait with
  | some w => if w.kind = .page then { sp with wait := none } else sp
  | none => sp

def awakenedGroup (g : Group) : Group := { g with splits := g.splits.map fun e => (e.1, e.2.map awakened) }

/-- No split of the group waits for a page. -/
def NoPageWait (g : Group) : Prop :=
  ∀ e ∈ g.splits, ∀ sp x, e.2 = some sp → sp.wait = some x → x.kind ≠ .page

theorem awakened_wait (sp : Split) (x : Waiting) (h : (awakened sp).wait = some x) : x.kind ≠ .page := by
  unfold awakened at h
  split at h
  · next w hw =>
    split at h
    · cases h
    · next hk =>
      rw [hw] at h
      exact Option.some.inj h ▸ hk
  · next hw =>
    rw [hw] at h
    cases h

theorem noPageWait_awakened (g : Group) : NoPageWait (awakenedGroup g) := by
  intro e he sp x hsp hx
  obtain ⟨⟨k, old⟩, _, rfl⟩ := List.mem_map.mp he
  obtain ⟨old, _, rfl⟩ := Option.map_eq_some_iff.mp hsp
  exact awakened_wait old x hx

/-- Some groups of a state awakened one after another. -/
def awakenAll (s : State) (ks : List Nat) : State :=
  ks.foldl (fun s key => s.setGroup key (awakenedGroup (s.group key))) s

theorem awakenAll_spec (s : State) (ks : List Nat) :
    (awakenAll s ks).mem = s.mem ∧ ∀ k, k ∈ ks ∨ NoPageWait (s.group k) → NoPageWait ((awakenAll s ks).group k) := by
  unfold awakenAll
  induction ks generalizing s with
  | nil => exact ⟨rfl, fun k h => h.resolve_left (by simp)⟩
  | cons key ks ih =>
    obtain ⟨hmem, hall⟩ := ih (s.setGroup key (awakenedGroup (s.group key)))
    refine ⟨hmem, fun k hk => hall k ?_⟩
    rw [State.group_setGroup]
    by_cases h : k = key
    · rw [if_pos h]
      exact .inr (noPageWait_awakened _)
    · rw [if_neg h]
      exact hk.imp_left fun hk => (List.mem_cons.mp hk).resolve_left h

theorem goOn_eq (s : State) (wg : Nat) :
    s.goOn wg = (awakenAll s (s.wgOf wg).keys).setWg wg { s.wgOf wg with state := .running } := rfl

/-! ## Windows claimed (R378) -/

/-- Where a workgroup's window stands in the save area of its context. -/
def windowAddr (s : State) (w : Workgroup) : Nat := s.unitAddr w.ctx (w.unit + 19 * (s.launch w.launch).need.groups)

/-- The window has left its core, and stands in the save area. -/
def Claimed (s : State) (wg : Nat) (w : Workgroup) (t : State) : Prop :=
  (t.wgOf wg).claimed = true ∧ (t.wgOf wg).shared = []
  ∧ (Apart s w.ctx (addrs (windowAddr s w) w.sharedBytes) →
      ∀ i, i < w.sharedBytes → (t.ctxRead w.ctx (windowAddr s w) w.sharedBytes).getD i 0 = look 0 w.shared i)

theorem claimWg_spec {s : State} {wg : Nat} {w : Workgroup} (hw : look none s.wgs wg = some w)
    (ok : s.writable w.ctx (windowAddr s w) w.sharedBytes = true) :
    Claimed s wg w (s.claimWg wg) ∧ (s.claimWg wg).groups = s.groups ∧ ((s.claimWg wg).wgOf wg).state = w.state := by
  have e : s.claimWg wg = (s.ctxWrite w.ctx (windowAddr s w) (lookRange 0 w.shared 0 w.sharedBytes)).setWg wg
      { (s.ctxWrite w.ctx (windowAddr s w) (lookRange 0 w.shared 0 w.sharedBytes)).wgOf wg with
        claimed := true, shared := [] } := by
    unfold State.claimWg
    dsimp only
    rw [wgOf_of_look hw]
    exact if_pos ok
  have only := ctxWrite_only s w.ctx (windowAddr s w) (lookRange 0 w.shared 0 w.sharedBytes)
  have hlen : (lookRange 0 w.shared 0 w.sharedBytes).length = w.sharedBytes := by simp [lookRange]
  have read (apart : Apart s w.ctx (addrs (windowAddr s w) w.sharedBytes)) :=
    ctxRead_ctxWrite (bs := lookRange 0 w.shared 0 w.sharedBytes) (by rw [hlen]; exact apart)
  rw [hlen] at read
  have state := (only.cacheOnly.wgOf wg).trans (wgOf_of_look hw)
  generalize s.ctxWrite w.ctx (windowAddr s w) (lookRange 0 w.shared 0 w.sharedBytes) = u at e only read state
  have wgOf : (s.claimWg wg).wgOf wg = { w with claimed := true, shared := [] } := by
    rw [e, state]
    exact State.wgOf_setWg_self ..
  unfold Claimed
  rw [wgOf]
  refine ⟨⟨rfl, rfl, fun apart i hi => ?_⟩, by rw [e]; exact only.groups, rfl⟩
  have same : (s.claimWg wg).ctxRead w.ctx (windowAddr s w) w.sharedBytes =
      u.ctxRead w.ctx (windowAddr s w) w.sharedBytes := by
    rw [e]
    refine ctxRead_congr (s := u) (t := u.setWg wg _) (fun _ => rfl) (fun _ => rfl) fun x hx => ?_
    rw [only.mapping]
    exact apart.1 x hx
  rw [same, read apart]
  unfold lookRange
  rw [List.getD_eq_getElem _ _ (by simpa using hi), List.getElem_map, List.getElem_range, Nat.zero_add]

/-! ## Returning to a core (R378 to R380) -/

theorem foldl_wgs {α : Type} {f : State → α → State} (hf : ∀ s e, (f s e).wgs = s.wgs) (s : State) (es : List α) :
    (es.foldl f s).wgs = s.wgs := by
  induction es generalizing s with
  | nil => rfl
  | cons e es ih => exact (ih (f s e)).trans (hf s e)

theorem retest_wgs (s : State) (key : Nat) : (s.retest key).wgs = s.wgs := by
  unfold State.retest
  refine foldl_wgs (fun s k => ?_) s _
  dsimp only
  split
  · exact (condsAtIssue_spec ..).1.wgs
  · rfl

/-- No partition holds a tile. -/
def NoTiles (s : State) : Prop := ∀ p, (s.part p).tiles = []

theorem noTiles_setPart {s : State} (h : NoTiles s) (k : Nat) {q : Partition} (hq : q.tiles = []) :
    NoTiles (s.setPart k q) := by
  intro p
  rw [State.part_setPart]
  split
  · exact hq
  · exact h p

theorem withoutTiles_empty {p : Partition} (h : p.tiles = []) (ctx : Nat) : (p.withoutTiles ctx).tiles = [] := by
  unfold Partition.withoutTiles
  rw [h]
  rfl

theorem noTiles_congr {s t : State} (h : NoTiles s) (e : t.parts = s.parts) : NoTiles t := by
  intro p
  show (Machine.get t.parts p).tiles = []
  rw [e]
  exact h p

theorem freeUnits_parts (s : State) (ctx a n : Nat) : (s.freeUnits ctx a n).parts = s.parts := by
  unfold State.freeUnits
  split <;> rfl

theorem freeUnitsEach_parts (s : State) (ctx : Nat) (es : List (Nat × Nat × BitVec 32)) :
    (es.foldl (fun s e => s.freeUnits ctx e.2.1 1) s).parts = s.parts := by
  induction es generalizing s with
  | nil => rfl
  | cons e es ih => exact (ih _).trans (freeUnits_parts ..)

/-- Giving up the tiles of a context where there are none. -/
theorem dropTiles_spec {s : State} (h : NoTiles s) (part ctx : Nat) :
    NoTiles (s.dropTiles part ctx) ∧ (s.dropTiles part ctx).wgs = s.wgs := by
  unfold State.dropTiles
  dsimp only
  have first := noTiles_setPart h part (withoutTiles_empty (h part) ctx)
  split
  · exact ⟨first, rfl⟩
  · refine ⟨noTiles_congr first (freeUnitsEach_parts ..), ?_⟩
    exact (foldl_books (fun s e => freeUnits_books ..) _ _).wgs

/-- Moving the tiles of a context where there are none. -/
theorem moveTiles_spec {s : State} (h : NoTiles s) (ctx : Nat) (mine : List Nat) (kept : Bool) (src dst : Nat) :
    NoTiles (s.moveTiles ctx mine kept src dst) ∧ (s.moveTiles ctx mine kept src dst).wgs = s.wgs := by
  unfold State.moveTiles
  dsimp only
  split
  · exact ⟨h, rfl⟩
  · generalize hu : (if kept = true then s else s.dropTiles dst ctx) = u
    have dropped : NoTiles u ∧ u.wgs = s.wgs := by
      rw [← hu]
      split
      · exact ⟨h, rfl⟩
      · exact dropTiles_spec h ..
    obtain ⟨hu, hwgs⟩ := dropped
    rw [h src]
    have taken := noTiles_setPart hu src (withoutTiles_empty (h src) ctx)
    exact ⟨noTiles_setPart taken dst (taken dst), hwgs⟩

theorem moveAll_wgs {s : State} (h : NoTiles s) (ctx : Nat) (mine done : List Nat) (pairs : List (Nat × Nat)) :
    (s.moveAll ctx mine done pairs).wgs = s.wgs := by
  induction pairs generalizing s done with
  | nil => rfl
  | cons e pairs ih =>
    obtain ⟨src, dst⟩ := e
    obtain ⟨keeps, hwgs⟩ := moveTiles_spec h ctx mine (done.contains dst) src dst
    exact (ih keeps (dst :: done)).trans hwgs

/-- The workgroup that is seated on a core again. -/
theorem reseat_wg {s : State} {wg core : Nat} {spots : List Spot} {w : Workgroup} (hw : look none s.wgs wg = some w)
    (tiles : w.core = core ∨ NoTiles s) :
    ∃ gs sh, (s.reseat wg core spots).wgOf wg =
        { w with core, state := .running, groups := gs, shared := sh, saved := [], claimed := false, preempted := false,
                 moving := none }
      ∧ (w.claimed = false → sh = w.shared) := by
  unfold State.reseat
  dsimp only
  rw [wgOf_of_look hw]
  generalize hr : (if w.claimed = true then s.unitRead _ _ _ else (s, [])) = r
  have parts : r.1.parts = s.parts := by
    rw [← hr]
    split
    · obtain ⟨q, f, e⟩ := unitRead_eq s w.ctx (s.unitAddr w.ctx (w.unit + 19 * (s.launch w.launch).need.groups))
        w.sharedBytes
      rw [e]
    · rfl
  obtain ⟨⟨g, al, hs⟩, -, -⟩ := seat_spec
    (fun i _ => { ((look none w.saved i).getD default).fitBudget (if s.ctxFlag w.ctx 0 = true then 4 else 2) with
      ageBase := (s.cluster (core / 4)).clock })
    ((keys w.saved).zip (spots.map fun x => (x.1, 0, 0))) r.1
  generalize State.seat r.1 _ _ = q at hs ⊢
  generalize List.foldl (fun (t : List Nat) (e : Nat × Nat) => t.set e.1 e.2) w.groups _ = gs
  have seated (x : Workgroup) : w.core = core ∨ NoTiles (q.1.setWg wg x) :=
    tiles.imp_right fun h => noTiles_congr h (by show q.1.parts = _; rw [hs]; exact parts)
  generalize hsh : (if w.claimed = true then putList _ _ _ _ else w.shared) = sh
  generalize hx : Workgroup.mk _ _ _ _ _ _ _ _ _ _ _ _ _ _ _ _ _ _ _ _ = x
  generalize hm : (if w.core = core then q.1.setWg wg x else (q.1.setWg wg x).moveAll _ _ _ _) = u
  have moved : u.wgs = (q.1.setWg wg x).wgs := by
    rw [← hm]
    split
    · rfl
    · next there => exact moveAll_wgs ((seated x).resolve_left there) ..
  have tested := (foldl_wgs (f := fun s e => s.retest e.2) (fun s (e : Nat × Nat) => retest_wgs s e.2) (u.boundary core)
    ((keys w.saved).zip q.2)).trans ((boundary_cacheOnly ..).wgs.trans moved)
  generalize List.foldl (fun s e => s.retest e.2) (u.boundary core) ((keys w.saved).zip q.2) = v at tested ⊢
  refine ⟨gs, sh, ?_, fun h => ?_⟩
  · refine ((floorCluster_books ..).wgOf wg).trans (Eq.trans ?_ hx.symm)
    show Machine.get v.wgs wg = x
    rw [tested]
    exact State.wgOf_setWg_self ..
  · rw [← hsh, if_neg (by rw [h]; decide)]

/-! ## WORKGROUP_RESUME and STORAGE_CLAIM -/

section
variable {s : State} {wg : Nat} {w : Workgroup} (hw : look none s.wgs wg = some w) (missing : w.missing = [])
  (drains : w.draining = false) (fatal : (s.ctxOf w.ctx).fatal = false)
include hw missing drains fatal

/-- A workgroup that had not stopped goes on. -/
theorem exec_goOn (hs : w.state = .stopping) (hp : w.preempted = false) :
    exec (.workgroupResume wg) s = .next (s.goOn wg) := by
  show Host.Outcome.next _ = _
  rw [hw]
  dsimp only
  rw [if_neg (by simp [missing, drains, fatal]), if_pos (by simp [hs, hp])]

/-- One that is away returns, unless others of higher priority wait. -/
theorem exec_return (hs : w.state = .away) (ho : s.outranked w.launch = false) :
    exec (.workgroupResume wg) s = .next (s.returnWg wg) := by
  show Host.Outcome.next _ = _
  rw [hw]
  dsimp only
  rw [if_neg (by simp [missing, drains, fatal]), if_neg (by simp [hs]), if_pos (by simp [hs, ho])]
end

/-- The window goes through the save area: another core is to take back a workgroup that does not move with its tiles. -/
def Through (w : Workgroup) (core : Nat) : Prop :=
  w.core ≠ core ∧ w.moving = none ∧ w.claimed = false ∧ w.sharedBytes ≠ 0

section
variable {s : State} {wg core : Nat} {w : Workgroup} (hw : look none s.wgs wg = some w) (hc : s.returnCore wg = some core)
  (free : s.windowFree wg core = true) (areas : s.areasHeld w.launch = true)
include hw hc free areas

theorem returnWg_through (h : Through w core) : s.returnWg wg = s.claimWg wg := by
  obtain ⟨h1, h2, h3, h4⟩ := h
  unfold State.returnWg
  dsimp only
  rw [hc, wgOf_of_look hw]
  dsimp only
  rw [if_neg (by simp [free, areas]), if_pos (by simp [h1, h2, h3, h4])]

theorem returnWg_reseat (h : ¬ Through w core) {r : Room} {spots : List Spot}
    (room : s.takeSome s.room core (s.launch w.launch).need true (keys w.saved) = some (r, spots)) :
    s.returnWg wg = s.reseat wg core spots := by
  unfold State.returnWg
  dsimp only
  rw [hc, wgOf_of_look hw]
  dsimp only
  rw [if_neg (by simp [free, areas]), if_neg (by simpa [Through, and_assoc] using h), room]
end

theorem exec_storageClaim {s : State} {wg k : Nat} (hs : s.wanted k = true) (hv : s.claimVictim k = some wg) :
    exec (.storageClaim k) s = .next (s.claimWg wg) := by
  show Host.Outcome.next _ = _
  rw [if_pos hs]
  unfold State.claim
  rw [hv]

/-! ## The obligation -/

/-- WORK_CLUSTER_PLACE starts the next work cluster, as a step on its record while that is BUILDING. -/
theorem exec_place {s : State} {id core u : Nat} {spots : List Spot}
    (build : ((s.astOf id).phase == .building) = true →
      (s.record id).kind = 3 ∧ (s.astOf id).working = (s.record id).version
      ∧ ((s.launch id).coop = false → (s.launch id).next = 0) ∧ ∃ u, s.plan = some (id, u))
    (offers : s.offers = [id])
    (planned : s.planFrom (s.launch id) (s.batchOf id) (s.launch id).next s.room = some [(core, spots)])
    (unowned : s.unowned (s.launch id).need [(core, spots)] = true)
    (fit : s.fitUnits (s.launch id).ctx (s.launch id).unitsPerWg = some u) :
    Next (exec .workClusterPlace s) fun t => Placed s t id core spots.length (s.batchOf id)
      (if (s.astOf id).phase == .building then s.batchOf id else s.batchOf id - 1) := by
  have placed := placeNext_one (core := core) (spots := spots) fit
  obtain ⟨next, live⟩ := waiting_spec (waiting_of_mem_offers (id := id) (by rw [offers]; simp))
  by_cases phase : (s.astOf id).phase = .building
  · obtain ⟨hk, hv, hc, hp⟩ := build (beq_iff_eq.mpr phase)
    refine ⟨_, exec_place_building offers planned unowned phase hk hv hc hp, ?_⟩
    have stepped := placed.stepped
    rw [Nat.sub_add_cancel (batchOf_pos next)] at stepped
    rw [if_pos (beq_iff_eq.mpr phase)]
    exact stepped
  · refine ⟨_, exec_place_live offers planned unowned phase ?_, ?_⟩
    · rw [placed.phase, live.resolve_right fun h => phase h.1]
      decide
    · rw [if_neg (by simpa using phase)]
      exact placed

/-- Settles O49: placement by `exec_place`, retirement by `groupRetire_spec`, saving by `saveWg_spec` with the frame's
bytes from `frameOf_isGroupFrame`, return by `reseat_wg`, and claims by `claimWg_spec`. -/
theorem workgroupSteps : Obligations.WorkgroupSteps := by
  refine ⟨fun id core u key spots g s => ⟨fun build offers planned unowned fit => ?place,
      fun hg hf hq => groupRetire_spec hg hf hq⟩,
    fun wg key core k w r spots s hw => ⟨fun hs free still drains => ?discard, fun hs free still drains hk ok => ?save,
      fun missing drains fatal hs hp => ?goOn,
      fun missing drains fatal hs ho hc free areas => ⟨fun h tiles room => ?reseat, fun h ok => ?through⟩,
      fun hs hv ok => ?claim⟩⟩
  case place =>
    obtain ⟨t, ht, p⟩ := exec_place build offers planned unowned fit
    obtain ⟨w1, w2, w3, w4, w5⟩ := p.wg
    refine ⟨t, ht, p.next, p.started, p.steps, p.since, p.offered, p.nextWg, p.mem, w1, w2, w3, w4, w5, fun k hk => ?_⟩
    exact p.groups k hk
  case discard =>
    refine ⟨_, exec_preempt hw hs free still, ?_⟩
    rw [if_pos drains, ← wgOf_of_look hw]
    exact discardWg_spec s wg
  case save =>
    rw [← wgOf_of_look hw] at hk ok
    obtain ⟨state, tick, groups, frame, saved⟩ := saveWg_spec hk ok
    refine ⟨_, exec_preempt hw hs free still, ?_⟩
    rw [if_neg (by rw [drains]; decide), ← wgOf_of_look hw]
    exact ⟨state, tick, groups, frame, _, saved, keptRegs_away _, rfl, rfl, rfl, rfl⟩
  case goOn =>
    refine ⟨_, exec_goOn hw missing drains fatal hs hp, ?_⟩
    obtain ⟨mem, awake⟩ := awakenAll_spec s w.keys
    rw [goOn_eq, State.wgOf_setWg_self, wgOf_of_look hw]
    exact ⟨rfl, mem, fun k hk => awake k (.inl hk)⟩
  case reseat =>
    refine ⟨_, exec_return hw missing drains fatal hs ho, ?_⟩
    obtain ⟨gs, sh, e, window⟩ := reseat_wg (spots := spots) hw tiles
    rw [returnWg_reseat hw hc free areas h room, e]
    exact ⟨rfl, rfl, rfl, window⟩
  case through =>
    refine ⟨_, exec_return hw missing drains fatal hs ho, ?_⟩
    obtain ⟨claimed, groups, state⟩ := claimWg_spec hw ok
    rw [returnWg_through hw hc free areas h]
    exact ⟨state.trans hs, claimed, groups⟩
  case claim =>
    obtain ⟨claimed, groups, _⟩ := claimWg_spec hw ok
    exact ⟨_, exec_storageClaim hs hv, claimed, groups⟩

end Sys2Proof
end

section
/-! PROOFS. The sharing of a pool among bidders: it gives out no more than the pool, each bidder at most once, and a
lone bidder all of it up to its most (R67). -/

namespace Sys2Proof

open Machine

/-! ## One pass of the sharing loop -/

/-- A bidder's part of a pool, in proportion to its bid. -/
def portion (pool : Nat) (us : List Bidder) (b : Bidder) : Nat := pool * b.bid / (us.map (·.bid)).sum

def overMost (pool : Nat) (us : List Bidder) : List Bidder := us.filter fun b => b.most < portion pool us b

def withinMost (pool : Nat) (us : List Bidder) : List Bidder := us.filter fun b => portion pool us b ≤ b.most

/-- A pass gives nothing, or to each its portion, or to those over their most that, and leaves the rest to share. -/
theorem shareLoop_succ (n pool : Nat) (us : List Bidder) :
    (shareLoop (n + 1) pool us).1 = []
    ∨ (shareLoop (n + 1) pool us).1 = us.map (fun b => (b.id, portion pool us b))
    ∨ (shareLoop (n + 1) pool us).1 = (overMost pool us).map (fun b => (b.id, b.most))
        ++ (shareLoop n (pool - ((overMost pool us).map (·.most)).sum) (withinMost pool us)).1 := by
  rw [shareLoop]
  simp only [← List.sum_eq_foldl_nat]
  split
  · exact .inl rfl
  · split
    · exact .inr (.inl rfl)
    · exact .inr (.inr rfl)

theorem sum_div_le {α : Type} (f : α → Nat) (n : Nat) (xs : List α) :
    (xs.map fun x => f x / n).sum ≤ (xs.map f).sum / n := by
  induction xs with
  | nil => simp
  | cons x xs ih =>
    simp only [List.map_cons, List.sum_cons]
    exact (Nat.add_le_add_left ih _).trans (Nat.div_add_div_le_add_div ..)

theorem portions_sum_le (pool : Nat) (us : List Bidder) : (us.map (portion pool us)).sum ≤ pool := by
  refine (sum_div_le (fun b : Bidder => pool * b.bid) _ us).trans ?_
  rw [List.sum_map_mul_left]
  exact Nat.div_le_of_le_mul (Nat.mul_comm ..).le

/-- Those over their most get less than their portions. -/
theorem overMost_sum_le (pool : Nat) (us : List Bidder) : ((overMost pool us).map (·.most)).sum ≤ pool := by
  calc ((overMost pool us).map (·.most)).sum
      ≤ ((overMost pool us).map (portion pool us)).sum :=
        List.sum_le_sum fun b hb => (of_decide_eq_true (List.mem_filter.mp hb).2).le
    _ ≤ (us.map (portion pool us)).sum := (List.filter_sublist.map _).sum_le_sum fun _ _ => Nat.zero_le _
    _ ≤ pool := portions_sum_le pool us

/-- No more is given out than the pool holds. -/
theorem shareLoop_sum_le (n pool : Nat) (us : List Bidder) : ((shareLoop n pool us).1.map (·.2)).sum ≤ pool := by
  induction n generalizing pool us with
  | zero => exact Nat.zero_le _
  | succ n ih =>
    rcases shareLoop_succ n pool us with h | h | h <;> rw [h]
    · exact Nat.zero_le _
    · rw [List.map_map]
      exact portions_sum_le pool us
    · rw [List.map_append, List.map_map, List.sum_append]
      have most : ((overMost pool us).map ((·.2) ∘ fun b => (b.id, b.most))).sum ≤ pool := overMost_sum_le pool us
      have rest := ih (pool - ((overMost pool us).map (·.most)).sum) (withinMost pool us)
      exact (Nat.add_le_add_left rest _).trans (Nat.add_sub_of_le most).le

theorem overMost_append_withinMost (pool : Nat) (us : List Bidder) :
    (overMost pool us ++ withinMost pool us).Perm us := by
  have h : withinMost pool us = us.filter fun b => !decide (b.most < portion pool us b) :=
    List.filter_congr fun b _ => by rw [← decide_not]; exact decide_eq_decide.mpr Nat.not_lt.symm
  rw [h]
  exact List.filter_append_perm _ us

/-- Each bidder gets a share at most once, and nobody else does. -/
theorem shareLoop_ids (n pool : Nat) (us : List Bidder) :
    ((shareLoop n pool us).1.map (·.1)).Subperm (us.map (·.id)) := by
  induction n generalizing pool us with
  | zero => exact List.nil_subperm
  | succ n ih =>
    rcases shareLoop_succ n pool us with h | h | h <;> rw [h]
    · exact List.nil_subperm
    · rw [List.map_map]
      exact List.Subperm.refl _
    · rw [List.map_append, List.map_map]
      refine (List.Subperm.append (List.Subperm.refl _) (ih ..)).trans ?_
      have perm := (overMost_append_withinMost pool us).map (·.id)
      rw [List.map_append] at perm
      exact perm.subperm

/-! ## Shares by bidder -/

theorem shareOut_sum_le (pool : Nat) (us : List Bidder) : ((shareOut pool us).1.map (·.2)).sum ≤ pool :=
  shareLoop_sum_le ..

theorem shareOut_ids (pool : Nat) (us : List Bidder) :
    ((shareOut pool us).1.map (·.1)).Subperm (us.map (·.id)) :=
  (shareLoop_ids ..).trans (List.filter_sublist.map _).subperm

theorem shareOf_cons (e : Nat × Nat) (sh : List (Nat × Nat)) (k : Nat) :
    shareOf (e :: sh) k = if e.1 = k then e.2 else shareOf sh k := by
  unfold shareOf
  by_cases h : e.1 = k
  · rw [if_pos h, List.find?_cons_of_pos (by simpa using h)]
    rfl
  · rw [if_neg h, List.find?_cons_of_neg (by simpa using h)]

theorem shareOf_of_not_mem {sh : List (Nat × Nat)} {k : Nat} (h : k ∉ sh.map (·.1)) : shareOf sh k = 0 := by
  induction sh with
  | nil => rfl
  | cons e sh ih =>
    obtain ⟨ne, rest⟩ := not_or.mp fun hk => h (List.mem_cons.mpr hk)
    rw [shareOf_cons, if_neg (Ne.symm ne), ih rest]

/-- Over a list that names every receiver once, the shares sum to all that is given out. -/
theorem sum_shareOf {sh : List (Nat × Nat)} {ids : List Nat} (nd : ids.Nodup) (once : (sh.map (·.1)).Nodup)
    (named : ∀ k ∈ sh.map (·.1), k ∈ ids) : (ids.map (shareOf sh)).sum = (sh.map (·.2)).sum := by
  induction sh with
  | nil => exact List.sum_eq_zero fun x hx => by obtain ⟨k, -, rfl⟩ := List.mem_map.mp hx; rfl
  | cons e sh ih =>
    obtain ⟨fresh, once⟩ := List.nodup_cons.mp once
    have split (k : Nat) : shareOf (e :: sh) k = (if k = e.1 then e.2 else 0) + shareOf sh k := by
      rw [shareOf_cons]
      by_cases h : e.1 = k
      · rw [if_pos h, if_pos h.symm, ← h, shareOf_of_not_mem fresh, Nat.add_zero]
      · rw [if_neg h, if_neg (Ne.symm h), Nat.zero_add]
    have one : (ids.map fun k => if k = e.1 then e.2 else 0).sum = e.2 := by
      rw [List.sum_map_eq_nsmul_single e.1 _ fun k hk _ => if_neg hk, if_pos rfl,
        List.count_eq_one_of_mem nd (named _ (by simp)), one_nsmul]
    calc (ids.map (shareOf (e :: sh))).sum
        = (ids.map fun k => (if k = e.1 then e.2 else 0) + shareOf sh k).sum := by rw [funext split]
      _ = e.2 + (sh.map (·.2)).sum := by
        rw [List.sum_map_add, one, ih once fun k hk => named k (List.mem_cons_of_mem _ hk)]

/-- The same of what a pool gives to bidders that are each numbered once. -/
theorem sum_shareOut {pool : Nat} {us : List Bidder} {ids : List Nat} (nd : ids.Nodup) (once : (us.map (·.id)).Nodup)
    (named : ∀ b ∈ us, b.id ∈ ids) :
    (ids.map (shareOf (shareOut pool us).1)).sum = ((shareOut pool us).1.map (·.2)).sum := by
  obtain ⟨l, perm, sub⟩ := shareOut_ids pool us
  refine sum_shareOf nd (perm.nodup_iff.mp (once.sublist sub)) fun k hk => ?_
  obtain ⟨b, hb, rfl⟩ := List.mem_map.mp ((shareOut_ids pool us).subset hk)
  exact named b hb

/-- Who is no bidder gets nothing. -/
theorem shareOf_shareOut_of_not_mem {pool k : Nat} {us : List Bidder} (h : k ∉ us.map (·.id)) :
    shareOf (shareOut pool us).1 k = 0 :=
  shareOf_of_not_mem fun hk => h ((shareOut_ids pool us).subset hk)

/-- A lone bidder gets the whole pool, up to its most. -/
theorem shareOf_shareOut_lone (pool : Nat) {b : Bidder} (hb : b.bid ≠ 0) :
    shareOf (shareOut pool [b]).1 b.id = min pool b.most := by
  have part : pool * b.bid / b.bid = pool := Nat.mul_div_cancel _ (Nat.pos_of_ne_zero hb)
  by_cases empty : pool = 0
  · simp [shareOut, shareLoop, shareOf, hb, empty]
  · by_cases most : b.most < pool
    · simp [shareOut, shareLoop, shareOf, hb, empty, part, most, most.le]
    · simp [shareOut, shareLoop, shareOf, hb, empty, part, most, Nat.not_lt.mp most]

end Sys2Proof
end

section
/-! PROOFS. A hop of the Reel: the injector, the stations, and what a hop leaves alone (R56 to R59, R74). -/

namespace Sys2Proof

open Machine

/-! ## A fold as one of its keys sees it -/

section
variable {σ α β : Type} {f : σ → α → σ} {r : σ → β} {ks : List α}

theorem foldl_keeps (h : ∀ s, ∀ k ∈ ks, r (f s k) = r s) (s : σ) : r (ks.foldl f s) = r s := by
  induction ks generalizing s with
  | nil => rfl
  | cons k ks ih =>
    rw [List.foldl_cons, ih fun s j hj => h s j (List.mem_cons_of_mem _ hj), h s k List.mem_cons_self]

/-- What the steps of the other keys leave alone has changed by the step of its own key alone. -/
theorem foldl_at {k : α} (hk : k ∈ ks) (nd : ks.Nodup) (others : ∀ s, ∀ j ∈ ks, j ≠ k → r (f s j) = r s) (s : σ) :
    ∃ u, r u = r s ∧ r (ks.foldl f s) = r (f u k) := by
  obtain ⟨as, bs, rfl⟩ := List.append_of_mem hk
  obtain ⟨-, nb, apart⟩ := List.nodup_append.mp nd
  refine ⟨as.foldl f s, foldl_keeps (fun s j hj => others s j (by simp [hj]) (apart j hj k (by simp))) s, ?_⟩
  rw [List.foldl_append, List.foldl_cons]
  exact foldl_keeps (fun s j hj => others s j (by simp [hj]) fun e => (List.nodup_cons.mp nb).1 (e ▸ hj)) _

end

/-! ## The clusters of a die -/

/-- A die's 32 clusters, by number through the device (R10). -/
def clustersOf (d : Nat) : List Nat := (List.range 32).map (32 * d + ·)

theorem mem_clustersOf {d k : Nat} : k ∈ clustersOf d ↔ k / 32 = d := by
  unfold clustersOf
  rw [List.mem_map]
  constructor
  · rintro ⟨i, hi, rfl⟩
    have := List.mem_range.mp hi
    omega
  · rintro rfl
    exact ⟨k % 32, List.mem_range.mpr (by omega), by omega⟩

theorem nodup_clustersOf (d : Nat) : (clustersOf d).Nodup :=
  List.nodup_range.map fun _ _ h => Nat.add_left_cancel h

theorem nodup_started (s : State) : s.started.Nodup := List.nodup_range.filter _

/-! ## What the market leaves alone -/

/-- What no step of a die or a cluster in the market changes. -/
def offMarket (s : State) : Nat × Sparse (Option Group) × Memory × Memory := (s.hop, s.groups, s.mem, s.ext)

/-- What belongs to one die: its own record and its clusters. -/
def dieSide (s : State) (d : Nat) : Die × (Fin 32 → Option Cluster) :=
  (s.die d, fun i => look none s.clusters (32 * d + i))

theorem dieSide_ext {s t : State} {d : Nat} (die : t.die d = s.die d)
    (clusters : ∀ i, i < 32 → look none t.clusters (32 * d + i) = look none s.clusters (32 * d + i)) :
    dieSide t d = dieSide s d := Prod.ext die (funext fun i => clusters i i.isLt)


/-! ## A cluster at its station (R59, R69) -/

/-- What a cluster leaves of the word at its station. -/
def leftWord (rate : Nat) (w : Nat × Nat) (c : Cluster) : Nat × Nat :=
  (w.1 - (c.takes rate w).1, w.2 - (c.takes rate w).2)

/-- The cluster after the hop. -/
def served (rate : Nat) (w : Nat × Nat) (c : Cluster) : Cluster :=
  (c.take (c.takes rate w).1 (c.takes rate w).2).edges

theorem served_rems (rate : Nat) (w : Nat × Nat) (c : Cluster) :
    (served rate w c).floorRem = c.floorRem - (c.takes rate w).1
    ∧ (served rate w c).shareRem = c.shareRem - (c.takes rate w).2 := by
  unfold served Cluster.edges Cluster.take
  cases c.halted <;> simp

theorem served_running {c : Cluster} (h : c.halted = false) (rate : Nat) (w : Nat × Nat) :
    let v := served rate w c
    v.pouch = c.pouch ∧ v.taken = c.taken + (c.takes rate w).1 + (c.takes rate w).2
    ∧ v.due = c.due + (c.frac + opRate c.op) / 14 ∧ v.frac = (c.frac + opRate c.op) % 14 := by
  simp [served, Cluster.edges, Cluster.take, h]

theorem served_halted {c : Cluster} (h : c.halted = true) (rate : Nat) (w : Nat × Nat) :
    let v := served rate w c
    v.pouch = c.pouch + (c.takes rate w).1 + (c.takes rate w).2 ∧ v.taken = c.taken ∧ v.due = c.due := by
  simp [served, Cluster.edges, Cluster.take, h]

theorem clusterHop_of_none {s : State} {cl : Nat} (h : look none s.clusters cl = none) : s.clusterHop cl = s := by
  unfold State.clusterHop
  rw [h]

/-- A station's word and cluster, as its cluster numbers them. -/
def wordAt (s : State) (cl : Nat) : Nat × Nat := (s.die (cl / 32)).ring.getD (cl % 32 + 1) (0, 0)

theorem clusterHop_of_some {s : State} {cl : Nat} {c : Cluster} (h : look none s.clusters cl = some c) :
    s.clusterHop cl =
      (s.setDie (cl / 32) { s.die (cl / 32) with
        ring := (s.die (cl / 32)).ring.set (cl % 32 + 1)
          (leftWord (s.die (cl / 32)).floorRate (wordAt s cl) c) }).setCluster
      cl (served (s.die (cl / 32)).floorRate (wordAt s cl) c) := by
  unfold State.clusterHop
  rw [h]
  rfl

theorem clusterHop_offMarket (s : State) (cl : Nat) : offMarket (s.clusterHop cl) = offMarket s := by
  cases h : look none s.clusters cl with
  | none => rw [clusterHop_of_none h]
  | some c => rw [clusterHop_of_some h]; rfl

theorem clusterHop_dieSide_ne (s : State) {cl d : Nat} (h : cl / 32 ≠ d) :
    dieSide (s.clusterHop cl) d = dieSide s d := by
  cases hc : look none s.clusters cl with
  | none => rw [clusterHop_of_none hc]
  | some c =>
    have other (i : Fin 32) : 32 * d + i ≠ cl := by have := i.isLt; omega
    rw [clusterHop_of_some hc]
    simp [dieSide, State.look_setCluster, State.die_setDie, Ne.symm h, other]

/-- A die's record but for the words on the stations. -/
def injector (s : State) (d : Nat) : Die × Nat × (Nat × Nat) :=
  ({ s.die d with ring := [] }, (s.die d).ring.length, (s.die d).ring.getD 0 (0, 0))

theorem clusterHop_injector (s : State) (cl d : Nat) : injector (s.clusterHop cl) d = injector s d := by
  cases hc : look none s.clusters cl with
  | none => rw [clusterHop_of_none hc]
  | some c =>
    rw [clusterHop_of_some hc]
    by_cases hd : d = cl / 32
    · simp [injector, hd]
    · simp [injector, State.die_setDie, hd]

/-- A station of a die: the word that stands there and the cluster. -/
def station (s : State) (cl : Nat) : (Nat × Nat) × Option Cluster := (wordAt s cl, look none s.clusters cl)

theorem clusterHop_station_ne (s : State) {cl k : Nat} (h : k ≠ cl) : station (s.clusterHop cl) k = station s k := by
  cases hc : look none s.clusters cl with
  | none => rw [clusterHop_of_none hc]
  | some c =>
    rw [clusterHop_of_some hc]
    by_cases hd : k / 32 = cl / 32
    · have hw : cl % 32 ≠ k % 32 := by omega
      simp [station, wordAt, State.look_setCluster, hd, h, hw, List.getD_eq_getElem?_getD]
    · simp [station, wordAt, State.look_setCluster, State.die_setDie, hd, h]

/-- A station's cluster takes from the word, and the word goes on without what it takes. -/
theorem clusterHop_station_self {s : State} {cl : Nat} {c : Cluster} (h : look none s.clusters cl = some c)
    (long : (s.die (cl / 32)).ring.length = 33) :
    let rate := (s.die (cl / 32)).floorRate
    station (s.clusterHop cl) cl = (leftWord rate (wordAt s cl) c, some (served rate (wordAt s cl) c)) := by
  have here : cl % 32 + 1 < (s.die (cl / 32)).ring.length := by omega
  rw [clusterHop_of_some h]
  simp [station, wordAt, State.look_setCluster, here, List.getD_eq_getElem?_getD]

/-! ## The injector (R58, R74) -/

/-- A line of words, padded: each stands where it stood. -/
theorem getD_append_replicate {α : Type} (xs : List α) (n i : Nat) (x : α) :
    (xs ++ List.replicate n x).getD i x = xs.getD i x := by
  by_cases h : i < xs.length
  · rw [List.getD_append _ _ _ _ h]
  · rw [List.getD_append_right _ _ _ _ (Nat.not_lt.mp h), List.getD_eq_default xs _ (Nat.not_lt.mp h)]
    rw [List.getD_eq_getElem?_getD, List.getElem?_replicate]
    split <;> rfl

theorem inject_length (d : Die) (r : Nat) : (d.inject r).ring.length = 33 := by
  simp [Die.inject]
  omega

/-- Every word goes one station on (R56). -/
theorem inject_ring_succ (d : Die) (r : Nat) {i : Nat} (h : i < 32) :
    (d.inject r).ring.getD (i + 1) (0, 0) = d.ring.getD i (0, 0) := by
  rw [← getD_append_replicate d.ring (33 - d.ring.length) i]
  simp [Die.inject, List.getD_eq_getElem?_getD, h]

/-- The word loaded: the round's schedule, as far as STEP lets it rise. -/
theorem loaded_eq (d : Die) (r : Nat) :
    let floor := d.floorRate * d.floors
    let want := floor + d.shareSum / Config.roundHops + (if r < d.shareSum % Config.roundHops then 1 else 0)
    let load := if d.didt = 0 then want else min want (d.lastLoad + max 1 (d.didt * 78 / 392))
    d.loaded r = ((min floor load, load - min floor load), decide (load < want)) := by
  unfold Die.loaded Die.step
  by_cases h : d.didt = 0
  · simp only [if_pos h]
  · simp only [if_neg h]

/-! ## One die in a hop -/

theorem injector_congr {s t : State} {d : Nat} (h : dieSide t d = dieSide s d) : injector t d = injector s d := by
  have die : t.die d = s.die d := congrArg (·.1) h
  unfold injector
  rw [die]

theorem look_of_dieSide {s t : State} {d i : Nat} (h : dieSide t d = dieSide s d) (hi : i < 32) :
    look none t.clusters (32 * d + i) = look none s.clusters (32 * d + i) := congrArg (fun x => x.2 ⟨i, hi⟩) h

theorem station_congr {s t : State} {d i : Nat} (h : dieSide t d = dieSide s d) (hi : i < 32) :
    station t (32 * d + i) = station s (32 * d + i) := by
  have die : t.die ((32 * d + i) / 32) = s.die ((32 * d + i) / 32) := by
    rw [mem_clustersOf.mp (List.mem_map.mpr ⟨i, List.mem_range.mpr hi, rfl⟩)]
    exact congrArg (·.1) h
  unfold station wordAt
  rw [die, look_of_dieSide h hi]

theorem dieHop_eq (s : State) (d : Nat) :
    s.dieHop d = (clustersOf d).foldl State.clusterHop (s.setDie d ((s.die d).inject (s.hop % Config.roundHops))) := rfl

theorem dieHop_offMarket (s : State) (d : Nat) : offMarket (s.dieHop d) = offMarket s := by
  rw [dieHop_eq]
  exact foldl_keeps (fun s cl _ => clusterHop_offMarket s cl) _

theorem dieHop_dieSide_ne (s : State) {e d : Nat} (h : d ≠ e) : dieSide (s.dieHop e) d = dieSide s d := by
  rw [dieHop_eq, foldl_keeps (r := (dieSide · d)) fun s cl hcl =>
    clusterHop_dieSide_ne s ((mem_clustersOf.mp hcl).trans_ne h.symm)]
  simp [dieSide, State.die_setDie, h]

theorem dieHop_injector (s : State) (d : Nat) :
    injector (s.dieHop d) d = injector (s.setDie d ((s.die d).inject (s.hop % Config.roundHops))) d := by
  rw [dieHop_eq]
  exact foldl_keeps (r := (injector · d)) (fun s cl _ => clusterHop_injector s cl d) _

theorem dieHop_station {s : State} {d i : Nat} {c : Cluster} (hi : i < 32)
    (h : look none s.clusters (32 * d + i) = some c) :
    let rate := (s.die d).floorRate
    let word := (s.die d).ring.getD i (0, 0)
    station (s.dieHop d) (32 * d + i) = (leftWord rate word c, some (served rate word c)) := by
  have member : 32 * d + i ∈ clustersOf d := List.mem_map.mpr ⟨i, List.mem_range.mpr hi, rfl⟩
  have die : (32 * d + i) / 32 = d := mem_clustersOf.mp member
  have place : (32 * d + i) % 32 = i := by omega
  obtain ⟨u, same, done⟩ := foldl_at (r := fun s => (injector s d, station s (32 * d + i))) member (nodup_clustersOf d)
    (fun s cl _ ne => Prod.ext (clusterHop_injector s cl d) (clusterHop_station_ne s ne.symm))
    (s.setDie d ((s.die d).inject (s.hop % Config.roundHops)))
  obtain ⟨record, at'⟩ := Prod.mk.inj same
  have rate : (u.die d).floorRate = (s.die d).floorRate := by
    have := congrArg (·.1.floorRate) record
    simpa [injector, Die.inject] using this
  have long : (u.die d).ring.length = 33 := by
    have := congrArg (·.2.1) record
    simpa [injector, inject_length] using this
  have word : wordAt u (32 * d + i) = (s.die d).ring.getD i (0, 0) := by
    rw [show wordAt u (32 * d + i) = _ from congrArg (·.1) at']
    simp only [station, wordAt, die, place, State.die_setDie_self]
    exact inject_ring_succ _ _ hi
  have cluster : look none u.clusters (32 * d + i) = some c := (congrArg (·.2) at').trans h
  have self := clusterHop_station_self cluster (by rw [die]; exact long)
  rw [die, rate, word] at self
  exact (congrArg (·.2) done).trans self

/-! ## The hop -/

/-- A cluster stops for the change its clearing chose (R72). -/
def stopToChange (s : State) (cl : Nat) : State :=
  if (s.cluster cl).op = (s.cluster cl).nextOp ∧ (s.cluster cl).ratio = (s.cluster cl).nextRatio then s
  else s.setCluster cl { s.cluster cl with halted := true }

/-- A die's limits of the round (R402). -/
def takeDieCtl (s : State) (d : Nat) : State :=
  s.setDie d { s.die d with
    didt := (dieCtlOf (s.reg (regDie d))).didt, gap := (dieCtlOf (s.reg (regDie d))).gap }

theorem roundStart_eq (s : State) :
    let t := s.clustersUp.foldl stopToChange s
    let u := t.started.foldl takeDieCtl t
    s.roundStart = { u with cleared := false, judged := none, roundRegs := u.port.regs } := rfl

theorem roundStart_offMarket (s : State) : offMarket s.roundStart = offMarket s := by
  rw [roundStart_eq]
  refine (foldl_keeps (r := offMarket) (f := takeDieCtl) (fun _ _ _ => rfl) _).trans
    (foldl_keeps (r := offMarket) (f := stopToChange) (fun s cl _ => ?_) s)
  unfold stopToChange
  split <;> rfl

/-- The hop is counted, and a tick begun where one begins. -/
def countHop (s : State) : State :=
  if (s.hop + 1) % Config.hopsPerTick = 0 then
    { s with hop := s.hop + 1, port := { s.port with decided := 0 }, tickRegs := s.port.regs }
  else { s with hop := s.hop + 1 }

theorem countHop_spec (s : State) :
    offMarket (countHop s) = (s.hop + 1, s.groups, s.mem, s.ext) ∧ (countHop s).diesT = s.diesT
    ∧ (countHop s).clusters = s.clusters := by
  unfold countHop
  split <;> exact ⟨rfl, rfl, rfl⟩

/-- A round begins where one does. -/
def beginRound (s : State) : State := if s.hop % Config.roundHops = 0 then s.roundStart else s

theorem beginRound_offMarket (s : State) : offMarket (beginRound s) = offMarket s := by
  unfold beginRound
  split
  · exact roundStart_offMarket s
  · rfl

theorem beginRound_of_mid {s : State} (h : s.hop % Config.roundHops ≠ 0) : beginRound s = s := if_neg h

/-- What the clearing judges is taken where its tick begins (R67). -/
def takeJudged (s : State) : State :=
  if s.hop % Config.roundHops = Config.roundHops - Config.hopsPerTick then { s with judged := some s.judge } else s

theorem takeJudged_spec (s : State) :
    offMarket (takeJudged s) = offMarket s ∧ (takeJudged s).diesT = s.diesT ∧ (takeJudged s).clusters = s.clusters := by
  unfold takeJudged
  split <;> exact ⟨rfl, rfl, rfl⟩

/-- The state in which a hop comes to the dies. -/
def hopBegun (s : State) : State := takeJudged (beginRound (countHop s))

theorem advance_eq (s : State) : s.advance = (hopBegun s).started.foldl State.dieHop (hopBegun s) := by
  unfold State.advance hopBegun takeJudged beginRound countHop
  rfl

theorem hopBegun_offMarket (s : State) : offMarket (hopBegun s) = (s.hop + 1, s.groups, s.mem, s.ext) :=
  (takeJudged_spec _).1.trans ((beginRound_offMarket _).trans (countHop_spec s).1)

/-- Within a round a hop comes to the dies as they stand. -/
theorem hopBegun_of_mid {s : State} (mid : (s.hop + 1) % Config.roundHops ≠ 0) :
    (hopBegun s).diesT = s.diesT ∧ (hopBegun s).clusters = s.clusters := by
  obtain ⟨counted, dies, clusters⟩ := countHop_spec s
  have hop : (countHop s).hop = s.hop + 1 := congrArg (·.1) counted
  have begun : hopBegun s = takeJudged (countHop s) := by
    unfold hopBegun
    rw [beginRound_of_mid (by rw [hop]; exact mid)]
  obtain ⟨-, dies', clusters'⟩ := takeJudged_spec (countHop s)
  rw [begun]
  exact ⟨dies'.trans dies, clusters'.trans clusters⟩

theorem advance_offMarket (s : State) : offMarket s.advance = (s.hop + 1, s.groups, s.mem, s.ext) := by
  rw [advance_eq, foldl_keeps (r := offMarket) fun s d _ => dieHop_offMarket s d]
  exact hopBegun_offMarket s

/-- Within a round each die that has started passes one hop, from the state it was in. -/
theorem advance_dieSide {s : State} {d : Nat} (hd : d ∈ s.started) (mid : (s.hop + 1) % Config.roundHops ≠ 0) :
    ∃ u, u.hop = s.hop + 1 ∧ dieSide u d = dieSide s d ∧ dieSide s.advance d = dieSide (u.dieHop d) d := by
  obtain ⟨dies, clusters⟩ := hopBegun_of_mid mid
  have started : (hopBegun s).started = s.started := by
    unfold State.started State.die
    rw [dies]
  obtain ⟨u, same, done⟩ := foldl_at (r := fun s => (s.hop, dieSide s d)) hd (nodup_started s)
    (fun s e _ ne => Prod.ext (congrArg (·.1) (dieHop_offMarket s e)) (dieHop_dieSide_ne s ne.symm)) (hopBegun s)
  obtain ⟨hop, side⟩ := Prod.mk.inj same
  refine ⟨u, hop.trans (congrArg (·.1) (hopBegun_offMarket s)), side.trans ?_, ?_⟩
  · unfold dieSide State.die
    rw [dies, clusters]
  · rw [advance_eq, started]
    exact congrArg (·.2) done

/-- The injector after a hop within a round. -/
theorem advance_injector {s : State} {d : Nat} (hd : d ∈ s.started) (mid : (s.hop + 1) % Config.roundHops ≠ 0) :
    let y := (s.die d).inject ((s.hop + 1) % Config.roundHops)
    injector s.advance d = ({ y with ring := [] }, 33, y.ring.getD 0 (0, 0)) := by
  obtain ⟨u, hop, side, done⟩ := advance_dieSide hd mid
  have die : u.die d = s.die d := congrArg (·.1) side
  rw [injector_congr done, dieHop_injector, hop, die]
  simp [injector, inject_length]

/-- A station after a hop within a round. -/
theorem advance_station {s : State} {d i : Nat} {c : Cluster} (hd : d ∈ s.started)
    (mid : (s.hop + 1) % Config.roundHops ≠ 0) (hi : i < 32) (h : look none s.clusters (32 * d + i) = some c) :
    let rate := (s.die d).floorRate
    let word := (s.die d).ring.getD i (0, 0)
    station s.advance (32 * d + i) = (leftWord rate word c, some (served rate word c)) := by
  obtain ⟨u, -, side, done⟩ := advance_dieSide hd mid
  have die : u.die d = s.die d := congrArg (·.1) side
  have self := dieHop_station hi ((look_of_dieSide side hi).trans h)
  rw [die] at self
  exact (station_congr done hi).trans self

end Sys2Proof
end

section
/-! PROOFS. The clearing of a round: the dies' budgets, the floors and shares of their clusters, and what a clearing
forgets of the groups (R67 to R72). -/

namespace Sys2Proof

open Machine

/-! ## One cluster cleared -/

/-- A group judged stands on the cluster. -/
def judgedIn (j : Judged) (k : Nat) : Bool := j.groups.any fun e => clusterOf e.key == k

def clearedAs (s : State) (j : Judged) (f : Nat) (sh : List (Nat × Nat)) (cl : Nat) : Cluster :=
  let c := s.cluster cl
  let floored := judgedIn j cl || s.groups.any fun e => clusterOf e.1 == cl
  let floor := if floored then Config.roundHops * f else 0
  let share := if judgedIn j cl then shareOf sh cl else 0
  let ctl := ctlOf j cl
  let chosen := chooseRatio (chooseOp (s.usedOf j cl) (floor + share) c.ran ctl.lo ctl.hi) ctl c.mmaSeen
  { c with
    floored, floorRem := floor, shareRem := share, shareAllot := share, allot := floor + share,
    nextOp := chosen.1, nextRatio := chosen.2, ran := 0, mmaSeen := false,
    overRounds := if c.allot < s.usedOf j cl then c.overRounds + 1 else 0 }

theorem clearCluster_eq (s : State) (j : Judged) (f : Nat) (sh : List (Nat × Nat)) (cl : Nat) :
    s.clearCluster j f sh cl = s.setCluster cl (clearedAs s j f sh cl) := rfl

/-- What groups used depends on the groups alone. -/
theorem usedBy_congr {s t : State} (h : t.groups = s.groups) : t.usedBy = s.usedBy := by
  funext e
  unfold State.usedBy State.group
  rw [h]

/-- A cluster without a group judged has no share. -/
theorem clearedAs_unjudged {s : State} {j : Judged} {f : Nat} {sh : List (Nat × Nat)} {cl : Nat}
    (h : judgedIn j cl = false) : (clearedAs s j f sh cl).shareAllot = 0 := by
  unfold clearedAs
  rw [h]
  rfl

theorem clearedAs_congr {s t : State} {cl : Nat} (hg : t.groups = s.groups) (hc : t.cluster cl = s.cluster cl)
    (j : Judged) (f : Nat) (sh : List (Nat × Nat)) : clearedAs t j f sh cl = clearedAs s j f sh cl := by
  unfold clearedAs State.usedOf
  rw [usedBy_congr hg, hg, hc]

/-! ## One die cleared -/

/-- A die's cluster as it bids for its share. -/
def clusterBidder (s : State) (j : Judged) (d b k : Nat) : Bidder :=
  { id := k, bid := s.bidOf j k,
    most := capOf b (b / 512) (ctlOf j k).cap
      (thermal (Config.sensor s.tick k) (dieCtlOf (look 0 j.regs (regDie d))).tlim b) - Config.roundHops * (b / 512) }

/-- What the floors of a die leave of its budget for a round. -/
def sharedPool (j : Judged) (d b : Nat) : Nat :=
  Config.roundHops * (b - b / 512 * ((clustersOf d).filter (judgedIn j)).length)

def clusterShares (s : State) (j : Judged) (d b : Nat) : List (Nat × Nat) :=
  (shareOut (sharedPool j d b) (((clustersOf d).filter (judgedIn j)).map (clusterBidder s j d b))).1

theorem clusterShares_congr {s t : State} (hg : t.groups = s.groups) (hh : t.hop = s.hop) (j : Judged) (d b : Nat) :
    clusterShares t j d b = clusterShares s j d b := by
  unfold clusterShares clusterBidder State.bidOf State.tick
  rw [usedBy_congr hg, hh]

/-- The clearing of some clusters, one after the other. -/
def clearClusters (j : Judged) (f : Nat) (sh : List (Nat × Nat)) (ks : List Nat) (s : State) : State :=
  ks.foldl (fun t cl => t.clearCluster j f sh cl) s

theorem clearClusters_offMarket (j : Judged) (f : Nat) (sh : List (Nat × Nat)) (ks : List Nat) (s : State) :
    offMarket (clearClusters j f sh ks s) = offMarket s :=
  foldl_keeps (r := offMarket) (fun t cl _ => by rw [clearCluster_eq]; rfl) s

theorem clearClusters_die (j : Judged) (f : Nat) (sh : List (Nat × Nat)) (ks : List Nat) (s : State) (d : Nat) :
    (clearClusters j f sh ks s).die d = s.die d :=
  foldl_keeps (r := (State.die · d)) (fun t cl _ => by rw [clearCluster_eq]; rfl) s

theorem clearClusters_look_ne (j : Judged) (f : Nat) (sh : List (Nat × Nat)) {ks : List Nat} {k : Nat} (h : k ∉ ks)
    (s : State) : look none (clearClusters j f sh ks s).clusters k = look none s.clusters k :=
  foldl_keeps (r := fun t => look none t.clusters k)
    (fun t cl hcl => by rw [clearCluster_eq, State.look_setCluster, if_neg (by rintro rfl; exact h hcl)]) s

theorem clearClusters_cluster (j : Judged) (f : Nat) (sh : List (Nat × Nat)) {ks : List Nat} (nd : ks.Nodup) {k : Nat}
    (hk : k ∈ ks) (s : State) : (clearClusters j f sh ks s).cluster k = clearedAs s j f sh k := by
  obtain ⟨u, same, done⟩ := foldl_at (r := fun t => (t.groups, t.cluster k)) (f := fun t cl => t.clearCluster j f sh cl)
    hk nd (fun t cl _ ne => by
      rw [clearCluster_eq, State.cluster_setCluster_ne _ _ _ ne.symm, State.setCluster_groups]) s
  obtain ⟨groups, cluster⟩ := Prod.mk.inj same
  refine (congrArg (·.2) done).trans ?_
  dsimp only
  rw [clearCluster_eq, State.cluster_setCluster_self]
  exact clearedAs_congr groups cluster ..

theorem clearDie_eq (s : State) (j : Judged) (d b : Nat) (clamped : Bool) :
    ∃ x : Die, s.clearDie j d b clamped =
        clearClusters j (b / 512) (clusterShares s j d b) (clustersOf d) (s.setDie d x)
      ∧ x.budget = b ∧ x.floorRate = b / 512 ∧ x.shareSum = ((clusterShares s j d b).map (·.2)).sum := by
  unfold State.clearDie clusterShares sharedPool clusterBidder judgedIn clustersOf clearClusters
  dsimp only
  generalize shareOut _ _ = out
  rw [List.sum_eq_foldl_nat]
  exact ⟨_, rfl, rfl, rfl, rfl⟩

/-- The die d in t is the die d of s, cleared with budget b. -/
structure ClearedDie (s t : State) (j : Judged) (d b : Nat) : Prop where
  budget : (t.die d).budget = b
  floorRate : (t.die d).floorRate = b / 512
  shareSum : (t.die d).shareSum = ((clusterShares s j d b).map (·.2)).sum
  cluster : ∀ k ∈ clustersOf d, t.cluster k = clearedAs s j (b / 512) (clusterShares s j d b) k

theorem clearDie_spec (s : State) (j : Judged) (d b : Nat) (clamped : Bool) :
    ClearedDie s (s.clearDie j d b clamped) j d b := by
  obtain ⟨x, e, hb, hf, hs⟩ := clearDie_eq s j d b clamped
  have die : (s.clearDie j d b clamped).die d = x := by
    rw [e, clearClusters_die, State.die_setDie_self]
  refine ⟨by rw [die, hb], by rw [die, hf], by rw [die, hs], fun k hk => ?_⟩
  rw [e, clearClusters_cluster _ _ _ (nodup_clustersOf d) hk]
  exact clearedAs_congr rfl rfl ..

theorem clearDie_offMarket (s : State) (j : Judged) (d b : Nat) (clamped : Bool) :
    offMarket (s.clearDie j d b clamped) = offMarket s := by
  obtain ⟨x, e, -⟩ := clearDie_eq s j d b clamped
  rw [e, clearClusters_offMarket]
  rfl

theorem clearDie_dieSide_ne (s : State) (j : Judged) {d e : Nat} (b : Nat) (clamped : Bool) (h : d ≠ e) :
    dieSide (s.clearDie j e b clamped) d = dieSide s d := by
  obtain ⟨x, eq, -⟩ := clearDie_eq s j e b clamped
  rw [eq]
  refine dieSide_ext ?_ fun i hi => ?_
  · rw [clearClusters_die, State.die_setDie_ne _ _ _ h]
  · have out : 32 * d + i ∉ clustersOf e := fun member => h (by have := mem_clustersOf.mp member; omega)
    rw [clearClusters_look_ne _ _ _ out, State.setDie_clusters]

theorem cluster_of_dieSide {s t : State} {d k : Nat} (h : dieSide t d = dieSide s d) (hk : k ∈ clustersOf d) :
    t.cluster k = s.cluster k := by
  obtain ⟨i, hi, rfl⟩ := List.mem_map.mp hk
  unfold State.cluster Machine.get
  rw [look_of_dieSide h (List.mem_range.mp hi)]

theorem ClearedDie.congr {s t u v : State} {j : Judged} {d b : Nat} (h : ClearedDie s t j d b)
    (off : offMarket s = offMarket u) (before : dieSide s d = dieSide u d) (after : dieSide v d = dieSide t d) :
    ClearedDie u v j d b := by
  have groups : s.groups = u.groups := congrArg (·.2.1) off
  have hop : s.hop = u.hop := congrArg (·.1) off
  have die : v.die d = t.die d := congrArg (·.1) after
  refine ⟨by rw [die, h.budget], by rw [die, h.floorRate], ?_, fun k hk => ?_⟩
  · rw [die, h.shareSum, clusterShares_congr groups hop]
  · rw [cluster_of_dieSide after hk, h.cluster k hk, clusterShares_congr groups hop,
      clearedAs_congr groups (cluster_of_dieSide before hk)]

/-! ## What a cleared die holds -/

section
variable {s t : State} {j : Judged} {d b k : Nat}

theorem ClearedDie.shareAllot (h : ClearedDie s t j d b) (hk : k ∈ clustersOf d) :
    (t.cluster k).shareAllot = if judgedIn j k then shareOf (clusterShares s j d b) k else 0 := by
  rw [h.cluster k hk]
  rfl

theorem clusterBidder_ids (s : State) (j : Judged) (d b : Nat) (ks : List Nat) :
    (ks.map (clusterBidder s j d b)).map (·.id) = ks := by
  rw [List.map_map]
  exact List.map_id ks

/-- The shares of a die's clusters make up S. -/
theorem ClearedDie.shareSum_eq (h : ClearedDie s t j d b) :
    (t.die d).shareSum = ((clustersOf d).map fun k => (t.cluster k).shareAllot).sum := by
  have shares : ∀ k ∈ clustersOf d, (t.cluster k).shareAllot = shareOf (clusterShares s j d b) k := by
    intro k hk
    rw [h.shareAllot hk]
    split
    · rfl
    · next out =>
      refine (shareOf_shareOut_of_not_mem fun hid => out ?_).symm
      rw [clusterBidder_ids] at hid
      exact (List.mem_filter.mp hid).2
  rw [h.shareSum, List.map_congr_left shares]
  refine (sum_shareOut (nodup_clustersOf d) ?_ fun x hx => ?_).symm
  · rw [clusterBidder_ids]
    exact (nodup_clustersOf d).filter _
  · obtain ⟨k, hk, rfl⟩ := List.mem_map.mp hx
    exact List.mem_of_mem_filter hk

theorem ClearedDie.shareSum_le (h : ClearedDie s t j d b) : (t.die d).shareSum ≤ sharedPool j d b := by
  rw [h.shareSum]
  exact shareOut_sum_le ..

/-- The one cluster of its die with a group and a bid gets all that the floors leave, up to its cap. -/
theorem ClearedDie.shareAllot_lone (h : ClearedDie s t j d b) (hk : k ∈ clustersOf d)
    (lone : (clustersOf d).filter (judgedIn j) = [k]) (bids : s.bidOf j k ≠ 0) :
    (t.cluster k).shareAllot = min (sharedPool j d b) (clusterBidder s j d b k).most := by
  have judged : judgedIn j k = true := (List.mem_filter.mp (lone ▸ List.mem_singleton_self k)).2
  rw [h.shareAllot hk, if_pos judged, clusterShares, lone]
  exact shareOf_shareOut_lone _ (b := clusterBidder s j d b k) bids

end

/-! ## The dies' budgets -/

/-- MODULE_BUDGET in tokens per hop, as the clearing judges it. -/
def moduleTokens (j : Judged) : Nat := tokensOf (look 0 j.regs regBudget).toNat

/-- A die as it bids for the module's budget. -/
def dieBidder (s : State) (j : Judged) (d : Nat) : Bidder :=
  let ceiling := (dieCtlOf (look 0 j.regs (regDie d))).ceiling
  { id := d, bid := ((clustersOf d).map (s.bidOf j)).foldl (· + ·) 0,
    most := max (moduleTokens j / 16) (tokensOf (if ceiling = 0 then s.moduleMax else ceiling)) - moduleTokens j / 16 }

def dieShares (s : State) (j : Judged) : List (Nat × Nat) :=
  (shareOut (moduleTokens j - moduleTokens j / 16 * s.started.length) (s.started.map (dieBidder s j))).1

def dieBudget (s : State) (j : Judged) (d : Nat) : Nat :=
  min (moduleTokens j / 16 + shareOf (dieShares s j) d) 16777215

theorem dieBudgets_eq (s : State) (j : Judged) :
    ∃ cut : Nat → Bool, s.dieBudgets j = s.started.map fun d => (d, dieBudget s j d, cut d) := ⟨_, rfl⟩

theorem started_length_le (s : State) : s.started.length ≤ 4 := by
  simpa [State.started] using List.length_filter_le (fun d => (s.die d).started) (List.range 4)

/-- The budgets of the dies keep within MODULE_BUDGET. -/
theorem dieBudget_sum_le (s : State) (j : Judged) : (s.started.map (dieBudget s j)).sum ≤ moduleTokens j := by
  have ids : (s.started.map (dieBidder s j)).map (·.id) = s.started := by
    rw [List.map_map]
    exact List.map_id _
  have shares : (s.started.map (shareOf (dieShares s j))).sum
      ≤ moduleTokens j - moduleTokens j / 16 * s.started.length :=
    (sum_shareOut (nodup_started s) (by rw [ids]; exact nodup_started s) fun b hb => by
      obtain ⟨d, hd, rfl⟩ := List.mem_map.mp hb
      exact hd).trans_le (shareOut_sum_le ..)
  have bases : moduleTokens j / 16 * s.started.length ≤ moduleTokens j :=
    (Nat.mul_le_mul_left _ ((started_length_le s).trans (by decide))).trans (Nat.div_mul_le_self _ 16)
  calc (s.started.map (dieBudget s j)).sum
      ≤ (s.started.map fun d => moduleTokens j / 16 + shareOf (dieShares s j) d).sum :=
        List.sum_le_sum fun _ _ => Nat.min_le_left ..
    _ = moduleTokens j / 16 * s.started.length + (s.started.map (shareOf (dieShares s j))).sum := by
        rw [List.sum_map_add, List.map_const', List.sum_replicate, smul_eq_mul, Nat.mul_comm]
    _ ≤ moduleTokens j := by omega

/-! ## The clearing -/

/-- What a clearing forgets of a group (R67). -/
def forgotten (g : Group) : Group := { g with drawn := 0, refused := 0 }

def forgottenAway (w : Workgroup) : Workgroup := { w with saved := w.saved.map fun e => (e.1, e.2.map forgotten) }

theorem clearing_eq (s : State) :
    ∃ (cut : Nat → Bool) (used : Nat → Nat) (hot : List Nat),
      let j := s.judged.getD s.judge
      let u := s.started.foldl (fun t d => t.clearDie j d (dieBudget s j d) (cut d)) s
      let v := hot.foldl (fun t cl => t.migrateFrom used cl) u
      s.clearing = { v with
        cleared := true, groups := v.groups.map fun e => (e.1, e.2.map forgotten),
        wgs := v.wgs.map fun e => (e.1, e.2.map forgottenAway) } := by
  obtain ⟨cut, budgets⟩ := dieBudgets_eq s (s.judged.getD s.judge)
  refine ⟨cut, s.usedOf (s.judged.getD s.judge), s.clustersUp.filter fun cl => 8 ≤ (s.cluster cl).overRounds, ?_⟩
  unfold State.clearing
  dsimp only
  rw [budgets, List.foldl_map]
  rfl

/-- A migration stops a workgroup and counts it, and touches no die, cluster or group. -/
theorem migrateFrom_keeps (used : Nat → Nat) (s : State) (cl : Nat) :
    (offMarket (s.migrateFrom used cl), (s.migrateFrom used cl).diesT, (s.migrateFrom used cl).clusters)
      = (offMarket s, s.diesT, s.clusters) := by
  unfold State.migrateFrom
  dsimp only
  split
  · rfl
  · split <;> rfl

theorem look_mapRecords {α : Type} (f : α → α) (m : Sparse (Option α)) (k : Nat) :
    look none (m.map fun e => (e.1, e.2.map f)) k = (look none m k).map f := by
  induction m with
  | nil => rfl
  | cons e m ih =>
    simp only [List.map_cons, look, ih]
    split <;> rfl

/-- A clearing clears each die that has started with its budget, and changes neither the hop nor memory. -/
theorem clearing_dies (s : State) :
    let j := s.judged.getD s.judge
    s.clearing.hop = s.hop ∧ s.clearing.mem = s.mem
    ∧ ∀ d ∈ s.started, ClearedDie s s.clearing j d (dieBudget s j d) := by
  obtain ⟨cut, used, hot, e⟩ := clearing_eq s
  dsimp only at e ⊢
  generalize s.judged.getD s.judge = j at e ⊢
  generalize hu : s.started.foldl (fun t d => t.clearDie j d (dieBudget s j d) (cut d)) s = u at e
  have moved := foldl_keeps (ks := hot) (f := fun t cl => t.migrateFrom used cl)
    (r := fun t => (offMarket t, t.diesT, t.clusters)) (fun t cl _ => migrateFrom_keeps used t cl) u
  obtain ⟨off, rest⟩ := Prod.mk.inj moved
  obtain ⟨dies, clusters⟩ := Prod.mk.inj rest
  have cleared : offMarket u = offMarket s := by
    rw [← hu]
    exact foldl_keeps (fun t d _ => clearDie_offMarket t j d _ (cut d)) s
  refine ⟨?_, ?_, fun d hd => ?_⟩
  · rw [e]
    exact congrArg (·.1) (off.trans cleared)
  · rw [e]
    exact congrArg (·.2.2.1) (off.trans cleared)
  · obtain ⟨v, same, done⟩ := foldl_at (r := fun t => (offMarket t, dieSide t d))
      (f := fun t d => t.clearDie j d (dieBudget s j d) (cut d)) hd (nodup_started s)
      (fun t c _ ne => Prod.ext (clearDie_offMarket ..) (clearDie_dieSide_ne t j _ (cut c) ne.symm)) s
    obtain ⟨offV, sideV⟩ := Prod.mk.inj same
    refine (clearDie_spec v j d (dieBudget s j d) (cut d)).congr offV sideV (Eq.trans ?_ (congrArg (·.2) done))
    rw [hu, e]
    unfold dieSide State.die
    dsimp only
    rw [dies, clusters]

/-- No group that resides is left with tokens drawn or refused. -/
theorem clearing_groups {s : State} {k : Nat} {g : Group} (h : look none s.clearing.groups k = some g) :
    g.drawn = 0 ∧ g.refused = 0 := by
  obtain ⟨cut, used, hot, e⟩ := clearing_eq s
  rw [e, look_mapRecords] at h
  obtain ⟨x, -, rfl⟩ := Option.map_eq_some_iff.mp h
  exact ⟨rfl, rfl⟩

/-- Nor is one that is away. -/
theorem clearing_saved {s : State} {k : Nat} {w : Workgroup} (h : look none s.clearing.wgs k = some w)
    {e : Nat × Option Group} (he : e ∈ w.saved) {g : Group} (hg : e.2 = some g) : g.drawn = 0 ∧ g.refused = 0 := by
  obtain ⟨cut, used, hot, eq⟩ := clearing_eq s
  rw [eq, look_mapRecords] at h
  obtain ⟨x, -, rfl⟩ := Option.map_eq_some_iff.mp h
  obtain ⟨i, -, rfl⟩ := List.mem_map.mp he
  obtain ⟨y, -, rfl⟩ := Option.map_eq_some_iff.mp hg
  exact ⟨rfl, rfl⟩

end Sys2Proof
end

section
/-! PROOFS. The market's steps, put together (R56 to R59, R65, R67 to R72, R402). -/

namespace Sys2Proof

open Machine

/-! ## The steps as equations, and the reservation (R65) -/

theorem exec_reelHop (s : State) : exec .reelHop s = .next (if s.hopReady then s.advance else s) := rfl

theorem exec_marketClearing {s : State} (started : s.started ≠ []) (last : s.lastHop = true) (done : s.hopDone = true)
    (cleared : s.cleared = false) : exec .marketClearing s = .next s.clearing := by
  have some : s.started.isEmpty = false := List.isEmpty_eq_false_iff.mpr started
  show Host.Outcome.next (if !s.started.isEmpty && s.lastHop && s.hopDone && !s.cleared then s.clearing else s) = _
  rw [some, last, done, cleared]
  rfl

theorem exec_operatingPointChange {s : State} {cl : Nat} {c : Cluster} (h : look none s.clusters cl = some c)
    (halted : c.halted = true) :
    exec (.operatingPointChange cl) s = .next (s.setCluster cl { c with
      op := c.nextOp, ratio := c.nextRatio, halted := false, pouch := c.pouch + c.taken, taken := 0 }) := by
  show execOperatingPointChange cl s = _
  unfold execOperatingPointChange
  rw [h]
  dsimp only
  rw [if_pos halted]

/-- An injector after a hop within a round: the word it loaded, and its counts (R58, R74). -/
theorem advance_record {s : State} {d : Nat} (hd : d ∈ s.started) (mid : (s.hop + 1) % Config.roundHops ≠ 0) :
    let x := s.die d
    let y := s.advance.die d
    let loaded := x.loaded ((s.hop + 1) % Config.roundHops)
    let back := x.ring.getD 32 (0, 0)
    y.ring.getD 0 (0, 0) = loaded.1 ∧ y.injected = x.injected + loaded.1.1 + loaded.1.2
    ∧ y.expired = x.expired + back.1 + back.2 ∧ y.lastLoad = loaded.1.1 + loaded.1.2
    ∧ y.didtHeld = (x.didtHeld || loaded.2) := by
  obtain ⟨record, line⟩ := Prod.mk.inj (advance_injector hd mid)
  exact ⟨(Prod.mk.inj line).2, congrArg Die.injected record, congrArg Die.expired record, congrArg Die.lastLoad record,
    congrArg Die.didtHeld record⟩

/-- A station after a hop within a round: the word that goes on, and the cluster (R59). -/
theorem advance_served {s : State} {d i : Nat} {c : Cluster} (hd : d ∈ s.started)
    (mid : (s.hop + 1) % Config.roundHops ≠ 0) (hi : i < 32) (h : look none s.clusters (32 * d + i) = some c) :
    let rate := (s.die d).floorRate
    let word := (s.die d).ring.getD i (0, 0)
    (s.advance.die d).ring.getD (i + 1) (0, 0) = leftWord rate word c
    ∧ s.advance.cluster (32 * d + i) = served rate word c := by
  obtain ⟨word, cluster⟩ := Prod.mk.inj (advance_station hd mid hi h)
  refine ⟨?_, by unfold State.cluster Machine.get; rw [cluster]; rfl⟩
  have die : (32 * d + i) / 32 = d := by omega
  have place : (32 * d + i) % 32 = i := by omega
  rw [wordAt, die, place] at word
  exact word

/-- The request that comes before every other is the one granted (R65). -/
theorem find_first {α : Type} [BEq α] [LawfulBEq α] {before : α → α → Bool} {ws : List α} {w : α} (hw : w ∈ ws)
    (first : ∀ q ∈ ws, q ≠ w → before w q = true ∧ before q w = false) :
    (ws.find? fun r => ws.all fun q => q == r || !before q r) = some w := by
  have stands : (ws.all fun q => q == w || !before q w) = true := List.all_eq_true.mpr fun q hq => by
    by_cases e : q = w
    · simp [e]
    · simp [(first q hq e).2]
  cases h : ws.find? fun r => ws.all fun q => q == r || !before q r with
  | none => exact absurd stands (List.find?_eq_none.mp h w hw)
  | some r =>
    have passed := List.all_eq_true.mp (List.find?_some (p := fun r => ws.all fun q => q == r || !before q r) h) w hw
    by_cases e : r = w
    · rw [e]
    · simp [Ne.symm e, (first r (List.mem_of_find?_eq_some h) e).1] at passed

/-- A free reservation goes to the first request. -/
theorem grantReservation_first {s : State} {cl : Nat} {w : Nat × Nat} (free : (s.cluster cl).reservation = none)
    (hw : w ∈ (s.cluster cl).wanting)
    (first : ∀ q ∈ (s.cluster cl).wanting, q ≠ w → s.wantsBefore w q = true ∧ s.wantsBefore q w = false) :
    s.grantReservation cl =
      (s.setDie (cl / 32) { s.die (cl / 32) with granted := (s.die (cl / 32)).granted + 1 }).setCluster cl
        { s.cluster cl with
          reservation := some w.1, reservedSlot := (((s.part (partOf w.1)).rank).map (·.2)).getD 0,
          wanting := (s.cluster cl).wanting.filter (· != w) } := by
  unfold State.grantReservation
  dsimp only
  rw [free, find_first hw first]
  rfl

/-! ## The obligation -/

/-- Settles O38: a hop by `advance_record` and `advance_served`, a clearing by `clearing_dies` over the sharing loop's
`shareOut_sum_le` and `sum_shareOut`, a reservation by `grantReservation_first`. -/
theorem marketSteps : Obligations.MarketSteps := by
  intro cl c s
  refine ⟨fun ready => ?hop, fun still => ?still, fun started last done cleared => ?clearing, fun hc halted => ?change,
    fun w free hw first => ?reservation⟩
  case hop =>
    obtain ⟨hop, groups, mem, ext⟩ : _ ∧ _ ∧ _ ∧ _ := by
      simpa [offMarket] using advance_offMarket s
    refine ⟨s.advance, by rw [exec_reelHop, ready]; rfl, hop, groups, mem, ext, fun d hd mid => ?_⟩
    obtain ⟨word, injected, expired, lastLoad, held⟩ := advance_record hd mid
    rw [loaded_eq] at word injected lastLoad held
    dsimp only at word injected lastLoad held
    rw [Nat.add_assoc, Nat.add_sub_of_le (Nat.min_le_right ..)] at injected
    rw [Nat.add_sub_of_le (Nat.min_le_right ..)] at lastLoad
    refine ⟨word, injected, expired, lastLoad, held, fun i hi u hu => ?_⟩
    obtain ⟨left, cluster⟩ := advance_served hd mid hi hu
    obtain ⟨floorRem, shareRem⟩ := served_rems (s.die d).floorRate ((s.die d).ring.getD i (0, 0)) u
    dsimp only
    rw [cluster]
    exact ⟨left, floorRem, shareRem, fun run => served_running run .., fun halted => served_halted halted ..⟩
  case still => rw [exec_reelHop, still]; rfl
  case clearing =>
    obtain ⟨hop, mem, dies⟩ := clearing_dies s
    refine ⟨s.clearing, exec_marketClearing started last done cleared, rfl, hop, mem, fun k g h => clearing_groups h,
      fun k w h e he g hg => clearing_saved h he hg, ?_, fun d hd => ?_⟩
    · rw [List.map_congr_left fun d hd => (dies d hd).budget]
      exact dieBudget_sum_le ..
    · have cleared := dies d hd
      dsimp only
      rw [cleared.budget, cleared.floorRate]
      refine ⟨min_le_min_right _ (Nat.le_add_right ..), rfl, cleared.shareSum_eq, cleared.shareSum_le, fun k hk => ?_⟩
      have lone := cleared.shareAllot_lone hk
      rw [cleared.cluster k hk] at lone ⊢
      exact ⟨rfl, rfl, rfl, clearedAs_unjudged, lone, rfl, rfl, rfl⟩
  case change =>
    refine ⟨_, exec_operatingPointChange hc halted, ?_⟩
    simp only [State.cluster_setCluster_self, true_and]
    exact fun k hk => State.cluster_setCluster_ne _ _ _ hk
  case reservation =>
    refine ⟨_, rfl, ?_⟩
    rw [grantReservation_first free hw first]
    simp

end Sys2Proof
end
